-- ==== Sys2Proof/Word.lean ====
section
/-! DEFINITION. The word types of RPE-DSS and their plainest arithmetic (spec/00_scope.md R13: bit 0 is the least
significant bit, `uN` an unsigned and `iN` a two's-complement N-bit integer). -/

namespace Sys2Proof

/-- One byte of the register space, of a FIFO or of a bus frame (R60, R90). -/
abbrev Byte := BitVec 8

/-- A `u32` or the 32-bit interrupt word (R10, R32). -/
abbrev Word := BitVec 32

/-- A non-negative rational `num / (denPred + 1)`: the type R24 gives the operand `timeout_ms`. Negative durations (U6)
are not values of this type (DEDUCED, notes 10). -/
structure NonNegRat where
  num : Nat
  denPred : Nat
  deriving DecidableEq, Repr, Inhabited

/-- The rational a `NonNegRat` stands for. -/
def NonNegRat.val (q : NonNegRat) : ℚ := (q.num : ℚ) / ((q.denPred : ℚ) + 1)

end Sys2Proof
end

