-- ==== Sys2Proof/Syntax.lean ====
section
/-! DEFINITION. The syntax of RPE-DSS: the value objects of spec/10_state.md R30 to R44 and one constructor of `Instr`
for each of the 46 rows of spec/opcode_table.json (24 block operations, R96; 22 bus transaction forms, R92 and R93). -/

namespace Sys2Proof

/-- Frequency band (R22); `invalid` is the spec's name for "undefined/invalid". -/
inductive Band where
  | veryLow | low | middle | high | invalid
  deriving DecidableEq, Repr, Inhabited

/-- Device Operating State (R43). -/
inductive DevState where
  | shutdown | standby | sleep | ready | lock | rx | tx | invalid
  deriving DecidableEq, Repr, Inhabited

/-- Interrupt events (R44): the four the source names by their use, and the other members of the one 32-bit layout,
whose names the spec leaves to the parameter `EVENT_BIT`. -/
inductive Event where
  | txDataSent | rxDataReady | rxDataDisc | rxTimeout
  | other (n : Fin 28)
  deriving DecidableEq, Repr, Inhabited

/-- Modulation kinds (R41): an opaque enumeration with at least the member `Fsk2` (N12). -/
inductive Modulation where
  | fsk2
  | other (n : Nat)
  deriving DecidableEq, Repr, Inhabited

/-- CRC modes (R42): an enumeration with at least a "no CRC" member. -/
inductive CrcMode where
  | noCrc
  | other (n : Nat)
  deriving DecidableEq, Repr, Inhabited

/-- Packet length mode (R42). -/
inductive LengthMode where
  | fixed | variable
  deriving DecidableEq, Repr, Inhabited

/-- Radio Init Options (R41). -/
structure RadioInitOptions where
  xtalOffsetPpm : BitVec 16
  channelSpacing : Word
  channelNumber : Byte
  modulation : Modulation
  dataRate : Word
  freqDev : Word
  bandwidth : Word
  deriving DecidableEq, Repr, Inhabited

/-- Options of the Basic packet format (R42); the widths of the three lengths are not in the source (N20). -/
structure BasicOptions where
  crcMode : CrcMode
  addressField : Bool
  controlLen : Nat
  preambleLen : Nat
  syncLen : Nat
  lengthMode : LengthMode
  sync0 : Byte
  sync1 : Byte
  sync2 : Byte
  sync3 : Byte
  deriving DecidableEq, Repr, Inhabited

/-- Packet Configuration (R42): the options of WMBus and STack are carried but never read. The spec gives them no type, and a
byte list stands for each (DESIGN CHOICE, notes 44). -/
inductive PacketConfig where
  | basic (o : BasicOptions)
  | wmbus (options : List Byte)
  | stack (options : List Byte)
  deriving DecidableEq, Repr, Inhabited

/-- Filter Options (R42). -/
structure FilterOptions where
  destVsMy : Bool
  destVsMulticast : Bool
  destVsBroadcast : Bool
  my : Byte
  multicast : Byte
  broadcast : Byte
  deriving DecidableEq, Repr, Inhabited

/-- Register kinds (R30 to R39). `PA_POWER[slot]` is a kind for every slot byte, those above `PA_SLOT_MAX` too, of which the
spec says nothing (DESIGN CHOICE, notes 43). -/
inductive Kind where
  | mcState | irqMask | irqStatus | rxFifoStatus
  | synthConfig | clkdivCtrl | fcOffset | chspace | ifOffsetDig | datarate | fdev | chflt | ifOffsetAna
  | freqSelect | chnum | afc
  | pcktlen | paConfig
  | pcktFltOptions | pcktctrl | sync | fltAddr
  | rssiTh | rxTimeout
  | paPower (slot : Byte)
  deriving DecidableEq, Repr, Inhabited

/-- The named fields of the kinds (R31 to R39). -/
inductive Field where
  | state | count | splitTime | pdClkdiv | value | algEnable | mantissa | exponent | modulation | flag | freezeOnSync
  | length | cwc | autoFiltering | crcCheck | destVsMy | destVsMulticast | destVsBroadcast
  | addressField | controlLen | preambleLen | syncLen | lengthMode | format
  | my | multicast | broadcast | counter | prescaler
  deriving DecidableEq, Repr, Inhabited

/-- What a named field may hold. Codes of enumerated fields are the codec's (R30), so they stay symbolic here; of the
packet formats the block writes only Basic (R226), and a read may find another. -/
inductive FieldVal where
  | num (n : Nat)
  | flag (b : Bool)
  | modulation (m : Modulation)
  | lengthMode (m : LengthMode)
  | basicFormat
  | otherFormat (n : Nat)
  | state (st : DevState)
  deriving DecidableEq, Repr, Inhabited

/-- A decoded value of a register kind (R64): an interrupt word (R32), or a record given by the register's bytes `base`, most
significant first, in which the named fields `fields` hold the given values (R30: fields the source does not name exist
and the codec knows them). A read gives every named field of the kind its decoded value; a write need name only the fields
it changes in `base`. -/
inductive KindVal where
  | word (w : Word)
  | record (base : List Byte) (fields : List (Field × FieldVal))
  deriving DecidableEq, Repr, Inhabited

/-- The 17 one-byte commands (R93). -/
inductive Command where
  | tx | rx | ready | standby | sleep | lockRx | lockTx | sabort | ldcReload | sequenceUpdate
  | aesEncrypt | aesKey | aesDecrypt | aesKeyDecrypt | sRes | flushRxFifo | flushTxFifo
  deriving DecidableEq, Repr, Inhabited

/-- The instructions: one constructor per row of spec/opcode_table.json, with the operand latches of R24. -/
inductive Instr where
  -- calculators (R121 to R150)
  | bandResolve (baseHz : Word)
  | encDatarate (targetBps : Word) (clockDivided : Bool) (crystalHz : Word)
  | encFdev (targetHz : Word) (crystalHz : Word)
  | encChflt (targetHz : Word) (clockDivided : Bool) (crystalHz : Word)
  | encRssiTh (dbm : BitVec 32)
  | encRxTimeout (timeoutMs : NonNegRat) (crystalHz : Word)
  | encPaDbm (slot : Byte) (dbm : ℚ) (baseHz : Word)
  | encFoffset (xtalOffsetPpm : BitVec 16) (baseHz : Word) (crystalHz : Word)
  | encChspace (spacingHz : Word) (crystalHz : Word)
  | encIfOffset (crystalHz : Word)
  -- device sequencer (R171 to R174)
  | init (opts : RadioInitOptions)
  | waExtraCurrent
  | waitForState (target : DevState)
  -- TX/RX engine (R191 to R194)
  | txBlocking (payload : List Byte)
  | rxBlocking
  | strobeRx
  -- IRQ manager (R210 to R215)
  | irqSilence
  | irqClear
  | irqMaskNew
  | irqMaskSet (event : Event)
  | irqMaskCommit
  | irqIsSet (word : Word) (event : Event)
  -- packet configurator (R226 to R228)
  | pktConfigure (cfg : PacketConfig)
  | pktConfigureFilter (flt : FilterOptions)
  -- bus data transactions (R235 to R239)
  | write (k : Kind) (v : KindVal)
  | writeRaw (a : Byte) (bytes : List Byte)
  | read (k : Kind)
  | readRaw (a : Byte) (n : Nat)
  | delay (ms : Word)
  -- commands (R240 to R256)
  | tx
  | rx
  | ready
  | standby
  | sleep
  | lockRx
  | lockTx
  | sabort
  | ldcReload
  | sequenceUpdate
  | aesEncrypt
  | aesKey
  | aesDecrypt
  | aesKeyDecrypt
  | sRes
  | flushRxFifo
  | flushTxFifo
  deriving DecidableEq, Repr, Inhabited

/-- The names of the operations and transaction forms, without their operands: the `op` of `pc = (op, step)` (R27). -/
inductive Op where
  | bandResolve | encDatarate | encFdev | encChflt | encRssiTh | encRxTimeout | encPaDbm | encFoffset | encChspace
  | encIfOffset | init | waExtraCurrent | waitForState | txBlocking | rxBlocking | strobeRx
  | irqSilence | irqClear | irqMaskNew | irqMaskSet | irqMaskCommit | irqIsSet | pktConfigure | pktConfigureFilter
  | write | writeRaw | read | readRaw | delay | command (c : Command)
  deriving DecidableEq, Repr, Inhabited

/-- The operand latches of the request port (R24), one per operand name, and below them the arguments of a host's own
Bus Port call (R235 to R239). `kind` is what tells a typed call from a raw one with the same frame (R92). -/
structure Operands where
  baseHz : Word := 0
  targetBps : Word := 0
  clockDivided : Bool := false
  crystalHz : Word := 0
  targetHz : Word := 0
  rssiDbm : BitVec 32 := 0
  timeoutMs : NonNegRat := ⟨0, 0⟩
  slot : Byte := 0
  paDbm : ℚ := 0
  xtalOffsetPpm : BitVec 16 := 0
  spacingHz : Word := 0
  opts : RadioInitOptions := ⟨0, 0, 0, .fsk2, 0, 0, 0⟩
  target : DevState := .shutdown
  payload : List Byte := []
  event : Event := .txDataSent
  word : Word := 0
  cfg : PacketConfig := .basic ⟨.noCrc, false, 0, 0, 0, .fixed, 0, 0, 0, 0⟩
  flt : FilterOptions := ⟨false, false, false, 0, 0, 0⟩
  kind : Option Kind := none
  value : KindVal := .record [] []
  bytes : List Byte := []
  count : Nat := 0
  ms : Word := 0
  deriving DecidableEq, Repr, Inhabited

/-- The bits of an instruction: a request selector (R95), the two header bytes of a bus frame (R90), or no frame at all,
which is a call of the delay capability (R239). -/
inductive Header where
  | req (op : BitVec 8)
  | frame (sel : Byte) (addr : Byte)
  | noFrame
  deriving DecidableEq, Repr, Inhabited

/-- One thing the host presents: the bits and, beside them, the operands at their own widths (R95). -/
structure Presented where
  header : Header
  operands : Operands
  deriving DecidableEq, Repr, Inhabited

end Sys2Proof
end

