-- ==== Sys2Proof/WellFormed.lean ====
section
/-! DEFINITION. Well-formedness of instructions: what the types of `Instr` leave open. Every operand of R24 is admitted at
every value of its type (an out-of-range operand is a matter for the operation's own checks, R273); only a typed WRITE can
be malformed, when its value is no value of its kind (R236). -/

namespace Sys2Proof

/-- The named fields of a kind (R31 to R39). The interrupt words and `SYNC` are four bytes with no named field. -/
def Kind.fields : Kind → List Field
  | .irqMask | .irqStatus | .sync => []
  | .mcState => [.state]
  | .rxFifoStatus => [.count]
  | .synthConfig => [.splitTime]
  | .clkdivCtrl => [.pdClkdiv]
  | .fcOffset | .chspace | .ifOffsetAna | .chnum | .rssiTh | .paPower _ => [.value]
  | .ifOffsetDig => [.value, .algEnable]
  | .datarate => [.mantissa, .exponent, .modulation]
  | .fdev | .chflt => [.mantissa, .exponent]
  | .freqSelect => [.flag]
  | .afc => [.freezeOnSync]
  | .pcktlen => [.length]
  | .paConfig => [.cwc]
  | .pcktFltOptions => [.autoFiltering, .crcCheck, .destVsMy, .destVsMulticast, .destVsBroadcast]
  | .pcktctrl => [.addressField, .controlLen, .preambleLen, .syncLen, .lengthMode, .format]
  | .fltAddr => [.my, .multicast, .broadcast]
  | .rxTimeout => [.counter, .prescaler]

/-- The shape of value a kind takes: a word for the interrupt words (R32), a record for every other kind. -/
def Kind.takesShape : Kind → KindVal → Bool
  | .irqMask, .word _ | .irqStatus, .word _ => true
  | .irqMask, _ | .irqStatus, _ => false
  | _, .record _ _ => true
  | _, _ => false

/-- What a field may be given (R31 to R39): a bool for the flags, a member for the enumerations, a number for the rest, which
its construction fits to the field's width (R65). -/
def Field.takes : Field → FieldVal → Bool
  | .pdClkdiv, .flag _ | .algEnable, .flag _ | .flag, .flag _ | .freezeOnSync, .flag _ | .autoFiltering, .flag _
  | .crcCheck, .flag _ | .destVsMy, .flag _ | .destVsMulticast, .flag _ | .destVsBroadcast, .flag _
  | .addressField, .flag _ => true
  | .modulation, .modulation _ | .lengthMode, .lengthMode _ | .format, .basicFormat | .format, .otherFormat _
  | .state, .state _ => true
  | .count, .num _ | .splitTime, .num _ | .value, .num _ | .mantissa, .num _ | .exponent, .num _ | .length, .num _
  | .cwc, .num _ | .controlLen, .num _ | .preambleLen, .num _ | .syncLen, .num _ | .my, .num _ | .multicast, .num _
  | .broadcast, .num _ | .counter, .num _ | .prescaler, .num _ => true
  | _, _ => false

/-- The named fields a value gives are fields of the kind, none twice, each with a value of its type (R30, R38, R64). -/
def Kind.ownsFields (k : Kind) : KindVal → Bool
  | .record _ fs =>
    fs.all (fun f => k.fields.contains f.1 && f.1.takes f.2) && decide ((fs.map Prod.fst).Nodup)
  | _ => true

/-- Whether a value is one of kind `k`, "a full value of `k`" (R236), wide numbers apart. -/
def Kind.accepts (k : Kind) (v : KindVal) : Bool := k.takesShape v && k.ownsFields v

/-- Well-formed instructions. A WRITE of a value that is none of its kind is not; what becomes of it is its meaning's affair
(`constructValue`). -/
def Instr.wf : Instr → Bool
  | .write k v => k.accepts v
  | .bandResolve _ | .encDatarate _ _ _ | .encFdev _ _ | .encChflt _ _ _ | .encRssiTh _ | .encRxTimeout _ _
  | .encPaDbm _ _ _ | .encFoffset _ _ _ | .encChspace _ _ | .encIfOffset _ | .init _ | .waExtraCurrent
  | .waitForState _ | .txBlocking _ | .rxBlocking | .strobeRx | .irqSilence | .irqClear | .irqMaskNew | .irqMaskSet _
  | .irqMaskCommit | .irqIsSet _ _ | .pktConfigure _ | .pktConfigureFilter _ | .writeRaw _ _ | .read _ | .readRaw _ _
  | .delay _ | .tx | .rx | .ready | .standby | .sleep | .lockRx | .lockTx | .sabort | .ldcReload | .sequenceUpdate
  | .aesEncrypt | .aesKey | .aesDecrypt | .aesKeyDecrypt | .sRes | .flushRxFifo | .flushTxFifo => true

end Sys2Proof
end

