-- ==== Sys2Proof/Config.lean ====
section
/-! DEFINITION. What the spec leaves to the implementation (spec/00_scope.md R12, spec/93_implementation_defined.md).
`Params` holds the parameters that are plain data; State carries one `Params`, which nothing ever writes, so that every
statement about all states is a statement about all parameter values. The `opaque` constants are the parameters that are
functions (equations) and the free values: no proof can see what they are. -/

namespace Sys2Proof

/-- A raw calibration location and its byte (R36, R37). -/
structure RawByte where
  addr : Byte
  byte : Byte
  deriving DecidableEq, Repr, Inhabited

/-- How a calculator brings an out-of-range integer into its field: R151, U4, "either clamp or wrap". -/
inductive Limit where
  | clamp | wrap
  deriving DecidableEq, Repr, Inhabited

/-- Where the codec keeps a named field (R30): the places of its bits in the register, least significant first (place 0 is
bit 0 of the register's least significant byte); whether a number too wide for them is rejected or clamped (R65, U12);
and, for an enumerated field, the codes of its members in the order of the enumeration (R274). A field with such codes is
enumerated, whichever it is (which fields are is the codec's, R274). -/
structure FieldInfo where
  bits : List Nat
  rejects : Bool
  codes : List Nat
  deriving DecidableEq, Repr, Inhabited

/-- An enumerated field that the source does not name (R30, R34): its places and the codes of its members. -/
structure TagInfo where
  bits : List Nat
  codes : List Nat
  deriving DecidableEq, Repr, Inhabited

/-- One transaction of a field update that goes out in several (U1): a read, or a write, of `len` bytes of the kind from
byte `first` on, counted in bus order. -/
structure Transfer where
  read : Bool
  first : Nat
  len : Nat
  deriving DecidableEq, Repr, Inhabited

/-- What the codec fixes for one kind (R30): `ADDR`, `LEN`, `ENDIAN`, whether `RegSet` reads first (`RMW`, R66), whether a
decode failure comes with the offending code (R271), the field layout, and its grouping (U1): the transactions of a
`RegSet`, in order, where it goes out in several; none listed is one write, or one read and one write with `RMW`. -/
structure KindInfo where
  addr : Nat
  len : Nat
  bigEndian : Bool
  rmw : Bool
  suppliesCode : Bool
  fields : List (Field × FieldInfo)
  tags : List TagInfo
  transfers : List Transfer
  deriving DecidableEq, Repr, Inhabited

/-- One row of the PA coefficient table, as `(m, q)` for the up, mid and low segments (R144, D13). -/
structure PaRow where
  mUp : ℚ
  qUp : ℚ
  mMid : ℚ
  qMid : ℚ
  mLow : ℚ
  qLow : ℚ
  deriving DecidableEq, Repr, Inhabited

/-- The linear segment of the PA line (R146). -/
inductive Segment where
  | up | mid | low
  deriving DecidableEq, Repr, Inhabited

/-- The implementation parameters of R12 that are plain data, and the two configuration straps of R9. -/
structure Params where
  /-- the crystal frequency strap (R9, R21) -/
  xtalStrap : Word
  /-- the base carrier frequency strap (R9, R21) -/
  baseStrap : Word
  /-- `VL_MIN`, `VL_MAX`: bounds of the VeryLow band -/
  vlMin : Nat
  vlMax : Nat
  /-- `DR_M_BITS`, `DR_E_BITS` -/
  drMBits : Nat
  drEBits : Nat
  /-- `BW_TABLE[0..89]` and `BW_UNIT_HZ`; the entries need not be whole numbers (R128) -/
  bwTable : List ℚ
  bwUnitHz : ℚ
  /-- `PA_COEFF[0..4]` and `PA_SLOT_MAX` -/
  paCoeff : List PaRow
  paSlotMax : Nat
  /-- clamp or wrap, for FC offset, channel spacing, analog and digital IF offset (R151, U4) -/
  fcLimit : Limit
  chspaceLimit : Limit
  ifAnaLimit : Limit
  ifDigLimit : Limit
  /-- the codec's facts about each kind, in the order of `Kind.index`; `ALG_EN_FIELD` is the place it gives to the field
  `alg_enable` of `IF_OFFSET_DIG` (R34, G11) -/
  kinds : List KindInfo
  /-- `STATE_CODE`, as pairs of a code and the state it stands for -/
  stateCodes : List (Nat × DevState)
  /-- `EVENT_BIT`, in the order of `Event.index` -/
  eventBits : List Nat
  /-- `SPLIT_TIME_SET` -/
  splitTimeSet : Nat
  /-- `TX_CWC` for the High band, and for the bands below it; `RX_CWC` -/
  txCwcHigh : Nat
  txCwcLow : Nat
  rxCwc : Nat
  txVcoBuf : RawByte
  txPmTrim : RawByte
  rxPmTrim : RawByte
  /-- `WA_EC[0..2]` -/
  waEc0 : RawByte
  waEc1 : RawByte
  waEc2 : RawByte
  /-- `WA_SETTLE_MS`, `POLL_DELAY_MS`: any number of milliseconds, not bounded by the `u32` of `delay_ms` (DESIGN CHOICE,
  notes 45) -/
  waSettleMs : Nat
  pollDelayMs : Nat
  /-- `POLL_LIMIT` and `RX_RETRY_LIMIT`; `none` is `unbounded` -/
  pollLimit : Option Nat
  rxRetryLimit : Option Nat
  deriving DecidableEq, Repr, Inhabited

/-- The place of a kind in `Params.kinds`. -/
def Kind.index : Kind → Nat
  | .mcState => 0 | .irqMask => 1 | .irqStatus => 2 | .rxFifoStatus => 3
  | .synthConfig => 4 | .clkdivCtrl => 5 | .fcOffset => 6 | .chspace => 7 | .ifOffsetDig => 8 | .datarate => 9
  | .fdev => 10 | .chflt => 11 | .ifOffsetAna => 12 | .freqSelect => 13 | .chnum => 14 | .afc => 15
  | .pcktlen => 16 | .paConfig => 17 | .pcktFltOptions => 18 | .pcktctrl => 19 | .sync => 20 | .fltAddr => 21
  | .rssiTh => 22 | .rxTimeout => 23
  | .paPower slot => 24 + slot.toNat

/-- The place of an event in `Params.eventBits`. -/
def Event.index : Event → Nat
  | .txDataSent => 0 | .rxDataReady => 1 | .rxDataDisc => 2 | .rxTimeout => 3
  | .other n => 4 + n.val

namespace Config

/-! ### The installed parameters -/

/-- The parameters of the implementation at hand, before `Params.legalise`. Parameter of R12: any value
(DESIGN CHOICE, notes 1). -/
opaque installed : Params

/-! ### Parameters that are functions (R12) -/

/-- `DR_EQ(f_clk, M, E)`: the chip's data-rate equation (R122, N3). -/
opaque drEq : ℚ → Nat → Nat → ℚ

/-- `EQ_FC_OFFSET(offset_hz, crystal_hz)` (R147, N7). -/
opaque eqFcOffset : Int → Nat → ℚ

/-- `EQ_CHSPACE(spacing_hz, crystal_hz)` (R149, N7). -/
opaque eqChspace : Nat → Nat → ℚ

/-- `EQ_IF_ANA(crystal_hz)` (R150, N7). -/
opaque eqIfAna : Nat → ℚ

/-- `EQ_IF_DIG(crystal_hz)` (R150, N7). -/
opaque eqIfDig : Nat → ℚ

/-- `PA_SEGMENT(row, dbm)` (R146, N6). -/
opaque paSegment : Nat → ℚ → Segment

/-- The TX FIFO after a write that it has no room for: what the chip makes of the bytes held and the bytes written
(U10, R308; notes 14). -/
opaque overfilled : List Byte → List Byte → List Byte

/-! ### Free values -/

/-- The choice among equal minimisers of ENC_DATARATE (R123 (a), U2; notes 21). -/
opaque datarateTie : Nat → Bool → Nat → Nat

/-- Whether ENC_CHFLT moves to entry `i` on an equal delta (R127, R129 (d), U3; notes 21). -/
opaque chfltMove : Nat → Bool → Nat → Nat → Bool

/-- The index ENC_CHFLT gives for `crystal_hz = 0`, where R152 leaves the result unspecified (U5; DESIGN CHOICE, notes 8). -/
opaque chfltNoCrystal : Nat → Bool → Nat

/-- The result ENC_RX_TIMEOUT gives for `crystal_hz = 0`, where R152 leaves the result unspecified (U5; DESIGN CHOICE, notes 8). -/
opaque rxTimeoutNoCrystal : NonNegRat → Byte × Byte

/-- The register-space byte the chip holds where nothing has been transferred since its power-up (R302, N2, U11; notes 5). -/
opaque powerUpByte : Nat → Byte

/-- The pair `(offset_hz, fc_offset)` ENC_FOFFSET gives for `crystal_hz = 0`, where R152 leaves the result unspecified (U5;
DESIGN CHOICE, notes 8). -/
opaque foffsetNoCrystal : BitVec 16 → Nat → BitVec 64 × BitVec 12

/-- The chip's hidden state when the handle is created (R302, N2; notes 5). -/
opaque powerUpTxFifo : List Byte
opaque powerUpRxFifo : List Byte
opaque powerUpStateCode : Nat
opaque powerUpPending : Word

/-- Byte `i` of a read of the RX FIFO beyond what the FIFO holds (U10), fresh for each value of the counter (DESIGN CHOICE,
notes 14). -/
opaque missingFifoByte : Nat → Nat → Byte

/-- Byte `i` of a raw read of several bytes outside the FIFO, for `i` above 0, where the source does not say which addresses
the later bytes come from (R237, N19), fresh for each value of the counter (DESIGN CHOICE, notes 12). -/
opaque laterByte : Nat → Nat → Byte

/-- The content of a result latch after an error (R25, U7), fresh for each value of the counter; the second argument of
`freeByte` tells the latches of one operation apart (notes 9). -/
opaque freeBand : Nat → Band
opaque freeByte : Nat → Nat → Byte
opaque freeBytes : Nat → List Byte
opaque freeValue : Nat → KindVal
opaque freeState : Nat → DevState

/-- `RXBUF` after an RX_BLOCKING that ended with an error, from what it held (R25, U7; DESIGN CHOICE, notes 29), fresh for each
value of the counter. -/
opaque freeRxbuf : Nat → List Byte → List Byte

/-- The code that stands for a member of an enumeration to which the codec gives none (R43, N12; notes 28). -/
opaque uncodedMember : Field → Nat → Nat


end Config

end Sys2Proof
end

