-- ==== Sys2Proof/Machine/Codec.lean ====
section
/-! DEFINITION. The register codec (spec/10_state.md R30 to R39, spec/20_memory.md R64, R65): what the parameters say of a
kind, of its fields and of an event, how a field is read from and put into register bytes, and which parameter sets the
spec allows. -/

namespace Sys2Proof

/-! ### What the parameters say of a kind, a field, an event -/

/-- The codec's facts about kind `k`. -/
def Params.kindInfo (p : Params) (k : Kind) : KindInfo := p.kinds.getD k.index ⟨0, 1, true, false, false, [], [], []⟩

/-- Where the codec keeps field `f` of kind `k`. -/
def Params.fieldInfo (p : Params) (k : Kind) (f : Field) : FieldInfo :=
  ((p.kindInfo k).fields.lookup f).getD ⟨[], false, []⟩

/-- The width of field `f` of kind `k` in bits. -/
def Params.fieldWidth (p : Params) (k : Kind) (f : Field) : Nat := (p.fieldInfo k f).bits.length

/-- `LEN(k)`: 4 for the interrupt words and SYNC, 3 for FLT_ADDR (R32, R38, R70), the codec's for every other kind. -/
def Params.kindLen (p : Params) : Kind → Nat
  | .irqMask | .irqStatus | .sync => 4
  | .fltAddr => 3
  | k => (p.kindInfo k).len

/-- `ADDR(k)` (R30). -/
def Params.kindAddr (p : Params) (k : Kind) : Nat := (p.kindInfo k).addr

/-- `ENDIAN(k)`: most significant byte first for the interrupt words (R68 (c)), list order for SYNC (D32), the codec's
for every other kind. -/
def Params.kindBig (p : Params) : Kind → Bool
  | .irqMask | .irqStatus | .sync => true
  | k => (p.kindInfo k).bigEndian

/-- The fields whose values the source gives as members of an enumeration, "tagged-fields" (R41, R42, R64); the operating state
is not one, because its decode is total (R43). The codec may make any other field of a record one as well (R274). -/
def Field.isEnumerated : Field → Bool
  | .modulation | .lengthMode | .format => true
  | _ => false

/-- The enumerated fields of kind `k`: the named ones, which are those above and those to which the codec gives member codes,
then the ones the source does not name. None in the operating state, the interrupt words and the FIFO count (R274), nor in
SYNC and FLT_ADDR, whose bytes are plain (R38; DEDUCED, notes 17). -/
def Params.kindTags (p : Params) : Kind → List TagInfo
  | .mcState | .irqMask | .irqStatus | .rxFifoStatus | .sync | .fltAddr => []
  | k =>
    (k.fields.filter fun f => f.isEnumerated || !(p.fieldInfo k f).codes.isEmpty).map
      (fun f => ⟨(p.fieldInfo k f).bits, (p.fieldInfo k f).codes⟩) ++ (p.kindInfo k).tags

/-- Whether a typed read of `k` can fail to decode (R274). -/
def Params.canFail (p : Params) (k : Kind) : Bool := !(p.kindTags k).isEmpty

/-- `EVENT_BIT(e)` (R44). -/
def Params.eventBit (p : Params) (e : Event) : Nat := p.eventBits.getD e.index 0

/-! ### Bits of register bytes (R13, R30) -/

/-- The bit at place `j` of register bytes given most significant byte first: bit `j mod 8` of byte `j / 8` from the end. -/
def bitAt (bs : List Byte) (j : Nat) : Bool :=
  if j < 8 * bs.length then (bs.getD (bs.length - 1 - j / 8) 0).getLsbD (j % 8) else false

/-- A byte with bit `i` replaced. -/
def byteWithBit (x : Byte) (i : Nat) (b : Bool) : Byte :=
  if b then x ||| ((1 : Byte) <<< i) else x &&& ~~~((1 : Byte) <<< i)

/-- Register bytes with the bit at place `j` replaced. -/
def setBit (bs : List Byte) (j : Nat) (b : Bool) : List Byte :=
  if j < 8 * bs.length then
    bs.set (bs.length - 1 - j / 8) (byteWithBit (bs.getD (bs.length - 1 - j / 8) 0) (j % 8) b)
  else bs

/-- The number that stands at the given places, the first place being its least significant bit. -/
def codeAt : List Nat → List Byte → Nat
  | [], _ => 0
  | j :: js, bs => (bitAt bs j).toNat + 2 * codeAt js bs

/-- Register bytes with a number put at the given places; what does not fit in them is lost. -/
def putCode : List Nat → Nat → List Byte → List Byte
  | [], _, bs => bs
  | j :: js, c, bs => putCode js (c / 2) (setBit bs j (decide (c % 2 = 1)))

/-! ### Field values and their codes (R30, R43, R64) -/

/-- Member number `n` of the enumeration of a tagged field. -/
def Field.member : Field → Nat → FieldVal
  | .modulation, 0 => .modulation .fsk2
  | .modulation, n + 1 => .modulation (.other n)
  | .lengthMode, 0 => .lengthMode .fixed
  | .lengthMode, _ + 1 => .lengthMode .variable
  | .format, 0 => .basicFormat
  | .format, n + 1 => .otherFormat n
  | _, n => .num n

/-- The number of a member in its enumeration; 0 for a value of another sort. -/
def FieldVal.memberIndex : FieldVal → Nat
  | .modulation .fsk2 | .lengthMode .fixed | .basicFormat => 0
  | .modulation (.other n) => n + 1
  | .lengthMode .variable => 1
  | .otherFormat n => n + 1
  | .num _ | .flag _ | .state _ => 0

/-- The code of an operating state, if `STATE_CODE` gives it one (R43, G9). -/
def Params.stateCode (p : Params) (st : DevState) : Option Nat := (p.stateCodes.find? (fun c => c.2 == st)).map Prod.fst

/-- `decode_state` (R97 (f), R257): a code that is none of the seven decodes to `Invalid`. -/
def decodeState (p : Params) (code : Nat) : DevState := (p.stateCodes.lookup code).getD .invalid

/-- The code a value has in field `f` of kind `k`; a member without a code has a free one (DESIGN CHOICE, notes 28). -/
def fieldCode (p : Params) (k : Kind) (f : Field) : FieldVal → Nat
  | .num n => n
  | .flag b => b.toNat
  | .state st => (p.stateCode st).getD (Config.uncodedMember f 0)
  | v => (p.fieldInfo k f).codes.getD v.memberIndex (Config.uncodedMember f v.memberIndex)

/-- The value a code stands for in field `f` of kind `k`; none if the field is enumerated and the code no member's (R64). -/
def codeValue (p : Params) (k : Kind) (f : Field) (code : Nat) : Option FieldVal :=
  match f with
  | .modulation | .lengthMode | .format =>
    if (p.fieldInfo k f).codes.contains code then some (f.member ((p.fieldInfo k f).codes.idxOf code)) else none
  | .state => some (.state (decodeState p code))
  | .pdClkdiv | .algEnable | .flag | .freezeOnSync | .autoFiltering | .crcCheck | .destVsMy | .destVsMulticast
  | .destVsBroadcast | .addressField => some (.flag (decide (code % 2 = 1)))
  | .count | .splitTime | .value | .mantissa | .exponent | .length | .cwc | .controlLen | .preambleLen | .syncLen
  | .my | .multicast | .broadcast | .counter | .prescaler => some (.num code)

/-- The value of field `f` of kind `k` in register bytes given most significant byte first (R64). -/
def fieldValue (p : Params) (k : Kind) (f : Field) (bs : List Byte) : Option FieldVal :=
  codeValue p k f (codeAt (p.fieldInfo k f).bits bs)

/-- The named fields with their values (R16, R64). -/
def namedFields (p : Params) (k : Kind) (bs : List Byte) : List (Field × FieldVal) :=
  k.fields.filterMap fun f => (fieldValue p k f bs).map fun v => (f, v)

/-- The first code that stands in one of the given enumerated fields and is no member of its enumeration, if any. -/
def badCodeAmong (tags : List TagInfo) (bs : List Byte) : Option Nat :=
  (tags.find? fun t => !t.codes.contains (codeAt t.bits bs)).map fun t => codeAt t.bits bs

/-- The first such code in the enumerated fields of kind `k`: this is the predicate by which `decode_k` fails (R274). -/
def badCode (p : Params) (k : Kind) (bs : List Byte) : Option Nat := badCodeAmong (p.kindTags k) bs

/-! ### A part of a register (U1) -/

/-- The items at the bytes that a transaction on a part of a kind moves. -/
def Transfer.part {α : Type} (x : Transfer) (l : List α) : List α := (l.drop x.first).take x.len

/-- The byte, counted in bus order, in which place `j` of kind `k` lies (R13, R68). -/
def Params.busByte (p : Params) (k : Kind) (j : Nat) : Nat := if p.kindBig k then p.kindLen k - 1 - j / 8 else j / 8

/-- The enumerated fields that lie wholly in the part of kind `k` that `x` moves. -/
def Params.partTags (p : Params) (k : Kind) (x : Transfer) : List TagInfo :=
  (p.kindTags k).filter fun g => g.bits.all fun j => decide (x.first ≤ p.busByte k j ∧ p.busByte k j < x.first + x.len)

/-- The code a named field is given with a value: a field that holds the value already keeps its code, which for an operating
state that decoded to `Invalid` no table gives back (R65). -/
def codeToPut (p : Params) (k : Kind) (x : Field × FieldVal) (bs : List Byte) : Nat :=
  if fieldValue p k x.1 bs = some x.2 then codeAt (p.fieldInfo k x.1).bits bs else fieldCode p k x.1 x.2

/-- Register bytes with one named field given a value. -/
def putField (p : Params) (k : Kind) (x : Field × FieldVal) (bs : List Byte) : List Byte :=
  putCode (p.fieldInfo k x.1).bits (codeToPut p k x bs) bs

/-- Register bytes with named fields given new values, every other bit kept (R66). -/
def putFields (p : Params) (k : Kind) : List (Field × FieldVal) → List Byte → List Byte
  | [], bs => bs
  | x :: fs, bs => putFields p k fs (putField p k x bs)

/-! ### The parameter sets the spec allows -/

/-- Every kind, in the order of `Kind.index`. -/
def allKinds : List Kind :=
  [.mcState, .irqMask, .irqStatus, .rxFifoStatus, .synthConfig, .clkdivCtrl, .fcOffset, .chspace, .ifOffsetDig, .datarate,
   .fdev, .chflt, .ifOffsetAna, .freqSelect, .chnum, .afc, .pcktlen, .paConfig, .pcktFltOptions, .pcktctrl, .sync,
   .fltAddr, .rssiTh, .rxTimeout] ++ (List.range 256).map fun i => .paPower (BitVec.ofNat 8 i)

/-- The places of a kind's fields, named and tagged ones. -/
def Params.kindBits (p : Params) (k : Kind) : List Nat :=
  k.fields.flatMap (fun f => (p.fieldInfo k f).bits) ++ (p.kindInfo k).tags.flatMap TagInfo.bits

/-- What the spec says of the width of field `f` of kind `k`, `w` being the width: 12 bits for the FC offset, 8 for the
bytes of R25 and R34 to R39, the two data-rate widths of R12, one bit for a bool; and room for every value that the
block's own rules put there (R65) or accept (R33). -/
def Params.widthFits (p : Params) (k : Kind) (f : Field) (w : Nat) : Bool :=
  match f with
  | .value => w == if k = .fcOffset then 12 else 8
  | .my | .multicast | .broadcast | .counter | .prescaler => w == 8
  | .pdClkdiv | .algEnable | .flag | .freezeOnSync | .autoFiltering | .crcCheck | .destVsMy | .destVsMulticast
  | .destVsBroadcast | .addressField => w == 1
  | .mantissa => if k = .datarate then w == p.drMBits else if k = .fdev then 3 ≤ w else 4 ≤ w
  | .exponent => if k = .datarate then w == p.drEBits else 4 ≤ w
  | .count | .length => 7 ≤ w
  | .splitTime => p.splitTimeSet < 2 ^ w
  | .cwc => p.txCwcHigh < 2 ^ w && p.txCwcLow < 2 ^ w && p.rxCwc < 2 ^ w
  | .controlLen | .syncLen | .preambleLen => 1 ≤ w
  | .state => p.stateCodes.all fun c => c.1 < 2 ^ w
  | .modulation | .lengthMode | .format => true

/-- Codes of an enumerated field: at least one, none twice, each with room in the field; two for the length mode (R42). -/
def FieldInfo.codesFit (i : FieldInfo) (f : Field) : Bool :=
  !f.isEnumerated ||
    (!i.codes.isEmpty && decide i.codes.Nodup && i.codes.all (fun c => c < 2 ^ i.bits.length) &&
      (f != .lengthMode || i.codes.length == 2))

/-- The bytes of a kind that the given transactions write, one after the other. -/
def bytesWritten (xs : List Transfer) : List Nat := (xs.filter fun x => !x.read).flatMap fun x => List.range' x.first x.len

/-- A grouping in several transactions (U1): each moves at least one byte of the kind, and the writes among them write every
byte once (DEDUCED, notes 20). -/
def transfersFit (n : Nat) (xs : List Transfer) : Bool :=
  xs.isEmpty ||
    (xs.all fun x => decide (0 < x.len ∧ x.first + x.len ≤ n)) && decide (bytesWritten xs).Nodup &&
      decide ((bytesWritten xs).length = n)

/-- What the spec says of one kind: inside the register space (R60, R61), the lengths of R32, R38 and R70, a least length of 1,
of which the spec says nothing (DESIGN CHOICE, notes 20), no two fields on one bit, every field inside the register (R30), widths, codes and grouping as above. -/
def Params.kindFits (p : Params) (k : Kind) : Bool :=
  decide (0 < (p.kindInfo k).len ∧ p.kindLen k = (p.kindInfo k).len ∧ p.kindAddr k + p.kindLen k ≤ 255) &&
  decide (p.kindBits k).Nodup && (p.kindBits k).all (fun j => j < 8 * p.kindLen k) &&
  k.fields.all (fun f => p.widthFits k f (p.fieldWidth k f) && (p.fieldInfo k f).codesFit f) &&
  transfersFit (p.kindLen k) (p.kindInfo k).transfers

/-- What the spec says of the parameters, or implies: the band bounds of R121, result widths of R25, the table of R128
(strictly decreasing, C10), five coefficient rows (R144), an entry for each of the 24 kinds and 256 slots (R30; notes 43), state
codes that tell the seven states apart (R43), an injective `EVENT_BIT` into `0 .. 31` (R44), a positive `POLL_LIMIT`
(R171), and a capacitor load below High that is not the High one (R192) (DEDUCED, notes 20). -/
abbrev Params.Legal (p : Params) : Prop :=
  (p.vlMin ≤ 169000000 ∧ 169000000 ≤ p.vlMax ∧ p.vlMax < 200000000) ∧
  (p.drMBits ≤ 8 ∧ p.drEBits ≤ 8) ∧
  (p.bwTable.length = 90 ∧ p.bwTable.getD 0 0 = 8001 ∧ p.bwTable.getD 89 0 = 11 ∧
    p.bwTable.Pairwise (fun a b => b < a) ∧ 0 < p.bwUnitHz) ∧
  (p.paCoeff.length = 5 ∧ p.paSlotMax ≤ 255) ∧
  (p.kinds.length = 280 ∧ allKinds.all p.kindFits = true) ∧
  ((p.stateCodes.map Prod.fst).Nodup ∧ ∀ c ∈ p.stateCodes, c.2 ≠ .invalid) ∧
  (p.eventBits.length = 32 ∧ p.eventBits.Nodup ∧ ∀ b ∈ p.eventBits, b < 32) ∧
  p.pollLimit ≠ some 0 ∧
  p.txCwcHigh ≠ p.txCwcLow

/-- A width for each field that `Params.widthFits` accepts, for the parameter set below. -/
def someWidth (k : Kind) : Field → Nat
  | .value => if k = .fcOffset then 12 else 8
  | .my | .multicast | .broadcast | .counter | .prescaler => 8
  | .mantissa | .exponent => 4
  | .count | .length | .state => 7
  | .modulation | .format | .controlLen | .preambleLen | .syncLen => 3
  | _ => 1

/-- Fields laid out one after the other from place `j` on. -/
def someLayout (k : Kind) : Nat → List Field → List (Field × FieldInfo)
  | _, [] => []
  | j, f :: fs =>
    (f, ⟨(List.range (someWidth k f)).map (j + ·), false, if f.isEnumerated then [0, 1] else []⟩) ::
      someLayout k (j + someWidth k f) fs

/-- The entry of a kind in the parameter set below. -/
def someLegalKind (k : Kind) : KindInfo :=
  ⟨0, if k = .fltAddr then 3 else 4, true, false, false, someLayout k 0 k.fields, [], []⟩

/-- A parameter set that meets `Params.Legal`, only to show that one exists; its numbers are nobody's claim about a chip
and it stands for no implementation. -/
def Params.someLegal : Params where
  xtalStrap := 1
  baseStrap := 0
  vlMin := 169000000
  vlMax := 169000000
  drMBits := 4
  drEBits := 4
  bwTable := 8001 :: ((List.range 88).map (fun i => (99 : ℚ) - i) ++ [11])
  bwUnitHz := 1
  paCoeff := List.replicate 5 ⟨0, 0, 0, 0, 0, 0⟩
  paSlotMax := 0
  fcLimit := .clamp
  chspaceLimit := .clamp
  ifAnaLimit := .clamp
  ifDigLimit := .clamp
  kinds := allKinds.map someLegalKind
  stateCodes := []
  eventBits := List.range 32
  splitTimeSet := 0
  txCwcHigh := 0
  txCwcLow := 1
  rxCwc := 0
  txVcoBuf := ⟨0, 0⟩
  txPmTrim := ⟨0, 0⟩
  rxPmTrim := ⟨0, 0⟩
  waEc0 := ⟨0, 0⟩
  waEc1 := ⟨0, 0⟩
  waEc2 := ⟨0, 0⟩
  waSettleMs := 0
  pollDelayMs := 0
  pollLimit := none
  rxRetryLimit := none

/-- `p` if it is legal, else a legal parameter set: the range of this map is exactly the legal ones. -/
def Params.legalise (p : Params) : Params := if p.Legal then p else Params.someLegal

end Sys2Proof
end

