-- ==== Sys2Proof/Machine/Band.lean ====
section
/-! DEFINITION. Frequency bands (spec/40_calc_mantissa_exponent.md R121, spec/10_state.md R22). -/

namespace Sys2Proof.Machine

/-- `band_of` (R121): range lookup with both ends included (D5). -/
def bandOf (p : Params) (f : Nat) : Band :=
  if 779000000 ≤ f ∧ f ≤ 956000000 then .high
  else if 387000000 ≤ f ∧ f ≤ 470000000 then .middle
  else if 300000000 ≤ f ∧ f ≤ 348000000 then .low
  else if p.vlMin ≤ f ∧ f ≤ p.vlMax then .veryLow
  else .invalid

end Sys2Proof.Machine
end

