-- ==== Sys2Proof/Machine/State.lean ====
section
/-! DEFINITION. The state of RPE-DSS as plain data (spec/10_state.md): the block's own state (R20 (1)), the chip's state
behind the Bus Port (R20 (2)), the inputs that the host and the chip supply from outside, and the record of the bus. -/

namespace Sys2Proof.Machine

/-! ### The block -/

/-- The state of the TX/RX engine (R28). -/
inductive Engine where
  | idle | txPending | txDone | rxArmed | rxDiscardedRetry | rxReady
  deriving DecidableEq, Repr, Inhabited

/-- Which limit a `Timeout` reached (R271). -/
inductive LimitReached where
  | pollLimit | rxRetryLimit
  deriving DecidableEq, Repr, Inhabited

/-- The error latch (R40) with what each kind records (R271); `busFailure` keeps the transport's own error, opaque, as a
number. -/
inductive Err where
  | none
  | busFailure (cause : Nat)
  | invalidParameter
  | registerDecodeFailure (k : Kind) (code : Option Nat)
  | notImplemented
  | timeout (limit : LimitReached)
  deriving DecidableEq, Repr, Inhabited

/-- The error codes of R271. -/
def Err.code : Err → Nat
  | .none => 0
  | .busFailure _ => 1
  | .invalidParameter => 2
  | .registerDecodeFailure _ _ => 3
  | .notImplemented => 4
  | .timeout _ => 5

/-- The result latches (R25), one per result name, and below them what a host's own Bus Port call returns (R235, R237,
R257). -/
structure Results where
  band : Band := .invalid
  mantissa : Byte := 0
  exponent : Byte := 0
  reg : Byte := 0
  counter : Byte := 0
  prescaler : Byte := 0
  offsetHz : BitVec 64 := 0
  fcOffset : BitVec 12 := 0
  ana : Byte := 0
  dig : Byte := 0
  count : Byte := 0
  isSet : Bool := false
  value : KindVal := .record [] []
  bytes : List Byte := []
  devState : DevState := .invalid
  deriving DecidableEq, Repr, Inhabited

/-- What an operation that ends without error puts into its result latches (R25). -/
inductive ResultWrite where
  | nothing
  | band (b : Band)
  | mantExp (m e : Byte)
  | reg (r : Byte)
  | timeout (counter prescaler : Byte)
  | foffset (offsetHz : BitVec 64) (fcOffset : BitVec 12)
  | ifOffset (ana dig : Byte)
  | count (n : Byte)
  | isSet (b : Bool)
  | value (v : KindVal)
  | bytes (bs : List Byte)
  | devState (st : DevState)
  deriving DecidableEq, Repr, Inhabited

/-- The step labels of spec/42 to 46: `only` for an operation of one step. -/
inductive Label where
  | only
  | s1 | s3a | s3b | s4a | s5a | s5b | s5c | s5d | s5e | s5f | s5g | s5h | s5i | s5j | s5k | s6
  | e1 | e2 | e3 | e4
  | w0 | w1 | w3
  | t0 | t1 | t3 | t4 | t5 | t6 | t7 | t8 | t9 | t10 | t11
  | x1 | x2 | x3
  | v0 | v2 | v5 | v7 | v9 | v10
  | k1 | k2 | k3 | f1 | f2
  deriving DecidableEq, Repr, Inhabited

/-- What one step of a micro-sequence does (R170: a pure computation, a bus primitive, a `RegSet`, a wait). -/
inductive Act where
  /-- `x[ENGINE] <- e` (R190) -/
  | engine (e : Engine)
  /-- `polls <- 0; retries <- 0` at an operation's first step (R284) -/
  | zeroCounters
  /-- `x[MASK_ACC] <- w` (R212, R213) -/
  | setMask (w : Word)
  /-- `RegSet(k, fs)` (R66) -/
  | regSet (k : Kind) (fs : List (Field × FieldVal))
  /-- `v <- BusRead(k)`, then `BusWrite(k, v with fs replaced)`: S3b of R172, and a `RegSet` that reads first -/
  | modify (k : Kind) (fs : List (Field × FieldVal))
  /-- what is left of a `RegSet` that goes out in several transactions (U1), with the bytes read so far, the last read of a byte
  first -/
  | transfers (k : Kind) (fs : List (Field × FieldVal)) (held : List (Nat × Byte)) (left : List Transfer)
  /-- `BusWrite(k, v)` -/
  | store (k : Kind) (v : KindVal)
  /-- `BusRead(k)`, value discarded (R211) -/
  | readDiscard (k : Kind)
  /-- `BusRead(k)`, value to the host (R235) -/
  | readValue (k : Kind)
  /-- `MemWrite(a, |bytes|, bytes)` -/
  | rawWrite (a : Byte) (bytes : List Byte)
  /-- `MemRead(a, n)`, bytes to the host (R237) -/
  | rawRead (a : Byte) (n : Nat)
  /-- `BusCommand(c)`, reported state discarded -/
  | command (c : Command)
  /-- `BusCommand(c)`, reported state to the host (R257) -/
  | commandValue (c : Command)
  /-- `Delay(ms)` -/
  | delay (ms : Nat)
  /-- W1, W2 of R171: one poll of `MC_STATE` -/
  | pollState (target : DevState)
  /-- T9, T10 of R191: one poll of `IRQ_STATUS` for `TX_DATA_SENT` -/
  | pollTx
  /-- V2 to V4 of R194: one poll of `IRQ_STATUS` for the receive events -/
  | pollRx
  /-- W3 and W4, T11, V5: count the poll, test `POLL_LIMIT`, delay -/
  | countPoll
  /-- V7, V8 of R194 -/
  | fifoCount
  /-- V9 of R194: `RXBUF[0 .. c-1] <- MemRead(0xFF, c)` -/
  | drain (c : Nat)
  /-- end (success) with these results -/
  | finish (r : ResultWrite)
  /-- `raise e` (R276) -/
  | raise (e : Err)
  deriving DecidableEq, Repr, Inhabited

/-- One step of a micro-sequence under its label. -/
structure Micro where
  label : Label
  act : Act
  deriving DecidableEq, Repr, Inhabited

/-- The sequencer position `pc = (op, step)` (R27): idle, or the operation in progress with the steps it has still to
take, the current one first. -/
inductive Pc where
  | idle
  | busy (op : Op) (steps : List Micro)
  deriving DecidableEq, Repr, Inhabited

/-! ### The chip and the bus -/

/-- The chip's register space (R60 (a)): address and byte, addresses strictly rising, for the locations that a transfer
or a change of the chip's own has touched. An unlisted location holds whatever the chip powered up with (R302; notes 5, 11). -/
abbrev Memory := List Host.Cell

/-- The chip's state (R20 (2), R47): register space, both FIFOs of at most 96 bytes (R60 (b)), the code of the operating state, the pending interrupt
bits behind `IRQ_STATUS`. -/
structure Chip where
  mem : Memory
  txFifo : List Byte
  rxFifo : List Byte
  stateCode : Nat
  pending : Word
  deriving DecidableEq, Repr, Inhabited

/-- A change the chip makes of its own accord between two bus primitives (R75). -/
inductive ChipChange where
  | register (a : Fin 255) (b : Byte)
  | txFifo (bytes : List Byte)
  | rxFifo (bytes : List Byte)
  | stateCode (code : Nat)
  | pending (w : Word)
  deriving DecidableEq, Repr, Inhabited

/-- A transport failure (R272): the transport's own error, and whether the failed transaction reached the chip (U9: either
may be; notes 7). -/
structure TransportFailure where
  cause : Nat
  reached : Bool
  deriving DecidableEq, Repr, Inhabited

/-- What the world outside the block contributes to one bus transaction (R75): the chip's own changes before it, whether
the transport fails, the state code a command reports (U8), the bytes a typed read of each kind gets and those a raw read
gets (where they say nothing, the chip's state answers), and where a raw write of several bytes puts each byte after the
first, `none` being nowhere (R71, N19) (DESIGN CHOICE, notes 6, 12). -/
structure Turn where
  drift : List ChipChange := []
  failure : Option TransportFailure := none
  reported : Nat := 0
  answers : List (Kind × List Byte) := []
  rawAnswer : List Byte := []
  landing : List (Option (Fin 255)) := []
  deriving DecidableEq, Repr, Inhabited

/-- One event of the bus trace (R17); a missing result or `false` is `Fail`. `rdPart` and `wrPart` are the transactions of a
`RegSet` that goes out in several (U1): the bytes read, and the value of which one part is written. -/
inductive BusEvent where
  | rd (k : Kind) (v : Option KindVal)
  | wr (k : Kind) (v : KindVal) (ok : Bool)
  | rdPart (k : Kind) (x : Transfer) (bytes : Option (List Byte))
  | wrPart (k : Kind) (x : Transfer) (v : KindVal) (ok : Bool)
  | rdRaw (a : Byte) (n : Nat) (bytes : Option (List Byte))
  | wrRaw (a : Byte) (bytes : List Byte) (ok : Bool)
  | cmd (c : Command) (st : Option DevState)
  | dly (ms : Nat)
  deriving DecidableEq, Repr, Inhabited

/-! ### The machine -/

/-- The whole state. -/
structure State where
  /-- the implementation's parameters (R12); never written -/
  params : Params
  /-- `XTAL_HZ`, `BASE_HZ`, `BAND` (R21, R22): sampled at reset, never written -/
  xtalHz : Word
  baseHz : Word
  band : Band
  /-- operand latches (R24); `operands.payload` is `TXBUF` (R45) -/
  operands : Operands
  /-- result latches (R25) -/
  results : Results
  /-- sequencer position (R27) -/
  pc : Pc
  /-- `ENGINE` (R28) -/
  engine : Engine
  /-- `MASK_ACC` (R29) -/
  maskAcc : Word
  /-- `ERR` (R40) -/
  err : Err
  /-- `RXBUF[0 .. 95]` (R45) -/
  rxbuf : List Byte
  /-- the software counters `polls` and `retries` (R284) -/
  polls : Nat
  retries : Nat
  /-- the chip behind the Bus Port (R47) -/
  chip : Chip
  /-- the bus trace (R17), oldest first -/
  trace : List BusEvent
  /-- what the chip and the transport contribute to the coming transactions, in order (R75); when it is empty the
  current primitive has not returned yet (R62) -/
  turns : List Turn
  /-- what the host presents, in order (R7, R8) -/
  port : List Presented
  /-- counter that makes each free value a fresh one -/
  fresh : Nat
  deriving DecidableEq, Repr, Inhabited

/-- Why the machine stops with a fault. Safe: what is presented is no frame of R92 and no call of the port contract (R16). -/
inductive Fault where
  /-- Raised by `step` alone: a typed call is presented with an address byte other than `ADDR(k)` of its kind, so it is no
  frame of R92. Safe. -/
  | callAddressMismatch (k : Kind) (a : Byte)
  deriving DecidableEq, Repr

/-- Why the machine refuses what is presented. -/
inductive Refusal where
  /-- Raised by an arm of `exec` for an instruction without a meaning; no arm does. Safe. -/
  | notModelled (mnemonic : String)
  /-- Raised by `step` alone: a bus frame whose selector byte is none of `0x00`, `0x01`, `0x80`; what the chip does with
  it "is not in the source" (R98, U10). Safe. -/
  | unlistedFrameSelector (sel : Byte)
  /-- Raised by `step` alone: a command frame whose code is none of the 17; what the chip does with it "is not in the
  source" (R98, U10). Safe. -/
  | unlistedCommandCode (code : Byte)
  deriving DecidableEq, Repr

/-- The machine right after the device handle is created with parameters `p` (R48, R300): straps sampled, band
classified, idle; no bus access. Latches and `RXBUF`, which R48 leaves unspecified, hold zeros (DESIGN CHOICE, notes 4);
the chip's state is free (R302). -/
def State.resetWith (p : Params) : State where
  params := p
  xtalHz := p.xtalStrap
  baseHz := p.baseStrap
  band := bandOf p p.baseStrap.toNat
  operands := {}
  results := {}
  pc := .idle
  engine := .idle
  maskAcc := 0
  err := .none
  rxbuf := List.replicate 96 0
  polls := 0
  retries := 0
  chip := ⟨[], Config.powerUpTxFifo.take 96, Config.powerUpRxFifo.take 96, Config.powerUpStateCode, Config.powerUpPending⟩
  trace := []
  turns := []
  port := []
  fresh := 0

/-- The state after reset, for the parameters of the implementation at hand. -/
def State.reset : State := State.resetWith Config.installed.legalise

end Sys2Proof.Machine
end

