-- ==== Sys2Proof/Machine/Operands.lean ====
section
/-! DEFINITION. Operand latching (spec/10_state.md R24), operand assembly (spec/30_encoding.md R97), the arithmetic of
spec/41_calc_linear.md R151 to R154, and the result latches (R25). -/

namespace Sys2Proof.Machine

/-! ### Names and latches -/

/-- The operation an instruction requests: the `op` of `pc = (op, step)` (R27). -/
def opOf : Instr → Op
  | .bandResolve _ => .bandResolve
  | .encDatarate _ _ _ => .encDatarate
  | .encFdev _ _ => .encFdev
  | .encChflt _ _ _ => .encChflt
  | .encRssiTh _ => .encRssiTh
  | .encRxTimeout _ _ => .encRxTimeout
  | .encPaDbm _ _ _ => .encPaDbm
  | .encFoffset _ _ _ => .encFoffset
  | .encChspace _ _ => .encChspace
  | .encIfOffset _ => .encIfOffset
  | .init _ => .init
  | .waExtraCurrent => .waExtraCurrent
  | .waitForState _ => .waitForState
  | .txBlocking _ => .txBlocking
  | .rxBlocking => .rxBlocking
  | .strobeRx => .strobeRx
  | .irqSilence => .irqSilence
  | .irqClear => .irqClear
  | .irqMaskNew => .irqMaskNew
  | .irqMaskSet _ => .irqMaskSet
  | .irqMaskCommit => .irqMaskCommit
  | .irqIsSet _ _ => .irqIsSet
  | .pktConfigure _ => .pktConfigure
  | .pktConfigureFilter _ => .pktConfigureFilter
  | .write _ _ => .write
  | .writeRaw _ _ => .writeRaw
  | .read _ => .read
  | .readRaw _ _ => .readRaw
  | .delay _ => .delay
  | .tx => .command .tx
  | .rx => .command .rx
  | .ready => .command .ready
  | .standby => .command .standby
  | .sleep => .command .sleep
  | .lockRx => .command .lockRx
  | .lockTx => .command .lockTx
  | .sabort => .command .sabort
  | .ldcReload => .command .ldcReload
  | .sequenceUpdate => .command .sequenceUpdate
  | .aesEncrypt => .command .aesEncrypt
  | .aesKey => .command .aesKey
  | .aesDecrypt => .command .aesDecrypt
  | .aesKeyDecrypt => .command .aesKeyDecrypt
  | .sRes => .command .sRes
  | .flushRxFifo => .command .flushRxFifo
  | .flushTxFifo => .command .flushTxFifo

/-- The operand latches after the operands of `i` are latched: those of its operation (R24) take its operands, the others
keep what they hold (DESIGN CHOICE, notes 46). `kind` is taken by every Bus Port call that has a raw and a typed form (R92). -/
def loadOperands (i : Instr) (o : Operands) : Operands :=
  match i with
  | .bandResolve b => { o with baseHz := b }
  | .encDatarate t d x => { o with targetBps := t, clockDivided := d, crystalHz := x }
  | .encFdev t x => { o with targetHz := t, crystalHz := x }
  | .encChflt t d x => { o with targetHz := t, clockDivided := d, crystalHz := x }
  | .encRssiTh d => { o with rssiDbm := d }
  | .encRxTimeout t x => { o with timeoutMs := t, crystalHz := x }
  | .encPaDbm s d b => { o with slot := s, paDbm := d, baseHz := b }
  | .encFoffset n b x => { o with xtalOffsetPpm := n, baseHz := b, crystalHz := x }
  | .encChspace s x => { o with spacingHz := s, crystalHz := x }
  | .encIfOffset x => { o with crystalHz := x }
  | .init opts => { o with opts := opts }
  | .waitForState t => { o with target := t }
  | .txBlocking p => { o with payload := p }
  | .irqMaskSet e => { o with event := e }
  | .irqIsSet w e => { o with word := w, event := e }
  | .pktConfigure c => { o with cfg := c }
  | .pktConfigureFilter f => { o with flt := f }
  | .write k v => { o with kind := some k, value := v }
  | .writeRaw _ bs => { o with kind := none, bytes := bs }
  | .read k => { o with kind := some k }
  | .readRaw _ n => { o with kind := none, count := n }
  | .delay ms => { o with ms := ms }
  | .waExtraCurrent | .rxBlocking | .strobeRx | .irqSilence | .irqClear | .irqMaskNew | .irqMaskCommit
  | .tx | .rx | .ready | .standby | .sleep | .lockRx | .lockTx | .sabort | .ldcReload | .sequenceUpdate
  | .aesEncrypt | .aesKey | .aesDecrypt | .aesKeyDecrypt | .sRes | .flushRxFifo | .flushTxFifo => o

/-- The result latches after an operation writes its own (R25); the others keep what they hold. -/
def writeResults (r : Results) : ResultWrite → Results
  | .nothing => r
  | .band b => { r with band := b }
  | .mantExp m e => { r with mantissa := m, exponent := e }
  | .reg x => { r with reg := x }
  | .timeout c p => { r with counter := c, prescaler := p }
  | .foffset o f => { r with offsetHz := o, fcOffset := f }
  | .ifOffset a d => { r with ana := a, dig := d }
  | .count n => { r with count := n }
  | .isSet b => { r with isSet := b }
  | .value v => { r with value := v }
  | .bytes bs => { r with bytes := bs }
  | .devState st => { r with devState := st }

/-- The result latches after operation `op` ends with an error: "after an error their content is unspecified" (R25, U7),
for the latches of `op` and no others. The operations not listed have no result latch or raise no error. -/
def unspecifyResults (r : Results) (op : Op) (n : Nat) : Results :=
  match op with
  | .bandResolve => { r with band := Config.freeBand n }
  | .encFdev => { r with mantissa := Config.freeByte n 0, exponent := Config.freeByte n 1 }
  | .encPaDbm => { r with reg := Config.freeByte n 0 }
  | .txBlocking => { r with count := Config.freeByte n 0 }
  | .rxBlocking => { r with count := Config.freeByte n 0 }
  | .read => { r with value := Config.freeValue n }
  | .readRaw => { r with bytes := Config.freeBytes n }
  | .command _ => { r with devState := Config.freeState n }
  | _ => r

/-- The first `n` bytes of a list, with zeros after its end. A payload is exactly `LEN(k)` bytes (R69); what is sent for a
host's value whose bytes are not that many, of which the spec says nothing, is this (DESIGN CHOICE, notes 40). -/
def fitBytes (n : Nat) (bs : List Byte) : List Byte := (List.range n).map (fun i => bs.getD i 0)

/-- `RXBUF` after operation `op` ends with an error: RX_BLOCKING's is the content of its result latch, of which nothing is
written where it can fail, and so any value (R25, U7; DESIGN CHOICE, notes 29); every other operation keeps it (R276). -/
def unspecifyRxbuf (held : List Byte) (op : Op) (n : Nat) : List Byte :=
  match op with
  | .rxBlocking => fitBytes 96 (Config.freeRxbuf n held)
  | _ => held

/-! ### Rationals and integers (R13, R14, R152) -/

/-- `trunc(q)`: `q` rounded toward zero (R14). -/
def trunc (q : ℚ) : Int := q.num.tdiv q.den

/-- `clamp(x, lo, hi)` on integers (R14). -/
def clampInt (x lo hi : Int) : Int := if x < lo then lo else if hi < x then hi else x

/-- `clamp(x, lo, hi)` on rationals (R14). -/
def clampRat (x lo hi : ℚ) : ℚ := if x < lo then lo else if hi < x then hi else x

/-- `limit_u8(v)`: `v` in its field, by clamping or by wrapping (R151). -/
def limitU8 (l : Limit) (v : Int) : Byte :=
  match l with
  | .clamp => BitVec.ofInt 8 (clampInt v 0 255)
  | .wrap => BitVec.ofInt 8 v

/-- `limit_s12(v)`: the two's-complement pattern of `v` in 12 bits, by clamping or by wrapping (R151, R97 (c)). -/
def limitS12 (l : Limit) (v : Int) : BitVec 12 :=
  match l with
  | .clamp => BitVec.ofInt 12 (clampInt v (-2048) 2047)
  | .wrap => BitVec.ofInt 12 v

/-! ### Values derived from the crystal (R23, R154) -/

/-- `DUAL`, also `CLK_DIVIDED`: the crystal exceeds the dual-crystal threshold (R11, R23). -/
def dualXtal (crystalHz : Nat) : Bool := decide (30000000 < crystalHz)

/-- `EFF_XTAL`: the crystal, halved as an integer if above the threshold (R23). -/
def effXtal (crystalHz : Nat) : Nat := if dualXtal crystalHz then crystalHz / 2 else crystalHz

/-- `pd_clkdiv` (R154). -/
def pdClkdiv (crystalHz : Nat) : Bool := !dualXtal crystalHz

/-- `freq_select` (R154). -/
def freqSelect (crystalHz : Nat) : Bool := decide (25000000 ≤ effXtal crystalHz)

/-! ### Words and bytes (R97, R68) -/

/-- The four bytes of an interrupt word in bus order, most significant first (R97 (b)). -/
def wordBytes (w : Word) : List Byte :=
  [w.extractLsb' 24 8, w.extractLsb' 16 8, w.extractLsb' 8 8, w.extractLsb' 0 8]

/-- The interrupt word assembled big-endian from bytes in bus order (R97 (b)). -/
def bytesWord (bs : List Byte) : Word :=
  bs.getD 0 0 ++ bs.getD 1 0 ++ bs.getD 2 0 ++ bs.getD 3 0

/-- `(index mod 9, floor(index / 9))` (R97 (a)). -/
def indexMantExp (idx : Nat) : Nat × Nat := (idx % 9, idx / 9)

/-- The 17 command codes (R93). -/
def commandCode : Command → Byte
  | .tx => 0x60 | .rx => 0x61 | .ready => 0x62 | .standby => 0x63 | .sleep => 0x64 | .lockRx => 0x65 | .lockTx => 0x66
  | .sabort => 0x67 | .ldcReload => 0x68 | .sequenceUpdate => 0x69 | .aesEncrypt => 0x6A | .aesKey => 0x6B
  | .aesDecrypt => 0x6C | .aesKeyDecrypt => 0x6D | .sRes => 0x70 | .flushRxFifo => 0x71 | .flushTxFifo => 0x72

/-! ### The codec (R64, R65) -/

/-- Register bytes in the order of `ENDIAN(k)`, from or to most significant byte first (R68 (b)). -/
def orderBytes (p : Params) (k : Kind) (bs : List Byte) : List Byte := if p.kindBig k then bs else bs.reverse

/-- The bytes of a value of kind `k`, `LEN(k)` many, most significant first. A record with its fields as they stand in its
bytes is those bytes, so that encoding what was decoded gives the same bytes (R65). -/
def logicalBytes (p : Params) (k : Kind) : KindVal → List Byte
  | .word w => fitBytes (p.kindLen k) (wordBytes w)
  | .record base fs => putFields p k fs (fitBytes (p.kindLen k) base)

/-- `encode_k(v)`: the `LEN(k)` payload bytes of a typed access, in bus order (R64, R94). -/
def encodeValue (p : Params) (k : Kind) (v : KindVal) : List Byte := orderBytes p k (logicalBytes p k v)

/-- `RegisterDecodeFailure` of kind `k`, with the offending code if the codec supplies it (R271). -/
def decodeFailure (p : Params) (k : Kind) (code : Nat) : Err :=
  .registerDecodeFailure k (if (p.kindInfo k).suppliesCode then some code else none)

/-- `decode_k(bytes)` for bytes in bus order (R64, R97, R274): the record of named fields over the register's bytes, or the
word; or `RegisterDecodeFailure` where an enumerated field holds a code outside its enumeration. -/
def decodeBytes (p : Params) (k : Kind) (bytes : List Byte) : Except Err KindVal :=
  match k with
  | .irqMask | .irqStatus => .ok (.word (bytesWord bytes))
  | k =>
    match badCode p k (orderBytes p k bytes) with
    | some code => .error (decodeFailure p k code)
    | none => .ok (.record (orderBytes p k bytes) (namedFields p k (orderBytes p k bytes)))

/-- The value with the named fields replaced and every other field kept (R66). -/
def withFields (p : Params) (k : Kind) (v : KindVal) (fs : List (Field × FieldVal)) : KindVal :=
  .record (logicalBytes p k v) fs

/-- A host-supplied field value at its construction: "values are clamped or rejected at construction" (R65, U12); `none`
is a rejection (DESIGN CHOICE, notes 16). -/
def constructField (p : Params) (k : Kind) (f : Field × FieldVal) : Option (Field × FieldVal) :=
  match f.2 with
  | .num n =>
    if n < 2 ^ p.fieldWidth k f.1 then some f
    else if (p.fieldInfo k f.1).rejects then none else some (f.1, .num (2 ^ p.fieldWidth k f.1 - 1))
  | _ => some f

/-- The named fields of a value at its construction. -/
def constructFields (p : Params) (k : Kind) : List (Field × FieldVal) → Option (List (Field × FieldVal))
  | [] => some []
  | f :: fs =>
    match constructField p k f, constructFields p k fs with
    | some g, some gs => some (g :: gs)
    | _, _ => none

/-- A host-supplied value at its construction (R65, U12): a value that is none of the kind (of another shape, with a field of
another kind, a field given twice or a value of another type) is rejected whatever the codec (DESIGN CHOICE, notes 16), and
numbers too wide for their fields are clamped or rejected. Nothing else is looked at: bytes that hold, in an enumerated field,
a code outside its enumeration go out as they stand (DESIGN CHOICE, notes 40). -/
def constructValue (p : Params) (k : Kind) (v : KindVal) : Option KindVal :=
  if k.accepts v then
    match v with
    | .record base fs => (constructFields p k fs).map (.record base)
    | .word w => some (.word w)
  else none

end Sys2Proof.Machine
end

