-- ==== Sys2Proof/Decode.lean ====
section
/-! DEFINITION. Decoding what the host presents, and encoding (spec/30_encoding.md). A request is an 8-bit selector (R95, R96);
a bus transaction is a two-byte header (R90, R92, R93); operands travel beside the bits at their own widths. Decoding is
total and rejects by name. -/

namespace Sys2Proof

open Sys2Proof.Machine

/-- Why what is presented is no instruction. -/
inductive DecodeError where
  /-- a request selector that is none of the 24 (R99) -/
  | unlistedSelector (op : BitVec 8)
  /-- a frame whose selector byte is none of WRITE, READ, COMMAND (R98) -/
  | unlistedFrameSelector (sel : Byte)
  /-- a command frame whose code is none of the 17 (R98) -/
  | unlistedCommandCode (code : Byte)
  /-- a typed call whose address byte is not `ADDR(k)` (R92) -/
  | callAddressMismatch (k : Kind) (a : Byte)
  deriving DecidableEq, Repr

/-- The operations selected by a request word, in the order of R96. -/
def requestOps : List Op :=
  [.bandResolve, .encDatarate, .encFdev, .encChflt, .encRssiTh, .encRxTimeout, .encPaDbm, .encFoffset, .encChspace,
   .encIfOffset, .init, .waExtraCurrent, .waitForState, .txBlocking, .rxBlocking, .strobeRx,
   .irqSilence, .irqClear, .irqMaskNew, .irqMaskSet, .irqMaskCommit, .irqIsSet, .pktConfigure, .pktConfigureFilter]

/-- The selector of each operation of R96; the bus transactions are not selectable (R96, D3), and their value here is
never used. -/
def requestSelector : Op → BitVec 8
  | .bandResolve => 0x00 | .encDatarate => 0x01 | .encFdev => 0x02 | .encChflt => 0x03 | .encRssiTh => 0x04
  | .encRxTimeout => 0x05 | .encPaDbm => 0x06 | .encFoffset => 0x07 | .encChspace => 0x08 | .encIfOffset => 0x09
  | .init => 0x10 | .waExtraCurrent => 0x11 | .waitForState => 0x12
  | .txBlocking => 0x20 | .rxBlocking => 0x21 | .strobeRx => 0x22
  | .irqSilence => 0x30 | .irqClear => 0x31 | .irqMaskNew => 0x32 | .irqMaskSet => 0x33 | .irqMaskCommit => 0x34
  | .irqIsSet => 0x35
  | .pktConfigure => 0x40 | .pktConfigureFilter => 0x41
  | .write | .writeRaw | .read | .readRaw | .delay | .command _ => 0xFF

/-- The 17 commands in the order of R93. -/
def commands : List Command :=
  [.tx, .rx, .ready, .standby, .sleep, .lockRx, .lockTx, .sabort, .ldcReload, .sequenceUpdate,
   .aesEncrypt, .aesKey, .aesDecrypt, .aesKeyDecrypt, .sRes, .flushRxFifo, .flushTxFifo]

/-- The instruction of a command. -/
def commandInstr : Command → Instr
  | .tx => .tx | .rx => .rx | .ready => .ready | .standby => .standby | .sleep => .sleep | .lockRx => .lockRx
  | .lockTx => .lockTx | .sabort => .sabort | .ldcReload => .ldcReload | .sequenceUpdate => .sequenceUpdate
  | .aesEncrypt => .aesEncrypt | .aesKey => .aesKey | .aesDecrypt => .aesDecrypt | .aesKeyDecrypt => .aesKeyDecrypt
  | .sRes => .sRes | .flushRxFifo => .flushRxFifo | .flushTxFifo => .flushTxFifo

/-- The instruction of a requested operation with the operands its latches hold (R24). -/
def requestInstr (op : Op) (o : Operands) : Option Instr :=
  match op with
  | .bandResolve => some (.bandResolve o.baseHz)
  | .encDatarate => some (.encDatarate o.targetBps o.clockDivided o.crystalHz)
  | .encFdev => some (.encFdev o.targetHz o.crystalHz)
  | .encChflt => some (.encChflt o.targetHz o.clockDivided o.crystalHz)
  | .encRssiTh => some (.encRssiTh o.rssiDbm)
  | .encRxTimeout => some (.encRxTimeout o.timeoutMs o.crystalHz)
  | .encPaDbm => some (.encPaDbm o.slot o.paDbm o.baseHz)
  | .encFoffset => some (.encFoffset o.xtalOffsetPpm o.baseHz o.crystalHz)
  | .encChspace => some (.encChspace o.spacingHz o.crystalHz)
  | .encIfOffset => some (.encIfOffset o.crystalHz)
  | .init => some (.init o.opts)
  | .waExtraCurrent => some .waExtraCurrent
  | .waitForState => some (.waitForState o.target)
  | .txBlocking => some (.txBlocking o.payload)
  | .rxBlocking => some .rxBlocking
  | .strobeRx => some .strobeRx
  | .irqSilence => some .irqSilence
  | .irqClear => some .irqClear
  | .irqMaskNew => some .irqMaskNew
  | .irqMaskSet => some (.irqMaskSet o.event)
  | .irqMaskCommit => some .irqMaskCommit
  | .irqIsSet => some (.irqIsSet o.word o.event)
  | .pktConfigure => some (.pktConfigure o.cfg)
  | .pktConfigureFilter => some (.pktConfigureFilter o.flt)
  | .write | .writeRaw | .read | .readRaw | .delay | .command _ => none

/-- A request word (R96, R99). -/
def decodeRequest (op : BitVec 8) (o : Operands) : Except DecodeError Instr :=
  match requestOps.find? (fun x => requestSelector x == op) with
  | none => .error (.unlistedSelector op)
  | some x =>
    match requestInstr x o with
    | none => .error (.unlistedSelector op)
    | some i => .ok i

/-- The address byte of a kind, as a typed frame carries it (R90). -/
def kindAddrByte (p : Params) (k : Kind) : Byte := BitVec.ofNat 8 (p.kindAddr k)

/-- A WRITE frame (R92): typed if the call names a kind, else raw. A value that is none of the kind is rejected at its
construction (`constructValue`), not here. -/
def decodeWrite (p : Params) (a : Byte) (o : Operands) : Except DecodeError Instr :=
  match o.kind with
  | none => .ok (.writeRaw a o.bytes)
  | some k =>
    if kindAddrByte p k ≠ a then .error (.callAddressMismatch k a) else .ok (.write k o.value)

/-- A READ frame (R92): typed if the call names a kind, else raw. -/
def decodeRead (p : Params) (a : Byte) (o : Operands) : Except DecodeError Instr :=
  match o.kind with
  | none => .ok (.readRaw a o.count)
  | some k => if kindAddrByte p k ≠ a then .error (.callAddressMismatch k a) else .ok (.read k)

/-- A COMMAND frame (R93, R98). -/
def decodeCommand (code : Byte) : Except DecodeError Instr :=
  match commands.find? (fun c => commandCode c == code) with
  | none => .error (.unlistedCommandCode code)
  | some c => .ok (commandInstr c)

/-- The decoder. -/
def decode (p : Params) (x : Presented) : Except DecodeError Instr :=
  match x.header with
  | .req op => decodeRequest op x.operands
  | .frame sel a =>
    if sel = 0x00 then decodeWrite p a x.operands
    else if sel = 0x01 then decodeRead p a x.operands
    else if sel = 0x80 then decodeCommand a
    else .error (.unlistedFrameSelector sel)
  | .noFrame => .ok (.delay x.operands.ms)

/-- The bits of an instruction (R90, R93, R96). -/
def headerOf (p : Params) (i : Instr) : Header :=
  match i with
  | .write k _ => .frame 0x00 (kindAddrByte p k)
  | .writeRaw a _ => .frame 0x00 a
  | .read k => .frame 0x01 (kindAddrByte p k)
  | .readRaw a _ => .frame 0x01 a
  | .delay _ => .noFrame
  | .tx => .frame 0x80 0x60
  | .rx => .frame 0x80 0x61
  | .ready => .frame 0x80 0x62
  | .standby => .frame 0x80 0x63
  | .sleep => .frame 0x80 0x64
  | .lockRx => .frame 0x80 0x65
  | .lockTx => .frame 0x80 0x66
  | .sabort => .frame 0x80 0x67
  | .ldcReload => .frame 0x80 0x68
  | .sequenceUpdate => .frame 0x80 0x69
  | .aesEncrypt => .frame 0x80 0x6A
  | .aesKey => .frame 0x80 0x6B
  | .aesDecrypt => .frame 0x80 0x6C
  | .aesKeyDecrypt => .frame 0x80 0x6D
  | .sRes => .frame 0x80 0x70
  | .flushRxFifo => .frame 0x80 0x71
  | .flushTxFifo => .frame 0x80 0x72
  | .bandResolve _ | .encDatarate _ _ _ | .encFdev _ _ | .encChflt _ _ _ | .encRssiTh _ | .encRxTimeout _ _
  | .encPaDbm _ _ _ | .encFoffset _ _ _ | .encChspace _ _ | .encIfOffset _ | .init _ | .waExtraCurrent
  | .waitForState _ | .txBlocking _ | .rxBlocking | .strobeRx | .irqSilence | .irqClear | .irqMaskNew | .irqMaskSet _
  | .irqMaskCommit | .irqIsSet _ _ | .pktConfigure _ | .pktConfigureFilter _ => .req (requestSelector (opOf i))

/-- The encoder: the bits, and beside them operand lines that carry the instruction's operands over whatever `o` they
carried before. -/
def encodeOver (p : Params) (o : Operands) (i : Instr) : Presented := ⟨headerOf p i, loadOperands i o⟩

/-- The encoder, with every other operand line at zero. -/
def encode (p : Params) (i : Instr) : Presented := encodeOver p {} i

/-! ### Default options and pseudo-operations (R41, R102) -/

/-- The default Radio Init Options: 0 ppm, 20 kHz spacing, channel 0, 2-FSK, 38400 bit/s, 20 kHz deviation, 1,005,000 Hz. -/
def defaultOptions : RadioInitOptions := ⟨0, 20000, 0, .fsk2, 38400, 20000, 1005000⟩

/-- `INIT defaults`. -/
def initDefaults : Instr := .init defaultOptions

/-- `wait_for_ready`. -/
def waitForReady : Instr := .waitForState .ready

/-- `strobe c`: the bus transaction `COMMAND c`. -/
def strobe (c : Command) : Instr := commandInstr c

/-- `IRQ_MASK_BUILD e1, ..., en`. -/
def irqMaskBuild (es : List Event) : List Instr := .irqMaskNew :: es.map .irqMaskSet ++ [.irqMaskCommit]

/-! ### Words of the opcode table -/

/-- What the host presents for an instruction given as `nbits` bits `w` of spec/opcode_table.json, every operand line at
zero: 8 bits are a request selector (R95), 16 bits are a header with its first byte in bits 15:8 (R90), no bits are the
delay call (R239). A bare frame names no kind, so a WRITE or READ frame is the raw call (R92; DEDUCED, notes 25). -/
def presentWord (nbits w : Nat) : Option Presented :=
  if nbits = 8 then some ⟨.req (BitVec.ofNat 8 w), {}⟩
  else if nbits = 16 then some ⟨.frame (BitVec.ofNat 8 (w / 256)) (BitVec.ofNat 8 w), {}⟩
  else if nbits = 0 then some ⟨.noFrame, {}⟩
  else none

/-- The instruction the decoder reads from a row's bits. -/
def decodeTableWord (nbits w : Nat) : Option Instr :=
  match presentWord nbits w with
  | none => none
  | some x =>
    match decode Config.installed.legalise x with
    | .ok i => some i
    | .error _ => none

end Sys2Proof
end

