-- ==== Sys2Proof/Machine/Flags.lean ====
section
/-! DEFINITION. The flag-like state of RPE-DSS. There are no arithmetic condition codes (spec/10_state.md R29); what the
block tests and builds are bits of the 32-bit interrupt word (R32, R44, spec/44_irq.md). -/

namespace Sys2Proof.Machine

/-- `word[EVENT_BIT(event)] = 1` (R215), the test of IRQ_IS_SET and of the poll loops. -/
def eventSet (p : Params) (w : Word) (e : Event) : Bool := w.getLsbD (p.eventBit e)

/-- `1 << EVENT_BIT(event)` (R213). -/
def eventMask (p : Params) (e : Event) : Word := (1 : Word) <<< p.eventBit e

/-- `x[MASK_ACC] or (1 << EVENT_BIT(event))` (R213). -/
def maskWith (p : Params) (acc : Word) (e : Event) : Word := acc ||| eventMask p e

/-- `POLL_LIMIT is finite and polls >= POLL_LIMIT` (R171, R191, R194), `polls` being the count so far. -/
def pollLimitReached (p : Params) (polls : Nat) : Bool :=
  match p.pollLimit with
  | none => false
  | some l => decide (l ≤ polls)

/-- `RX_RETRY_LIMIT is finite and retries > RX_RETRY_LIMIT` (R194). -/
def retryLimitPassed (p : Params) (retries : Nat) : Bool :=
  match p.rxRetryLimit with
  | none => false
  | some l => decide (l < retries)

/-- `TX_CWC(band)` (R192): the lower load for the bands below High, the High value for High and for an invalid band. -/
def txCwc (p : Params) : Band → Nat
  | .high | .invalid => p.txCwcHigh
  | .middle | .low | .veryLow => p.txCwcLow

end Sys2Proof.Machine
end

