-- ==== Sys2Proof/Machine/Calculators.lean ====
section
/-! DEFINITION. The calculators of spec/40_calc_mantissa_exponent.md and spec/41_calc_linear.md as pure functions, exact
over the integers and rationals (R14, R153). A parameter that is a function is an argument here; the instructions' meanings
hand in the constants of Config. -/

namespace Sys2Proof.Machine

/-! ### ENC_DATARATE (R122, R123) -/

/-- Every pair the two fields can hold. -/
def dataratePairs (mBits eBits : Nat) : List (Nat × Nat) :=
  (List.range (2 ^ eBits)).flatMap fun e => (List.range (2 ^ mBits)).map fun m => (m, e)

/-- The pair of the largest rate, "`(2^DR_M_BITS - 1, 2^DR_E_BITS - 1)`" (R123 (c)). -/
def datarateTop (mBits eBits : Nat) : Nat × Nat := (2 ^ mBits - 1, 2 ^ eBits - 1)

/-- `DR(M,E)` of R122, with what R123 (c) says of every such equation: no rate is above that of the top pair (DEDUCED,
notes 42). Without a clock (`crystal_hz = 0`, R152) it is any function. -/
def datarateRate (eq : ℚ → Nat → Nat → ℚ) (mBits eBits : Nat) (fClk : ℚ) (c : Nat × Nat) : ℚ :=
  if fClk = 0 then eq fClk c.1 c.2
  else min (eq fClk c.1 c.2) (eq fClk (datarateTop mBits eBits).1 (datarateTop mBits eBits).2)

/-- `abs(DR(M,E) - target_bps)`. -/
def datarateErr (rate : Nat × Nat → ℚ) (target : Nat) (c : Nat × Nat) : ℚ := |rate c - (target : ℚ)|

/-- The pairs no pair beats. -/
def datarateMinimisers (rate : Nat × Nat → ℚ) (mBits eBits : Nat) (target : Nat) : List (Nat × Nat) :=
  let err := datarateErr rate target
  let best := (dataratePairs mBits eBits).foldl (fun b c => min b (err c)) (err (0, 0))
  (dataratePairs mBits eBits).filter fun c => decide (err c ≤ best)

/-- The clock the equation is fed: the crystal, halved exactly when the divider is on (R122, D6). -/
def datarateClock (clockDivided : Bool) (crystalHz : Nat) : ℚ :=
  if clockDivided then (crystalHz : ℚ) / 2 else (crystalHz : ℚ)

/-- `(mantissa, exponent)`: for a target above the largest rate the top pair (R123 (c)), else any minimiser, `tie` choosing
among equals (R123 (a), U2). -/
def datarate (eq : ℚ → Nat → Nat → ℚ) (mBits eBits : Nat) (tie : Nat) (target : Nat) (clockDivided : Bool)
    (crystalHz : Nat) : Nat × Nat :=
  let rate := datarateRate eq mBits eBits (datarateClock clockDivided crystalHz)
  let ms := datarateMinimisers rate mBits eBits target
  if 0 < crystalHz ∧ rate (datarateTop mBits eBits) < (target : ℚ) then datarateTop mBits eBits
  else ms.getD (tie % ms.length) (0, 0)

/-! ### ENC_FDEV (R124 to R126) -/

/-- `X = crystal_hz / 2^18`. -/
def fdevX (crystalHz : Nat) : ℚ := (crystalHz : ℚ) / 2 ^ 18

/-- `a(e) = X * (15/2) * 2^e`. -/
def fdevA (crystalHz e : Nat) : ℚ := fdevX crystalHz * (15 / 2) * 2 ^ e

/-- `b(m) = FDEV_B(X, m, E) = X * ((8 + m) / 2) * 2^E` (D9). -/
def fdevB (crystalHz e m : Nat) : ℚ := fdevX crystalHz * ((8 + (m : ℚ)) / 2) * 2 ^ e

/-- The mantissa for exponent `e`: the least `m` with `target_hz < b(m)`, less one if the candidate before it is strictly
closer, and never below 0 (R124, R126). The spec shows that with D9 a least `m` exists once the exponent is found; the
`none` below is not reached. -/
def fdevMantissa (targetHz crystalHz e : Nat) : Option Nat :=
  match (List.range 8).find? fun m => decide ((targetHz : ℚ) < fdevB crystalHz e m) with
  | none => none
  | some m =>
    let bp := if 0 < m then fdevB crystalHz e (m - 1) else 0
    some (if (targetHz : ℚ) - bp < fdevB crystalHz e m - (targetHz : ℚ) then m - 1 else m)

/-- `(mantissa, exponent)`, or `none` when no exponent qualifies (R125). -/
def fdev (targetHz crystalHz : Nat) : Option (Nat × Nat) :=
  match (List.range 10).find? fun e => decide ((targetHz : ℚ) < fdevA crystalHz e) with
  | none => none
  | some e => (fdevMantissa targetHz crystalHz e).map fun m => (m, e)

/-! ### ENC_CHFLT (R127 to R129) -/

/-- `S[i] = BW_TABLE[i] * BW_UNIT_HZ * (crystal_hz / 26,000,000 / divider)`. -/
def chfltEntry (table : List ℚ) (unitHz : ℚ) (clockDivided : Bool) (crystalHz i : Nat) : ℚ :=
  table.getD i 0 * unitHz * ((crystalHz : ℚ) / 26000000 / (if clockDivided then 2 else 1))

/-- The scan of R127 over the entries below `i`, from the narrow end: it stops when the delta becomes strictly larger
(D10), and on an equal delta `move` says whether the index moves (U3). -/
def chfltScan (S : Nat → ℚ) (target : ℚ) (move : Nat → Bool) : Nat → Nat → ℚ → Nat
  | 0, idx, _ => idx
  | i + 1, idx, best =>
    let d := |target - S i|
    if best < d then idx
    else if d < best then chfltScan S target move i i d
    else chfltScan S target move i (if move i then i else idx) best

/-- The index into the 90-entry table. -/
def chfltIndex (S : Nat → ℚ) (target : ℚ) (move : Nat → Bool) : Nat :=
  chfltScan S target move 89 89 |target - S 89|

/-- The index ENC_CHFLT gives; for `crystal_hz = 0` a free one of the table's 90 (R152, U5). -/
def chflt (table : List ℚ) (unitHz : ℚ) (targetHz : Nat) (clockDivided : Bool) (crystalHz : Nat) : Nat :=
  if crystalHz = 0 then Config.chfltNoCrystal targetHz clockDivided % 90
  else chfltIndex (chfltEntry table unitHz clockDivided crystalHz) (targetHz : ℚ)
    (Config.chfltMove targetHz clockDivided crystalHz)

/-! ### ENC_RSSI_TH (R141) -/

/-- `wrap_8(2 * (clamp(dbm, -130, 2) + 130))`. -/
def rssiThreshold (dbm : Int) : Byte := BitVec.ofInt 8 (2 * (clampInt dbm (-130) 2 + 130))

/-! ### ENC_RX_TIMEOUT (R142, R143) -/

/-- `n = floor(timeout_ms * xtal / 1,210,000)`. -/
def rxTimeoutUnits (timeoutMs : ℚ) (crystalHz : Nat) : Nat :=
  (timeoutMs * (effXtal crystalHz : ℚ) / 1210000).floor.toNat

/-- `(counter, prescaler)` for `n` timer units (R142, lines 3 to 8). -/
def rxTimeoutPair (n : Nat) : Nat × Nat :=
  if 253 < n / 255 then (255, 255)
  else
    let p := n / 255 + 2
    let c := n / p
    let closer : Bool := decide ((((c : Int) + 1) * p - n).natAbs < ((c : Int) * p - n).natAbs)
    (max (if closer then c + 1 else c) 1, p - 1)

/-- The counter and prescaler bytes; for `crystal_hz = 0` free ones (R152, U5). -/
def rxTimeout (timeoutMs : NonNegRat) (crystalHz : Nat) : Byte × Byte :=
  if crystalHz = 0 then Config.rxTimeoutNoCrystal timeoutMs
  else
    let cp := rxTimeoutPair (rxTimeoutUnits timeoutMs.val crystalHz)
    (BitVec.ofNat 8 cp.1, BitVec.ofNat 8 cp.2)

/-! ### ENC_PA_DBM (R144 to R146) -/

/-- `pa_row(base_hz)` (R145): the row of the coefficient table, `none` for a frequency in no band. -/
def paRow (p : Params) (baseHz : Nat) : Option Nat :=
  match bandOf p baseHz with
  | .high => some (if 900000000 ≤ baseHz then 0 else 1)
  | .middle => some 2
  | .low => some 3
  | .veryLow => some 4
  | .invalid => none

/-- The line `(m, q)` of a segment (R144). -/
def paLine (row : PaRow) : Segment → ℚ × ℚ
  | .up => (row.mUp, row.qUp)
  | .mid => (row.mMid, row.qMid)
  | .low => (row.mLow, row.qLow)

/-- `trunc(clamp(m * dbm + q, 1, 90))`. -/
def paValue (row : PaRow) (seg : Segment) (dbm : ℚ) : Int :=
  trunc (clampRat ((paLine row seg).1 * dbm + (paLine row seg).2) 1 90)

/-- The register byte, or `none` where one of the three checks of R144 fails, in the order slot, power, band. -/
def paPower (p : Params) (segment : Nat → ℚ → Segment) (slot : Nat) (dbm : ℚ) (baseHz : Nat) : Option Byte :=
  if p.paSlotMax < slot then none
  else if dbm < -31 ∨ 12 < dbm then none
  else
    match paRow p baseHz with
    | none => none
    | some row =>
      some (BitVec.ofInt 8 (paValue (p.paCoeff.getD row ⟨0, 0, 0, 0, 0, 0⟩) (segment row dbm) dbm))

/-! ### ENC_FOFFSET, ENC_CHSPACE, ENC_IF_OFFSET (R147 to R150) -/

/-- `offset_hz = trunc(xtal_offset_ppm * base_hz / 1,000,000)` (R147, D14). -/
def offsetHz (ppm : Int) (baseHz : Nat) : Int := trunc ((ppm * (baseHz : Int) : Int) / (1000000 : ℚ))

/-- `EQ_FC_OFFSET(offset_hz, crystal_hz)` with what R147 says of every such equation in its corner cases: no offset gives 0,
and a negative one a value that is not positive, so that the pattern shows its sign (DEDUCED, notes 41). -/
def fcValue (eq : Int → Nat → ℚ) (offset : Int) (crystalHz : Nat) : ℚ :=
  if crystalHz = 0 then eq offset crystalHz
  else if offset = 0 then 0
  else if offset < 0 then -|eq offset crystalHz|
  else eq offset crystalHz

/-- `fc_offset = limit_s12(trunc(EQ_FC_OFFSET(offset_hz, crystal_hz)))` (R147). -/
def fcOffset (l : Limit) (eq : Int → Nat → ℚ) (offset : Int) (crystalHz : Nat) : BitVec 12 :=
  limitS12 l (trunc (fcValue eq offset crystalHz))

/-- `limit_u8(trunc(EQ_CHSPACE(spacing_hz, crystal_hz)))` (R149). -/
def chspace (l : Limit) (eq : Nat → Nat → ℚ) (spacingHz crystalHz : Nat) : Byte :=
  limitU8 l (trunc (eq spacingHz crystalHz))

/-- `limit_u8(trunc(EQ_IF(crystal_hz)))`, truncated and not rounded (R150). -/
def ifOffset (l : Limit) (eq : Nat → ℚ) (crystalHz : Nat) : Byte := limitU8 l (trunc (eq crystalHz))

end Sys2Proof.Machine
end

