-- ==== Sys2Proof/Machine/Ops.lean ====
section
/-! DEFINITION. The shared operations of the machine: the chip's register space and the effect of a transaction on the chip
(spec/20_memory.md), the Bus Port primitives (spec/00_scope.md R16, spec/46_bus_commands.md), raising an error and ending
an operation (spec/60_exceptions.md R276, spec/10_state.md R40), one step of the sequencer and the run of a
micro-sequence (R27, R62). -/

namespace Sys2Proof.Machine

/-! ### The register space (R60 (a)) -/

/-- The byte at an address, or none where nothing has been transferred since the chip's power-up. -/
def memGet : Memory → Nat → Option Byte
  | [], _ => none
  | (b, x) :: m, a => if a = b then some x else if a < b then none else memGet m a

/-- The register space with byte `x` at address `a`; addresses stay strictly rising. -/
def memSet : Memory → Nat → Byte → Memory
  | [], a, x => [(a, x)]
  | (b, y) :: m, a, x => if a < b then (a, x) :: (b, y) :: m else if a = b then (a, x) :: m else (b, y) :: memSet m a x

/-- The register space with the bytes at the given places. -/
def memSetAll (m : Memory) : List (Nat × Byte) → Memory
  | [] => m
  | (a, x) :: cells => memSetAll (memSet m a x) cells

/-- The canonical form: addresses strictly rising, all of them register addresses `0x00 .. 0xFE` (R46, R60). An unlisted
address reads as no value, so no entry can equal it. -/
abbrev memWf (m : Memory) : Prop := (m.map Prod.fst).Pairwise (· < ·) ∧ ∀ c ∈ m, c.1 < 255

/-! ### The chip (R47, R67, R74) -/

/-- Whether address `a` is one of the `LEN(k)` bytes of kind `k` (R60 (a)). -/
def kindCovers (p : Params) (k : Kind) (a : Nat) : Bool :=
  decide (p.kindAddr k ≤ a ∧ a < p.kindAddr k + p.kindLen k)

/-- The byte stored at register address `a`: what was last put there, or what the chip powered up with (R302). -/
def storedByte (c : Chip) (a : Nat) : Byte := (memGet c.mem a).getD (Config.powerUpByte a)

/-- The `LEN(k)` bytes stored at `ADDR(k)`, most significant first. -/
def storedBytes (p : Params) (c : Chip) (k : Kind) : List Byte :=
  orderBytes p k ((List.range (p.kindLen k)).map fun i => storedByte c (p.kindAddr k + i))

/-- The bytes, in bus order, of the three registers that report the chip's hidden state (R31 to R33): the pending bits; the
state code, and the number of bytes in the RX FIFO, in the field the codec gives them. -/
def statusBytes (p : Params) (c : Chip) : Kind → List Byte
  | .irqStatus => wordBytes c.pending
  | .mcState =>
    orderBytes p .mcState (putCode (p.fieldInfo .mcState .state).bits c.stateCode (storedBytes p c .mcState))
  | .rxFifoStatus =>
    orderBytes p .rxFifoStatus
      (putCode (p.fieldInfo .rxFifoStatus .count).bits c.rxFifo.length (storedBytes p c .rxFifoStatus))
  | _ => []

/-- The kind among those three whose register covers address `a`, if any. -/
def liveKindAt (p : Params) (a : Nat) : Option Kind :=
  [Kind.irqStatus, .mcState, .rxFifoStatus].find? fun k => kindCovers p k a

/-- What the chip has at register address `a`: the hidden state where a status register stands, else the stored byte
(DESIGN CHOICE, notes 11). -/
def chipByte (p : Params) (c : Chip) (a : Nat) : Byte :=
  match liveKindAt p a with
  | some k => (statusBytes p c k).getD (a - p.kindAddr k) 0
  | none => storedByte c a

/-- What the chip has in the `LEN(k)` bytes at `ADDR(k)`, in bus order (R64). -/
def kindBytes (p : Params) (c : Chip) (k : Kind) : List Byte :=
  match k with
  | .irqStatus | .mcState | .rxFifoStatus => statusBytes p c k
  | k => (List.range (p.kindLen k)).map fun i => chipByte p c (p.kindAddr k + i)

/-- The `LEN(k)` bytes a typed read of kind `k` gets, in bus order: the answer from outside, which nothing constrains (R49,
R75), or where it says nothing what the chip has (DESIGN CHOICE, notes 11). -/
def bytesRead (p : Params) (k : Kind) (t : Turn) (c : Chip) : List Byte :=
  match t.answers.lookup k with
  | some bs => fitBytes (p.kindLen k) bs
  | none => kindBytes p c k

/-- The chip after a typed read: `IRQ_STATUS` is read-and-clear, no other typed read has a side effect (R67). -/
def chipAfterRead (k : Kind) (c : Chip) : Chip :=
  { c with pending := if k = .irqStatus then 0 else c.pending }

/-- The places `LEN(k)` payload bytes go to: consecutive addresses from `ADDR(k)` (R60 (a)). -/
def kindCells (p : Params) (k : Kind) (bytes : List Byte) : List (Nat × Byte) :=
  bytes.zipIdx.map fun x => (p.kindAddr k + x.2, x.1)

/-- The chip after a typed write (R66, R236): the payload stands at `ADDR(k)`. -/
def chipAfterWrite (p : Params) (k : Kind) (v : KindVal) (c : Chip) : Chip :=
  { c with mem := memSetAll c.mem (kindCells p k (encodeValue p k v)) }

/-- The chip after a write of one part of a kind (U1): the bytes of the part stand at their addresses. -/
def chipAfterPartWrite (p : Params) (k : Kind) (x : Transfer) (v : KindVal) (c : Chip) : Chip :=
  { c with mem := memSetAll c.mem (x.part (kindCells p k (encodeValue p k v))) }

/-- Where the bytes after the first of a raw write land: each where the turn says, and nowhere where it says nothing. -/
def laterCells : List Byte → List (Option (Fin 255)) → List (Nat × Byte)
  | x :: bytes, some a :: places => (a.val, x) :: laterCells bytes places
  | _ :: bytes, none :: places => laterCells bytes places
  | _, _ => []

/-- The places of the bytes of a raw write outside the FIFO: the first at the given address, a later one anywhere or
nowhere, at the same address too, as the turn says, since whether the address advances is not in the source (R71, N19;
DESIGN CHOICE, notes 12). -/
def rawCells (a : Byte) (bytes : List Byte) (landing : List (Option (Fin 255))) : List (Nat × Byte) :=
  match bytes with
  | [] => []
  | x :: rest => (a.toNat, x) :: laterCells rest landing

/-- A FIFO after bytes are appended: it holds 96, and what it makes of more is the chip's (R60 (b), R308, U10; DESIGN
CHOICE, notes 14). -/
def fifoAppend (held bytes : List Byte) : List Byte :=
  if held.length + bytes.length ≤ 96 then held ++ bytes else (Config.overfilled held bytes).take 96

/-- The chip after a raw write: at `0xFF` the bytes are appended to the TX FIFO, elsewhere they go to the register space
(R60, R71, R238). -/
def chipAfterRawWrite (a : Byte) (bytes : List Byte) (landing : List (Option (Fin 255))) (c : Chip) : Chip :=
  { c with
    mem := if a = 0xFF then c.mem else memSetAll c.mem (rawCells a bytes landing)
    txFifo := if a = 0xFF then fifoAppend c.txFifo bytes else c.txFifo }

/-- Byte `i` of a raw read where the answer from outside says nothing: at `0xFF` the next byte of the RX FIFO (a free one
beyond its end, U10), elsewhere what the chip has at the address for the first and a free one for a later (R60, R71,
R237, N19; DESIGN CHOICE, notes 12). -/
def rawByte (p : Params) (a : Byte) (fresh : Nat) (c : Chip) (i : Nat) : Byte :=
  if a = 0xFF then c.rxFifo.getD i (Config.missingFifoByte fresh i)
  else if i = 0 then chipByte p c a.toNat
  else Config.laterByte fresh i

/-- The `n` bytes a raw read returns: the answer from outside, which nothing constrains (R49, R75), and where it says
nothing the chip's. -/
def rawReadBytes (p : Params) (a : Byte) (n : Nat) (t : Turn) (fresh : Nat) (c : Chip) : List Byte :=
  (List.range n).map fun i => t.rawAnswer.getD i (rawByte p a fresh c i)

/-- The chip after a raw read: at `0xFF` the bytes are gone from the RX FIFO (R60 (b), R67); elsewhere a read of at least
one byte that starts in `IRQ_STATUS` is a read of it, which clears all pending bits at once (R282, R92; DEDUCED, notes 13). -/
def chipAfterRawRead (p : Params) (a : Byte) (n : Nat) (c : Chip) : Chip :=
  { c with
    rxFifo := if a = 0xFF then c.rxFifo.drop n else c.rxFifo
    pending := if a ≠ 0xFF ∧ 0 < n ∧ kindCovers p .irqStatus a.toNat = true then 0 else c.pending }

/-- One change the chip makes by itself (R75). A FIFO holds 96 bytes whatever the chip does (R60 (b)). -/
def chipDrift (c : Chip) : ChipChange → Chip
  | .register a b => { c with mem := memSet c.mem a.val b }
  | .txFifo bs => { c with txFifo := bs.take 96 }
  | .rxFifo bs => { c with rxFifo := bs.take 96 }
  | .stateCode n => { c with stateCode := n }
  | .pending w => { c with pending := w }

/-! ### Ending an operation (R40, R276) -/

/-- `raise e`: the one operation that takes an error (R276). No further step runs, `ERR` is written, the block is idle,
the result latches of the operation are unspecified (`RXBUF` is RX_BLOCKING's, notes 29), nothing else changes, so the operand
latches keep what they hold (R276; for how long, notes 46); nothing is saved and nothing is undone. -/
def raise (e : Err) (s : State) : State :=
  match s.pc with
  | .idle => { s with err := e }
  | .busy op _ =>
    { s with
      err := e
      pc := .idle
      results := unspecifyResults s.results op s.fresh
      rxbuf := unspecifyRxbuf s.rxbuf op s.fresh
      fresh := s.fresh + 1 }

/-- end (success): result latches written, `ERR` is `None`, the block is idle (R25, R27, R40). There is no return from an
error (R279); this is the only other way an operation ends. The operand latches, which R24 calls stable until then, keep
what they hold until a later request latches them (DESIGN CHOICE, notes 46). -/
def finish (r : ResultWrite) (s : State) : State :=
  { s with results := writeResults s.results r, err := .none, pc := .idle }

/-! ### The Bus Port primitives (R16, R62, R63) -/

/-- What issuing a primitive comes to: the transport has not answered yet (R62), the operation ended with an error, or
the primitive returned. -/
inductive Prim (α : Type) where
  | waiting
  | ended (s : State)
  | done (a : α) (s : State)

/-- The next answer of the world outside, with the chip changed as it says (R75). -/
def nextTurn (s : State) : Option (Turn × State) :=
  match s.turns with
  | [] => none
  | t :: ts => some (t, { s with turns := ts, chip := t.drift.foldl chipDrift s.chip })

/-- The bus trace with one more event (R17). -/
def emit (e : BusEvent) (s : State) : State := { s with trace := s.trace ++ [e] }

/-- Common to the five primitives that can fail (R63). `value` is what the primitive returns, or the error its result
raises; `effect` is what the transaction does to the chip; `event` is how it is recorded. A failed transaction may have
reached the chip or not (U9); it is recorded as `Fail` and raises `BusFailure` (R272) before anything else (R278). A raw
access of no bytes is a transaction like the others, whether or not a frame goes out for it (D36; DESIGN CHOICE,
notes 38). -/
def transact {α : Type} (s : State) (value : Turn → State → Except Err α) (effect : Turn → State → Chip)
    (event : State → Option α → BusEvent) : Prim α :=
  match nextTurn s with
  | none => .waiting
  | some (t, s1) =>
    match t.failure with
    | some f =>
      .ended (raise (.busFailure f.cause)
        (emit (event s1 none) { s1 with chip := if f.reached then effect t s1 else s1.chip }))
    | none =>
      match value t s1 with
      | .error e => .ended (raise e (emit (event s1 none) { s1 with chip := effect t s1 }))
      | .ok a => .done a (emit (event s1 (some a)) { s1 with chip := effect t s1 })

/-- `v` of `v <- decode_k(bytes)` for a typed read of kind `k` (R235). -/
def valueRead (p : Params) (k : Kind) (t : Turn) (c : Chip) : Except Err KindVal := decodeBytes p k (bytesRead p k t c)

/-- `BusRead(k)` (R64, R235). -/
def busRead (k : Kind) (s : State) : Prim KindVal :=
  transact s (fun t s1 => valueRead s1.params k t s1.chip) (fun _ s1 => chipAfterRead k s1.chip) (fun _ v => .rd k v)

/-- `BusWrite(k, v)` (R64, R236), `v` being fixed when the write reaches the chip. -/
def busWriteWith (k : Kind) (v : State → KindVal) (s : State) : Prim Unit :=
  transact s (fun _ _ => .ok ()) (fun _ s1 => chipAfterWrite s1.params k (v s1) s1.chip)
    (fun s1 r => .wr k (v s1) r.isSome)

/-- `BusWrite(k, v)`. -/
def busWrite (k : Kind) (v : KindVal) (s : State) : Prim Unit := busWriteWith k (fun _ => v) s

/-- The value a `RegSet` that does not read first writes: every other field of `k` holds what it holds on the chip (R66;
DEDUCED, notes 30). -/
def setOnChip (p : Params) (k : Kind) (fs : List (Field × FieldVal)) (c : Chip) : KindVal :=
  .record (orderBytes p k (kindBytes p c k)) fs

/-- The write of a `RegSet` that does not read first. -/
def busSet (k : Kind) (fs : List (Field × FieldVal)) (s : State) : Prim Unit :=
  busWriteWith k (fun s1 => setOnChip s1.params k fs s1.chip) s

/-- What a read of one part of kind `k` returns: the bytes of the part, or `RegisterDecodeFailure` where an enumerated field
that lies wholly in the part holds a code outside its enumeration (R66, R274, U1; notes 30). -/
def partRead (p : Params) (k : Kind) (x : Transfer) (t : Turn) (c : Chip) : Except Err (List Byte) :=
  match badCodeAmong (p.partTags k x) (orderBytes p k (bytesRead p k t c)) with
  | some code => .error (decodeFailure p k code)
  | none => .ok (x.part (bytesRead p k t c))

/-- A read of one part of kind `k` inside a `RegSet` (U1). -/
def busReadPart (k : Kind) (x : Transfer) (s : State) : Prim (List Byte) :=
  transact s (fun t s1 => partRead s1.params k x t s1.chip) (fun _ s1 => chipAfterRead k s1.chip) (fun _ bs => .rdPart k x bs)

/-- The bytes that a read of a part got, at their places in the kind. -/
def partCells (x : Transfer) (bytes : List Byte) : List (Nat × Byte) := bytes.zipIdx.map fun y => (x.first + y.2, y.1)

/-- The value of which a `RegSet` in several transactions writes the parts: every other field of `k` holds what was read of
it, and where nothing was read what it holds on the chip (R66; DEDUCED, notes 30). -/
def setOnHeld (p : Params) (k : Kind) (held : List (Nat × Byte)) (fs : List (Field × FieldVal)) (c : Chip) : KindVal :=
  .record (orderBytes p k ((kindBytes p c k).zipIdx.map fun y => (held.lookup y.2).getD y.1)) fs

/-- A write of one part of kind `k` inside a `RegSet` (U1). -/
def busWritePart (k : Kind) (x : Transfer) (held : List (Nat × Byte)) (fs : List (Field × FieldVal)) (s : State) : Prim Unit :=
  transact s (fun _ _ => .ok ())
    (fun _ s1 => chipAfterPartWrite s1.params k x (setOnHeld s1.params k held fs s1.chip) s1.chip)
    (fun s1 r => .wrPart k x (setOnHeld s1.params k held fs s1.chip) r.isSome)

/-- `MemWrite(a, |bytes|, bytes)` (R238); no bytes are no special case (D36, notes 38). -/
def memWrite (a : Byte) (bytes : List Byte) (s : State) : Prim Unit :=
  transact s (fun _ _ => .ok ()) (fun t s1 => chipAfterRawWrite a bytes t.landing s1.chip)
    (fun _ r => .wrRaw a bytes r.isSome)

/-- `MemRead(a, n)` (R237): no decode, so no decode failure; `fresh` advances, for the free bytes. `n = 0` is no special case
(D36, notes 38). -/
def memRead (a : Byte) (n : Nat) (s : State) : Prim (List Byte) :=
  transact { s with fresh := s.fresh + 1 } (fun t s1 => .ok (rawReadBytes s1.params a n t s.fresh s1.chip))
    (fun _ s1 => chipAfterRawRead s1.params a n s1.chip) (fun _ bs => .rdRaw a n bs)

/-- `BusCommand(c)` (R257): nothing in the block changes; what the chip does with it is the chip's (R75; DESIGN CHOICE,
notes 15). -/
def busCommand (c : Command) (s : State) : Prim DevState :=
  transact s (fun t s1 => .ok (decodeState s1.params t.reported)) (fun _ s1 => s1.chip) (fun _ st => .cmd c st)

/-! ### The sequencer (R27) -/

/-- The position moved to the given remaining steps of the operation in progress. -/
def goto (op : Op) (steps : List Micro) (s : State) : State := { s with pc := .busy op steps }

/-- A step that issues a primitive: it waits, ends the operation, or goes on. -/
def Prim.andThen {α : Type} (x : Prim α) (k : α → State → State) : Option State :=
  match x with
  | .waiting => none
  | .ended s => some s
  | .done a s => some (k a s)

/-- STROBE_RX (R193): X1, X2, X3. -/
def strobeSteps (p : Params) : List Micro :=
  [⟨.x1, .rawWrite p.rxPmTrim.addr [p.rxPmTrim.byte]⟩,
   ⟨.x2, .regSet .paConfig [(.cwc, .num p.rxCwc)]⟩,
   ⟨.x3, .command .rx⟩,
   ⟨.x3, .engine .rxArmed⟩]

/-- `RXBUF[0 .. c-1] <- bytes`: the bytes above keep what they held (R45, D24). -/
def fillRxbuf (buf bytes : List Byte) : List Byte := (bytes ++ buf.drop bytes.length).take 96

/-- The word of a value read from `IRQ_STATUS`. -/
def valueWord : KindVal → Word
  | .word w => w
  | _ => 0

/-- The operating state of a value read from `MC_STATE`. -/
def valueState : KindVal → DevState
  | .record _ fs => match fs.lookup .state with | some (.state st) => st | _ => .invalid
  | .word _ => .invalid

/-- The count of a value read from `RX_FIFO_STATUS`. -/
def valueCount : KindVal → Nat
  | .record _ fs => match fs.lookup .count with | some (.num n) => n | _ => 0
  | .word _ => 0

/-- W2 of R171: a poll that read the target goes on; else the poll is counted and repeated. -/
def afterPollState (target : DevState) (op : Op) (rest : List Micro) (v : KindVal) (s : State) : State :=
  if valueState v = target then goto op rest s
  else goto op (⟨.w3, .countPoll⟩ :: ⟨.w1, .pollState target⟩ :: rest) s

/-- T10 of R191: only the word read in this same poll is looked at (R67). -/
def afterPollTx (op : Op) (rest : List Micro) (v : KindVal) (s : State) : State :=
  if eventSet s.params (valueWord v) .txDataSent then goto op rest { s with engine := .txDone }
  else goto op (⟨.t11, .countPoll⟩ :: ⟨.t9, .pollTx⟩ :: rest) s

/-- V3 and V4 of R194: ready before discard and timeout (D23), the retry limit before the re-arm (R278). -/
def afterPollRx (op : Op) (rest : List Micro) (v : KindVal) (s : State) : State :=
  if eventSet s.params (valueWord v) .rxDataReady then goto op rest { s with engine := .rxReady }
  else if eventSet s.params (valueWord v) .rxDataDisc || eventSet s.params (valueWord v) .rxTimeout then
    if retryLimitPassed s.params (s.retries + 1) then
      raise (.timeout .rxRetryLimit) { s with engine := .rxDiscardedRetry, retries := s.retries + 1 }
    else
      goto op (strobeSteps s.params ++ ⟨.v5, .countPoll⟩ :: ⟨.v2, .pollRx⟩ :: rest)
        { s with engine := .rxDiscardedRetry, retries := s.retries + 1 }
  else goto op (⟨.v5, .countPoll⟩ :: ⟨.v2, .pollRx⟩ :: rest) s

/-- W3 and W4, T11, V5: the poll is counted, the limit tested, and only then the delay taken. -/
def countPoll (op : Op) (rest : List Micro) (s : State) : State :=
  if pollLimitReached s.params (s.polls + 1) then raise (.timeout .pollLimit) { s with polls := s.polls + 1 }
  else goto op rest (emit (.dly s.params.pollDelayMs) { s with polls := s.polls + 1 })

/-- V8 of R194: a count above the FIFO's capacity raises, and no byte is read (D24). -/
def afterFifoCount (op : Op) (rest : List Micro) (v : KindVal) (s : State) : State :=
  if 96 < valueCount v then raise .invalidParameter s
  else goto op (⟨.v9, .drain (valueCount v)⟩ :: rest) s

/-- V9, V10 of R194. -/
def afterDrain (c : Nat) (bytes : List Byte) (s : State) : State :=
  finish (.count (BitVec.ofNat 8 c)) { s with rxbuf := fillRxbuf s.rxbuf bytes }

/-- The first of the transactions left of a `RegSet` that goes out in several (U1), the others being left for the steps after
it. -/
def transferStep (op : Op) (l : Label) (rest : List Micro) (k : Kind) (fs : List (Field × FieldVal))
    (held : List (Nat × Byte)) (s : State) : List Transfer → Option State
  | [] => some (goto op rest s)
  | x :: left =>
    if x.read then
      (busReadPart k x s).andThen fun bs s1 => goto op (⟨l, .transfers k fs (partCells x bs ++ held) left⟩ :: rest) s1
    else (busWritePart k x held fs s).andThen fun _ s1 => goto op (⟨l, .transfers k fs held left⟩ :: rest) s1

/-- One step of a micro-sequence; `none` while its primitive has not returned. -/
def actStep (op : Op) (l : Label) (rest : List Micro) (s : State) : Act → Option State
  | .engine e => some (goto op rest { s with engine := e })
  | .zeroCounters => some (goto op rest { s with polls := 0, retries := 0 })
  | .setMask w => some (goto op rest { s with maskAcc := w })
  | .regSet k fs =>
    match (s.params.kindInfo k).transfers with
    | [] =>
      if (s.params.kindInfo k).rmw then
        (busRead k s).andThen fun v s1 => goto op (⟨l, .store k (withFields s1.params k v fs)⟩ :: rest) s1
      else (busSet k fs s).andThen fun _ s1 => goto op rest s1
    | xs => transferStep op l rest k fs [] s xs
  | .transfers k fs held xs => transferStep op l rest k fs held s xs
  | .modify k fs => (busRead k s).andThen fun v s1 => goto op (⟨l, .store k (withFields s1.params k v fs)⟩ :: rest) s1
  | .store k v => (busWrite k v s).andThen fun _ s1 => goto op rest s1
  | .readDiscard k => (busRead k s).andThen fun _ s1 => goto op rest s1
  | .readValue k => (busRead k s).andThen fun v s1 => finish (.value v) s1
  | .rawWrite a bytes => (memWrite a bytes s).andThen fun _ s1 => goto op rest s1
  | .rawRead a n => (memRead a n s).andThen fun bs s1 => finish (.bytes bs) s1
  | .command c => (busCommand c s).andThen fun _ s1 => goto op rest s1
  | .commandValue c => (busCommand c s).andThen fun st s1 => finish (.devState st) s1
  | .delay ms => some (goto op rest (emit (.dly ms) s))
  | .pollState target => (busRead .mcState s).andThen (afterPollState target op rest)
  | .pollTx => (busRead .irqStatus s).andThen (afterPollTx op rest)
  | .pollRx => (busRead .irqStatus s).andThen (afterPollRx op rest)
  | .countPoll => some (countPoll op rest s)
  | .fifoCount => (busRead .rxFifoStatus s).andThen (afterFifoCount op rest)
  | .drain c => (memRead 0xFF c s).andThen (afterDrain c)
  | .finish r => some (finish r s)
  | .raise e => some (raise e s)

/-- One step of the sequencer (R27): none when the block is idle or waits for a primitive to return; the end of the last
step ends the operation. -/
def seqStep (s : State) : Option State :=
  match s.pc with
  | .idle => none
  | .busy _ [] => some (finish .nothing s)
  | .busy op (m :: rest) => actStep op m.label rest s m.act

/-- At most `n` steps of the sequencer. -/
def runSteps : Nat → State → State
  | 0, s => s
  | n + 1, s =>
    match seqStep s with
    | none => s
    | some s1 => runSteps n s1

/-- A bound on the steps the sequencer can take before it is idle or waits for the world outside. -/
def stepBound (s : State) : Nat :=
  match s.pc with
  | .idle => 0
  | .busy _ steps => steps.length + 1 + 8 * s.turns.length

/-- The block runs by itself until it is idle or waits for a primitive to return (R62). -/
def settle (s : State) : State := runSteps (stepBound s) s

/-- Accepting a request (R8, R24, R27): only an idle block accepts; the operands are latched, the position is the first
step of the micro-sequence, and the block runs. -/
def start (i : Instr) (steps : List Micro) (s : State) : State :=
  match s.pc with
  | .busy _ _ => s
  | .idle => settle { s with operands := loadOperands i s.operands, pc := .busy (opOf i) steps }

end Sys2Proof.Machine
end

