-- ==== Sys2Proof/Machine/Bus.lean ====
section
/-! DEFINITION. The bus transactions a host issues itself between two operations (spec/46_bus_commands.md): READ, WRITE,
READ_RAW, WRITE_RAW, DELAY and the 17 commands; and the frame each bus event is on the wire (spec/30_encoding.md R90). -/

namespace Sys2Proof.Machine

/-! ### Data transactions (R235 to R239) -/

/-- WRITE (R236): a value that is none of the kind is rejected, and one too wide for its field clamped or rejected, at its
construction, before any frame is sent (R65, U12). -/
def execWrite (k : Kind) (v : KindVal) (s : State) : Host.Outcome State Fault Refusal :=
  .next (start (.write k v)
    [⟨.only, match constructValue s.params k v with
      | none => .raise .invalidParameter
      | some w => .store k w⟩] s)

/-- WRITE_RAW (R238). -/
def execWriteRaw (a : Byte) (bytes : List Byte) (s : State) : Host.Outcome State Fault Refusal :=
  .next (start (.writeRaw a bytes) [⟨.only, .rawWrite a bytes⟩] s)

/-- READ (R235). -/
def execRead (k : Kind) (s : State) : Host.Outcome State Fault Refusal :=
  .next (start (.read k) [⟨.only, .readValue k⟩] s)

/-- READ_RAW (R237). -/
def execReadRaw (a : Byte) (n : Nat) (s : State) : Host.Outcome State Fault Refusal :=
  .next (start (.readRaw a n) [⟨.only, .rawRead a n⟩] s)

/-- DELAY (R239): `ms = 0` is still recorded. -/
def execDelay (ms : Word) (s : State) : Host.Outcome State Fault Refusal :=
  .next (start (.delay ms) [⟨.only, .delay ms.toNat⟩] s)

/-! ### Commands (R257) -/

/-- TX (R240, R257). -/
def execTx (s : State) : Host.Outcome State Fault Refusal := .next (start .tx [⟨.only, .commandValue .tx⟩] s)

/-- RX (R241, R257). -/
def execRx (s : State) : Host.Outcome State Fault Refusal := .next (start .rx [⟨.only, .commandValue .rx⟩] s)

/-- READY (R242, R257). -/
def execReady (s : State) : Host.Outcome State Fault Refusal := .next (start .ready [⟨.only, .commandValue .ready⟩] s)

/-- STANDBY (R243, R257). -/
def execStandby (s : State) : Host.Outcome State Fault Refusal := .next (start .standby [⟨.only, .commandValue .standby⟩] s)

/-- SLEEP (R244, R257). -/
def execSleep (s : State) : Host.Outcome State Fault Refusal := .next (start .sleep [⟨.only, .commandValue .sleep⟩] s)

/-- LOCK_RX (R245, R257). -/
def execLockRx (s : State) : Host.Outcome State Fault Refusal := .next (start .lockRx [⟨.only, .commandValue .lockRx⟩] s)

/-- LOCK_TX (R246, R257). -/
def execLockTx (s : State) : Host.Outcome State Fault Refusal := .next (start .lockTx [⟨.only, .commandValue .lockTx⟩] s)

/-- SABORT (R247, R257). -/
def execSabort (s : State) : Host.Outcome State Fault Refusal := .next (start .sabort [⟨.only, .commandValue .sabort⟩] s)

/-- LDC_RELOAD (R248, R257). -/
def execLdcReload (s : State) : Host.Outcome State Fault Refusal := .next (start .ldcReload [⟨.only, .commandValue .ldcReload⟩] s)

/-- SEQUENCE_UPDATE (R249, R257). -/
def execSequenceUpdate (s : State) : Host.Outcome State Fault Refusal := .next (start .sequenceUpdate [⟨.only, .commandValue .sequenceUpdate⟩] s)

/-- AES_ENCRYPT (R250, R257). -/
def execAesEncrypt (s : State) : Host.Outcome State Fault Refusal := .next (start .aesEncrypt [⟨.only, .commandValue .aesEncrypt⟩] s)

/-- AES_KEY (R251, R257). -/
def execAesKey (s : State) : Host.Outcome State Fault Refusal := .next (start .aesKey [⟨.only, .commandValue .aesKey⟩] s)

/-- AES_DECRYPT (R252, R257). -/
def execAesDecrypt (s : State) : Host.Outcome State Fault Refusal := .next (start .aesDecrypt [⟨.only, .commandValue .aesDecrypt⟩] s)

/-- AES_KEY_DECRYPT (R253, R257). -/
def execAesKeyDecrypt (s : State) : Host.Outcome State Fault Refusal := .next (start .aesKeyDecrypt [⟨.only, .commandValue .aesKeyDecrypt⟩] s)

/-- S_RES (R254, R257). -/
def execSRes (s : State) : Host.Outcome State Fault Refusal := .next (start .sRes [⟨.only, .commandValue .sRes⟩] s)

/-- FLUSH_RX_FIFO (R255, R257). -/
def execFlushRxFifo (s : State) : Host.Outcome State Fault Refusal := .next (start .flushRxFifo [⟨.only, .commandValue .flushRxFifo⟩] s)

/-- FLUSH_TX_FIFO (R256, R257). -/
def execFlushTxFifo (s : State) : Host.Outcome State Fault Refusal := .next (start .flushTxFifo [⟨.only, .commandValue .flushTxFifo⟩] s)

/-! ### Frames (R90, R92 to R94) -/

/-- The bytes the block puts on the bus for an event: two header bytes and, for a write, the payload; a delay puts
nothing there (R90, R239). Whether a frame goes out for a raw access of no bytes is the transport's (R195, R237, R238,
D36); here the two header bytes do (DESIGN CHOICE, notes 38). -/
def frameOf (p : Params) : BusEvent → List Byte
  | .wr k v _ => 0x00 :: kindAddrByte p k :: encodeValue p k v
  | .rd k _ => [0x01, kindAddrByte p k]
  | .wrPart k x v _ => 0x00 :: BitVec.ofNat 8 (p.kindAddr k + x.first) :: x.part (encodeValue p k v)
  | .rdPart k x _ => [0x01, BitVec.ofNat 8 (p.kindAddr k + x.first)]
  | .wrRaw a bytes _ => 0x00 :: a :: bytes
  | .rdRaw a _ _ => [0x01, a]
  | .cmd c _ => [0x80, commandCode c]
  | .dly _ => []

end Sys2Proof.Machine
end

