-- ==== Sys2Proof/Machine/Irq.lean ====
section
/-! DEFINITION. The IRQ manager: IRQ_SILENCE, IRQ_CLEAR, IRQ_MASK_NEW, IRQ_MASK_SET, IRQ_MASK_COMMIT, IRQ_IS_SET
(spec/44_irq.md). -/

namespace Sys2Proof.Machine

/-- IRQ_SILENCE (R210): one write of the all-zero mask; `MASK_ACC` is not touched (D31). -/
def execIrqSilence (s : State) : Host.Outcome State Fault Refusal :=
  .next (start .irqSilence [⟨.only, .store .irqMask (.word 0)⟩] s)

/-- IRQ_CLEAR (R211): a read of `IRQ_STATUS`, value discarded. -/
def execIrqClear (s : State) : Host.Outcome State Fault Refusal :=
  .next (start .irqClear [⟨.only, .readDiscard .irqStatus⟩] s)

/-- IRQ_MASK_NEW (R212). -/
def execIrqMaskNew (s : State) : Host.Outcome State Fault Refusal :=
  .next (start .irqMaskNew [⟨.only, .setMask 0⟩] s)

/-- IRQ_MASK_SET (R213). -/
def execIrqMaskSet (e : Event) (s : State) : Host.Outcome State Fault Refusal :=
  .next (start (.irqMaskSet e) [⟨.only, .setMask (maskWith s.params s.maskAcc e)⟩] s)

/-- IRQ_MASK_COMMIT (R214): one write of the accumulator, which stays as it is (D31). -/
def execIrqMaskCommit (s : State) : Host.Outcome State Fault Refusal :=
  .next (start .irqMaskCommit [⟨.only, .store .irqMask (.word s.maskAcc)⟩] s)

/-- IRQ_IS_SET (R215). -/
def execIrqIsSet (w : Word) (e : Event) (s : State) : Host.Outcome State Fault Refusal :=
  .next (start (.irqIsSet w e) [⟨.only, .finish (.isSet (eventSet s.params w e))⟩] s)

end Sys2Proof.Machine
end

