-- ==== Sys2Proof/Machine/Packet.lean ====
section
/-! DEFINITION. The packet protocol configurator: PKT_CONFIGURE, PKT_CONFIGURE_FILTER (spec/45_packet.md). -/

namespace Sys2Proof.Machine

/-- The fields K2 writes (R226): the preamble length is at least 1. Whether the CRC mode itself goes into a field of `PCKTCTRL`
too "is not said" (R226); it does not here (DESIGN CHOICE, notes 39). -/
def basicFields (o : BasicOptions) : List (Field × FieldVal) :=
  [(.addressField, .flag o.addressField), (.controlLen, .num o.controlLen), (.preambleLen, .num (max o.preambleLen 1)),
   (.syncLen, .num o.syncLen), (.lengthMode, .lengthMode o.lengthMode), (.format, .basicFormat)]

/-- K1, K2, K3 for the Basic format (R226). A length too wide for its field is clamped or rejected at construction, and a
rejection ends the operation before any frame is sent (U12; notes 16). -/
def basicSteps (p : Params) (o : BasicOptions) : List Micro :=
  match constructFields p .pcktctrl (basicFields o) with
  | none => [⟨.k1, .raise .invalidParameter⟩]
  | some fs =>
    [⟨.k1, .regSet .pcktFltOptions [(.autoFiltering, .flag true), (.crcCheck, .flag (decide (o.crcMode ≠ .noCrc)))]⟩,
     ⟨.k2, .regSet .pcktctrl fs⟩,
     ⟨.k3, .store .sync (.record [o.sync0, o.sync1, o.sync2, o.sync3] [])⟩]

/-- The micro-sequence of PKT_CONFIGURE (R226, R227). -/
def pktSteps (p : Params) : PacketConfig → List Micro
  | .basic o => basicSteps p o
  | .wmbus _ => [⟨.only, .raise .notImplemented⟩]
  | .stack _ => [⟨.only, .raise .notImplemented⟩]

/-- PKT_CONFIGURE (R226, R227). -/
def execPktConfigure (c : PacketConfig) (s : State) : Host.Outcome State Fault Refusal :=
  .next (start (.pktConfigure c) (pktSteps s.params c) s)

/-- The micro-sequence of PKT_CONFIGURE_FILTER (R228): flags first, then the addresses (D32). -/
def filterSteps (f : FilterOptions) : List Micro :=
  [⟨.f1, .regSet .pcktFltOptions [(.destVsMy, .flag f.destVsMy), (.destVsMulticast, .flag f.destVsMulticast),
      (.destVsBroadcast, .flag f.destVsBroadcast)]⟩,
   ⟨.f2, .store .fltAddr (.record [] [(.my, .num f.my.toNat), (.multicast, .num f.multicast.toNat),
      (.broadcast, .num f.broadcast.toNat)])⟩]

/-- PKT_CONFIGURE_FILTER (R228). -/
def execPktConfigureFilter (f : FilterOptions) (s : State) : Host.Outcome State Fault Refusal :=
  .next (start (.pktConfigureFilter f) (filterSteps f) s)

end Sys2Proof.Machine
end

