-- ==== Sys2Proof/Machine/Linear.lean ====
section
/-! DEFINITION. ENC_RSSI_TH, ENC_RX_TIMEOUT, ENC_PA_DBM, ENC_FOFFSET, ENC_CHSPACE, ENC_IF_OFFSET
(spec/41_calc_linear.md), one pure step each (R140). -/

namespace Sys2Proof.Machine

/-- ENC_RSSI_TH (R141). -/
def execEncRssiTh (dbm : BitVec 32) (s : State) : Host.Outcome State Fault Refusal :=
  .next (start (.encRssiTh dbm) [⟨.only, .finish (.reg (rssiThreshold dbm.toInt))⟩] s)

/-- ENC_RX_TIMEOUT (R142, R143). -/
def execEncRxTimeout (t : NonNegRat) (x : Word) (s : State) : Host.Outcome State Fault Refusal :=
  .next (start (.encRxTimeout t x)
    [⟨.only, .finish (.timeout (rxTimeout t x.toNat).1 (rxTimeout t x.toNat).2)⟩] s)

/-- ENC_PA_DBM (R144 to R146). -/
def execEncPaDbm (slot : Byte) (dbm : ℚ) (b : Word) (s : State) : Host.Outcome State Fault Refusal :=
  .next (start (.encPaDbm slot dbm b)
    [⟨.only, match paPower s.params Config.paSegment slot.toNat dbm b.toNat with
      | none => .raise .invalidParameter
      | some r => .finish (.reg r)⟩] s)

/-- The FC-offset pattern for an offset in Hz, with the implementation's equation and limit (R147, R151). -/
def fcOffsetOf (p : Params) (offset : Int) (crystalHz : Nat) : BitVec 12 :=
  fcOffset p.fcLimit Config.eqFcOffset offset crystalHz

/-- `(offset_hz, fc_offset)`; for `crystal_hz = 0` a free pair (R152, U5; notes 8). -/
def foffset (p : Params) (ppm : BitVec 16) (baseHz crystalHz : Nat) : BitVec 64 × BitVec 12 :=
  if crystalHz = 0 then Config.foffsetNoCrystal ppm baseHz
  else (BitVec.ofInt 64 (offsetHz ppm.toInt baseHz), fcOffsetOf p (offsetHz ppm.toInt baseHz) crystalHz)

/-- ENC_FOFFSET (R147, R148). -/
def execEncFoffset (ppm : BitVec 16) (b x : Word) (s : State) : Host.Outcome State Fault Refusal :=
  .next (start (.encFoffset ppm b x)
    [⟨.only, .finish (.foffset (foffset s.params ppm b.toNat x.toNat).1 (foffset s.params ppm b.toNat x.toNat).2)⟩] s)

/-- The channel-spacing byte with the implementation's equation and limit (R149, R151). -/
def chspaceOf (p : Params) (spacingHz crystalHz : Nat) : Byte :=
  chspace p.chspaceLimit Config.eqChspace spacingHz crystalHz

/-- ENC_CHSPACE (R149). -/
def execEncChspace (sp x : Word) (s : State) : Host.Outcome State Fault Refusal :=
  .next (start (.encChspace sp x) [⟨.only, .finish (.reg (chspaceOf s.params sp.toNat x.toNat))⟩] s)

/-- The analog IF-offset byte (R150, R151). -/
def ifAnaOf (p : Params) (crystalHz : Nat) : Byte := ifOffset p.ifAnaLimit Config.eqIfAna crystalHz

/-- The digital IF-offset byte (R150, R151). -/
def ifDigOf (p : Params) (crystalHz : Nat) : Byte := ifOffset p.ifDigLimit Config.eqIfDig crystalHz

/-- ENC_IF_OFFSET (R150). -/
def execEncIfOffset (x : Word) (s : State) : Host.Outcome State Fault Refusal :=
  .next (start (.encIfOffset x)
    [⟨.only, .finish (.ifOffset (ifAnaOf s.params x.toNat) (ifDigOf s.params x.toNat))⟩] s)

end Sys2Proof.Machine
end

