-- ==== Sys2Proof/Machine/MantExp.lean ====
section
/-! DEFINITION. BAND_RESOLVE, ENC_DATARATE, ENC_FDEV, ENC_CHFLT (spec/40_calc_mantissa_exponent.md). Each is one pure step
that reads only its operands and the parameters and writes only its result latches and `ERR` (R120). -/

namespace Sys2Proof.Machine

/-- BAND_RESOLVE (R121). -/
def execBandResolve (b : Word) (s : State) : Host.Outcome State Fault Refusal :=
  .next (start (.bandResolve b)
    [⟨.only, if bandOf s.params b.toNat = .invalid then .raise .invalidParameter
      else .finish (.band (bandOf s.params b.toNat))⟩] s)

/-- The pair ENC_DATARATE gives with the implementation's equation and widths (R122, R123). -/
def datarateOf (p : Params) (target : Nat) (clockDivided : Bool) (crystalHz : Nat) : Nat × Nat :=
  datarate Config.drEq p.drMBits p.drEBits (Config.datarateTie target clockDivided crystalHz) target clockDivided crystalHz

/-- ENC_DATARATE (R122, R123). -/
def execEncDatarate (t : Word) (d : Bool) (x : Word) (s : State) : Host.Outcome State Fault Refusal :=
  .next (start (.encDatarate t d x)
    [⟨.only, .finish (.mantExp (BitVec.ofNat 8 (datarateOf s.params t.toNat d x.toNat).1)
      (BitVec.ofNat 8 (datarateOf s.params t.toNat d x.toNat).2))⟩] s)

/-- ENC_FDEV (R124 to R126). -/
def execEncFdev (t x : Word) (s : State) : Host.Outcome State Fault Refusal :=
  .next (start (.encFdev t x)
    [⟨.only, match fdev t.toNat x.toNat with
      | none => .raise .invalidParameter
      | some me => .finish (.mantExp (BitVec.ofNat 8 me.1) (BitVec.ofNat 8 me.2))⟩] s)

/-- The index ENC_CHFLT selects with the implementation's table (R127 to R129). -/
def chfltOf (p : Params) (target : Nat) (clockDivided : Bool) (crystalHz : Nat) : Nat :=
  chflt p.bwTable p.bwUnitHz target clockDivided crystalHz

/-- ENC_CHFLT (R127 to R129). -/
def execEncChflt (t : Word) (d : Bool) (x : Word) (s : State) : Host.Outcome State Fault Refusal :=
  .next (start (.encChflt t d x)
    [⟨.only, .finish (.mantExp (BitVec.ofNat 8 (indexMantExp (chfltOf s.params t.toNat d x.toNat)).1)
      (BitVec.ofNat 8 (indexMantExp (chfltOf s.params t.toNat d x.toNat)).2))⟩] s)

end Sys2Proof.Machine
end

