-- ==== Sys2Proof/Machine/Sequencer.lean ====
section
/-! DEFINITION. WAIT_FOR_STATE, INIT, WA_EXTRA_CURRENT (spec/42_sequencer.md). -/

namespace Sys2Proof.Machine

/-- The micro-sequence of WAIT_FOR_STATE, alone and inside INIT (R171): W0, then the poll of W1 and W2. -/
def waitSteps (target : DevState) : List Micro := [⟨.w0, .zeroCounters⟩, ⟨.w1, .pollState target⟩]

/-- WAIT_FOR_STATE (R171): `target = Invalid` is refused before any bus access (D21). -/
def execWaitForState (target : DevState) (s : State) : Host.Outcome State Fault Refusal :=
  .next (start (.waitForState target)
    (if target = .invalid then [⟨.w0, .raise .invalidParameter⟩] else waitSteps target) s)

/-- S5e of INIT: the deviation register, or the error of ENC_FDEV, which ends INIT there (R173). -/
def initFdevStep (freqDev xtalHz : Nat) : Micro :=
  match fdev freqDev xtalHz with
  | none => ⟨.s5e, .raise .invalidParameter⟩
  | some me => ⟨.s5e, .regSet .fdev [(.mantissa, .num me.1), (.exponent, .num me.2)]⟩

/-- Steps S1 to S4a of INIT (R172). -/
def initSteps1 (p : Params) (xtalHz : Nat) : List Micro :=
  [⟨.s1, .regSet .synthConfig [(.splitTime, .num p.splitTimeSet)]⟩,
   ⟨.s3a, .command .standby⟩,
   ⟨.s3b, .modify .clkdivCtrl [(.pdClkdiv, .flag (pdClkdiv xtalHz))]⟩,
   ⟨.s4a, .command .ready⟩]

/-- Steps S5a to S6 of INIT (R172), in the order of the source's sentence (D16), with the offset of S2. -/
def initSteps2 (p : Params) (o : RadioInitOptions) (baseHz xtalHz : Nat) : List Micro :=
  [⟨.s5a, .regSet .fcOffset
      [(.value, .num (fcOffsetOf p (offsetHz o.xtalOffsetPpm.toInt baseHz) xtalHz).toNat)]⟩,
   ⟨.s5b, .regSet .chspace [(.value, .num (chspaceOf p o.channelSpacing.toNat xtalHz).toNat)]⟩,
   ⟨.s5c, .regSet .ifOffsetDig [(.value, .num (ifDigOf p xtalHz).toNat), (.algEnable, .flag false)]⟩,
   ⟨.s5d, .regSet .datarate
      [(.mantissa, .num (datarateOf p o.dataRate.toNat (dualXtal xtalHz) xtalHz).1),
       (.exponent, .num (datarateOf p o.dataRate.toNat (dualXtal xtalHz) xtalHz).2),
       (.modulation, .modulation o.modulation)]⟩,
   initFdevStep o.freqDev.toNat xtalHz,
   ⟨.s5f, .regSet .chflt
      [(.mantissa, .num (indexMantExp (chfltOf p o.bandwidth.toNat (dualXtal xtalHz) xtalHz)).1),
       (.exponent, .num (indexMantExp (chfltOf p o.bandwidth.toNat (dualXtal xtalHz) xtalHz)).2)]⟩,
   ⟨.s5g, .regSet .ifOffsetAna [(.value, .num (ifAnaOf p xtalHz).toNat)]⟩,
   ⟨.s5h, .regSet .freqSelect [(.flag, .flag (freqSelect xtalHz))]⟩,
   ⟨.s5i, .regSet .chnum [(.value, .num o.channelNumber.toNat)]⟩,
   ⟨.s5j, .rawWrite 0x99 [0x80, 0xE3]⟩,
   ⟨.s5k, .rawWrite 0xBC [0x22]⟩,
   ⟨.s6, .regSet .afc [(.freezeOnSync, .flag true)]⟩]

/-- The micro-sequence of INIT (R172): S1 to S4a, the wait for READY of S4b, S5a to S6. -/
def initSteps (p : Params) (o : RadioInitOptions) (baseHz xtalHz : Nat) : List Micro :=
  initSteps1 p xtalHz ++ waitSteps .ready ++ initSteps2 p o baseHz xtalHz

/-- INIT (R172, R173, R175). -/
def execInit (o : RadioInitOptions) (s : State) : Host.Outcome State Fault Refusal :=
  .next (start (.init o) (initSteps s.params o s.baseHz.toNat s.xtalHz.toNat) s)

/-- The micro-sequence of WA_EXTRA_CURRENT (R174); with `WA_SETTLE_MS = 0` step E3 is absent (D26). -/
def waSteps (p : Params) : List Micro :=
  [⟨.e1, .rawWrite p.waEc0.addr [p.waEc0.byte]⟩, ⟨.e2, .rawWrite p.waEc1.addr [p.waEc1.byte]⟩] ++
  (if p.waSettleMs = 0 then [] else [⟨.e3, .delay p.waSettleMs⟩]) ++
  [⟨.e4, .rawWrite p.waEc2.addr [p.waEc2.byte]⟩]

/-- WA_EXTRA_CURRENT (R174). -/
def execWaExtraCurrent (s : State) : Host.Outcome State Fault Refusal :=
  .next (start .waExtraCurrent (waSteps s.params) s)

end Sys2Proof.Machine
end

