-- ==== Sys2Proof/Machine/TxRx.lean ====
section
/-! DEFINITION. TX_BLOCKING, STROBE_RX, RX_BLOCKING (spec/43_txrx.md). -/

namespace Sys2Proof.Machine

/-- The micro-sequence of TX_BLOCKING (R191): T0, the flush, the truncated payload, its length, the three writes before
the strobe (R192), the strobe, the poll loop. -/
def txSteps (p : Params) (band : Band) (payload : List Byte) : List Micro :=
  [⟨.t0, .engine .idle⟩,
   ⟨.t0, .zeroCounters⟩,
   ⟨.t1, .command .flushTxFifo⟩,
   ⟨.t3, .rawWrite 0xFF (payload.take 96)⟩,
   ⟨.t4, .regSet .pcktlen [(.length, .num (min payload.length 96))]⟩,
   ⟨.t5, .regSet .paConfig [(.cwc, .num (txCwc p band))]⟩,
   ⟨.t6, .rawWrite p.txVcoBuf.addr [p.txVcoBuf.byte]⟩,
   ⟨.t7, .rawWrite p.txPmTrim.addr [p.txPmTrim.byte]⟩,
   ⟨.t8, .command .tx⟩,
   ⟨.t8, .engine .txPending⟩,
   ⟨.t9, .pollTx⟩,
   ⟨.t10, .finish (.count (BitVec.ofNat 8 (min payload.length 96)))⟩]

/-- TX_BLOCKING (R191, R192). -/
def execTxBlocking (payload : List Byte) (s : State) : Host.Outcome State Fault Refusal :=
  .next (start (.txBlocking payload) (txSteps s.params s.band payload) s)

/-- STROBE_RX requested on its own (R193). -/
def execStrobeRx (s : State) : Host.Outcome State Fault Refusal := .next (start .strobeRx (strobeSteps s.params) s)

/-- The micro-sequence of RX_BLOCKING (R194). -/
def rxSteps (p : Params) : List Micro :=
  [⟨.v0, .engine .idle⟩, ⟨.v0, .zeroCounters⟩] ++ strobeSteps p ++ [⟨.v2, .pollRx⟩, ⟨.v7, .fifoCount⟩]

/-- RX_BLOCKING (R194 to R197). -/
def execRxBlocking (s : State) : Host.Outcome State Fault Refusal := .next (start .rxBlocking (rxSteps s.params) s)

end Sys2Proof.Machine
end

