-- ==== Sys2Proof/Machine/Dispatch.lean ====
section
/-! DEFINITION. The dispatch of an instruction to its meaning, one arm per row of spec/opcode_table.json. -/

namespace Sys2Proof.Machine

def exec (i : Instr) (s : State) : Host.Outcome State Fault Refusal :=
  match i with
  | .bandResolve b => Sys2Proof.Machine.execBandResolve b s
  | .encDatarate t d x => Sys2Proof.Machine.execEncDatarate t d x s
  | .encFdev t x => Sys2Proof.Machine.execEncFdev t x s
  | .encChflt t d x => Sys2Proof.Machine.execEncChflt t d x s
  | .encRssiTh d => Sys2Proof.Machine.execEncRssiTh d s
  | .encRxTimeout t x => Sys2Proof.Machine.execEncRxTimeout t x s
  | .encPaDbm n d b => Sys2Proof.Machine.execEncPaDbm n d b s
  | .encFoffset n b x => Sys2Proof.Machine.execEncFoffset n b x s
  | .encChspace h x => Sys2Proof.Machine.execEncChspace h x s
  | .encIfOffset x => Sys2Proof.Machine.execEncIfOffset x s
  | .init o => Sys2Proof.Machine.execInit o s
  | .waExtraCurrent => Sys2Proof.Machine.execWaExtraCurrent s
  | .waitForState t => Sys2Proof.Machine.execWaitForState t s
  | .txBlocking p => Sys2Proof.Machine.execTxBlocking p s
  | .rxBlocking => Sys2Proof.Machine.execRxBlocking s
  | .strobeRx => Sys2Proof.Machine.execStrobeRx s
  | .irqSilence => Sys2Proof.Machine.execIrqSilence s
  | .irqClear => Sys2Proof.Machine.execIrqClear s
  | .irqMaskNew => Sys2Proof.Machine.execIrqMaskNew s
  | .irqMaskSet e => Sys2Proof.Machine.execIrqMaskSet e s
  | .irqMaskCommit => Sys2Proof.Machine.execIrqMaskCommit s
  | .irqIsSet w e => Sys2Proof.Machine.execIrqIsSet w e s
  | .pktConfigure c => Sys2Proof.Machine.execPktConfigure c s
  | .pktConfigureFilter f => Sys2Proof.Machine.execPktConfigureFilter f s
  | .write k v => Sys2Proof.Machine.execWrite k v s
  | .writeRaw a bs => Sys2Proof.Machine.execWriteRaw a bs s
  | .read k => Sys2Proof.Machine.execRead k s
  | .readRaw a n => Sys2Proof.Machine.execReadRaw a n s
  | .delay m => Sys2Proof.Machine.execDelay m s
  | .tx => Sys2Proof.Machine.execTx s
  | .rx => Sys2Proof.Machine.execRx s
  | .ready => Sys2Proof.Machine.execReady s
  | .standby => Sys2Proof.Machine.execStandby s
  | .sleep => Sys2Proof.Machine.execSleep s
  | .lockRx => Sys2Proof.Machine.execLockRx s
  | .lockTx => Sys2Proof.Machine.execLockTx s
  | .sabort => Sys2Proof.Machine.execSabort s
  | .ldcReload => Sys2Proof.Machine.execLdcReload s
  | .sequenceUpdate => Sys2Proof.Machine.execSequenceUpdate s
  | .aesEncrypt => Sys2Proof.Machine.execAesEncrypt s
  | .aesKey => Sys2Proof.Machine.execAesKey s
  | .aesDecrypt => Sys2Proof.Machine.execAesDecrypt s
  | .aesKeyDecrypt => Sys2Proof.Machine.execAesKeyDecrypt s
  | .sRes => Sys2Proof.Machine.execSRes s
  | .flushRxFifo => Sys2Proof.Machine.execFlushRxFifo s
  | .flushTxFifo => Sys2Proof.Machine.execFlushTxFifo s

end Sys2Proof.Machine
end

