-- ==== Sys2Proof/Machine/Fetch.lean ====
section
/-! DEFINITION. Taking what the host presents (spec/30_encoding.md R95, R99, spec/00_scope.md R8). -/

namespace Sys2Proof.Machine

/-- What an idle block takes from the port: the decoded instruction or why there is none, and the state with it taken;
none if nothing is presented. -/
def fetch (s : State) : Option (Except DecodeError Instr × State) :=
  match s.port with
  | [] => none
  | x :: rest => some (decode s.params x, { s with port := rest })

/-- What becomes of something presented that is no instruction. An unlisted selector ends with `InvalidParameter`, no bus
access and no change but `ERR` (R99); a frame that is no frame of R92 or R93 is not run (DESIGN CHOICE, notes 26). -/
def undecodable (e : DecodeError) (s : State) : Host.Outcome State Fault Refusal :=
  match e with
  | .unlistedSelector _ => .next { s with err := .invalidParameter }
  | .unlistedFrameSelector sel => .refused (.unlistedFrameSelector sel)
  | .unlistedCommandCode code => .refused (.unlistedCommandCode code)
  | .callAddressMismatch k a => .fault (.callAddressMismatch k a)

/-- `s` idle and presented with the instruction of `nbits` bits `w` before anything else. -/
def presentFirst (s : State) (nbits w : Nat) : State :=
  match presentWord nbits w with
  | none => s
  | some x => { s with pc := .idle, port := x :: s.port }

end Sys2Proof.Machine
end

