-- ==== Sys2Proof/Machine/Step.lean ====
section
/-! DEFINITION. One step of the machine. A busy block goes on with the operation in progress (R8); an idle one takes the
next thing presented, or stays idle if there is none (R300; DESIGN CHOICE,
notes 3, 32). -/

namespace Sys2Proof.Machine

/-- The step. -/
def step (s : State) : Host.Outcome State Fault Refusal :=
  match s.pc with
  | .busy _ _ => .next (settle s)
  | .idle =>
    match fetch s with
    | none => .next s
    | some (.ok i, s1) => exec i s1
    | some (.error e, s1) => undecodable e s1

/-- The state in which the very next step takes and runs the given instruction. -/
def State.withFetchWord (s : State) (nbits w : Nat) : State := presentFirst s nbits w

end Sys2Proof.Machine
end

