-- ==== Sys2Proof/Safety.lean ====
section
/-! DEFINITION. What the claims about RPE-DSS speak of: the invariant of the machine, an idle and a waiting block, premises
about the answers of the chip and the transport, what a run put on the bus, and what each instruction may change. -/

namespace Sys2Proof.Safety

open Sys2Proof.Machine

/-! ### States -/

/-- The invariant: the parameters are as the spec constrains them, the register space is in canonical form (R60), neither
FIFO holds more than 96 bytes (R60 (b), R308), `RXBUF` has its 96 bytes (R45), and `BAND` is the classification of
`BASE_HZ` (R22). -/
structure StateInv (s : State) : Prop where
  legal : s.params.Legal
  mem : memWf s.chip.mem
  txFifo : s.chip.txFifo.length ≤ 96
  rxFifo : s.chip.rxFifo.length ≤ 96
  rxbuf : s.rxbuf.length = 96
  band : s.band = bandOf s.params s.baseHz.toNat

/-- The block is idle and accepts a request (R27). -/
abbrev Idle (s : State) : Prop := s.pc = .idle

/-- The block is busy and the primitive in progress has not returned (R62). -/
def Waiting (s : State) : Prop := s.pc ≠ .idle ∧ s.turns = [] ∧ seqStep s = none

/-- What nothing may touch (R10, R21, R49): parameters and device facts. -/
def SameFacts (s t : State) : Prop :=
  t.params = s.params ∧ t.xtalHz = s.xtalHz ∧ t.baseHz = s.baseHz ∧ t.band = s.band

/-- `Runs i s more t`: `t` is where instruction `i`, requested in `s`, has come, `more` being the answers of the world
outside that came after it had to wait: the state after `exec`, or, for an operation that an idle block accepted and that
waited, the state after the step that went on with the answers (R62). -/
inductive Runs (i : Instr) (s : State) : List Turn → State → Prop where
  | requested (t : State) : exec i s = .next t → Runs i s [] t
  | resumed (more ts : List Turn) (t u : State) : s.pc = .idle → Runs i s more t → t.pc ≠ .idle →
      step { t with turns := t.turns ++ ts } = .next u → Runs i s (more ++ ts) u

/-! ### Premises about the chip and the transport (R75) -/

/-- Whether a `RegSet` of kind `k` reads the register or a part of it (R66, U1). -/
def regSetReads (p : Params) (k : Kind) : Bool :=
  match (p.kindInfo k).transfers with
  | [] => (p.kindInfo k).rmw
  | xs => xs.any Transfer.read

/-- Whether a `RegSet` of kind `k`, or S3b of INIT, reads the register and may find a code it cannot decode (R66, R274). -/
def riskyRead (p : Params) (k : Kind) : Bool := (regSetReads p k || k == .clkdivCtrl) && p.canFail k

/-- Whether the answer `t` gives to a typed read of kind `k` decodes. -/
def answerDecodes (p : Params) (t : Turn) (k : Kind) : Bool :=
  match t.answers.lookup k with
  | some bytes => (badCode p k (orderBytes p k (fitBytes (p.kindLen k) bytes))).isNone
  | none => false

/-- The kinds INIT configures (R34, R172). -/
def initKinds : List Kind :=
  [.synthConfig, .clkdivCtrl, .fcOffset, .chspace, .ifOffsetDig, .datarate, .fdev, .chflt, .ifOffsetAna, .freqSelect,
   .chnum, .afc]

/-- The kinds a micro-sequence gives to `RegSet` (R34, R36, R38). -/
def regSetKinds : List Kind := initKinds ++ [.pcktlen, .paConfig, .pcktFltOptions, .pcktctrl]

/-- The transport delivers, and where a `RegSet` of one of the kinds `ks` reads a register with an enumerated field the answer
decodes (an answer may be any, R75, so also the bytes of the chip's own register). -/
abbrev Good (p : Params) (ks : List Kind) (t : Turn) : Prop :=
  t.failure = none ∧ ∀ k ∈ ks, riskyRead p k = true → answerDecodes p t k = true

/-- The transport delivers, and the chip changes nothing by itself and answers with what it has (the chip of R80 that answers
from its own registers). -/
abbrev Quiet (t : Turn) : Prop := t.failure = none ∧ t.drift = [] ∧ t.answers = [] ∧ t.rawAnswer = []

/-- The chip as the transaction answered by `t` finds it. -/
def chipAt (t : Turn) (c : Chip) : Chip := t.drift.foldl chipDrift c

/-- The chip after its own changes before each of a row of transactions. -/
def chipAfter (ts : List Turn) (c : Chip) : Chip := ts.foldl (fun d t => chipAt t d) c

/-- The word a read of `IRQ_STATUS` gets (R32). -/
def wordRead (p : Params) (t : Turn) (c : Chip) : Word := bytesWord (bytesRead p .irqStatus t c)

/-- The operating state a read of `MC_STATE` gets (R31, R43). -/
def stateRead (p : Params) (t : Turn) (c : Chip) : DevState :=
  decodeState p (codeAt (p.fieldInfo .mcState .state).bits (orderBytes p .mcState (bytesRead p .mcState t c)))

/-- The count a read of `RX_FIFO_STATUS` gets (R33). -/
def countRead (p : Params) (t : Turn) (c : Chip) : Nat :=
  codeAt (p.fieldInfo .rxFifoStatus .count).bits (orderBytes p .rxFifoStatus (bytesRead p .rxFifoStatus t c))

/-- The states the chip reports to a row of polls of `MC_STATE` (R31, R43). -/
def statesSeen (p : Params) : Chip → List Turn → List DevState
  | _, [] => []
  | c, t :: ts => stateRead p t (chipAt t c) :: statesSeen p (chipAt t c) ts

/-- The words a row of polls of `IRQ_STATUS` returns, each read clearing what was pending (R67). -/
def wordsSeen (p : Params) : Chip → List Turn → List Word
  | _, [] => []
  | c, t :: ts => wordRead p t (chipAt t c) :: wordsSeen p { chipAt t c with pending := 0 } ts

/-- The chip after a row of polls of `IRQ_STATUS`. -/
def chipAfterPolls (ts : List Turn) (c : Chip) : Chip := ts.foldl (fun d t => { chipAt t d with pending := 0 }) c

/-- A change that leaves the register space alone. -/
def keepsRegisters : ChipChange → Bool
  | .register _ _ => false
  | .txFifo _ | .rxFifo _ | .stateCode _ | .pending _ => true

/-- A change that leaves the TX FIFO alone. -/
def keepsTxFifo : ChipChange → Bool
  | .txFifo _ => false
  | .register _ _ | .rxFifo _ | .stateCode _ | .pending _ => true

/-- Whether a field may be given a value and has room for it: a number below the field's range, a bool, a member with a code
(R65). -/
def fits (p : Params) (k : Kind) (x : Field × FieldVal) : Bool :=
  k.fields.contains x.1 && x.1.takes x.2 &&
    match x.2 with
    | .num n => decide (n < 2 ^ p.fieldWidth k x.1)
    | .flag _ => true
    | .state _ => false
    | v => decide (v.memberIndex < (p.fieldInfo k x.1).codes.length)

/-! ### What a run put on the bus (R17) -/

/-- The bus events of `t` that `s` does not have yet. -/
def newEvents (s t : State) : List BusEvent := t.trace.drop s.trace.length

/-- Whether an event is recorded as `Fail` (R17). -/
def failed : BusEvent → Bool
  | .rd _ v => v.isNone
  | .wr _ _ ok => !ok
  | .rdPart _ _ bs => bs.isNone
  | .wrPart _ _ _ ok => !ok
  | .rdRaw _ _ bs => bs.isNone
  | .wrRaw _ _ ok => !ok
  | .cmd _ st => st.isNone
  | .dly _ => false

/-- What a micro-sequence sends: named fields of a kind (the one write of a `RegSet`, R66), the named fields as far as they
lie in one part of the kind (a write of a `RegSet` that goes out in several transactions, U1), a whole value, raw bytes, or
a command. -/
inductive Sent where
  | fields (k : Kind) (fs : List (Field × FieldVal))
  | part (k : Kind) (x : Transfer) (fs : List (Field × FieldVal))
  | whole (k : Kind) (v : KindVal)
  | raw (a : Byte) (bytes : List Byte)
  | command (c : Command)
  deriving DecidableEq, Repr

/-- What an event sent, if anything arrived. -/
def sentOf : BusEvent → Option Sent
  | .wr k (.record _ (f :: fs)) true => some (.fields k (f :: fs))
  | .wr k v true => some (.whole k v)
  | .wrPart k x (.record _ fs) true => some (.part k x fs)
  | .wrRaw a bytes true => some (.raw a bytes)
  | .cmd c (some _) => some (.command c)
  | _ => none

/-- Everything sent between `s` and `t`, in bus order. -/
def sent (s t : State) : List Sent := (newEvents s t).filterMap sentOf

/-- An event without the register bytes of a read of `MC_STATE` or `RX_FIFO_STATUS`, of which only the one field matters to the
block (R31, R33). -/
def bare : BusEvent → BusEvent
  | .rd .mcState (some (.record _ fs)) => .rd .mcState (some (.record [] fs))
  | .rd .rxFifoStatus (some (.record _ fs)) => .rd .rxFifoStatus (some (.record [] fs))
  | e => e

/-- A read of `MC_STATE` that got state `st`, without the register's bytes. -/
def stateEvent (st : DevState) : BusEvent := .rd .mcState (some (.record [] [(.state, .state st)]))

/-- A read of `RX_FIFO_STATUS` that got count `n`, without the register's bytes. -/
def countEvent (n : Nat) : BusEvent := .rd .rxFifoStatus (some (.record [] [(.count, .num n)]))

/-- The polls of `MC_STATE` that each ended in another try: a read and a delay (R171). -/
def missedStatePolls (p : Params) (seen : List DevState) : List BusEvent :=
  seen.flatMap fun st => [stateEvent st, .dly p.pollDelayMs]

/-- The polls of `IRQ_STATUS` that each ended in another try: a read and a delay (R191). -/
def missedWordPolls (p : Params) (seen : List Word) : List BusEvent :=
  seen.flatMap fun w => [.rd .irqStatus (some (.word w)), .dly p.pollDelayMs]

/-- Transactions one `RegSet` of kind `k` takes (R66, U1). -/
def regSetTurns (p : Params) (k : Kind) : Nat :=
  match (p.kindInfo k).transfers with
  | [] => if (p.kindInfo k).rmw then 2 else 1
  | xs => xs.length

/-- What a `RegSet` of kind `k` sends (R66, U1). -/
def regSends (p : Params) (k : Kind) (fs : List (Field × FieldVal)) : List Sent :=
  match (p.kindInfo k).transfers with
  | [] => [.fields k fs]
  | xs => (xs.filter fun x => !x.read).map fun x => .part k x fs

/-- Transactions INIT takes up to its wait: S1 to S4a of R172. -/
def turnsToWait (p : Params) : Nat := regSetTurns p .synthConfig + 4

/-- Transactions INIT takes for S5a to S5d of R172. -/
def turnsOfDerived (p : Params) : Nat :=
  regSetTurns p .fcOffset + regSetTurns p .chspace + regSetTurns p .ifOffsetDig + regSetTurns p .datarate

/-- Transactions INIT takes for S5e to S6 of R172. -/
def turnsOfRest (p : Params) : Nat :=
  regSetTurns p .fdev + regSetTurns p .chflt + regSetTurns p .ifOffsetAna + regSetTurns p .freqSelect +
    regSetTurns p .chnum + 2 + regSetTurns p .afc

/-- What INIT sends up to its wait: S1 to S4a of R172. -/
def initBeforeWait (p : Params) (x : Nat) : List Sent :=
  regSends p .synthConfig [(.splitTime, .num p.splitTimeSet)] ++
  [.command .standby,
   .fields .clkdivCtrl [(.pdClkdiv, .flag (!decide (30000000 < x)))],
   .command .ready]

/-- What INIT sends at S5a to S5d of R172. -/
def initDerived (p : Params) (o : RadioInitOptions) (baseHz x : Nat) : List Sent :=
  regSends p .fcOffset [(.value, .num (fcOffsetOf p (offsetHz o.xtalOffsetPpm.toInt baseHz) x).toNat)] ++
  regSends p .chspace [(.value, .num (chspaceOf p o.channelSpacing.toNat x).toNat)] ++
  regSends p .ifOffsetDig [(.value, .num (ifDigOf p x).toNat), (.algEnable, .flag false)] ++
  regSends p .datarate
    [(.mantissa, .num (datarateOf p o.dataRate.toNat (decide (30000000 < x)) x).1),
     (.exponent, .num (datarateOf p o.dataRate.toNat (decide (30000000 < x)) x).2),
     (.modulation, .modulation o.modulation)]

/-- What INIT sends at S5f to S6 of R172. -/
def initRest (p : Params) (o : RadioInitOptions) (x : Nat) : List Sent :=
  regSends p .chflt
    [(.mantissa, .num (chfltOf p o.bandwidth.toNat (decide (30000000 < x)) x % 9)),
     (.exponent, .num (chfltOf p o.bandwidth.toNat (decide (30000000 < x)) x / 9))] ++
  regSends p .ifOffsetAna [(.value, .num (ifAnaOf p x).toNat)] ++
  regSends p .freqSelect [(.flag, .flag (decide (25000000 ≤ if 30000000 < x then x / 2 else x)))] ++
  regSends p .chnum [(.value, .num o.channelNumber.toNat)] ++
  [.raw 0x99 [0x80, 0xE3], .raw 0xBC [0x22]] ++
  regSends p .afc [(.freezeOnSync, .flag true)]

/-- What PKT_CONFIGURE sends for the Basic format when its three lengths go out as given (R226, K1 to K3). -/
def packetSends (p : Params) (o : BasicOptions) (controlLen preambleLen syncLen : Nat) : List Sent :=
  regSends p .pcktFltOptions [(.autoFiltering, .flag true), (.crcCheck, .flag (decide (o.crcMode ≠ .noCrc)))] ++
  regSends p .pcktctrl
    [(.addressField, .flag o.addressField), (.controlLen, .num controlLen), (.preambleLen, .num preambleLen),
     (.syncLen, .num syncLen), (.lengthMode, .lengthMode o.lengthMode), (.format, .basicFormat)] ++
  [.whole .sync (.record [o.sync0, o.sync1, o.sync2, o.sync3] [])]

/-- What STROBE_RX sends (R193). -/
def strobeSends (p : Params) : List Sent :=
  .raw p.rxPmTrim.addr [p.rxPmTrim.byte] :: regSends p .paConfig [(.cwc, .num p.rxCwc)] ++ [.command .rx]

/-- Transactions one STROBE_RX takes (R193). -/
def strobeTurns (p : Params) : Nat := 2 + regSetTurns p .paConfig

/-- Whether a word makes RX_BLOCKING re-arm (R194, V4). -/
def rearms (p : Params) (w : Word) : Bool := eventSet p w .rxDataDisc || eventSet p w .rxTimeout

/-- A row of polls of RX_BLOCKING that each found no ready event, with the answers to the strobe that follows a discard or a
timeout (R194, V2 to V6): each poll's word shows no ready, and a strobe follows exactly where it shows one of the two. -/
def rxMisses (p : Params) : Chip → List (Turn × List Turn) → Prop
  | _, [] => True
  | c, (t, again) :: rounds =>
    eventSet p (wordRead p t (chipAt t c)) .rxDataReady = false ∧
      again.length = (if rearms p (wordRead p t (chipAt t c)) then strobeTurns p else 0) ∧
      rxMisses p (chipAfter again { chipAt t c with pending := 0 }) rounds

/-- The answers that such a row uses up, in order. -/
def rxTurns (rounds : List (Turn × List Turn)) : List Turn := rounds.flatMap fun r => r.1 :: r.2

/-- How many of the polls of such a row re-armed the receiver. -/
def rearmCount (rounds : List (Turn × List Turn)) : Nat := rounds.countP fun r => !r.2.isEmpty

/-- The chip after such a row. -/
def rxEnd (rounds : List (Turn × List Turn)) (c : Chip) : Chip :=
  rounds.foldl (fun d r => chipAfter r.2 { chipAt r.1 d with pending := 0 }) c

/-! ### What an instruction may change -/

/-- The addresses of kind `k`. -/
def kindPlaces (p : Params) (k : Kind) : List Nat := (List.range (p.kindLen k)).map (p.kindAddr k + ·)

/-- The address of the first byte of a raw write of `n` bytes at `a`; none in the FIFO. -/
def rawPlaces (a : Byte) (n : Nat) : List Nat := if a = 0xFF ∨ n = 0 then [] else [a.toNat]

/-- The addresses where the turns put the bytes after the first of a raw write (R71; notes 12), for the instructions that
write more than one byte raw outside the FIFO. -/
def landings (i : Instr) (ts : List Turn) : List Nat :=
  match i with
  | .init _ | .writeRaw _ _ => ts.flatMap fun t => t.landing.filterMap fun a => a.map Fin.val
  | _ => []

/-- The addresses of the register space an instruction may store to, on any of its paths (R70). -/
def storesTo (p : Params) : Instr → List Nat
  | .init _ =>
    initKinds.flatMap (kindPlaces p) ++ rawPlaces 0x99 2 ++ rawPlaces 0xBC 1
  | .waExtraCurrent => rawPlaces p.waEc0.addr 1 ++ rawPlaces p.waEc1.addr 1 ++ rawPlaces p.waEc2.addr 1
  | .txBlocking _ =>
    [Kind.pcktlen, .paConfig].flatMap (kindPlaces p) ++ rawPlaces p.txVcoBuf.addr 1 ++ rawPlaces p.txPmTrim.addr 1
  | .rxBlocking | .strobeRx => kindPlaces p .paConfig ++ rawPlaces p.rxPmTrim.addr 1
  | .irqSilence | .irqMaskCommit => kindPlaces p .irqMask
  | .pktConfigure (.basic _) => [Kind.pcktFltOptions, .pcktctrl, .sync].flatMap (kindPlaces p)
  | .pktConfigureFilter _ => [Kind.pcktFltOptions, .fltAddr].flatMap (kindPlaces p)
  | .write k _ => kindPlaces p k
  | .writeRaw a bytes => rawPlaces a bytes.length
  | .bandResolve _ | .encDatarate _ _ _ | .encFdev _ _ | .encChflt _ _ _ | .encRssiTh _ | .encRxTimeout _ _
  | .encPaDbm _ _ _ | .encFoffset _ _ _ | .encChspace _ _ | .encIfOffset _ | .waitForState _ | .irqClear | .irqMaskNew
  | .irqMaskSet _ | .irqIsSet _ _ | .pktConfigure (.wmbus _) | .pktConfigure (.stack _) | .read _ | .readRaw _ _
  | .delay _ | .tx | .rx | .ready | .standby | .sleep | .lockRx | .lockTx | .sabort | .ldcReload | .sequenceUpdate
  | .aesEncrypt | .aesKey | .aesDecrypt | .aesKeyDecrypt | .sRes | .flushRxFifo | .flushTxFifo => []

/-- The ten calculators (R26). -/
def isCalculator : Instr → Bool
  | .bandResolve _ | .encDatarate _ _ _ | .encFdev _ _ | .encChflt _ _ _ | .encRssiTh _ | .encRxTimeout _ _
  | .encPaDbm _ _ _ | .encFoffset _ _ _ | .encChspace _ _ | .encIfOffset _ => true
  | _ => false

/-- The instructions that touch no bus (R120, R212, R213, R215, R239). -/
def isBusFree (i : Instr) : Bool :=
  isCalculator i ||
    match i with
    | .irqMaskNew | .irqMaskSet _ | .irqIsSet _ _ | .pktConfigure (.wmbus _) | .pktConfigure (.stack _) | .delay _ => true
    | _ => false

/-- The instructions that may write `ENGINE` (R28). -/
def writesEngine : Instr → Bool
  | .txBlocking _ | .rxBlocking | .strobeRx => true
  | _ => false

/-- The instructions that write `MASK_ACC` (R29). -/
def writesMaskAcc : Instr → Bool
  | .irqMaskNew | .irqMaskSet _ => true
  | _ => false

/-- The instructions that use the software counters (R284). -/
def usesCounters : Instr → Bool
  | .init _ | .waitForState _ | .txBlocking _ | .rxBlocking => true
  | _ => false

/-- The result latches with those of instruction `i` (R25) blanked: what `i` may not change is equal under this. -/
def otherResults (i : Instr) (r : Results) : Results :=
  match opOf i with
  | .bandResolve => { r with band := .invalid }
  | .encDatarate | .encFdev | .encChflt => { r with mantissa := 0, exponent := 0 }
  | .encRssiTh | .encPaDbm | .encChspace => { r with reg := 0 }
  | .encRxTimeout => { r with counter := 0, prescaler := 0 }
  | .encFoffset => { r with offsetHz := 0, fcOffset := 0 }
  | .encIfOffset => { r with ana := 0, dig := 0 }
  | .txBlocking | .rxBlocking => { r with count := 0 }
  | .irqIsSet => { r with isSet := false }
  | .read => { r with value := .record [] [] }
  | .readRaw => { r with bytes := [] }
  | .command _ => { r with devState := .invalid }
  | .init | .waExtraCurrent | .waitForState | .strobeRx | .irqSilence | .irqClear | .irqMaskNew | .irqMaskSet
  | .irqMaskCommit | .pktConfigure | .pktConfigureFilter | .write | .writeRaw | .delay => r

/-- The errors an instruction may end with: the last column of the table of R271, and `InvalidParameter` from a rejected
field value of a host-supplied packet option or of a WRITE (U12). -/
def mayEndWith : Instr → Err → Bool
  | _, .none => true
  | i, .busFailure _ => !isBusFree i
  | .bandResolve _, .invalidParameter | .encFdev _ _, .invalidParameter | .encPaDbm _ _ _, .invalidParameter
  | .waitForState _, .invalidParameter | .rxBlocking, .invalidParameter | .init _, .invalidParameter
  | .pktConfigure (.basic _), .invalidParameter | .write _ _, .invalidParameter => true
  | .read k, .registerDecodeFailure k' _ => k == k'
  | .init _, .registerDecodeFailure k _ => initKinds.contains k
  | .txBlocking _, .registerDecodeFailure k _ => [Kind.pcktlen, .paConfig].contains k
  | .rxBlocking, .registerDecodeFailure k _ | .strobeRx, .registerDecodeFailure k _ => k == .paConfig
  | .pktConfigure (.basic _), .registerDecodeFailure k _ => [Kind.pcktFltOptions, .pcktctrl].contains k
  | .pktConfigureFilter _, .registerDecodeFailure k _ => k == .pcktFltOptions
  | .pktConfigure (.wmbus _), .notImplemented | .pktConfigure (.stack _), .notImplemented => true
  | .waitForState _, .timeout l | .init _, .timeout l | .txBlocking _, .timeout l => l == .pollLimit
  | .rxBlocking, .timeout _ => true
  | _, _ => false

end Sys2Proof.Safety
end

