-- ==== Sys2Proof/Certificates/Slice0/Obligations.lean ====
section
/-! DEFINITION. The statements about RPE-DSS for the provers. Each docstring names the rules it formalises. Unless a
statement says otherwise it holds for every state, so for every value of the parameters (which State carries), of the
chip's hidden state, of the free values' counter and of the answers still to come. -/

open Sys2Proof Sys2Proof.Machine Sys2Proof.Safety

/-! ### Reset and steps -/

/-- R300 with the values R48 gives (the latches, `RXBUF` and the chip, which R48 leaves unspecified, are not spoken of). -/
def Obligations.ResetSamplesStrapsAndIsIdle : Prop :=
  (∃ p : Params, p.Legal ∧ State.reset = State.resetWith p) ∧
  ∀ p : Params,
    (State.resetWith p).params = p ∧ (State.resetWith p).xtalHz = p.xtalStrap ∧
    (State.resetWith p).baseHz = p.baseStrap ∧ (State.resetWith p).band = bandOf p p.baseStrap.toNat ∧
    (State.resetWith p).pc = .idle ∧ (State.resetWith p).engine = .idle ∧ (State.resetWith p).maskAcc = 0 ∧
    (State.resetWith p).err = .none ∧ (State.resetWith p).trace = []

/-- The invariant of `StepKeepsInvariant` holds after reset. -/
def Obligations.ResetMeetsInvariant : Prop := StateInv State.reset

/-- What every step keeps: legal parameters, a register space in canonical form inside `0x00 .. 0xFE` (R60), at most
96 bytes in each FIFO (R60 (b), R308; that a FIFO keeps to it when more is written is notes 14), 96 bytes of `RXBUF` (R45), `BAND` the classification of `BASE_HZ` (R22). -/
def Obligations.StepKeepsInvariant : Prop := ∀ s t : State, StateInv s → step s = .next t → StateInv t

/-- A step of an idle block runs the instruction that the thing presented first decodes to, with that thing taken from the
port (R27, R95); with nothing presented the block stays as it is (R300). -/
def Obligations.StepRunsDecodedInstruction : Prop :=
  (∀ (s : State) (x : Presented) (rest : List Presented) (i : Instr),
    Idle s → s.port = x :: rest → decode s.params x = .ok i → step s = exec i { s with port := rest }) ∧
  ∀ s : State, Idle s → s.port = [] → step s = .next s

/-- R8: what is presented while an operation is in progress is not accepted until it ends. That the operand latches stay as
they are when the operation in progress ends in that step is the model's choice (notes 46). -/
def Obligations.BusyBlockAcceptsNothing : Prop :=
  ∀ (s : State) (op : Op) (l : List Micro), s.pc = .busy op l →
    (∀ i : Instr, exec i s = .next s) ∧ ∃ t : State, step s = .next t ∧ t.port = s.port ∧ t.operands = s.operands

/-- R62, R27: after a step the block is idle, or busy with a primitive that has not returned; it never stops between
(that a step runs that far is the model's choice, notes 32). -/
def Obligations.StepEndsIdleOrWaiting : Prop := ∀ s t : State, step s = .next t → Idle t ∨ Waiting t

/-- R99: an unlisted selector changes nothing but `ERR`; the legal encoding of a WMBus or STack configuration fails with
`NotImplemented`. -/
def Obligations.UnlistedSelectorIsInvalidParameter : Prop :=
  (∀ (s : State) (op : BitVec 8) (o : Operands) (rest : List Presented),
    Idle s → s.port = ⟨.req op, o⟩ :: rest →
    op ∉ [0x00, 0x01, 0x02, 0x03, 0x04, 0x05, 0x06, 0x07, 0x08, 0x09, 0x10, 0x11, 0x12, 0x20, 0x21, 0x22,
      0x30, 0x31, 0x32, 0x33, 0x34, 0x35, 0x40, 0x41] →
    step s = .next { s with port := rest, err := .invalidParameter }) ∧
  ∀ (s : State) (o : Operands) (b : List Byte), Idle s →
    exec (.pktConfigure (.wmbus b)) s =
      .next { s with operands := { s.operands with cfg := .wmbus b }, err := .notImplemented, fresh := s.fresh + 1 } ∧
    exec (.pktConfigure (.stack b)) s =
      .next { s with operands := { s.operands with cfg := .stack b }, err := .notImplemented, fresh := s.fresh + 1 } ∧
    decode s.params ⟨.req 0x40, { o with cfg := .wmbus b }⟩ = .ok (.pktConfigure (.wmbus b)) ∧
    decode s.params ⟨.req 0x40, { o with cfg := .stack b }⟩ = .ok (.pktConfigure (.stack b))

/-! ### Encodings -/

/-- A few words of the opcode table, written out from R92, R93 and R96, decode to their instructions. That `0x00FF` and
`0x0199`, frames that name no kind, are the raw calls is the model's choice (R92 gives a typed call and a raw one the same
frame; notes 25). -/
def Obligations.SampleWordsDecode : Prop :=
  decodeTableWord 8 0x04 = some (.encRssiTh 0) ∧ decodeTableWord 8 0x11 = some .waExtraCurrent ∧
  decodeTableWord 8 0x21 = some .rxBlocking ∧ decodeTableWord 8 0x32 = some .irqMaskNew ∧
  decodeTableWord 16 0x00FF = some (.writeRaw 0xFF []) ∧ decodeTableWord 16 0x0199 = some (.readRaw 0x99 0) ∧
  decodeTableWord 16 0x8067 = some .sabort ∧ decodeTableWord 16 0x8070 = some .sRes

/-- Decoding what the encoder writes for an instruction, well-formed or not, over operand lines of any other content, gives the
instruction back, with every operand at every value (R92, R93, R95, R96). That this holds of `PA_POWER[slot]` for a slot
above `PA_SLOT_MAX` too is the model's choice (notes 43). -/
def Obligations.DecodeInvertsEncode : Prop :=
  ∀ (p : Params) (o : Operands) (i : Instr), decode p (encodeOver p o i) = .ok i

/-- What decodes has one meaning: the header is that of the instruction, the operand lines carry its operands, and it is
well-formed or a WRITE of a value that its construction rejects; what does not decode is the encoding of no instruction
(R92, R93, R96; the rejection is the model's choice, notes 16). That this holds of `PA_POWER[slot]` for a slot above
`PA_SLOT_MAX` too is the model's choice (notes 43). -/
def Obligations.DecodedIsWhatWasEncoded : Prop :=
  ∀ (p : Params) (x : Presented),
    (∀ i : Instr, decode p x = .ok i → encodeOver p x.operands i = x ∧
      (i.wf = true ∨ ∃ (k : Kind) (v : KindVal), i = .write k v ∧ constructValue p k v = none)) ∧
    ∀ e : DecodeError, decode p x = .error e → ∀ (o : Operands) (i : Instr), encodeOver p o i ≠ x

/-! ### What instructions leave alone -/

/-- R10, R21: the device facts and the parameters are written by no step and no instruction (that the
parameters stand in State is the model's choice, notes 1). -/
def Obligations.DeviceFactsNeverChange : Prop :=
  (∀ s t : State, step s = .next t → SameFacts s t) ∧
  ∀ (i : Instr) (s t : State), exec i s = .next t → SameFacts s t

/-- The frame of memory, for all 46 instructions on all of their paths, pauses included (R61, R62, R69, R70): with a chip that
changes no register by itself, every byte of the register space outside the addresses the instruction may store to reads as
before (the bytes of a raw transfer after its first land where the answers from outside say: the model's parameter,
notes 12). -/
def Obligations.MemoryChangesOnlyWhereStored : Prop :=
  ∀ (i : Instr) (s t : State) (more : List Turn), Runs i s more t →
    (∀ x ∈ s.turns ++ more, ∀ d ∈ x.drift, keepsRegisters d = true) →
    ∀ a : Nat, a ∉ storesTo s.params i → a ∉ landings i (s.turns ++ more) → memGet t.chip.mem a = memGet s.chip.mem a

/-- The frame of the block's own state, for all 46 instructions, pauses included (R24 to R26, R28, R29, R45, R62, R284):
what each may write and nothing else; the bus trace only grows, and the answers from outside are used in order. That the
operand latches keep what was latched after the operation has ended is the model's choice (notes 46). -/
def Obligations.BlockStateChangesOnlyWhereOwned : Prop :=
  ∀ (i : Instr) (s t : State) (more : List Turn), Runs i s more t →
    (writesEngine i = false → t.engine = s.engine) ∧ (writesMaskAcc i = false → t.maskAcc = s.maskAcc) ∧
    (i ≠ .rxBlocking → t.rxbuf = s.rxbuf) ∧ (usesCounters i = false → t.polls = s.polls ∧ t.retries = s.retries) ∧
    otherResults i t.results = otherResults i s.results ∧ (Idle s → t.operands = loadOperands i s.operands) ∧
    t.port = s.port ∧ (∃ used : List Turn, s.turns ++ more = used ++ t.turns) ∧ ∃ es : List BusEvent, t.trace = s.trace ++ es

/-- The instructions that touch no bus end in their one step, whatever the chip and the transport do (R120, R140, R212,
R213, R215, R227, R239). -/
def Obligations.BusFreeInstructionsEndAtOnce : Prop :=
  ∀ (i : Instr) (s t : State), isBusFree i = true → Idle s → exec i s = .next t →
    Idle t ∧ t.chip = s.chip ∧ t.turns = s.turns ∧ ((∀ ms : Word, i ≠ .delay ms) → t.trace = s.trace)

/-- R120: a calculator takes no device fact implicitly: the facts make no difference to its results and its error. That they
make none to the free values either, after an error and for `crystal_hz = 0`, is the model's choice (notes 8, 9). -/
def Obligations.CalculatorsIgnoreDeviceFacts : Prop :=
  ∀ (i : Instr) (s t u : State) (x b : Word) (d : Band), isCalculator i = true →
    exec i s = .next t → exec i { s with xtalHz := x, baseHz := b, band := d } = .next u →
    u.results = t.results ∧ u.err = t.err

/-! ### Errors -/

/-- R271 to R275, R277: which errors each instruction can end with, at once or after pauses (R62); and a decode failure
never names a kind whose decode is total (R274). That a WRITE can end with `InvalidParameter` is the model's choice
(notes 16). -/
def Obligations.ErrorKindsByInstruction : Prop :=
  ∀ (i : Instr) (s t : State) (more : List Turn), Idle s → Runs i s more t → Idle t →
    mayEndWith i t.err = true ∧
    ∀ (k : Kind) (code : Option Nat), t.err = .registerDecodeFailure k code →
      k ∉ [Kind.mcState, .irqMask, .irqStatus, .rxFifoStatus]

/-- R63, R276, R278: once a primitive has failed, at once or after pauses (R62), nothing more is put on the bus, the block
is idle, and `ERR` says so (a read that does not decode counts as failed: the model's choice, notes 17). -/
def Obligations.FailedPrimitiveEndsOperation : Prop :=
  ∀ (i : Instr) (s t : State) (more : List Turn) (before after : List BusEvent) (e : BusEvent),
    Idle s → Runs i s more t → newEvents s t = before ++ e :: after → failed e = true →
    after = [] ∧ Idle t ∧ (∀ x ∈ before, failed x = false) ∧
    ((∃ cause : Nat, t.err = .busFailure cause) ∨ ∃ (k : Kind) (code : Option Nat), t.err = .registerDecodeFailure k code)

/-! ### Calculators -/

/-- R121: the four ranges with both ends included, `band_of` for the rest being an error; the selector is `0x00`. After the
end the operand latches keep what was latched (the model's choice, notes 46). -/
def Obligations.BandResolveByRanges : Prop :=
  ∀ (b : Word) (o : Operands) (s : State), s.params.Legal → Idle s →
    let answers (d : Band) : Prop := exec (.bandResolve b) s =
      .next { s with operands := { s.operands with baseHz := b }, results := { s.results with band := d }, err := .none }
    decode s.params ⟨.req 0x00, { o with baseHz := b }⟩ = .ok (.bandResolve b) ∧
    (779000000 ≤ b.toNat ∧ b.toNat ≤ 956000000 → answers .high) ∧
    (387000000 ≤ b.toNat ∧ b.toNat ≤ 470000000 → answers .middle) ∧
    (300000000 ≤ b.toNat ∧ b.toNat ≤ 348000000 → answers .low) ∧
    (s.params.vlMin ≤ b.toNat ∧ b.toNat ≤ s.params.vlMax → answers .veryLow) ∧
    (¬ (779000000 ≤ b.toNat ∧ b.toNat ≤ 956000000) ∧ ¬ (387000000 ≤ b.toNat ∧ b.toNat ≤ 470000000) ∧
      ¬ (300000000 ≤ b.toNat ∧ b.toNat ≤ 348000000) ∧ ¬ (s.params.vlMin ≤ b.toNat ∧ b.toNat ≤ s.params.vlMax) →
      exec (.bandResolve b) s =
        .next { s with
          operands := { s.operands with baseHz := b }
          results := { s.results with band := Config.freeBand s.fresh }
          err := .invalidParameter
          fresh := s.fresh + 1 })

/-- R122, R123: for every equation and every field width, the result is a pair no pair of the two fields beats, and for a
target above the largest rate it is the pair of the two largest field values, whose rate is the largest; the clock is halved
exactly when the divider is on; no error. The equation is any function whose rates are cut at that pair's (the model's reading
of R123 (c), notes 42). After the end the operand latches keep what was latched (the model's choice, notes 46). -/
def Obligations.DatarateIsAMinimiser : Prop :=
  ∀ (t : Word) (d : Bool) (x : Word) (o : Operands) (s : State), s.params.Legal → Idle s → 0 < x.toNat →
    let fClk : ℚ := if d then (x.toNat : ℚ) / 2 else x.toNat
    let largest : ℚ := Config.drEq fClk (2 ^ s.params.drMBits - 1) (2 ^ s.params.drEBits - 1)
    let rate (m e : Nat) : ℚ := min (Config.drEq fClk m e) largest
    decode s.params ⟨.req 0x01, { o with targetBps := t, clockDivided := d, crystalHz := x }⟩ = .ok (.encDatarate t d x) ∧
    ∃ m e : Nat, m < 2 ^ s.params.drMBits ∧ e < 2 ^ s.params.drEBits ∧
      (∀ m' e' : Nat, m' < 2 ^ s.params.drMBits → e' < 2 ^ s.params.drEBits →
        |rate m e - (t.toNat : ℚ)| ≤ |rate m' e' - (t.toNat : ℚ)|) ∧
      (largest < (t.toNat : ℚ) → m = 2 ^ s.params.drMBits - 1 ∧ e = 2 ^ s.params.drEBits - 1) ∧
      (BitVec.ofNat 8 m).toNat = m ∧ (BitVec.ofNat 8 e).toNat = e ∧
      exec (.encDatarate t d x) s =
        .next { s with
          operands := { s.operands with targetBps := t, clockDivided := d, crystalHz := x }
          results := { s.results with mantissa := BitVec.ofNat 8 m, exponent := BitVec.ofNat 8 e }
          err := .none }

/-- R124, R126: the least exponent, the least mantissa, the strict "previous candidate was closer" test and the clamp at
zero, when some exponent qualifies. After the end the operand latches keep what was latched (the model's choice,
notes 46). -/
def Obligations.FdevFollowsPseudocode : Prop :=
  ∀ (t x : Word) (o : Operands) (s : State), Idle s → 0 < x.toNat →
    let X : ℚ := (x.toNat : ℚ) / 2 ^ 18
    let a (e : Nat) : ℚ := X * (15 / 2) * 2 ^ e
    let b (e m : Nat) : ℚ := X * ((8 + (m : ℚ)) / 2) * 2 ^ e
    decode s.params ⟨.req 0x02, { o with targetHz := t, crystalHz := x }⟩ = .ok (.encFdev t x) ∧
    ((∃ e : Nat, e ≤ 9 ∧ (t.toNat : ℚ) < a e) →
      ∃ e m r : Nat, e ≤ 9 ∧ (t.toNat : ℚ) < a e ∧ (∀ e' < e, a e' ≤ (t.toNat : ℚ)) ∧
        m ≤ 7 ∧ (t.toNat : ℚ) < b e m ∧ (∀ m' < m, b e m' ≤ (t.toNat : ℚ)) ∧
        (0 < m → (t.toNat : ℚ) - b e (m - 1) < b e m - (t.toNat : ℚ) → r = m - 1) ∧
        (0 < m → ¬ (t.toNat : ℚ) - b e (m - 1) < b e m - (t.toNat : ℚ) → r = m) ∧
        (m = 0 → r = 0) ∧
        exec (.encFdev t x) s =
          .next { s with
            operands := { s.operands with targetHz := t, crystalHz := x }
            results := { s.results with mantissa := BitVec.ofNat 8 r, exponent := BitVec.ofNat 8 e }
            err := .none })

/-- R125: a target at or above `crystal_hz * 3840 / 2^18` is refused with `InvalidParameter`, its result latches then being
free (notes 9); one below it is not, and gives a mantissa of at most 7 and an exponent of at most 9 (R124). After the end the
operand latches keep what was latched (the model's choice, notes 46). -/
def Obligations.FdevRefusesAboveLargest : Prop :=
  ∀ (t x : Word) (s : State), Idle s → 0 < x.toNat →
    ((x.toNat : ℚ) * 3840 / 2 ^ 18 ≤ (t.toNat : ℚ) →
      exec (.encFdev t x) s =
        .next { s with
          operands := { s.operands with targetHz := t, crystalHz := x }
          results := { s.results with
            mantissa := Config.freeByte s.fresh 0
            exponent := Config.freeByte s.fresh 1 }
          err := .invalidParameter
          fresh := s.fresh + 1 }) ∧
    ((t.toNat : ℚ) < (x.toNat : ℚ) * 3840 / 2 ^ 18 →
      ∃ u : State, exec (.encFdev t x) s = .next u ∧ u.err = .none ∧ u.results.mantissa.toNat ≤ 7 ∧
        u.results.exponent.toNat ≤ 9)

/-- R127, R129 (c), R97 (a): for every non-increasing table of 90 entries (R128, and the candidate of G3 with its equal
neighbours) and every tie, the index is inside the table, no entry is nearer,
and the pair is `(index mod 9, floor(index / 9))`; no error. After the end the operand latches keep what was latched (the
model's choice, notes 46). -/
def Obligations.ChfltPicksANearestEntry : Prop :=
  ∀ (t : Word) (d : Bool) (x : Word) (o : Operands) (s : State), s.params.bwTable.length = 90 → s.params.bwTable.Pairwise (fun a b => b ≤ a) →
    0 < s.params.bwUnitHz → Idle s → 0 < x.toNat →
    let S (i : Nat) : ℚ := s.params.bwTable.getD i 0 * s.params.bwUnitHz *
      ((x.toNat : ℚ) / 26000000 / (if d then 2 else 1))
    decode s.params ⟨.req 0x03, { o with targetHz := t, clockDivided := d, crystalHz := x }⟩ = .ok (.encChflt t d x) ∧
    ∃ idx : Nat, idx ≤ 89 ∧ (∀ i ≤ 89, |(t.toNat : ℚ) - S idx| ≤ |(t.toNat : ℚ) - S i|) ∧
      exec (.encChflt t d x) s =
        .next { s with
          operands := { s.operands with targetHz := t, clockDivided := d, crystalHz := x }
          results := { s.results with mantissa := BitVec.ofNat 8 (idx % 9), exponent := BitVec.ofNat 8 (idx / 9) }
          err := .none }

/-- R129 (e), C5: as the target decreases the selected entry never increases, for every non-increasing table of
90 entries (R128, G3). -/
def Obligations.ChfltIsMonotone : Prop :=
  ∀ (t₁ t₂ : Word) (d : Bool) (x : Word) (s u₁ u₂ : State),
    s.params.bwTable.length = 90 → s.params.bwTable.Pairwise (fun a b => b ≤ a) →
    0 < s.params.bwUnitHz → Idle s → 0 < x.toNat → t₁ ≤ t₂ →
    exec (.encChflt t₁ d x) s = .next u₁ → exec (.encChflt t₂ d x) s = .next u₂ →
    s.params.bwTable.getD (9 * u₁.results.exponent.toNat + u₁.results.mantissa.toNat) 0 ≤
      s.params.bwTable.getD (9 * u₂.results.exponent.toNat + u₂.results.mantissa.toNat) 0

/-- R141: clamp to `[-130, 2]`, then `wrap_8(2 * (c + 130))`; total. After the end the operand latches keep what was latched
(the model's choice, notes 46). -/
def Obligations.RssiThresholdClampsThenWraps : Prop :=
  ∀ (dbm : BitVec 32) (o : Operands) (s : State), Idle s →
    decode s.params ⟨.req 0x04, { o with rssiDbm := dbm }⟩ = .ok (.encRssiTh dbm) ∧
    ∃ r : Byte, exec (.encRssiTh dbm) s =
        .next { s with
          operands := { s.operands with rssiDbm := dbm }
          results := { s.results with reg := r }
          err := .none } ∧
      (r.toNat : Int) = (2 * (max (-130) (min 2 dbm.toInt) + 130)) % 256

/-- R142, line by line over the integers, for a crystal in the domain (R152). After the end the operand latches keep what was
latched (the model's choice, notes 46). -/
def Obligations.RxTimeoutFollowsPseudocode : Prop :=
  ∀ (q : NonNegRat) (x : Word) (o : Operands) (s : State), Idle s → 0 < x.toNat →
    let xtal : Nat := if 30000000 < x.toNat then x.toNat / 2 else x.toNat
    let n : Int := ⌊(q.num : ℚ) / ((q.denPred : ℚ) + 1) * (xtal : ℚ) / 1210000⌋
    let p : Int := n / 255 + 2
    let c : Int := n / p
    let c' : Int := if |(c + 1) * p - n| < |c * p - n| then c + 1 else c
    let answers (counter prescaler : Int) : Prop := exec (.encRxTimeout q x) s =
      .next { s with
        operands := { s.operands with timeoutMs := q, crystalHz := x }
        results := { s.results with counter := BitVec.ofInt 8 counter, prescaler := BitVec.ofInt 8 prescaler }
        err := .none }
    decode s.params ⟨.req 0x05, { o with timeoutMs := q, crystalHz := x }⟩ = .ok (.encRxTimeout q x) ∧
    (253 < n / 255 → answers 255 255) ∧ (n / 255 ≤ 253 → answers (max c' 1) (p - 1))

/-- R143 (a) and (b): the counter is never 0; the prescaler is never 0, and it is 255 exactly in saturation (`n div 255 > 253`,
`n` the timer units of R142), where the counter is 255 too. -/
def Obligations.RxTimeoutNeverZero : Prop :=
  ∀ (q : NonNegRat) (x : Word) (s : State), Idle s → 0 < x.toNat →
    let xtal : Nat := if 30000000 < x.toNat then x.toNat / 2 else x.toNat
    let n : Int := ⌊(q.num : ℚ) / ((q.denPred : ℚ) + 1) * (xtal : ℚ) / 1210000⌋
    ∃ t : State, exec (.encRxTimeout q x) s = .next t ∧ t.err = .none ∧ 1 ≤ t.results.counter.toNat ∧
      1 ≤ t.results.prescaler.toNat ∧ (t.results.prescaler.toNat = 255 ↔ 253 < n / 255) ∧
      (t.results.prescaler.toNat = 255 → t.results.counter.toNat = 255)

/-- R144 to R146: with slot, power and band in range, the row of the band, the line of the segment, the clamp to
`[1, 90]`, the truncation; the result is in `1 .. 90` for every segment rule and every coefficient. After the end the operand
latches keep what was latched (the model's choice, notes 46). -/
def Obligations.PaPowerIsTheClampedLine : Prop :=
  ∀ (slot : Byte) (dbm : ℚ) (b : Word) (o : Operands) (s : State), Idle s →
    slot.toNat ≤ s.params.paSlotMax → -31 ≤ dbm → dbm ≤ 12 → bandOf s.params b.toNat ≠ .invalid →
    let row : Nat :=
      if bandOf s.params b.toNat = .high then (if 900000000 ≤ b.toNat then 0 else 1)
      else if bandOf s.params b.toNat = .middle then 2
      else if bandOf s.params b.toNat = .low then 3 else 4
    let k : PaRow := s.params.paCoeff.getD row ⟨0, 0, 0, 0, 0, 0⟩
    let r : ℚ := match Config.paSegment row dbm with
      | .up => k.mUp * dbm + k.qUp
      | .mid => k.mMid * dbm + k.qMid
      | .low => k.mLow * dbm + k.qLow
    decode s.params ⟨.req 0x06, { o with slot := slot, paDbm := dbm, baseHz := b }⟩ = .ok (.encPaDbm slot dbm b) ∧
    ∃ v : Nat, (v : Int) = ⌊max 1 (min 90 r)⌋ ∧ 1 ≤ v ∧ v ≤ 90 ∧
      exec (.encPaDbm slot dbm b) s =
        .next { s with
          operands := { s.operands with slot := slot, paDbm := dbm, baseHz := b }
          results := { s.results with reg := BitVec.ofNat 8 v }
          err := .none }

/-- R144, R145, R273 (c): a slot or a power out of range, or a base frequency in no band, is refused (the result latch is free
then, notes 9). -/
def Obligations.PaPowerRefusesOutOfRange : Prop :=
  ∀ (slot : Byte) (dbm : ℚ) (b : Word) (s : State), Idle s →
    (s.params.paSlotMax < slot.toNat ∨ dbm < -31 ∨ 12 < dbm ∨ bandOf s.params b.toNat = .invalid) →
    exec (.encPaDbm slot dbm b) s =
      .next { s with
        operands := { s.operands with slot := slot, paDbm := dbm, baseHz := b }
        results := { s.results with reg := Config.freeByte s.fresh 0 }
        err := .invalidParameter
        fresh := s.fresh + 1 }

/-- R147, R148, R151: the offset in Hz truncates toward zero and fits its 64 bits; the pattern is the equation's value
truncated toward zero where that fits in 12 bits, and otherwise its clamp or its wrap, whichever the parameter says for
every value alike (that one parameter decides for all of them is the model's choice, notes 22); no offset gives `0x000`, a
negative one a value that is not positive, and the pattern of a negative value that fits or is clamped has bit 11 set (the
model's reading of R147's corner cases, notes 41); no error. `EQ_FC_OFFSET` is any function but for these two. After the end
the operand latches keep what was latched (the model's choice, notes 46). -/
def Obligations.FoffsetTruncatesAndLimits : Prop :=
  ∀ (ppm : BitVec 16) (b x : Word) (o : Operands) (s : State), Idle s → 0 < x.toNat →
    let hz : Int := (ppm.toInt * (b.toNat : Int)).tdiv 1000000
    let y : ℚ := if hz = 0 then 0 else if hz < 0 then -|Config.eqFcOffset hz x.toNat| else Config.eqFcOffset hz x.toNat
    let v : Int := if 0 ≤ y then ⌊y⌋ else ⌈y⌉
    decode s.params ⟨.req 0x07, { o with xtalOffsetPpm := ppm, baseHz := b, crystalHz := x }⟩ = .ok (.encFoffset ppm b x) ∧
    ∃ (offset : BitVec 64) (pattern : BitVec 12), offset.toInt = hz ∧
      (ppm = 0 → offset = 0 ∧ pattern = 0x000) ∧ (hz < 0 → v ≤ 0) ∧
      (v < 0 → -2048 ≤ v ∨ s.params.fcLimit = .clamp → pattern.getLsbD 11 = true) ∧
      (-2048 ≤ v ∧ v ≤ 2047 → pattern.toInt = v) ∧
      (2047 < v → s.params.fcLimit = .clamp → pattern = 0x7FF) ∧
      (v < -2048 → s.params.fcLimit = .clamp → pattern = 0x800) ∧
      (s.params.fcLimit = .wrap → (pattern.toNat : Int) = v % 4096) ∧
      exec (.encFoffset ppm b x) s =
        .next { s with
          operands := { s.operands with xtalOffsetPpm := ppm, baseHz := b, crystalHz := x }
          results := { s.results with offsetHz := offset, fcOffset := pattern }
          err := .none }

/-- R149, R150, R151: the equations' values truncated toward zero where they fit in a byte, and otherwise their clamp or
their wrap, whichever the parameter of each says for every value alike (that one parameter of each decides for all of them
is the model's choice, notes 22); no error. The equations are any functions. After the end the operand latches keep what was
latched (the model's choice, notes 46). -/
def Obligations.SpacingAndIfOffsetsTruncateAndLimit : Prop :=
  ∀ (spacing x : Word) (o : Operands) (s : State), Idle s → 0 < x.toNat →
    let whole (y : ℚ) : Int := if 0 ≤ y then ⌊y⌋ else ⌈y⌉
    let limited (l : Limit) (v : Int) (r : Byte) : Prop :=
      (0 ≤ v ∧ v ≤ 255 → (r.toNat : Int) = v) ∧ (255 < v → l = .clamp → r = 0xFF) ∧
      (v < 0 → l = .clamp → r = 0x00) ∧ (l = .wrap → (r.toNat : Int) = v % 256)
    decode s.params ⟨.req 0x08, { o with spacingHz := spacing, crystalHz := x }⟩ = .ok (.encChspace spacing x) ∧
    decode s.params ⟨.req 0x09, { o with crystalHz := x }⟩ = .ok (.encIfOffset x) ∧
    (∃ r : Byte, limited s.params.chspaceLimit (whole (Config.eqChspace spacing.toNat x.toNat)) r ∧
      exec (.encChspace spacing x) s =
        .next { s with
          operands := { s.operands with spacingHz := spacing, crystalHz := x }
          results := { s.results with reg := r }
          err := .none }) ∧
    ∃ ana dig : Byte, limited s.params.ifAnaLimit (whole (Config.eqIfAna x.toNat)) ana ∧
      limited s.params.ifDigLimit (whole (Config.eqIfDig x.toNat)) dig ∧
      exec (.encIfOffset x) s =
        .next { s with
          operands := { s.operands with crystalHz := x }
          results := { s.results with ana := ana, dig := dig }
          err := .none }

/-- With `crystal_hz = 0`, which R152 puts outside the domain, the calculators that never raise still end without error in
one step; their results are free values (the model's choice, notes 8). -/
def Obligations.ZeroCrystalStillEnds : Prop :=
  ∀ (i : Instr) (s : State), Idle s →
    i ∈ [Instr.encDatarate s.operands.targetBps s.operands.clockDivided 0,
      .encChflt s.operands.targetHz s.operands.clockDivided 0, .encRxTimeout s.operands.timeoutMs 0,
      .encFoffset s.operands.xtalOffsetPpm s.operands.baseHz 0, .encChspace s.operands.spacingHz 0, .encIfOffset 0] →
    ∃ t : State, exec i s = .next t ∧ Idle t ∧ t.err = .none ∧ t.trace = s.trace

/-! ### The IRQ manager -/

/-- R212: `MASK_ACC` is cleared, with no bus access; the selector is `0x32`. -/
def Obligations.MaskNewClearsAccumulator : Prop :=
  ∀ (o : Operands) (s : State), Idle s →
    decode s.params ⟨.req 0x32, o⟩ = .ok .irqMaskNew ∧
    exec .irqMaskNew s = .next { s with maskAcc := 0x00000000, err := .none }

/-- R213: one more bit of `MASK_ACC`, with no bus access; setting it twice changes nothing the second time; the selector
is `0x33`. After the end the operand latches keep what was latched (the model's choice, notes 46). -/
def Obligations.MaskSetAddsOneBit : Prop :=
  ∀ (e : Event) (o : Operands) (s : State), s.params.Legal → Idle s →
    decode s.params ⟨.req 0x33, { o with event := e }⟩ = .ok (.irqMaskSet e) ∧
    ∃ acc : Word, exec (.irqMaskSet e) s =
        .next { s with operands := { s.operands with event := e }, maskAcc := acc, err := .none } ∧
      (∀ j : Nat, j < 32 → acc.getLsbD j = (s.maskAcc.getLsbD j || decide (j = s.params.eventBit e))) ∧
      (s.maskAcc.getLsbD (s.params.eventBit e) = true → acc = s.maskAcc)

/-- R210: one write of the all-zero mask, four zero bytes at the register's four addresses (R60, R68), `MASK_ACC` as it was;
the selector is `0x30`. A failing transport ends it with `BusFailure` (R272); that the chip stays as the answer from outside
left it where that answer says the failed write did not reach it is the model's parameter (notes 7, 11). -/
def Obligations.SilenceWritesZeroMask : Prop :=
  ∀ (o : Operands) (s : State) (t : Turn) (ts : List Turn), Idle s → s.turns = t :: ts →
    let A : Nat := s.params.kindAddr .irqMask
    decode s.params ⟨.req 0x30, o⟩ = .ok .irqSilence ∧
    frameOf s.params (.wr .irqMask (.word 0x00000000) true) = [0x00, BitVec.ofNat 8 A, 0x00, 0x00, 0x00, 0x00] ∧
    (t.failure = none →
      exec .irqSilence s =
        .next { s with
          turns := ts
          chip := { chipAt t s.chip with
            mem := memSet (memSet (memSet (memSet (chipAt t s.chip).mem A 0x00) (A + 1) 0x00) (A + 2) 0x00) (A + 3) 0x00 }
          trace := s.trace ++ [.wr .irqMask (.word 0x00000000) true]
          err := .none }) ∧
    ∀ f : TransportFailure, t.failure = some f →
      ∃ u : State, exec .irqSilence s = .next u ∧ Idle u ∧ u.err = .busFailure f.cause ∧
        u.trace = s.trace ++ [.wr .irqMask (.word 0x00000000) false] ∧ u.maskAcc = s.maskAcc ∧
        (f.reached = false → u.chip = chipAt t s.chip)

/-- R214, R68 (c): the accumulator goes out in one write, most significant byte first, and stays as it is; the selector is
`0x34`. -/
def Obligations.CommitWritesAccumulatorBigEndian : Prop :=
  ∀ (o : Operands) (s : State) (t : Turn) (ts : List Turn), Idle s → s.turns = t :: ts → t.failure = none →
    let A : Nat := s.params.kindAddr .irqMask
    decode s.params ⟨.req 0x34, o⟩ = .ok .irqMaskCommit ∧
    frameOf s.params (.wr .irqMask (.word s.maskAcc) true) =
      [0x00, BitVec.ofNat 8 A, s.maskAcc.extractLsb' 24 8, s.maskAcc.extractLsb' 16 8, s.maskAcc.extractLsb' 8 8,
        s.maskAcc.extractLsb' 0 8] ∧
    exec .irqMaskCommit s =
      .next { s with
        turns := ts
        chip := { chipAt t s.chip with
          mem := memSet (memSet (memSet (memSet (chipAt t s.chip).mem A (s.maskAcc.extractLsb' 24 8))
            (A + 1) (s.maskAcc.extractLsb' 16 8)) (A + 2) (s.maskAcc.extractLsb' 8 8)) (A + 3) (s.maskAcc.extractLsb' 0 8) }
        trace := s.trace ++ [.wr .irqMask (.word s.maskAcc) true]
        err := .none }

/-- R211, R67: a read of `IRQ_STATUS` clears every pending bit and its value goes nowhere; the selector is `0x31`. The word read
is the answer from outside, or the pending bits where that says nothing (notes 11). -/
def Obligations.ClearConsumesPendingBits : Prop :=
  ∀ (o : Operands) (s : State) (t : Turn) (ts : List Turn), Idle s → s.turns = t :: ts → t.failure = none →
    decode s.params ⟨.req 0x31, o⟩ = .ok .irqClear ∧
    exec .irqClear s =
      .next { s with
        turns := ts
        chip := { chipAt t s.chip with pending := 0 }
        trace := s.trace ++ [.rd .irqStatus (some (.word (wordRead s.params t (chipAt t s.chip))))]
        err := .none } ∧
    (t.answers = [] → wordRead s.params t (chipAt t s.chip) = (chipAt t s.chip).pending)

/-- R215: the test of one bit of a word; the selector is `0x35`. After the end the operand latches keep what was latched (the
model's choice, notes 46). -/
def Obligations.IsSetTestsOneBit : Prop :=
  ∀ (w : Word) (e : Event) (o : Operands) (s : State), Idle s →
    decode s.params ⟨.req 0x35, { o with word := w, event := e }⟩ = .ok (.irqIsSet w e) ∧
    exec (.irqIsSet w e) s =
      .next { s with
        operands := { s.operands with word := w, event := e }
        results := { s.results with isSet := decide (w.toNat / 2 ^ s.params.eventBit e % 2 = 1) }
        err := .none }

/-! ### The sequencer -/

/-- R171: the wait ends at the first poll that reads the target, after one read and one delay for each poll before it;
a chip already in the target state is read once and not waited for. The selector is `0x12`. -/
def Obligations.WaitEndsAtFirstMatchingPoll : Prop :=
  ∀ (target : DevState) (o : Operands) (s : State) (misses rest : List Turn) (hit : Turn) (seen : List DevState),
    Idle s → target ≠ .invalid → s.turns = misses ++ hit :: rest → (∀ x ∈ misses ++ [hit], x.failure = none) →
    statesSeen s.params s.chip (misses ++ [hit]) = seen ++ [target] → target ∉ seen →
    (∀ l : Nat, s.params.pollLimit = some l → misses.length < l) →
    decode s.params ⟨.req 0x12, { o with target := target }⟩ = .ok (.waitForState target) ∧
    ∃ t : State, exec (.waitForState target) s = .next t ∧ Idle t ∧ t.err = .none ∧ t.turns = rest ∧
      (newEvents s t).map bare = missedStatePolls s.params seen ++ [stateEvent target]

/-- R171, R277: with a limit of `l` polls a chip that never reports the target is read `l` times, with a delay between two
reads, and the wait ends with `Timeout`; the target `Invalid` is refused before any bus access. -/
def Obligations.WaitTimesOutAtPollLimit : Prop :=
  (∀ (target last : DevState) (s : State) (polls rest : List Turn) (seen : List DevState),
    Idle s → target ≠ .invalid → s.params.pollLimit = some polls.length → s.turns = polls ++ rest →
    (∀ x ∈ polls, x.failure = none) → statesSeen s.params s.chip polls = seen ++ [last] → target ∉ seen ++ [last] →
    ∃ t : State, exec (.waitForState target) s = .next t ∧ Idle t ∧ t.err = .timeout .pollLimit ∧ t.turns = rest ∧
      (newEvents s t).map bare = missedStatePolls s.params seen ++ [stateEvent last]) ∧
  ∀ s : State, Idle s → exec (.waitForState .invalid) s =
    .next { s with
      operands := { s.operands with target := .invalid }
      err := .invalidParameter
      fresh := s.fresh + 1 }

/-- R174, R309: entry, trigger, settle delay (none for `WA_SETTLE_MS = 0`), exit, in that order; if the trigger write fails
the exit write is never sent. The selector is `0x11`. -/
def Obligations.ExtraCurrentWritesInOrder : Prop :=
  ∀ (o : Operands) (s : State) (t₁ t₂ t₃ : Turn) (rest : List Turn), Idle s → s.turns = t₁ :: t₂ :: t₃ :: rest →
    t₁.failure = none →
    let p : Params := s.params
    decode p ⟨.req 0x11, o⟩ = .ok .waExtraCurrent ∧
    (t₂.failure = none → t₃.failure = none →
      ∃ t : State, exec .waExtraCurrent s = .next t ∧ Idle t ∧ t.err = .none ∧ t.turns = rest ∧
        t.trace = s.trace ++
          [.wrRaw p.waEc0.addr [p.waEc0.byte] true, .wrRaw p.waEc1.addr [p.waEc1.byte] true] ++
          (if p.waSettleMs = 0 then [] else [.dly p.waSettleMs]) ++ [.wrRaw p.waEc2.addr [p.waEc2.byte] true]) ∧
    ∀ f : TransportFailure, t₂.failure = some f →
      ∃ t : State, exec .waExtraCurrent s = .next t ∧ Idle t ∧ t.err = .busFailure f.cause ∧ t.turns = t₃ :: rest ∧
        t.trace = s.trace ++
          [.wrRaw p.waEc0.addr [p.waEc0.byte] true, .wrRaw p.waEc1.addr [p.waEc1.byte] false]

/-- R172, R175, R307: with a chip that comes to report READY, INIT ends without error having sent, in this order and nothing
else, S1 to S4a and S5a to S6: the STANDBY command before the clock divider, whose other fields S3b writes back as it read
them (R175 (b); `RegSetKeepsOtherFields`), the wait for READY, polls that missed it included, before every step-5 write,
the freeze of AFC last. The selector is `0x10`. -/
def Obligations.InitCompletesInOrder : Prop :=
  ∀ (o : RadioInitOptions) (l : Operands) (s : State) (before misses rest : List Turn) (hit : Turn) (seen : List DevState),
    s.params.Legal → Idle s → 0 < s.xtalHz.toNat →
    (o.freqDev.toNat : ℚ) < (s.xtalHz.toNat : ℚ) * 3840 / 2 ^ 18 →
    s.turns = before ++ misses ++ hit :: rest → (∀ x ∈ s.turns, Good s.params initKinds x) →
    before.length = turnsToWait s.params → turnsOfDerived s.params + turnsOfRest s.params ≤ rest.length →
    statesSeen s.params (chipAfter before s.chip) (misses ++ [hit]) = seen ++ [.ready] → .ready ∉ seen →
    (∀ n : Nat, s.params.pollLimit = some n → misses.length < n) →
    decode s.params ⟨.req 0x10, { l with opts := o }⟩ = .ok (.init o) ∧
    ∃ (me : Nat × Nat) (t : State) (pre wait post : List BusEvent), fdev o.freqDev.toNat s.xtalHz.toNat = some me ∧
      exec (.init o) s = .next t ∧ Idle t ∧ t.err = .none ∧
      t.turns = rest.drop (turnsOfDerived s.params + turnsOfRest s.params) ∧
      newEvents s t = pre ++ wait ++ post ∧ wait.map bare = missedStatePolls s.params seen ++ [stateEvent .ready] ∧
      pre.filterMap sentOf = initBeforeWait s.params s.xtalHz.toNat ∧
      post.filterMap sentOf = initDerived s.params o s.baseHz.toNat s.xtalHz.toNat ++
        regSends s.params .fdev [(.mantissa, .num me.1), (.exponent, .num me.2)] ++ initRest s.params o s.xtalHz.toNat ∧
      (∀ e ∈ pre ++ post, ∀ v : Option KindVal, e ≠ .rd .mcState v) ∧
      ∃ (as bs : List BusEvent) (v : KindVal), pre = as ++ .rd .clkdivCtrl (some v) ::
        .wr .clkdivCtrl (withFields s.params .clkdivCtrl v [(.pdClkdiv, .flag (!decide (30000000 < s.xtalHz.toNat)))]) true :: bs

/-- R173: a deviation ENC_FDEV refuses ends INIT at S5e with `InvalidParameter`, after the wait and after S5a to S5d were
sent; a chip that reports READY in none of the polls the limit allows ends it with `Timeout` at S4b, before any step-5
write. Nothing is undone. -/
def Obligations.InitStopsWhereItFails : Prop :=
  ∀ (o : RadioInitOptions) (s : State) (before polls rest : List Turn) (seen : List DevState) (last : DevState),
    s.params.Legal → Idle s → 0 < s.xtalHz.toNat →
    s.turns = before ++ polls ++ rest → (∀ x ∈ s.turns, Good s.params initKinds x) → before.length = turnsToWait s.params →
    statesSeen s.params (chipAfter before s.chip) polls = seen ++ [last] → .ready ∉ seen →
    ((s.xtalHz.toNat : ℚ) * 3840 / 2 ^ 18 ≤ (o.freqDev.toNat : ℚ) → last = .ready →
      (∀ n : Nat, s.params.pollLimit = some n → seen.length < n) → turnsOfDerived s.params ≤ rest.length →
      ∃ t : State, exec (.init o) s = .next t ∧ Idle t ∧ t.err = .invalidParameter ∧
        t.turns = rest.drop (turnsOfDerived s.params) ∧
        sent s t = initBeforeWait s.params s.xtalHz.toNat ++
          initDerived s.params o s.baseHz.toNat s.xtalHz.toNat) ∧
    (last ≠ .ready → s.params.pollLimit = some polls.length →
      ∃ t : State, exec (.init o) s = .next t ∧ Idle t ∧ t.err = .timeout .pollLimit ∧ t.turns = rest ∧
        sent s t = initBeforeWait s.params s.xtalHz.toNat)

/-! ### Transmit and receive -/

/-- R191, R192, R308: TX_BLOCKING flushes, loads at most 96 bytes of the payload, writes the truncated length and the
three pre-strobe values, strobes, and ends at the first poll that shows `TX_DATA_SENT`, whatever the chip does meanwhile; it
reports the truncated count. The capacitor load is the lower one for the bands below High. The selector is `0x20`. That the
TX FIFO holds what it held when the payload came, and then the payload, is the model's chip (the flush empties it only if
the chip's own changes say so, notes 15; what it makes of more than 96 bytes is free, notes 14). -/
def Obligations.TxSendsTruncatedPayload : Prop :=
  ∀ (payload : List Byte) (o : Operands) (s : State) (before polls rest : List Turn) (seen : List Word) (last : Word),
    Idle s → s.turns = before ++ polls ++ rest → (∀ x ∈ before ++ polls, Good s.params [.pcktlen, .paConfig] x) →
    before.length = 5 + regSetTurns s.params .pcktlen + regSetTurns s.params .paConfig →
    wordsSeen s.params (chipAfter before s.chip) polls = seen ++ [last] →
    (∀ w ∈ seen, eventSet s.params w .txDataSent = false) → eventSet s.params last .txDataSent = true →
    (∀ n : Nat, s.params.pollLimit = some n → seen.length < n) →
    let p : Params := s.params
    decode p ⟨.req 0x20, { o with payload := payload }⟩ = .ok (.txBlocking payload) ∧
    ∃ (t : State) (pre : List BusEvent), exec (.txBlocking payload) s = .next t ∧ Idle t ∧ t.err = .none ∧
      t.engine = .txDone ∧ t.results.count.toNat = min payload.length 96 ∧ t.chip.pending = 0 ∧ t.turns = rest ∧
      newEvents s t = pre ++ missedWordPolls p seen ++ [.rd .irqStatus (some (.word last))] ∧
      (∀ e ∈ pre, ∀ v : Option KindVal, e ≠ .rd .irqStatus v) ∧
      pre.filterMap sentOf =
        [.command .flushTxFifo, .raw 0xFF (payload.take 96)] ++
        regSends p .pcktlen [(.length, .num (min payload.length 96))] ++
        regSends p .paConfig [(.cwc, .num (if s.band = .middle ∨ s.band = .low ∨ s.band = .veryLow then p.txCwcLow
           else p.txCwcHigh))] ++
        [.raw p.txVcoBuf.addr [p.txVcoBuf.byte],
         .raw p.txPmTrim.addr [p.txPmTrim.byte],
         .command .tx] ∧
      (p.txVcoBuf.addr ≠ 0xFF → p.txPmTrim.addr ≠ 0xFF →
        (∀ x ∈ (before ++ polls).drop 2, ∀ d ∈ x.drift, keepsTxFifo d = true) →
        t.chip.txFifo = fifoAppend (chipAfter (before.take 2) s.chip).txFifo (payload.take 96))

/-- R191, R67, R277: at the poll of TX_BLOCKING each word is tested once, in the poll that read it, and then dropped; the
loop ends at the first word with `TX_DATA_SENT`, or with `Timeout` when the limit of polls is reached. -/
def Obligations.TxPollLoopTestsEachWordOnce : Prop :=
  ∀ (n : Byte) (s : State) (polls rest : List Turn) (seen : List Word) (last : Word),
    s.pc = .busy .txBlocking [⟨.t9, .pollTx⟩, ⟨.t10, .finish (.count n)⟩] →
    s.turns = polls ++ rest → (∀ x ∈ polls, x.failure = none) → wordsSeen s.params s.chip polls = seen ++ [last] →
    (∀ w ∈ seen, eventSet s.params w .txDataSent = false) →
    (eventSet s.params last .txDataSent = true →
      (∀ l : Nat, s.params.pollLimit = some l → s.polls + seen.length < l) →
      ∃ t : State, step s = .next t ∧ Idle t ∧ t.err = .none ∧ t.engine = .txDone ∧ t.results.count = n ∧
        t.turns = rest ∧
        t.trace = s.trace ++ missedWordPolls s.params seen ++ [.rd .irqStatus (some (.word last))]) ∧
    (eventSet s.params last .txDataSent = false → s.params.pollLimit = some (s.polls + polls.length) →
      ∃ t : State, step s = .next t ∧ Idle t ∧ t.err = .timeout .pollLimit ∧ t.engine = s.engine ∧ t.turns = rest ∧
        t.trace = s.trace ++ missedWordPolls s.params seen ++ [.rd .irqStatus (some (.word last))])

/-- R193: the trim byte, the capacitor-load reset, the RX command; `ENGINE` is `RxArmed`; no poll: `IRQ_STATUS` is not read
and no transaction but these takes place. The selector is `0x22`. -/
def Obligations.StrobeArmsTheReceiver : Prop :=
  ∀ (o : Operands) (s : State) (strobe rest : List Turn), Idle s → s.turns = strobe ++ rest →
    (∀ x ∈ strobe, Good s.params [.paConfig] x) → strobe.length = strobeTurns s.params →
    decode s.params ⟨.req 0x22, o⟩ = .ok .strobeRx ∧
    ∃ t : State, exec .strobeRx s = .next t ∧ Idle t ∧ t.err = .none ∧ t.engine = .rxArmed ∧ t.results = s.results ∧
      sent s t = strobeSends s.params ∧ t.turns = rest ∧
      ∀ v : Option KindVal, BusEvent.rd .irqStatus v ∉ newEvents s t

/-- R194, R195: RX_BLOCKING strobes once and polls until a word shows `RX_DATA_READY` (whatever else that word shows), with
a delay after each word that shows none of the three events; it then reads the count, drains exactly that many bytes into
`RXBUF` and leaves the bytes above as they were. A count above 96 is `InvalidParameter`, with no byte read; `RXBUF` is then
unspecified, 96 free bytes (R25, U7; the model's choice where R276 says less, notes 29). The selector is `0x21`. -/
def Obligations.RxDrainsReportedCount : Prop :=
  ∀ (o : Operands) (s : State) (strobe polls rest : List Turn) (count : Turn) (seen : List Word) (last : Word),
    s.params.Legal → Idle s → s.rxbuf.length = 96 → s.turns = strobe ++ polls ++ count :: rest →
    (∀ x ∈ s.turns, Good s.params [.paConfig] x) → strobe.length = strobeTurns s.params →
    wordsSeen s.params (chipAfter strobe s.chip) polls = seen ++ [last] →
    (∀ w ∈ seen, eventSet s.params w .rxDataReady = false ∧ rearms s.params w = false) →
    eventSet s.params last .rxDataReady = true → (∀ l : Nat, s.params.pollLimit = some l → seen.length < l) →
    let c : Chip := chipAt count (chipAfterPolls polls (chipAfter strobe s.chip))
    let n : Nat := countRead s.params count c
    decode s.params ⟨.req 0x21, o⟩ = .ok .rxBlocking ∧
    (∀ (drain : Turn) (more : List Turn), rest = drain :: more → n ≤ 96 →
      ∃ (t : State) (pre : List BusEvent) (status : BusEvent) (bytes : List Byte), exec .rxBlocking s = .next t ∧ Idle t ∧ t.err = .none ∧
        t.engine = .rxReady ∧ t.turns = more ∧ pre.filterMap sentOf = strobeSends s.params ∧
        (∀ v : Option KindVal, BusEvent.rd .irqStatus v ∉ pre) ∧
        newEvents s t = pre ++ missedWordPolls s.params seen ++ [.rd .irqStatus (some (.word last)), status,
          .rdRaw 0xFF n (some bytes)] ∧ bare status = countEvent n ∧
        bytes.length = n ∧ t.results.count.toNat = n ∧ t.rxbuf = bytes ++ s.rxbuf.drop n ∧
        t.chip.rxFifo = (chipAt drain c).rxFifo.drop n ∧
        (drain.rawAnswer = [] → n ≤ (chipAt drain c).rxFifo.length → bytes = (chipAt drain c).rxFifo.take n)) ∧
    (96 < n →
      ∃ (t : State) (pre : List BusEvent) (status : BusEvent), exec .rxBlocking s = .next t ∧ Idle t ∧
        t.err = .invalidParameter ∧ t.engine = .rxReady ∧ t.turns = rest ∧
        t.rxbuf = fitBytes 96 (Config.freeRxbuf s.fresh s.rxbuf) ∧ t.rxbuf.length = 96 ∧ t.chip.rxFifo = c.rxFifo ∧
        pre.filterMap sentOf = strobeSends s.params ∧
        newEvents s t = pre ++ missedWordPolls s.params seen ++ [.rd .irqStatus (some (.word last)), status] ∧
        bare status = countEvent n)

/-- R194, R195: each poll that shows a discard or a timeout and no ready re-issues exactly one strobe, and no other poll
does; with as many re-arms as `RX_RETRY_LIMIT` allows at most, the ready that follows ends the operation. -/
def Obligations.RxRearmsOncePerDiscard : Prop :=
  ∀ (s : State) (strobe rest : List Turn) (rounds : List (Turn × List Turn)) (hit count drain : Turn),
    s.params.Legal → Idle s → s.turns = strobe ++ rxTurns rounds ++ hit :: count :: drain :: rest →
    (∀ x ∈ s.turns, Good s.params [.paConfig] x) → strobe.length = strobeTurns s.params →
    let ready : Chip := chipAt hit (rxEnd rounds (chipAfter strobe s.chip))
    rxMisses s.params (chipAfter strobe s.chip) rounds →
    eventSet s.params (wordRead s.params hit ready) .rxDataReady = true →
    countRead s.params count (chipAt count ready) ≤ 96 →
    (∀ l : Nat, s.params.rxRetryLimit = some l → rearmCount rounds ≤ l) →
    (∀ l : Nat, s.params.pollLimit = some l → rounds.length < l) →
    ∃ t : State, exec .rxBlocking s = .next t ∧ Idle t ∧ t.err = .none ∧ t.engine = .rxReady ∧ t.turns = rest ∧
      t.retries = rearmCount rounds ∧ t.polls = rounds.length ∧
      t.results.count.toNat = countRead s.params count (chipAt count ready) ∧
      sent s t = (List.replicate (rearmCount rounds + 1) (strobeSends s.params)).flatten

/-- R194, R195 (g), R277, R278: when as many re-arms as `RX_RETRY_LIMIT` allows have been made, the next discard or timeout
ends RX_BLOCKING with `Timeout` and without another strobe; when `POLL_LIMIT` polls have shown no ready, that ends it with
`Timeout`. -/
def Obligations.RxTimesOutAtItsLimits : Prop :=
  ∀ (s : State) (strobe rest : List Turn) (rounds : List (Turn × List Turn)), Idle s →
    strobe.length = strobeTurns s.params → rxMisses s.params (chipAfter strobe s.chip) rounds →
    (∀ bad : Turn, s.turns = strobe ++ rxTurns rounds ++ bad :: rest →
      (∀ x ∈ strobe ++ rxTurns rounds ++ [bad], Good s.params [.paConfig] x) →
      let w : Word := wordRead s.params bad (chipAt bad (rxEnd rounds (chipAfter strobe s.chip)))
      eventSet s.params w .rxDataReady = false → rearms s.params w = true →
      s.params.rxRetryLimit = some (rearmCount rounds) → (∀ l : Nat, s.params.pollLimit = some l → rounds.length < l) →
      ∃ t : State, exec .rxBlocking s = .next t ∧ Idle t ∧ t.err = .timeout .rxRetryLimit ∧
        t.engine = .rxDiscardedRetry ∧ t.turns = rest ∧
        sent s t = (List.replicate (rearmCount rounds + 1) (strobeSends s.params)).flatten) ∧
    (s.turns = strobe ++ rxTurns rounds ++ rest → (∀ x ∈ strobe ++ rxTurns rounds, Good s.params [.paConfig] x) → rounds ≠ [] →
      s.params.pollLimit = some rounds.length → (∀ l : Nat, s.params.rxRetryLimit = some l → rearmCount rounds ≤ l) →
      ∃ t : State, exec .rxBlocking s = .next t ∧ Idle t ∧ t.err = .timeout .pollLimit ∧ t.engine = .rxArmed ∧
        t.turns = rest ∧ sent s t = (List.replicate (rearmCount rounds + 1) (strobeSends s.params)).flatten)

/-! ### The packet configurator -/

/-- R226: K1, K2, K3 in that order, K1 and K2 each in the transactions of the codec's grouping (the four registers of
`PCKTCTRL` as one or as several, U1; `RegSetKeepsOtherFields`), with the preamble length at least 1 and the CRC check on exactly when a CRC is asked
for; option values that fit their fields go out as they are. The selector is `0x40`. That the CRC mode goes into no field of
`PCKTCTRL` is the model's choice (notes 39). -/
def Obligations.PacketBasicWritesInOrder : Prop :=
  ∀ (o : BasicOptions) (l : Operands) (s : State) (used rest : List Turn), Idle s → s.turns = used ++ rest →
    (∀ x ∈ used, Good s.params [.pcktFltOptions, .pcktctrl] x) →
    used.length = regSetTurns s.params .pcktFltOptions + regSetTurns s.params .pcktctrl + 1 →
    (∀ f ∈ [(Field.controlLen, o.controlLen), (.preambleLen, max o.preambleLen 1), (.syncLen, o.syncLen)],
      f.2 < 2 ^ s.params.fieldWidth .pcktctrl f.1) →
    decode s.params ⟨.req 0x40, { l with cfg := .basic o }⟩ = .ok (.pktConfigure (.basic o)) ∧
    ∃ t : State, exec (.pktConfigure (.basic o)) s = .next t ∧ Idle t ∧ t.err = .none ∧ t.turns = rest ∧
      sent s t = packetSends s.params o o.controlLen (max o.preambleLen 1) o.syncLen

/-- R65, U12: a control, preamble or sync length too wide for its field is clamped to the widest value of the field, or ends
the operation with `InvalidParameter` before any frame is sent, as the codec's parameter of that field says (that the codec
settles it field by field, and that the check stands before K1, is the model's choice, notes 16). -/
def Obligations.PacketTooWideOptionClampsOrFails : Prop :=
  ∀ (o : BasicOptions) (s : State), Idle s →
    let p : Params := s.params
    let lengths : List (Field × Nat) :=
      [(.controlLen, o.controlLen), (.preambleLen, max o.preambleLen 1), (.syncLen, o.syncLen)]
    let widest (f : Field) : Nat := 2 ^ p.fieldWidth .pcktctrl f - 1
    ((∃ f ∈ lengths, widest f.1 < f.2 ∧ (p.fieldInfo .pcktctrl f.1).rejects = true) →
      exec (.pktConfigure (.basic o)) s =
        .next { s with
          operands := { s.operands with cfg := .basic o }
          err := .invalidParameter
          fresh := s.fresh + 1 }) ∧
    ((∀ f ∈ lengths, widest f.1 < f.2 → (p.fieldInfo .pcktctrl f.1).rejects = false) →
      ∀ used rest : List Turn, s.turns = used ++ rest → (∀ x ∈ used, Good p [.pcktFltOptions, .pcktctrl] x) →
        used.length = regSetTurns p .pcktFltOptions + regSetTurns p .pcktctrl + 1 →
        ∃ t : State, exec (.pktConfigure (.basic o)) s = .next t ∧ Idle t ∧ t.err = .none ∧ t.turns = rest ∧
          sent s t = packetSends p o (min o.controlLen (widest .controlLen))
            (min (max o.preambleLen 1) (widest .preambleLen)) (min o.syncLen (widest .syncLen)))

/-- R228: the three flags, then the three addresses; the selector is `0x41`. -/
def Obligations.FilterWritesFlagsThenAddresses : Prop :=
  ∀ (f : FilterOptions) (o : Operands) (s : State) (used rest : List Turn), Idle s → s.turns = used ++ rest →
    (∀ x ∈ used, Good s.params [.pcktFltOptions] x) → used.length = regSetTurns s.params .pcktFltOptions + 1 →
    decode s.params ⟨.req 0x41, { o with flt := f }⟩ = .ok (.pktConfigureFilter f) ∧
    ∃ t : State, exec (.pktConfigureFilter f) s = .next t ∧ Idle t ∧ t.err = .none ∧ t.turns = rest ∧
      sent s t =
        regSends s.params .pcktFltOptions [(.destVsMy, .flag f.destVsMy), (.destVsMulticast, .flag f.destVsMulticast),
          (.destVsBroadcast, .flag f.destVsBroadcast)] ++
        [.fields .fltAddr [(.my, .num f.my.toNat), (.multicast, .num f.multicast.toNat),
          (.broadcast, .num f.broadcast.toNat)]]

/-! ### Bus transactions -/

/-- R63, R272: whichever instruction uses the bus, a failure of its first transaction ends it there with `BusFailure` and
the transport's cause, one event in the trace and that one a `Fail`; left out are the requests that are refused before any
bus access (R171; a rejected value or option, notes 16). That this holds of `PA_POWER[slot]` for a slot above `PA_SLOT_MAX`
too is the model's choice (notes 43). -/
def Obligations.FirstTransportFailureIsReported : Prop :=
  ∀ (i : Instr) (s : State) (t : Turn) (ts : List Turn) (f : TransportFailure),
    isBusFree i = false → i ≠ .waitForState .invalid →
    (∀ (k : Kind) (v : KindVal), i = .write k v → constructValue s.params k v ≠ none) →
    (∀ o : BasicOptions, i = .pktConfigure (.basic o) → constructFields s.params .pcktctrl (basicFields o) ≠ none) →
    Idle s → s.turns = t :: ts → t.failure = some f →
    ∃ (u : State) (e : BusEvent), exec i s = .next u ∧ Idle u ∧ u.err = .busFailure f.cause ∧
      u.trace = s.trace ++ [e] ∧ failed e = true ∧ u.turns = ts

/-- R235, R64, R67, R274: a typed read returns the value decoded from the bytes read and, for `IRQ_STATUS`, clears every
pending bit; the value of a record kind gives every named field of the kind the value that the codec finds in the bytes, and
encoding a value that was read gives the bytes that were read, for every kind.
It fails exactly where an enumerated field holds a code outside its enumeration, with `RegisterDecodeFailure` and the kind,
recorded as a failed read (the record is the model's choice, notes 17). The frame is `01 ADDR(k)`. The bytes read are the
answer from outside or, where that says nothing, the chip's (notes 11). After the end the operand latches keep what was
latched (the model's choice, notes 46). That this holds of `PA_POWER[slot]` for a slot above `PA_SLOT_MAX` too is the model's
choice (notes 43). -/
def Obligations.ReadReturnsDecodedValue : Prop :=
  ∀ (k : Kind) (o : Operands) (s : State) (t : Turn) (ts : List Turn),
    Idle s → s.turns = t :: ts → t.failure = none →
    let p : Params := s.params
    let c : Chip := chipAt t s.chip
    let bytes : List Byte := orderBytes p k (bytesRead p k t c)
    decode p ⟨.frame 0x01 (BitVec.ofNat 8 (p.kindAddr k)), { o with kind := some k }⟩ = .ok (.read k) ∧
    (t.answers = [] → valueRead p .irqStatus t c = .ok (.word c.pending) ∧
      (p.Legal → c.stateCode < 2 ^ p.fieldWidth .mcState .state →
        valueRead p .mcState t c =
          .ok (.record (orderBytes p .mcState (kindBytes p c .mcState)) [(.state, .state (decodeState p c.stateCode))])) ∧
      (p.Legal → c.rxFifo.length ≤ 96 → valueRead p .rxFifoStatus t c =
        .ok (.record (orderBytes p .rxFifoStatus (kindBytes p c .rxFifoStatus)) [(.count, .num c.rxFifo.length)]))) ∧
    (∀ v : KindVal, valueRead p k t c = .ok v →
      exec (.read k) s =
        .next { s with
          operands := { s.operands with kind := some k }
          results := { s.results with value := v }
          turns := ts
          chip := { c with pending := if k = .irqStatus then 0 else c.pending }
          trace := s.trace ++ [.rd k (some v)]
          err := .none } ∧
      encodeValue p k v = bytesRead p k t c ∧
      (k ∉ [Kind.irqMask, .irqStatus] →
        ∃ fs : List (Field × FieldVal), v = .record bytes fs ∧ fs.map Prod.fst = k.fields ∧
          ∀ x ∈ fs, fieldValue p k x.1 bytes = some x.2)) ∧
    (∀ e : Err, valueRead p k t c = .error e →
      (∃ code : Option Nat, e = .registerDecodeFailure k code) ∧
      exec (.read k) s =
        .next { s with
          operands := { s.operands with kind := some k }
          results := { s.results with value := Config.freeValue s.fresh }
          turns := ts
          chip := { c with pending := if k = .irqStatus then 0 else c.pending }
          trace := s.trace ++ [.rd k none]
          err := e
          fresh := s.fresh + 1 }) ∧
    ((∃ e : Err, valueRead p k t c = .error e) ↔ ∃ g ∈ p.kindTags k, codeAt g.bits bytes ∉ g.codes)

/-- R236, R64, R65: after a WRITE the `LEN(k)` bytes at `ADDR(k)` are the encoding of the value, and every other byte is as
it was. What the encoding is of a record whose own bytes are not `LEN(k)` many, or hold a code outside an enumeration, is the
model's choice (notes 40). A value rejected at its construction, which one that is none of the kind always is, ends it
before any frame is sent (for a WRITE of the host's that is the model's choice, notes 16). The frame is `00 ADDR(k)`. After
the end the operand latches keep what was latched (the model's choice, notes 46). That this holds of `PA_POWER[slot]` for a
slot above `PA_SLOT_MAX` too is the model's choice (notes 43). -/
def Obligations.WriteStoresEncodedValue : Prop :=
  ∀ (k : Kind) (v : KindVal) (o : Operands) (s : State) (t : Turn) (ts : List Turn),
    Idle s → s.turns = t :: ts →
    decode s.params ⟨.frame 0x00 (BitVec.ofNat 8 (s.params.kindAddr k)), { o with kind := some k, value := v }⟩ =
      .ok (.write k v) ∧
    (∀ w : KindVal, constructValue s.params k v = some w → t.failure = none →
      ∃ m : Memory,
        (∀ j < s.params.kindLen k,
          memGet m (s.params.kindAddr k + j) = some ((encodeValue s.params k w).getD j 0)) ∧
        (∀ a : Nat, a ∉ kindPlaces s.params k → memGet m a = memGet (chipAt t s.chip).mem a) ∧
        exec (.write k v) s =
          .next { s with
            operands := { s.operands with kind := some k, value := v }
            turns := ts
            chip := { chipAt t s.chip with mem := m }
            trace := s.trace ++ [.wr k w true]
            err := .none }) ∧
    ((Instr.write k v).wf = false → constructValue s.params k v = none) ∧
    (constructValue s.params k v = none →
      exec (.write k v) s =
        .next { s with
          operands := { s.operands with kind := some k, value := v }
          err := .invalidParameter
          fresh := s.fresh + 1 })

/-- R238, R60 (b), R71: a raw write to `0xFF` appends to the TX FIFO and touches no register; what a FIFO that cannot hold
all of them makes of the bytes is free, 96 at most (notes 14). Elsewhere the first byte goes to the given address, each
later one where the answer from outside says or nowhere (notes 12), and nothing outside these places changes. The frame is
`00 a`. After the end the operand latches keep what was latched (the model's choice, notes 46). -/
def Obligations.WriteRawStoresOrAppends : Prop :=
  ∀ (a : Byte) (bytes : List Byte) (o : Operands) (s : State) (t : Turn) (ts : List Turn),
    Idle s → s.turns = t :: ts → t.failure = none →
    let c : Chip := chipAt t s.chip
    let m : Memory := if a = 0xFF then c.mem else memSetAll c.mem (rawCells a bytes t.landing)
    let fifo : List Byte := if a = 0xFF then fifoAppend c.txFifo bytes else c.txFifo
    decode s.params ⟨.frame 0x00 a, { o with kind := none, bytes := bytes }⟩ = .ok (.writeRaw a bytes) ∧
    exec (.writeRaw a bytes) s =
      .next { s with
        operands := { s.operands with kind := none, bytes := bytes }
        turns := ts
        chip := { c with mem := m, txFifo := fifo }
        trace := s.trace ++ [.wrRaw a bytes true]
        err := .none } ∧
    (a = 0xFF → c.txFifo.length + bytes.length ≤ 96 → fifo = c.txFifo ++ bytes) ∧
    (a = 0xFF → fifo.length ≤ 96) ∧
    (a ≠ 0xFF → (∀ (b : Byte) (bs : List Byte), bytes = b :: bs → some a.toNat ∉ t.landing.map (Option.map Fin.val) →
        memGet m a.toNat = some b) ∧
      (∀ (b b' : Byte) (a' : Fin 255), bytes = [b, b'] → t.landing = [some a'] → memGet m a'.val = some b') ∧
      ∀ a' : Nat, a' ∉ rawPlaces a bytes.length → some a' ∉ t.landing.map (Option.map Fin.val) →
        memGet m a' = memGet c.mem a')

/-- R237, R60 (b), R67, R282: a raw read returns exactly `n` bytes, undecoded: the answer from outside; where that says
nothing, at `0xFF` the next bytes of the RX FIFO, elsewhere first the byte at the given address (notes 11, 12). At `0xFF`
the FIFO loses `n` bytes; elsewhere a read that starts in `IRQ_STATUS` clears every pending bit (notes 13), and no other
does. The frame is `01 a`. -/
def Obligations.ReadRawReturnsBytes : Prop :=
  ∀ (a : Byte) (n : Nat) (o : Operands) (s : State) (t : Turn) (ts : List Turn),
    Idle s → s.turns = t :: ts → t.failure = none →
    let c : Chip := chipAt t s.chip
    decode s.params ⟨.frame 0x01 a, { o with kind := none, count := n }⟩ = .ok (.readRaw a n) ∧
    ∃ (bytes : List Byte) (u : State), bytes.length = n ∧ exec (.readRaw a n) s = .next u ∧ Idle u ∧ u.err = .none ∧
      u.results = { s.results with bytes := bytes } ∧ u.trace = s.trace ++ [.rdRaw a n (some bytes)] ∧ u.turns = ts ∧
      u.chip.mem = c.mem ∧ u.chip.txFifo = c.txFifo ∧ u.chip.stateCode = c.stateCode ∧
      (n ≤ t.rawAnswer.length → bytes = t.rawAnswer.take n) ∧
      (a = 0xFF → u.chip.rxFifo = c.rxFifo.drop n ∧ u.chip.pending = c.pending ∧
        (t.rawAnswer = [] → n ≤ c.rxFifo.length → bytes = c.rxFifo.take n)) ∧
      (a ≠ 0xFF → u.chip.rxFifo = c.rxFifo ∧
        u.chip.pending = (if 0 < n ∧ kindCovers s.params .irqStatus a.toNat = true then 0 else c.pending) ∧
        (t.rawAnswer = [] → 0 < n → bytes.head? = some (chipByte s.params c a.toNat)))

/-- R74: with no change of the chip's own in between, the mask read is the mask written, wherever the codec puts
`IRQ_MASK` outside the three status registers (the model's register space, notes 11). -/
def Obligations.MaskReadIsMaskWritten : Prop :=
  ∀ (w : Word) (s u v : State) (t₁ t₂ : Turn) (ts : List Turn), Idle s → s.turns = t₁ :: t₂ :: ts → Quiet t₁ → Quiet t₂ →
    (∀ j < 4, liveKindAt s.params (s.params.kindAddr .irqMask + j) = none) →
    exec (.write .irqMask (.word w)) s = .next u → exec (.read .irqMask) u = .next v →
    v.err = .none ∧ v.results.value = .word w

/-- R239: a delay is recorded, `Dly(0)` too, and cannot fail. After the end the operand latches keep what was latched (the
model's choice, notes 46). -/
def Obligations.DelayIsRecorded : Prop :=
  ∀ (ms : Word) (o : Operands) (s : State), Idle s →
    decode s.params ⟨.noFrame, { o with ms := ms }⟩ = .ok (.delay ms) ∧
    exec (.delay ms) s =
      .next { s with operands := { s.operands with ms := ms }, trace := s.trace ++ [.dly ms.toNat], err := .none }

/-- R257 with R93 and R240 to R256: each of the 17 commands has its code, changes nothing in the block but its result,
which is the decoded state the chip reports, and fails only with `BusFailure`; no other code is a command. That the
chip changes only as the turn says is the model's choice (notes 15). -/
def Obligations.CommandsReturnReportedState : Prop :=
  (∀ (c : Command) (code : Byte) (i : Instr) (o : Operands) (s : State) (t : Turn) (ts : List Turn),
    (c, code, i) ∈ [(Command.tx, 0x60, Instr.tx), (.rx, 0x61, .rx), (.ready, 0x62, .ready), (.standby, 0x63, .standby),
      (.sleep, 0x64, .sleep), (.lockRx, 0x65, .lockRx), (.lockTx, 0x66, .lockTx), (.sabort, 0x67, .sabort),
      (.ldcReload, 0x68, .ldcReload), (.sequenceUpdate, 0x69, .sequenceUpdate), (.aesEncrypt, 0x6A, .aesEncrypt),
      (.aesKey, 0x6B, .aesKey), (.aesDecrypt, 0x6C, .aesDecrypt), (.aesKeyDecrypt, 0x6D, .aesKeyDecrypt),
      (.sRes, 0x70, .sRes), (.flushRxFifo, 0x71, .flushRxFifo), (.flushTxFifo, 0x72, .flushTxFifo)] →
    Idle s → s.turns = t :: ts →
    decode s.params ⟨.frame 0x80 code, o⟩ = .ok i ∧ frameOf s.params (.cmd c none) = [0x80, code] ∧
    (t.failure = none →
      exec i s =
        .next { s with
          results := { s.results with devState := decodeState s.params t.reported }
          turns := ts
          chip := chipAt t s.chip
          trace := s.trace ++ [.cmd c (some (decodeState s.params t.reported))]
          err := .none }) ∧
    ∀ f : TransportFailure, t.failure = some f →
      exec i s =
        .next { s with
          results := { s.results with devState := Config.freeState s.fresh }
          turns := ts
          chip := chipAt t s.chip
          trace := s.trace ++ [.cmd c none]
          err := .busFailure f.cause
          fresh := s.fresh + 1 }) ∧
  ∀ (p : Params) (code : Byte) (o : Operands), code ∉ commands.map commandCode →
    decode p ⟨.frame 0x80 code, o⟩ = .error (.unlistedCommandCode code)

/-! ### Field updates -/

/-- R66, R72, R175 (b), R228: a `RegSet` of any kind the block configures, and S3b of INIT, writes the register with the
named fields at their new values and every other field, and every other bit, as the register held them: as read, where it
reads first, and else as the chip has them (notes 30); made twice it leaves the same bytes as made once. A `RegSet` whose
codec sends it in several transactions (R226, U1), to a chip that changes nothing by itself and where none of its reads fails
to decode, puts each of them on the bus, in the codec's order, and leaves the same bytes (that every `RegSet` of a kind takes
the same transactions, and when a read among them decodes, is the model's choice, notes 30). -/
def Obligations.RegSetKeepsOtherFields : Prop :=
  ∀ (k : Kind) (fs : List (Field × FieldVal)) (op : Op) (l : Label) (next : List Micro) (s : State) (t₁ : Turn)
    (ts : List Turn),
    s.params.Legal → k ∈ regSetKinds → (∀ x ∈ fs, fits s.params k x = true) → (fs.map Prod.fst).Nodup →
    s.turns = t₁ :: ts → t₁.failure = none →
    let p : Params := s.params
    let c : Chip := chipAt t₁ s.chip
    let leaves (base : List Byte) (left : List Turn) (w : State) : Prop :=
      let after : List Byte := logicalBytes p k (.record base fs)
      w.pc = .busy op next ∧ w.turns = left ∧
      (∀ j < p.kindLen k, memGet w.chip.mem (p.kindAddr k + j) = some ((orderBytes p k after).getD j 0)) ∧
      (∀ x ∈ fs, fieldValue p k x.1 after = some x.2) ∧
      (∀ f ∈ k.fields, f ∉ fs.map Prod.fst → fieldValue p k f after = fieldValue p k f base) ∧
      (∀ j : Nat, (∀ x ∈ fs, j ∉ (p.fieldInfo k x.1).bits) → bitAt after j = bitAt base j) ∧
      logicalBytes p k (.record after fs) = after
    let writes (base : List Byte) (before : List BusEvent) (left : List Turn) (w : State) : Prop :=
      leaves base left w ∧ w.trace = s.trace ++ before ++ [.wr k (.record base fs) true]
    (s.pc = .busy op (⟨l, .regSet k fs⟩ :: next) → (p.kindInfo k).transfers = [] → (p.kindInfo k).rmw = false →
      ∃ w : State, seqStep s = some w ∧ writes (orderBytes p k (kindBytes p c k)) [] ts w) ∧
    (s.pc = .busy op (⟨l, .regSet k fs⟩ :: next) → (p.kindInfo k).transfers ≠ [] →
      ∀ used left : List Turn, s.turns = used ++ left → used.length = regSetTurns p k → (∀ t ∈ used, Quiet t) →
      let w : State := runSteps (used.length + 1) s
      let base : List Byte := orderBytes p k (kindBytes p c k)
      (∀ e ∈ newEvents s w, failed e = false) →
      leaves base left w ∧
      List.Forall₂ (fun (x : Transfer) (e : BusEvent) =>
          let place : Byte := BitVec.ofNat 8 (p.kindAddr k + x.first)
          if x.read then (∃ bytes : List Byte, e = .rdPart k x (some bytes)) ∧ frameOf p e = [0x01, place]
          else (∃ held : List Byte, e = .wrPart k x (.record held fs) true) ∧
            frameOf p e = 0x00 :: place :: x.part (encodeValue p k (.record base fs)))
        (p.kindInfo k).transfers (newEvents s w)) ∧
    ∀ (t₂ : Turn) (left : List Turn) (v : KindVal), ts = t₂ :: left → t₂.failure = none → valueRead p k t₁ c = .ok v →
      (s.pc = .busy op (⟨l, .regSet k fs⟩ :: next) ∧ (p.kindInfo k).transfers = [] ∧ (p.kindInfo k).rmw = true ∨
        s.pc = .busy op (⟨l, .modify k fs⟩ :: next)) →
      ∃ u w : State, seqStep s = some u ∧ seqStep u = some w ∧
        writes (orderBytes p k (bytesRead p k t₁ c)) [.rd k (some v)] left w
end

