-- ==== Sys2Proof/Laws/Arith.lean ====
section
/-! SUPPORT. One lemma for each arithmetic operation of Operands.lean, Flags.lean and Calculators.lean that the calculators
and the IRQ manager share: what it gives, for the provers to cite instead of unfolding it. -/

namespace Sys2Proof.Machine

/-! ### Rounding and limiting (R14, R151) -/

/-- `trunc` is the floor of a non-negative rational and the ceiling of a negative one. -/
theorem trunc_eq_floor_or_ceil (q : ℚ) : trunc q = if 0 ≤ q then ⌊q⌋ else ⌈q⌉ := by
  have hfloor : ∀ r : ℚ, ⌊r⌋ = r.num / (r.den : Int) := fun r => Rat.floor_def r
  unfold trunc
  split
  · next h => rw [hfloor, Int.tdiv_eq_ediv_of_nonneg (Rat.num_nonneg.2 h)]
  · next h =>
    have hneg : 0 ≤ (-q).num := by rw [Rat.num_nonneg]; linarith [not_le.1 h]
    have hceil : ⌈q⌉ = -⌊-q⌋ := by rw [Int.floor_neg, neg_neg]
    rw [hceil, hfloor, ← Int.tdiv_eq_ediv_of_nonneg hneg, Rat.num_neg_eq_neg_num, Rat.den_neg_eq_den, Int.neg_tdiv, neg_neg]

theorem clampInt_eq_max_min (x lo hi : Int) (h : lo ≤ hi) : clampInt x lo hi = max lo (min hi x) := by
  unfold clampInt; split
  · omega
  · split <;> omega

theorem clampRat_eq_max_min (x lo hi : ℚ) (h : lo ≤ hi) : clampRat x lo hi = max lo (min hi x) := by
  unfold clampRat
  split
  · next hx => rw [min_eq_right (le_of_lt (lt_of_lt_of_le hx h)), max_eq_left (le_of_lt hx)]
  · next hx =>
    split
    · next hy => rw [min_eq_left (le_of_lt hy), max_eq_right h]
    · next hy => rw [min_eq_right (not_lt.1 hy), max_eq_right (not_lt.1 hx)]

/-- A value that fits in a byte is limited to itself, whichever way the limit works. -/
theorem limitU8_fits (l : Limit) (v : Int) (h0 : 0 ≤ v) (h1 : v ≤ 255) : ((limitU8 l v).toNat : Int) = v := by
  cases l <;> simp only [limitU8, clampInt] <;> (try split) <;> (try split) <;>
    first | omega | (simp only [BitVec.toNat_ofInt]; omega)

theorem limitU8_wrap (v : Int) : ((limitU8 .wrap v).toNat : Int) = v % 256 := by
  simp only [limitU8, BitVec.toNat_ofInt]; omega

theorem limitU8_clamp_high (v : Int) (h : 255 < v) : limitU8 .clamp v = 0xFF := by
  have : clampInt v 0 255 = 255 := by unfold clampInt; rw [if_neg (by omega), if_pos h]
  simp [limitU8, this]

theorem limitU8_clamp_low (v : Int) (h : v < 0) : limitU8 .clamp v = 0x00 := by
  have : clampInt v 0 255 = 0 := by unfold clampInt; rw [if_pos h]
  simp [limitU8, this]

/-- A value that fits in 12 bits is limited to its own pattern, whichever way the limit works. -/
theorem limitS12_fits (l : Limit) (v : Int) (h0 : -2048 ≤ v) (h1 : v ≤ 2047) : (limitS12 l v).toInt = v := by
  have hc : clampInt v (-2048) 2047 = v := by unfold clampInt; split <;> [omega; (split <;> omega)]
  have hb : v.bmod 4096 = v := by rw [Int.bmod_def]; split <;> omega
  cases l <;> simp [limitS12, hc, BitVec.toInt_ofInt, hb]

theorem limitS12_wrap (v : Int) : ((limitS12 .wrap v).toNat : Int) = v % 4096 := by
  simp only [limitS12, BitVec.toNat_ofInt]; omega

theorem limitS12_clamp_high (v : Int) (h : 2047 < v) : limitS12 .clamp v = 0x7FF := by
  have : clampInt v (-2048) 2047 = 2047 := by unfold clampInt; rw [if_neg (by omega), if_pos h]
  simp [limitS12, this]

theorem limitS12_clamp_low (v : Int) (h : v < -2048) : limitS12 .clamp v = 0x800 := by
  have : clampInt v (-2048) 2047 = -2048 := by unfold clampInt; rw [if_pos h]
  simp [limitS12, this]

/-- The offset in Hz is the integer quotient rounded toward zero. -/
theorem offsetHz_eq_tdiv (ppm : Int) (baseHz : Nat) : offsetHz ppm baseHz = (ppm * (baseHz : Int)).tdiv 1000000 := by
  have key : ∀ n : Int, trunc ((n : ℚ) / 1000000) = n.tdiv 1000000 := by
    intro n
    have hfloor : ∀ m : Int, ⌊(m : ℚ) / 1000000⌋ = m / 1000000 := by
      intro m
      have := Rat.floor_intCast_div_natCast m 1000000
      simpa using this
    rw [trunc_eq_floor_or_ceil]
    split
    · next h =>
      have hn : 0 ≤ n := by
        by_contra hc
        have : (n : ℚ) < 0 := by exact_mod_cast not_le.1 hc
        have : (n : ℚ) / 1000000 < 0 := div_neg_of_neg_of_pos this (by norm_num)
        linarith
      rw [hfloor, Int.tdiv_eq_ediv_of_nonneg hn]
    · next h =>
      have hn : n < 0 := by
        by_contra hc
        have : (0 : ℚ) ≤ n := by exact_mod_cast not_lt.1 hc
        exact h (by positivity)
      have hceil : ⌈(n : ℚ) / 1000000⌉ = -⌊((-n : Int) : ℚ) / 1000000⌋ := by
        rw [← neg_neg (⌈(n : ℚ) / 1000000⌉), ← Int.floor_neg]; push_cast; rw [neg_div]
      rw [hceil, hfloor, ← Int.tdiv_eq_ediv_of_nonneg (by omega), Int.neg_tdiv, neg_neg]
  exact key (ppm * (baseHz : Int))

/-- The offset in Hz fits its 64-bit latch. -/
theorem offsetHz_toInt (ppm : BitVec 16) (b : Word) :
    (BitVec.ofInt 64 (offsetHz ppm.toInt b.toNat)).toInt = offsetHz ppm.toInt b.toNat := by
  have h1 : -32768 ≤ ppm.toInt := by have := BitVec.le_toInt ppm; norm_num at this; exact this
  have h2 : ppm.toInt ≤ 32767 := by have := BitVec.toInt_lt (x := ppm); norm_num at this; omega
  have h3 : (b.toNat : Int) < 4294967296 := by have := b.isLt; norm_num at this; exact_mod_cast this
  have h0 : (0 : Int) ≤ (b.toNat : Int) := by positivity
  have lo : -(32768 * 4294967296) ≤ ppm.toInt * (b.toNat : Int) := by nlinarith
  have hi : ppm.toInt * (b.toNat : Int) ≤ 32768 * 4294967296 := by nlinarith
  rw [offsetHz_eq_tdiv]
  generalize ppm.toInt * (b.toNat : Int) = n at lo hi
  have b1 : n.tdiv 1000000 ≤ 1000000000 := by
    rcases Int.le_total 0 n with h | h
    · rw [Int.tdiv_eq_ediv_of_nonneg h]; omega
    · rw [show n = -(-n) by omega, Int.neg_tdiv, Int.tdiv_eq_ediv_of_nonneg (by omega)]; omega
  have b2 : -1000000000 ≤ n.tdiv 1000000 := by
    rcases Int.le_total 0 n with h | h
    · rw [Int.tdiv_eq_ediv_of_nonneg h]; omega
    · rw [show n = -(-n) by omega, Int.neg_tdiv, Int.tdiv_eq_ediv_of_nonneg (by omega)]; omega
  rw [BitVec.toInt_ofInt, Int.bmod_def]
  norm_num
  split <;> omega

/-! ### The PA line (R144) -/

/-- With a clock no rate is above the top pair's, which is the equation's own (R123 (c)). -/
theorem datarateRate_le_top (eq : ℚ → Nat → Nat → ℚ) (mBits eBits : Nat) {fClk : ℚ} (h : fClk ≠ 0) (c : Nat × Nat) :
    datarateRate eq mBits eBits fClk c ≤ datarateRate eq mBits eBits fClk (datarateTop mBits eBits) ∧
    datarateRate eq mBits eBits fClk (datarateTop mBits eBits) = eq fClk (2 ^ mBits - 1) (2 ^ eBits - 1) := by
  simp [datarateRate, datarateTop, h]

/-- The value of a line is in `1 .. 90`, and is the floor of the clamped line. -/
theorem paValue_bounds (row : PaRow) (seg : Segment) (dbm : ℚ) :
    paValue row seg dbm = ⌊max 1 (min 90 ((paLine row seg).1 * dbm + (paLine row seg).2))⌋ ∧
    1 ≤ paValue row seg dbm ∧ paValue row seg dbm ≤ 90 := by
  unfold paValue
  rw [clampRat_eq_max_min _ _ _ (by norm_num), trunc_eq_floor_or_ceil]
  generalize (paLine row seg).1 * dbm + (paLine row seg).2 = y
  have h1 : (1 : ℚ) ≤ max 1 (min 90 y) := le_max_left _ _
  have h2 : max 1 (min 90 y) ≤ (90 : ℚ) := max_le (by norm_num) (min_le_left _ _)
  rw [if_pos (by linarith)]
  refine ⟨rfl, Int.le_floor.2 (by exact_mod_cast h1), ?_⟩
  have := Int.floor_le (max 1 (min 90 y))
  exact_mod_cast this.trans h2

/-! ### Bits of the interrupt word (R32, R213, R215) -/

theorem eventBit_lt {p : Params} (h : p.Legal) (e : Event) : p.eventBit e < 32 := by
  obtain ⟨-, -, -, -, -, -, ⟨hl, -, hb⟩, -⟩ := h
  have hi : e.index < 32 := by cases e <;> simp [Event.index]; omega
  unfold Params.eventBit
  rw [List.getD_eq_getElem _ _ (by omega)]
  exact hb _ (List.getElem_mem _)

/-- Different events have different bits. -/
theorem eventBit_injective {p : Params} (h : p.Legal) {e f : Event} (he : p.eventBit e = p.eventBit f) : e = f := by
  obtain ⟨-, -, -, -, -, -, ⟨hl, hn, -⟩, -⟩ := h
  have hi : ∀ g : Event, g.index < 32 := by intro g; cases g <;> simp [Event.index]; omega
  unfold Params.eventBit at he
  rw [List.getD_eq_getElem _ _ (by rw [hl]; exact hi e), List.getD_eq_getElem _ _ (by rw [hl]; exact hi f)] at he
  have hx := (List.Nodup.getElem_inj_iff hn).1 he
  cases e <;> cases f <;> simp_all [Event.index] <;> omega

/-- What `1 << EVENT_BIT` holds. -/
theorem eventMask_bit (p : Params) (e : Event) (j : Nat) (hj : j < 32) :
    (eventMask p e).getLsbD j = decide (j = p.eventBit e) := by
  unfold eventMask
  rw [BitVec.getLsbD_shiftLeft]
  rcases Nat.lt_trichotomy j (p.eventBit e) with h | h | h
  · simp [h, Nat.ne_of_lt h]
  · subst h; simp [hj]
  · have h1 : ¬ j < p.eventBit e := by omega
    have h2 : j - p.eventBit e ≠ 0 := by omega
    simp [hj, h1, h2, Nat.ne_of_gt h]

/-- The bits of the accumulator after one more event. -/
theorem maskWith_bit (p : Params) (acc : Word) (e : Event) (j : Nat) (hj : j < 32) :
    (maskWith p acc e).getLsbD j = (acc.getLsbD j || decide (j = p.eventBit e)) := by
  unfold maskWith
  rw [BitVec.getLsbD_or, eventMask_bit p e j hj]

/-- The word put out big-endian and assembled again is the word. -/
theorem bytesWord_wordBytes (w : Word) : bytesWord (wordBytes w) = w := by
  unfold bytesWord wordBytes
  simp only [List.getD_cons_zero, List.getD_cons_succ]
  apply BitVec.eq_of_getLsbD_eq
  intro i hi
  simp only [BitVec.getLsbD_append, BitVec.getLsbD_extractLsb']
  split
  · next h => simp [h]
  · split
    · next h => simp only [h, decide_true, Bool.true_and]; congr 1; omega
    · split
      · next h => simp only [h, decide_true, Bool.true_and]; congr 1; omega
      · rw [decide_eq_true (by omega), Bool.true_and]; congr 1; omega

/-! ### The parameters (R12) -/

theorem someLegal_legal : Params.someLegal.Legal := by decide +kernel

theorem legalise_legal (p : Params) : p.legalise.Legal := by
  unfold Params.legalise
  split
  · assumption
  · exact someLegal_legal

/-- Nothing legal is lost: a legal parameter set stays as it is. -/
theorem legalise_of_legal {p : Params} (h : p.Legal) : p.legalise = p := if_pos h

end Sys2Proof.Machine
end

