-- ==== Sys2Proof/Laws/State.lean ====
section
/-! SUPPORT. One lemma per field for each of the record updates of Machine/Ops.lean, so that no proof unfolds an update. -/

namespace Sys2Proof.Machine

/-! ### `emit`: only the trace grows -/

@[simp] theorem emit_params (e : BusEvent) (s : State) : (emit e s).params = s.params := rfl
@[simp] theorem emit_xtalHz (e : BusEvent) (s : State) : (emit e s).xtalHz = s.xtalHz := rfl
@[simp] theorem emit_baseHz (e : BusEvent) (s : State) : (emit e s).baseHz = s.baseHz := rfl
@[simp] theorem emit_band (e : BusEvent) (s : State) : (emit e s).band = s.band := rfl
@[simp] theorem emit_operands (e : BusEvent) (s : State) : (emit e s).operands = s.operands := rfl
@[simp] theorem emit_results (e : BusEvent) (s : State) : (emit e s).results = s.results := rfl
@[simp] theorem emit_pc (e : BusEvent) (s : State) : (emit e s).pc = s.pc := rfl
@[simp] theorem emit_engine (e : BusEvent) (s : State) : (emit e s).engine = s.engine := rfl
@[simp] theorem emit_maskAcc (e : BusEvent) (s : State) : (emit e s).maskAcc = s.maskAcc := rfl
@[simp] theorem emit_err (e : BusEvent) (s : State) : (emit e s).err = s.err := rfl
@[simp] theorem emit_rxbuf (e : BusEvent) (s : State) : (emit e s).rxbuf = s.rxbuf := rfl
@[simp] theorem emit_polls (e : BusEvent) (s : State) : (emit e s).polls = s.polls := rfl
@[simp] theorem emit_retries (e : BusEvent) (s : State) : (emit e s).retries = s.retries := rfl
@[simp] theorem emit_chip (e : BusEvent) (s : State) : (emit e s).chip = s.chip := rfl
@[simp] theorem emit_trace (e : BusEvent) (s : State) : (emit e s).trace = s.trace ++ [e] := rfl
@[simp] theorem emit_turns (e : BusEvent) (s : State) : (emit e s).turns = s.turns := rfl
@[simp] theorem emit_port (e : BusEvent) (s : State) : (emit e s).port = s.port := rfl
@[simp] theorem emit_fresh (e : BusEvent) (s : State) : (emit e s).fresh = s.fresh := rfl

/-! ### `goto`: only the position moves -/

@[simp] theorem goto_params (op : Op) (l : List Micro) (s : State) : (goto op l s).params = s.params := rfl
@[simp] theorem goto_xtalHz (op : Op) (l : List Micro) (s : State) : (goto op l s).xtalHz = s.xtalHz := rfl
@[simp] theorem goto_baseHz (op : Op) (l : List Micro) (s : State) : (goto op l s).baseHz = s.baseHz := rfl
@[simp] theorem goto_band (op : Op) (l : List Micro) (s : State) : (goto op l s).band = s.band := rfl
@[simp] theorem goto_operands (op : Op) (l : List Micro) (s : State) : (goto op l s).operands = s.operands := rfl
@[simp] theorem goto_results (op : Op) (l : List Micro) (s : State) : (goto op l s).results = s.results := rfl
@[simp] theorem goto_pc (op : Op) (l : List Micro) (s : State) : (goto op l s).pc = .busy op l := rfl
@[simp] theorem goto_engine (op : Op) (l : List Micro) (s : State) : (goto op l s).engine = s.engine := rfl
@[simp] theorem goto_maskAcc (op : Op) (l : List Micro) (s : State) : (goto op l s).maskAcc = s.maskAcc := rfl
@[simp] theorem goto_err (op : Op) (l : List Micro) (s : State) : (goto op l s).err = s.err := rfl
@[simp] theorem goto_rxbuf (op : Op) (l : List Micro) (s : State) : (goto op l s).rxbuf = s.rxbuf := rfl
@[simp] theorem goto_polls (op : Op) (l : List Micro) (s : State) : (goto op l s).polls = s.polls := rfl
@[simp] theorem goto_retries (op : Op) (l : List Micro) (s : State) : (goto op l s).retries = s.retries := rfl
@[simp] theorem goto_chip (op : Op) (l : List Micro) (s : State) : (goto op l s).chip = s.chip := rfl
@[simp] theorem goto_trace (op : Op) (l : List Micro) (s : State) : (goto op l s).trace = s.trace := rfl
@[simp] theorem goto_turns (op : Op) (l : List Micro) (s : State) : (goto op l s).turns = s.turns := rfl
@[simp] theorem goto_port (op : Op) (l : List Micro) (s : State) : (goto op l s).port = s.port := rfl
@[simp] theorem goto_fresh (op : Op) (l : List Micro) (s : State) : (goto op l s).fresh = s.fresh := rfl

/-! ### `finish`: results, `ERR` and the position -/

@[simp] theorem finish_params (r : ResultWrite) (s : State) : (finish r s).params = s.params := rfl
@[simp] theorem finish_xtalHz (r : ResultWrite) (s : State) : (finish r s).xtalHz = s.xtalHz := rfl
@[simp] theorem finish_baseHz (r : ResultWrite) (s : State) : (finish r s).baseHz = s.baseHz := rfl
@[simp] theorem finish_band (r : ResultWrite) (s : State) : (finish r s).band = s.band := rfl
@[simp] theorem finish_operands (r : ResultWrite) (s : State) : (finish r s).operands = s.operands := rfl
@[simp] theorem finish_results (r : ResultWrite) (s : State) : (finish r s).results = writeResults s.results r := rfl
@[simp] theorem finish_pc (r : ResultWrite) (s : State) : (finish r s).pc = .idle := rfl
@[simp] theorem finish_engine (r : ResultWrite) (s : State) : (finish r s).engine = s.engine := rfl
@[simp] theorem finish_maskAcc (r : ResultWrite) (s : State) : (finish r s).maskAcc = s.maskAcc := rfl
@[simp] theorem finish_err (r : ResultWrite) (s : State) : (finish r s).err = .none := rfl
@[simp] theorem finish_rxbuf (r : ResultWrite) (s : State) : (finish r s).rxbuf = s.rxbuf := rfl
@[simp] theorem finish_polls (r : ResultWrite) (s : State) : (finish r s).polls = s.polls := rfl
@[simp] theorem finish_retries (r : ResultWrite) (s : State) : (finish r s).retries = s.retries := rfl
@[simp] theorem finish_chip (r : ResultWrite) (s : State) : (finish r s).chip = s.chip := rfl
@[simp] theorem finish_trace (r : ResultWrite) (s : State) : (finish r s).trace = s.trace := rfl
@[simp] theorem finish_turns (r : ResultWrite) (s : State) : (finish r s).turns = s.turns := rfl
@[simp] theorem finish_port (r : ResultWrite) (s : State) : (finish r s).port = s.port := rfl
@[simp] theorem finish_fresh (r : ResultWrite) (s : State) : (finish r s).fresh = s.fresh := rfl

/-! ### `raise`: `ERR`, the position, the result latches of the operation and the counter of free values (R276) -/

@[simp] theorem raise_params (e : Err) (s : State) : (raise e s).params = s.params := by
  unfold raise; split <;> rfl
@[simp] theorem raise_xtalHz (e : Err) (s : State) : (raise e s).xtalHz = s.xtalHz := by
  unfold raise; split <;> rfl
@[simp] theorem raise_baseHz (e : Err) (s : State) : (raise e s).baseHz = s.baseHz := by
  unfold raise; split <;> rfl
@[simp] theorem raise_band (e : Err) (s : State) : (raise e s).band = s.band := by
  unfold raise; split <;> rfl
@[simp] theorem raise_operands (e : Err) (s : State) : (raise e s).operands = s.operands := by
  unfold raise; split <;> rfl
@[simp] theorem raise_pc (e : Err) (s : State) : (raise e s).pc = .idle := by
  unfold raise; split <;> simp_all
@[simp] theorem raise_engine (e : Err) (s : State) : (raise e s).engine = s.engine := by
  unfold raise; split <;> rfl
@[simp] theorem raise_maskAcc (e : Err) (s : State) : (raise e s).maskAcc = s.maskAcc := by
  unfold raise; split <;> rfl
@[simp] theorem raise_err (e : Err) (s : State) : (raise e s).err = e := by
  unfold raise; split <;> rfl
@[simp] theorem raise_polls (e : Err) (s : State) : (raise e s).polls = s.polls := by
  unfold raise; split <;> rfl
@[simp] theorem raise_retries (e : Err) (s : State) : (raise e s).retries = s.retries := by
  unfold raise; split <;> rfl
@[simp] theorem raise_chip (e : Err) (s : State) : (raise e s).chip = s.chip := by
  unfold raise; split <;> rfl
@[simp] theorem raise_trace (e : Err) (s : State) : (raise e s).trace = s.trace := by
  unfold raise; split <;> rfl
@[simp] theorem raise_turns (e : Err) (s : State) : (raise e s).turns = s.turns := by
  unfold raise; split <;> rfl
@[simp] theorem raise_port (e : Err) (s : State) : (raise e s).port = s.port := by
  unfold raise; split <;> rfl

/-- While an operation is in progress, `raise` leaves its own result latches unspecified (R25). -/
theorem raise_results_busy (e : Err) (s : State) (op : Op) (l : List Micro) (h : s.pc = .busy op l) :
    (raise e s).results = unspecifyResults s.results op s.fresh := by
  simp [raise, h]

/-- While an operation is in progress, `raise` is this update of the state (R276). -/
theorem raise_busy (e : Err) (s : State) (op : Op) (l : List Micro) (h : s.pc = .busy op l) :
    raise e s =
      { s with
        err := e
        pc := .idle
        results := unspecifyResults s.results op s.fresh
        rxbuf := unspecifyRxbuf s.rxbuf op s.fresh
        fresh := s.fresh + 1 } := by
  simp [raise, h]

/-- While an operation is in progress, `raise` leaves `RXBUF` unspecified where it is that operation's result (R25, R276). -/
theorem raise_rxbuf_busy (e : Err) (s : State) (op : Op) (l : List Micro) (h : s.pc = .busy op l) :
    (raise e s).rxbuf = unspecifyRxbuf s.rxbuf op s.fresh := by
  simp [raise, h]

/-- Every operation but RX_BLOCKING keeps `RXBUF` when it raises an error (R276). -/
theorem unspecifyRxbuf_other (held : List Byte) (n : Nat) {op : Op} (h : op ≠ .rxBlocking) : unspecifyRxbuf held op n = held := by
  cases op <;> first | rfl | exact absurd rfl h

/-- `RXBUF` stays 96 bytes when an operation raises an error. -/
theorem raise_rxbuf_length (e : Err) (s : State) (h : s.rxbuf.length = 96) : (raise e s).rxbuf.length = 96 := by
  unfold raise
  split
  · exact h
  · next op _ _ => cases op <;> simp [unspecifyRxbuf, fitBytes, h]

/-! ### The chip after a transaction (R60, R67) -/

@[simp] theorem chipAfterRead_mem (k : Kind) (c : Chip) : (chipAfterRead k c).mem = c.mem := rfl
@[simp] theorem chipAfterRead_txFifo (k : Kind) (c : Chip) : (chipAfterRead k c).txFifo = c.txFifo := rfl
@[simp] theorem chipAfterRead_rxFifo (k : Kind) (c : Chip) : (chipAfterRead k c).rxFifo = c.rxFifo := rfl
@[simp] theorem chipAfterRead_stateCode (k : Kind) (c : Chip) : (chipAfterRead k c).stateCode = c.stateCode := rfl
@[simp] theorem chipAfterWrite_txFifo (p : Params) (k : Kind) (v : KindVal) (c : Chip) : (chipAfterWrite p k v c).txFifo = c.txFifo := rfl
@[simp] theorem chipAfterWrite_rxFifo (p : Params) (k : Kind) (v : KindVal) (c : Chip) : (chipAfterWrite p k v c).rxFifo = c.rxFifo := rfl
@[simp] theorem chipAfterWrite_stateCode (p : Params) (k : Kind) (v : KindVal) (c : Chip) : (chipAfterWrite p k v c).stateCode = c.stateCode := rfl
@[simp] theorem chipAfterWrite_pending (p : Params) (k : Kind) (v : KindVal) (c : Chip) : (chipAfterWrite p k v c).pending = c.pending := rfl
@[simp] theorem chipAfterPartWrite_txFifo (p : Params) (k : Kind) (x : Transfer) (v : KindVal) (c : Chip) : (chipAfterPartWrite p k x v c).txFifo = c.txFifo := rfl
@[simp] theorem chipAfterPartWrite_rxFifo (p : Params) (k : Kind) (x : Transfer) (v : KindVal) (c : Chip) : (chipAfterPartWrite p k x v c).rxFifo = c.rxFifo := rfl
@[simp] theorem chipAfterPartWrite_stateCode (p : Params) (k : Kind) (x : Transfer) (v : KindVal) (c : Chip) : (chipAfterPartWrite p k x v c).stateCode = c.stateCode := rfl
@[simp] theorem chipAfterPartWrite_pending (p : Params) (k : Kind) (x : Transfer) (v : KindVal) (c : Chip) : (chipAfterPartWrite p k x v c).pending = c.pending := rfl
@[simp] theorem chipAfterRawWrite_rxFifo (a : Byte) (bs : List Byte) (l : List (Option (Fin 255))) (c : Chip) : (chipAfterRawWrite a bs l c).rxFifo = c.rxFifo := rfl
@[simp] theorem chipAfterRawWrite_stateCode (a : Byte) (bs : List Byte) (l : List (Option (Fin 255))) (c : Chip) : (chipAfterRawWrite a bs l c).stateCode = c.stateCode := rfl
@[simp] theorem chipAfterRawWrite_pending (a : Byte) (bs : List Byte) (l : List (Option (Fin 255))) (c : Chip) : (chipAfterRawWrite a bs l c).pending = c.pending := rfl
@[simp] theorem chipAfterRawRead_mem (p : Params) (a : Byte) (n : Nat) (c : Chip) : (chipAfterRawRead p a n c).mem = c.mem := rfl
@[simp] theorem chipAfterRawRead_txFifo (p : Params) (a : Byte) (n : Nat) (c : Chip) : (chipAfterRawRead p a n c).txFifo = c.txFifo := rfl
@[simp] theorem chipAfterRawRead_stateCode (p : Params) (a : Byte) (n : Nat) (c : Chip) : (chipAfterRawRead p a n c).stateCode = c.stateCode := rfl

end Sys2Proof.Machine
end

