-- ==== Sys2Proof/Laws/Codec.lean ====
section
/-! SUPPORT. The register codec: what stands at a place after a field is written, and that reading a field gives what was
written there, leaves every other field, and that writing back what was read changes nothing (R65, R66, R72). -/

namespace Sys2Proof

/-! ### One bit -/

/-- The bit replaced reads as put, every other bit of the byte as before. -/
theorem getLsbD_byteWithBit (x : Byte) (i j : Nat) (b : Bool) (hi : i < 8) :
    (byteWithBit x i b).getLsbD j = if i = j then b else x.getLsbD j := by
  have key : ((1 : Byte) <<< i).getLsbD j = decide (i = j) := by
    have : (1 : Byte) <<< i = BitVec.twoPow 8 i := by rw [BitVec.twoPow_eq]; rfl
    rw [this, BitVec.getLsbD_twoPow]
    by_cases h : i = j
    · simp [h]; omega
    · simp [h]
  unfold byteWithBit
  by_cases h : i = j
  · subst h
    cases b <;> simp [hi]
  · cases b <;> simp only [BitVec.getLsbD_and, BitVec.getLsbD_or, BitVec.getLsbD_not, key, h, if_false, if_true,
      Bool.false_eq_true, decide_false, Bool.or_false, Bool.not_false, Bool.and_true]
    by_cases hj : j < 8
    · simp [hj]
    · simp [hj, BitVec.getLsbD_of_ge x j (by omega)]

@[simp] theorem setBit_length (bs : List Byte) (j : Nat) (b : Bool) : (setBit bs j b).length = bs.length := by
  unfold setBit; split <;> simp

/-- The bit put at its place is the bit read there, and every other bit reads as before. -/
theorem bitAt_setBit (bs : List Byte) (i j : Nat) (b : Bool) (hi : i < 8 * bs.length) :
    bitAt (setBit bs i b) j = if i = j then b else bitAt bs j := by
  unfold bitAt
  rw [setBit_length]
  by_cases hj : j < 8 * bs.length
  · rw [if_pos hj, if_pos hj]
    simp only [setBit, hi, if_true]
    by_cases hb : i / 8 = j / 8
    · rw [hb]
      simp only [List.getD_eq_getElem?_getD]
      rw [List.getElem?_set_self (by omega)]
      simp only [Option.getD_some]
      rw [getLsbD_byteWithBit _ _ _ _ (by omega)]
      by_cases hm : i % 8 = j % 8
      · rw [if_pos hm, if_pos (by omega)]
      · rw [if_neg hm, if_neg (by intro h; exact hm (by rw [h]))]
    · have hne : bs.length - 1 - i / 8 ≠ bs.length - 1 - j / 8 := by omega
      simp only [List.getD_eq_getElem?_getD]
      rw [List.getElem?_set_ne hne, if_neg (by intro h; exact hb (by rw [h]))]
  · rw [if_neg hj, if_neg hj, if_neg (by omega)]

/-- A place outside the register is not written. -/
theorem setBit_outside (bs : List Byte) (j : Nat) (b : Bool) (hj : ¬ j < 8 * bs.length) : setBit bs j b = bs := by
  simp [setBit, hj]

/-- Register bytes of one length with the same bits are the same. -/
theorem bytes_ext {xs ys : List Byte} (hl : xs.length = ys.length) (h : ∀ j, bitAt xs j = bitAt ys j) : xs = ys := by
  apply List.ext_getElem hl
  intro n h1 h2
  apply BitVec.eq_of_getLsbD_eq
  intro i hi
  have hj : 8 * (xs.length - 1 - n) + i < 8 * xs.length := by omega
  have := h (8 * (xs.length - 1 - n) + i)
  have hd : (8 * (xs.length - 1 - n) + i) / 8 = xs.length - 1 - n := by omega
  have hm : (8 * (xs.length - 1 - n) + i) % 8 = i := by omega
  simp only [bitAt] at this
  rw [if_pos hj, if_pos (by omega), hd, hm] at this
  rw [← hl, show xs.length - 1 - (xs.length - 1 - n) = n by omega] at this
  simpa [List.getD_eq_getElem?_getD, h1, h2] using this

/-- Writing the bit that stands there changes nothing. -/
theorem setBit_bitAt (bs : List Byte) (j : Nat) : setBit bs j (bitAt bs j) = bs := by
  by_cases hj : j < 8 * bs.length
  · refine bytes_ext (by simp) (fun i => ?_)
    rw [bitAt_setBit _ _ _ _ hj]
    split
    · next h => rw [h]
    · rfl
  · exact setBit_outside _ _ _ hj

/-! ### One field -/

@[simp] theorem putCode_length (js : List Nat) (c : Nat) (bs : List Byte) : (putCode js c bs).length = bs.length := by
  induction js generalizing c bs with
  | nil => rfl
  | cons j js ih => simp [putCode, ih]

/-- A bit outside the places written reads as before. -/
theorem bitAt_putCode_other (js : List Nat) (c : Nat) (bs : List Byte) (i : Nat) (h : i ∉ js) :
    bitAt (putCode js c bs) i = bitAt bs i := by
  induction js generalizing c bs with
  | nil => rfl
  | cons j js ih =>
    simp only [List.mem_cons, not_or] at h
    rw [putCode, ih _ _ h.2]
    by_cases hj : j < 8 * bs.length
    · rw [bitAt_setBit _ _ _ _ hj, if_neg (fun e => h.1 e.symm)]
    · rw [setBit_outside _ _ _ hj]

/-- A field's code depends on the bits at its places alone. -/
theorem codeAt_congr (js : List Nat) {xs ys : List Byte} (h : ∀ j ∈ js, bitAt xs j = bitAt ys j) :
    codeAt js xs = codeAt js ys := by
  induction js with
  | nil => rfl
  | cons j js ih =>
    simp only [codeAt]
    rw [h j List.mem_cons_self, ih (fun i hi => h i (List.mem_cons_of_mem _ hi))]

/-- A field's code fits in the field: decode never takes more bits than the width allows (R65). -/
theorem codeAt_lt (js : List Nat) (bs : List Byte) : codeAt js bs < 2 ^ js.length := by
  induction js with
  | nil => simp [codeAt]
  | cons j js ih =>
    have := (bitAt bs j).toNat_lt
    simp only [codeAt, List.length_cons, pow_succ]
    omega

/-- What is put at distinct places inside the register is read there, as far as it fits. -/
theorem codeAt_putCode (js : List Nat) (c : Nat) (bs : List Byte) (hn : js.Nodup) (hr : ∀ j ∈ js, j < 8 * bs.length) :
    codeAt js (putCode js c bs) = c % 2 ^ js.length := by
  induction js generalizing c bs with
  | nil => simp [codeAt, Nat.mod_one]
  | cons j js ih =>
    rw [List.nodup_cons] at hn
    simp only [codeAt, putCode]
    rw [bitAt_putCode_other _ _ _ _ hn.1, bitAt_setBit _ _ _ _ (hr j List.mem_cons_self), if_pos rfl,
      ih _ _ hn.2 (fun i hi => by simpa using hr i (List.mem_cons_of_mem _ hi))]
    simp only [List.length_cons, pow_succ]
    have hb : (decide (c % 2 = 1)).toNat = c % 2 := by rcases Nat.mod_two_eq_zero_or_one c with h | h <;> simp [h]
    rw [hb, Nat.mul_comm (2 ^ js.length) 2, Nat.mod_mul]

/-- A field elsewhere is read as before. -/
theorem codeAt_putCode_disjoint (is js : List Nat) (c : Nat) (bs : List Byte) (h : ∀ i ∈ is, i ∉ js) :
    codeAt is (putCode js c bs) = codeAt is bs :=
  codeAt_congr is fun i hi => bitAt_putCode_other js c bs i (h i hi)

/-- Writing the code that stands there changes nothing. -/
theorem putCode_same (js : List Nat) (c : Nat) (bs : List Byte) (h : codeAt js bs = c % 2 ^ js.length) :
    putCode js c bs = bs := by
  induction js generalizing c with
  | nil => rfl
  | cons j js ih =>
    simp only [codeAt, List.length_cons, pow_succ] at h
    have hlt := codeAt_lt js bs
    have hb := (bitAt bs j).toNat_lt
    rw [Nat.mul_comm (2 ^ js.length) 2, Nat.mod_mul] at h
    have h0 : (bitAt bs j).toNat = c % 2 := by omega
    have hbit : decide (c % 2 = 1) = bitAt bs j := by rw [← h0]; cases bitAt bs j <;> rfl
    rw [putCode, hbit, setBit_bitAt]
    exact ih (c / 2) (by omega)

/-- The code read at written places does not depend on what stood in the register before. -/
theorem codeAt_putCode_same_length (js : List Nat) (c : Nat) {xs ys : List Byte} (h : xs.length = ys.length) :
    codeAt js (putCode js c xs) = codeAt js (putCode js c ys) := by
  have main : ∀ (ks : List Nat) (c : Nat) (xs ys : List Byte), xs.length = ys.length →
      ∀ j, (j ∈ ks ∨ bitAt xs j = bitAt ys j) → bitAt (putCode ks c xs) j = bitAt (putCode ks c ys) j := by
    intro ks
    induction ks with
    | nil => intro c xs ys _ j hj; simpa [putCode] using hj
    | cons k ks ih =>
      intro c xs ys hl j hj
      simp only [putCode]
      refine ih _ _ _ (by simp [hl]) j ?_
      by_cases hk : k < 8 * xs.length
      · rw [bitAt_setBit _ _ _ _ hk, bitAt_setBit _ _ _ _ (by omega)]
        by_cases he : k = j
        · right; simp [he]
        · rcases hj with hj | hj
          · rcases List.mem_cons.1 hj with hj | hj
            · exact absurd hj.symm he
            · left; exact hj
          · right; simp [he, hj]
      · rw [setBit_outside _ _ _ hk, setBit_outside _ _ _ (by omega)]
        rcases hj with hj | hj
        · rcases List.mem_cons.1 hj with hj | hj
          · right; subst hj; simp [bitAt, hk, ← hl]
          · left; exact hj
        · right; exact hj
  exact codeAt_congr js fun j hj => main js c xs ys h j (.inl hj)

/-! ### The layout of legal parameters -/

/-- Every kind is listed. -/
theorem mem_allKinds (k : Kind) : k ∈ allKinds := by
  cases k <;> simp only [allKinds, List.mem_append, List.mem_cons, List.mem_map, List.mem_range, true_or, or_true,
    reduceCtorEq, false_or, List.not_mem_nil]
  next slot => exact ⟨slot.toNat, slot.isLt, by simp⟩

/-- What a legal parameter set says of one kind. -/
theorem Params.Legal.kindFits {p : Params} (h : p.Legal) (k : Kind) : p.kindFits k = true :=
  List.all_eq_true.1 h.2.2.2.2.1.2 k (mem_allKinds k)

/-- `LEN(k)` of a legal parameter set is at least 1, and the register lies inside the register space (R60, R61). -/
theorem Params.Legal.kindInside {p : Params} (h : p.Legal) (k : Kind) :
    0 < p.kindLen k ∧ p.kindAddr k + p.kindLen k ≤ 255 := by
  have := h.kindFits k
  simp only [Params.kindFits, Bool.and_eq_true, decide_eq_true_eq] at this
  omega

/-- The fields of a kind lie on different bits of the register, and each has its width and codes (R30, R34 to R39). -/
theorem Params.Legal.layout {p : Params} (h : p.Legal) (k : Kind) :
    (p.kindBits k).Nodup ∧ (∀ j ∈ p.kindBits k, j < 8 * p.kindLen k) ∧
    ∀ f ∈ k.fields, p.widthFits k f (p.fieldWidth k f) = true ∧ (p.fieldInfo k f).codesFit f = true := by
  have := h.kindFits k
  simp only [Params.kindFits, Bool.and_eq_true, decide_eq_true_eq, List.all_eq_true] at this
  exact ⟨this.1.1.1.2, this.1.1.2, this.1.2⟩

/-- A `RegSet` that goes out in several transactions writes every byte of the kind once (U1). -/
theorem Params.Legal.grouping {p : Params} (h : p.Legal) {k : Kind} (hx : (p.kindInfo k).transfers ≠ []) :
    (∀ x ∈ (p.kindInfo k).transfers, 0 < x.len ∧ x.first + x.len ≤ p.kindLen k) ∧
    (bytesWritten (p.kindInfo k).transfers).Nodup ∧ (bytesWritten (p.kindInfo k).transfers).length = p.kindLen k := by
  have := (h.kindFits k)
  simp only [Params.kindFits, transfersFit, Bool.and_eq_true, Bool.or_eq_true, decide_eq_true_eq, List.all_eq_true,
    List.isEmpty_iff] at this
  have := this.2.resolve_left hx
  exact ⟨this.1.1, this.1.2, this.2⟩

/-- The places of one field of a legal layout are distinct and inside the register. -/
theorem Params.Legal.fieldBits {p : Params} (h : p.Legal) {k : Kind} {f : Field} (hf : f ∈ k.fields) :
    (p.fieldInfo k f).bits.Nodup ∧ ∀ j ∈ (p.fieldInfo k f).bits, j < 8 * p.kindLen k := by
  obtain ⟨hn, hr, -⟩ := h.layout k
  have hsub : ∀ j ∈ (p.fieldInfo k f).bits, j ∈ p.kindBits k := fun j hj =>
    List.mem_append_left _ (List.mem_flatMap.2 ⟨f, hf, hj⟩)
  exact ⟨(List.nodup_flatMap.1 (List.nodup_append.1 hn).1).1 f hf, fun j hj => hr j (hsub j hj)⟩

/-- Two fields of a legal layout share no bit. -/
theorem Params.Legal.fieldsApart {p : Params} (h : p.Legal) {k : Kind} {f g : Field} (hf : f ∈ k.fields)
    (hg : g ∈ k.fields) (hne : f ≠ g) : ∀ j ∈ (p.fieldInfo k f).bits, j ∉ (p.fieldInfo k g).bits := by
  have hp := (List.nodup_flatMap.1 (List.nodup_append.1 (h.layout k).1).1).2
  have hs : Std.Symm (Function.onFun List.Disjoint fun f => (p.fieldInfo k f).bits) := ⟨fun _ _ hab => hab.symm⟩
  exact fun j hj hj' => hp.forall hf hg hne hj hj'

/-! ### Fields and values -/

/-- A field that holds the value it is given is left as it stands (R65). -/
theorem putField_held (p : Params) (k : Kind) (x : Field × FieldVal) (bs : List Byte)
    (h : fieldValue p k x.1 bs = some x.2) : putField p k x bs = bs := by
  rw [putField, codeToPut, if_pos h]
  exact putCode_same _ _ _ (Nat.mod_eq_of_lt (codeAt_lt _ _)).symm

/-- What giving one field a value can do: nothing, where the field holds the value, or else put the value's code there. -/
theorem putField_cases (p : Params) (k : Kind) (x : Field × FieldVal) (bs : List Byte) :
    fieldValue p k x.1 bs = some x.2 ∧ putField p k x bs = bs ∨
    putField p k x bs = putCode (p.fieldInfo k x.1).bits (fieldCode p k x.1 x.2) bs := by
  by_cases h : fieldValue p k x.1 bs = some x.2
  · exact .inl ⟨h, putField_held p k x bs h⟩
  · exact .inr (by rw [putField, codeToPut, if_neg h])

@[simp] theorem putField_length (p : Params) (k : Kind) (x : Field × FieldVal) (bs : List Byte) :
    (putField p k x bs).length = bs.length := by
  rcases putField_cases p k x bs with ⟨-, e⟩ | e <;> simp [e]

@[simp] theorem putFields_length (p : Params) (k : Kind) (fs : List (Field × FieldVal)) (bs : List Byte) :
    (putFields p k fs bs).length = bs.length := by
  induction fs generalizing bs with
  | nil => rfl
  | cons f fs ih => simp [putFields, ih]

/-- A bit outside the field written reads as before. -/
theorem bitAt_putField_other (p : Params) (k : Kind) (x : Field × FieldVal) (bs : List Byte) (j : Nat)
    (h : j ∉ (p.fieldInfo k x.1).bits) : bitAt (putField p k x bs) j = bitAt bs j := by
  rcases putField_cases p k x bs with ⟨-, e⟩ | e <;> rw [e]
  exact bitAt_putCode_other _ _ _ _ h

/-- A bit outside the fields written reads as before: every other field is kept (R66). -/
theorem bitAt_putFields_other (p : Params) (k : Kind) (fs : List (Field × FieldVal)) (bs : List Byte) (j : Nat)
    (h : ∀ x ∈ fs, j ∉ (p.fieldInfo k x.1).bits) : bitAt (putFields p k fs bs) j = bitAt bs j := by
  induction fs generalizing bs with
  | nil => rfl
  | cons f fs ih =>
    rw [putFields, ih _ (fun x hx => h x (List.mem_cons_of_mem _ hx)), bitAt_putField_other _ _ _ _ _ (h f List.mem_cons_self)]

/-- Fields that hold the values they are given are left as they stand. -/
theorem putFields_held (p : Params) (k : Kind) (fs : List (Field × FieldVal)) (bs : List Byte)
    (h : ∀ x ∈ fs, fieldValue p k x.1 bs = some x.2) : putFields p k fs bs = bs := by
  induction fs with
  | nil => rfl
  | cons x fs ih =>
    rw [putFields, putField_held p k x bs (h x List.mem_cons_self)]
    exact ih fun y hy => h y (List.mem_cons_of_mem _ hy)

/-- A field given a value that fits is a field of its kind. -/
theorem Safety.fits_mem {p : Params} {k : Kind} {x : Field × FieldVal} (hx : Safety.fits p k x = true) : x.1 ∈ k.fields := by
  simp only [Safety.fits, Bool.and_eq_true, List.contains_iff_mem] at hx
  exact hx.1.1

/-- The codec reads back every value that fits: encoding it and decoding the code gives it (R65). -/
theorem codeValue_fieldCode {p : Params} (h : p.Legal) {k : Kind} {x : Field × FieldVal} (hx : Safety.fits p k x = true) :
    codeValue p k x.1 (fieldCode p k x.1 x.2 % 2 ^ p.fieldWidth k x.1) = some x.2 := by
  obtain ⟨f, v⟩ := x
  simp only [Safety.fits, Bool.and_eq_true, List.contains_iff_mem] at hx
  obtain ⟨⟨hf, ht⟩, hv⟩ := hx
  obtain ⟨hw, hc⟩ := (h.layout k).2.2 f hf
  have enum : f.isEnumerated = true → v.memberIndex < (p.fieldInfo k f).codes.length →
      fieldCode p k f v = (p.fieldInfo k f).codes.getD v.memberIndex (Config.uncodedMember f v.memberIndex) →
      f.member v.memberIndex = v →
      (if (p.fieldInfo k f).codes.contains (fieldCode p k f v % 2 ^ p.fieldWidth k f) then
        some (f.member ((p.fieldInfo k f).codes.idxOf (fieldCode p k f v % 2 ^ p.fieldWidth k f))) else none) = some v := by
    intro he hi hcode hv
    simp only [FieldInfo.codesFit, he, Bool.not_true, Bool.false_or, Bool.and_eq_true, decide_eq_true_eq,
      List.all_eq_true] at hc
    have hlt := hc.1.2 _ (List.getElem_mem hi)
    have hcode' : fieldCode p k f v % 2 ^ p.fieldWidth k f = (p.fieldInfo k f).codes[v.memberIndex] := by
      rw [hcode, List.getD_eq_getElem?_getD, List.getElem?_eq_getElem hi, Option.getD_some]
      exact Nat.mod_eq_of_lt hlt
    rw [hcode', if_pos (by simp), hc.1.1.2.idxOf_getElem _ hi, hv]
  have num : ∀ n, v = .num n → fieldCode p k f v % 2 ^ p.fieldWidth k f = n := by
    rintro n rfl
    exact Nat.mod_eq_of_lt (of_decide_eq_true hv)
  cases v with
  | num n =>
    have := num n rfl
    cases f <;> simp_all [codeValue, Field.takes]
  | flag b =>
    have hw1 : f.takes (.flag b) = true → p.fieldWidth k f = 1 := by
      intro _; cases f <;> simp_all [Params.widthFits, Field.takes]
    have : fieldCode p k f (.flag b) % 2 ^ p.fieldWidth k f % 2 = b.toNat := by
      rw [hw1 ht]; cases b <;> rfl
    cases f <;> simp only [codeValue, Field.takes, Bool.false_eq_true] at ht ⊢ <;>
      (rw [this]; cases b <;> rfl)
  | modulation m =>
    cases f <;> simp only [Field.takes, Bool.false_eq_true] at ht
    exact enum rfl (of_decide_eq_true hv) rfl (by cases m <;> rfl)
  | lengthMode m =>
    cases f <;> simp only [Field.takes, Bool.false_eq_true] at ht
    exact enum rfl (of_decide_eq_true hv) rfl (by cases m <;> rfl)
  | basicFormat =>
    cases f <;> simp only [Field.takes, Bool.false_eq_true] at ht
    exact enum rfl (of_decide_eq_true hv) rfl rfl
  | otherFormat n =>
    cases f <;> simp only [Field.takes, Bool.false_eq_true] at ht
    exact enum rfl (of_decide_eq_true hv) rfl rfl
  | state st => simp at hv

/-- Every named field that is not written keeps its value (R66). -/
theorem fieldValue_putFields_other {p : Params} (h : p.Legal) {k : Kind} {fs : List (Field × FieldVal)} {bs : List Byte}
    {f : Field} (hk : ∀ x ∈ fs, x.1 ∈ k.fields) (hf : f ∈ k.fields) (hn : f ∉ fs.map Prod.fst) :
    fieldValue p k f (putFields p k fs bs) = fieldValue p k f bs := by
  rw [fieldValue, fieldValue, codeAt_congr]
  intro j hj
  refine bitAt_putFields_other _ _ _ _ _ (fun x hx => ?_)
  exact h.fieldsApart hf (hk x hx) (fun e => hn (e ▸ List.mem_map_of_mem hx)) j hj

/-- A field given a value that fits holds it (R66). -/
theorem fieldValue_putField {p : Params} (h : p.Legal) {k : Kind} {x : Field × FieldVal} {bs : List Byte}
    (hb : bs.length = p.kindLen k) (hx : Safety.fits p k x = true) : fieldValue p k x.1 (putField p k x bs) = some x.2 := by
  rcases putField_cases p k x bs with ⟨hv, e⟩ | e <;> rw [e]
  · exact hv
  · obtain ⟨h1, h2⟩ := h.fieldBits (Safety.fits_mem hx)
    rw [fieldValue, codeAt_putCode _ _ _ h1 fun j hj => hb ▸ h2 j hj]
    exact codeValue_fieldCode h hx

/-- After a write of named fields, each holds what it was given (R66). -/
theorem fieldValue_putFields {p : Params} (h : p.Legal) {k : Kind} {fs : List (Field × FieldVal)} {bs : List Byte}
    (hb : bs.length = p.kindLen k) (hfit : ∀ x ∈ fs, Safety.fits p k x = true) (hn : (fs.map Prod.fst).Nodup)
    {x : Field × FieldVal} (hx : x ∈ fs) : fieldValue p k x.1 (putFields p k fs bs) = some x.2 := by
  induction fs generalizing bs with
  | nil => simp at hx
  | cons y fs ih =>
    simp only [List.map_cons, List.nodup_cons] at hn
    have hfs : ∀ z ∈ fs, Safety.fits p k z = true := fun z hz => hfit z (List.mem_cons_of_mem _ hz)
    rw [putFields]
    rcases List.mem_cons.1 hx with rfl | hx
    · have hf := hfit _ List.mem_cons_self
      rw [fieldValue_putFields_other h (fun z hz => Safety.fits_mem (hfs z hz)) (Safety.fits_mem hf) hn.1]
      exact fieldValue_putField h hb hf
    · exact ih (by simpa using hb) hfs hn.2 hx

/-- Writing the same fields twice is writing them once (R72). -/
theorem putFields_twice {p : Params} (h : p.Legal) {k : Kind} {fs : List (Field × FieldVal)} {bs : List Byte}
    (hb : bs.length = p.kindLen k) (hfit : ∀ x ∈ fs, Safety.fits p k x = true) (hn : (fs.map Prod.fst).Nodup) :
    putFields p k fs (putFields p k fs bs) = putFields p k fs bs :=
  putFields_held _ _ _ _ fun _ hx => fieldValue_putFields h hb hfit hn hx

/-! ### Whole values -/

@[simp] theorem Machine.fitBytes_length (n : Nat) (bs : List Byte) : (Machine.fitBytes n bs).length = n := by
  simp [Machine.fitBytes]

/-- Bytes of the right number are taken as they are. -/
theorem Machine.fitBytes_self (bs : List Byte) : Machine.fitBytes bs.length bs = bs := by
  apply List.ext_getElem (by simp)
  intro i h1 h2
  simp [Machine.fitBytes, List.getD_eq_getElem?_getD, h2]

@[simp] theorem Machine.orderBytes_length (p : Params) (k : Kind) (bs : List Byte) :
    (Machine.orderBytes p k bs).length = bs.length := by
  unfold Machine.orderBytes; split <;> simp

/-- Putting bytes in the order of their kind twice gives them back (R68). -/
@[simp] theorem Machine.orderBytes_orderBytes (p : Params) (k : Kind) (bs : List Byte) :
    Machine.orderBytes p k (Machine.orderBytes p k bs) = bs := by
  unfold Machine.orderBytes; split <;> simp

@[simp] theorem Machine.logicalBytes_length (p : Params) (k : Kind) (v : KindVal) :
    (Machine.logicalBytes p k v).length = p.kindLen k := by
  cases v <;> simp [Machine.logicalBytes]

/-- A typed access moves exactly `LEN(k)` bytes (R69). -/
@[simp] theorem Machine.encodeValue_length (p : Params) (k : Kind) (v : KindVal) :
    (Machine.encodeValue p k v).length = p.kindLen k := by simp [Machine.encodeValue]

/-- Writing back the named fields that were read changes nothing (R65). -/
theorem putFields_namedFields (p : Params) (k : Kind) (bs : List Byte) : putFields p k (namedFields p k bs) bs = bs := by
  refine putFields_held _ _ _ _ fun x hx => ?_
  obtain ⟨f, -, e⟩ := List.mem_filterMap.1 hx
  obtain ⟨v, hv, rfl⟩ := Option.map_eq_some_iff.1 e
  exact hv

/-- The bits of four bytes joined. -/
theorem Machine.getLsbD_bytes (a b c d : Byte) (i : Nat) :
    (a ++ b ++ c ++ d : BitVec (8 + 8 + 8 + 8)).getLsbD i =
      if i < 8 then d.getLsbD i else if i < 16 then c.getLsbD (i - 8) else if i < 24 then b.getLsbD (i - 16)
      else a.getLsbD (i - 24) := by
  simp only [BitVec.getLsbD_append, Nat.sub_sub]
  split_ifs <;> first | rfl | omega

/-- The bytes of an assembled word are the bytes it was assembled from (R97). -/
theorem Machine.wordBytes_bytesWord (bs : List Byte) : Machine.wordBytes (Machine.bytesWord bs) = Machine.fitBytes 4 bs := by
  simp only [Machine.wordBytes, Machine.bytesWord, Machine.fitBytes, List.range, List.range.loop, List.map_cons, List.map_nil]
  generalize bs.getD 0 0 = a, bs.getD 1 0 = b, bs.getD 2 0 = c, bs.getD 3 0 = d
  refine congr (congrArg _ ?_) (congr (congrArg _ ?_) (congr (congrArg _ ?_) (congr (congrArg _ ?_) rfl))) <;>
    (refine BitVec.eq_of_getLsbD_eq fun i hi => ?_
     rw [BitVec.getLsbD_extractLsb', decide_eq_true hi, Bool.true_and]
     refine (getLsbD_bytes a b c d _).trans ?_
     split_ifs <;> first | omega | (congr 1; omega))

/-- What decoding can do: a word for the interrupt kinds, and for every other kind the record of its bytes and named fields,
or the failure with the first bad code (R64, R274). -/
theorem Machine.decodeBytes_cases (p : Params) (k : Kind) (bs : List Byte) :
    (k ∈ [Kind.irqMask, .irqStatus] ∧ Machine.decodeBytes p k bs = .ok (.word (Machine.bytesWord bs))) ∨
    k ∉ [Kind.irqMask, .irqStatus] ∧
      ((badCode p k (Machine.orderBytes p k bs) = none ∧ Machine.decodeBytes p k bs =
        .ok (.record (Machine.orderBytes p k bs) (namedFields p k (Machine.orderBytes p k bs)))) ∨
      ∃ code, badCode p k (Machine.orderBytes p k bs) = some code ∧ Machine.decodeBytes p k bs =
        .error (.registerDecodeFailure k (if (p.kindInfo k).suppliesCode then some code else none))) := by
  cases k <;> simp only [Machine.decodeBytes]
  case irqMask | irqStatus => exact .inl (by simp)
  all_goals
    refine .inr ⟨by simp, ?_⟩
    split
    · next code h => exact .inr ⟨code, h, rfl⟩
    · next h => exact .inl ⟨h, rfl⟩

/-- The codec's round-trip law for every kind (R65): encoding what was decoded gives the bytes that were read. -/
theorem Machine.encodeValue_decodeBytes {p : Params} {k : Kind} {bs : List Byte} {v : KindVal}
    (hb : bs.length = p.kindLen k) (hd : Machine.decodeBytes p k bs = .ok v) : Machine.encodeValue p k v = bs := by
  rcases Machine.decodeBytes_cases p k bs with ⟨hk, e⟩ | ⟨-, ⟨-, e⟩ | ⟨_, -, e⟩⟩ <;> rw [e] at hd <;> cases hd
  · have h4 : p.kindLen k = 4 := by rcases (by simpa using hk : k = .irqMask ∨ k = .irqStatus) with rfl | rfl <;> rfl
    have hbig : p.kindBig k = true := by rcases (by simpa using hk : k = .irqMask ∨ k = .irqStatus) with rfl | rfl <;> rfl
    have hf : Machine.fitBytes 4 bs = bs := by
      have := Machine.fitBytes_self bs
      rwa [hb, h4] at this
    simp only [Machine.encodeValue, Machine.logicalBytes, Machine.orderBytes, hbig, if_true, h4,
      Machine.wordBytes_bytesWord, hf]
  · have hl : (Machine.orderBytes p k bs).length = p.kindLen k := by simp [hb]
    simp only [Machine.encodeValue, Machine.logicalBytes]
    rw [← hl, Machine.fitBytes_self, putFields_namedFields, Machine.orderBytes_orderBytes]

/-- A read gets exactly `LEN(k)` bytes (R64). -/
@[simp] theorem Machine.kindBytes_length (p : Params) (c : Machine.Chip) (k : Kind) :
    (Machine.kindBytes p c k).length = p.kindLen k := by
  cases k <;> simp [Machine.kindBytes, Machine.statusBytes, Machine.storedBytes, Machine.wordBytes, Params.kindLen]

@[simp] theorem Machine.bytesRead_length (p : Params) (k : Kind) (t : Machine.Turn) (c : Machine.Chip) :
    (Machine.bytesRead p k t c).length = p.kindLen k := by
  unfold Machine.bytesRead; split <;> simp

end Sys2Proof
end

