-- ==== Sys2Proof/Laws/Memory.lean ====
section
/-! SUPPORT. The register space: a read after a write gives the byte written, every other byte stays, and every operation
on the chip keeps the canonical form. -/

namespace Sys2Proof.Machine

/-! ### Read after write -/

/-- The byte written is the byte read. -/
@[simp] theorem memGet_memSet_same (m : Memory) (a : Nat) (x : Byte) : memGet (memSet m a x) a = some x := by
  induction m with
  | nil => simp [memSet, memGet]
  | cons c m ih =>
    obtain ⟨b, y⟩ := c
    unfold memSet
    split
    · simp [memGet]
    · split
      · simp [memGet]
      · simp [memGet, *]

/-- Every other byte reads as before. -/
theorem memGet_memSet_other (m : Memory) {a b : Nat} (x : Byte) (h : b ≠ a) : memGet (memSet m a x) b = memGet m b := by
  induction m with
  | nil => simp [memSet, memGet, h]
  | cons c m ih =>
    obtain ⟨d, y⟩ := c
    unfold memSet
    split
    · next hd =>
      simp only [memGet, h, if_false]
      by_cases hb : b < a
      · have h1 : b ≠ d := by omega
        have h2 : b < d := by omega
        simp [hb, h1, h2]
      · simp [hb]
    · split
      · next hd he => subst he; simp [memGet, h]
      · simp only [memGet, ih]

/-- Both laws at once. -/
theorem memGet_memSet (m : Memory) (a b : Nat) (x : Byte) :
    memGet (memSet m a x) b = if b = a then some x else memGet m b := by
  split
  · next h => rw [h, memGet_memSet_same]
  · next h => exact memGet_memSet_other m x h

/-- Bytes outside the places of a multi-byte write read as before. -/
theorem memGet_memSetAll_other (cells : List (Nat × Byte)) (m : Memory) (b : Nat) (h : b ∉ cells.map Prod.fst) :
    memGet (memSetAll m cells) b = memGet m b := by
  induction cells generalizing m with
  | nil => rfl
  | cons c cells ih =>
    obtain ⟨a, x⟩ := c
    simp only [List.map_cons, List.mem_cons, not_or] at h
    simp only [memSetAll]
    rw [ih _ h.2, memGet_memSet_other _ _ h.1]

/-- A byte written last at its place is the byte read there. -/
theorem memGet_memSetAll_mem (cells : List (Nat × Byte)) (m : Memory) (a : Nat) (x : Byte)
    (hn : (cells.map Prod.fst).Nodup) (h : (a, x) ∈ cells) : memGet (memSetAll m cells) a = some x := by
  induction cells generalizing m with
  | nil => simp at h
  | cons c cells ih =>
    obtain ⟨b, y⟩ := c
    simp only [List.map_cons, List.nodup_cons] at hn
    simp only [memSetAll]
    rcases List.mem_cons.1 h with h | h
    · cases h
      rw [memGet_memSetAll_other _ _ _ hn.1, memGet_memSet_same]
    · exact ih _ hn.2 h

/-! ### The canonical form -/

/-- The places of `memSet`: those there were, and the one written. -/
theorem mem_memSet {m : Memory} {a : Nat} {x : Byte} {c : Host.Cell} (h : c ∈ memSet m a x) : c ∈ m ∨ c.1 = a := by
  induction m with
  | nil => simp [memSet] at h; right; rw [h]
  | cons d m ih =>
    obtain ⟨b, y⟩ := d
    unfold memSet at h
    split at h
    · rcases List.mem_cons.1 h with h | h
      · right; rw [h]
      · left; exact h
    · split at h
      · rcases List.mem_cons.1 h with h | h
        · right; rw [h]
        · left; exact List.mem_cons_of_mem _ h
      · rcases List.mem_cons.1 h with h | h
        · left; rw [h]; exact List.mem_cons_self
        · rcases ih h with h | h
          · left; exact List.mem_cons_of_mem _ h
          · right; exact h

/-- A write at a register address keeps the canonical form. -/
theorem memWf_memSet {m : Memory} {a : Nat} (x : Byte) (ha : a < 255) (h : memWf m) : memWf (memSet m a x) := by
  refine ⟨?_, fun c hc => ?_⟩
  · have hp := h.1
    clear h
    induction m with
    | nil => simp [memSet]
    | cons d m ih =>
      obtain ⟨b, y⟩ := d
      simp only [List.map_cons, List.pairwise_cons] at hp
      unfold memSet
      split
      · next hab =>
        simp only [List.map_cons, List.pairwise_cons]
        refine ⟨fun z hz => ?_, hp⟩
        rcases List.mem_cons.1 hz with hz | hz
        · omega
        · have := hp.1 z hz; omega
      · split
        · next he => subst he; simpa using hp
        · next hab hne =>
          simp only [List.map_cons, List.pairwise_cons]
          refine ⟨fun z hz => ?_, ih hp.2⟩
          obtain ⟨c, hc, rfl⟩ := List.mem_map.1 hz
          rcases mem_memSet hc with hc | hc
          · exact hp.1 _ (List.mem_map_of_mem hc)
          · omega
  · rcases mem_memSet hc with hc | hc
    · exact h.2 c hc
    · omega

/-- Writes at register addresses keep the canonical form. -/
theorem memWf_memSetAll (cells : List (Nat × Byte)) {m : Memory} (hc : ∀ c ∈ cells, c.1 < 255) (h : memWf m) :
    memWf (memSetAll m cells) := by
  induction cells generalizing m with
  | nil => exact h
  | cons c cells ih =>
    obtain ⟨a, x⟩ := c
    exact ih (fun d hd => hc d (List.mem_cons_of_mem _ hd)) (memWf_memSet x (hc _ List.mem_cons_self) h)

/-- Two registers spaces in canonical form that read alike are the same. -/
theorem memory_ext {m n : Memory} (hm : memWf m) (hn : memWf n) (h : ∀ a, memGet m a = memGet n a) : m = n := by
  have below : ∀ {m : Memory} {a : Nat}, (∀ c ∈ m, a < c.1) → memGet m a = none := by
    intro m a hlt
    cases m with
    | nil => rfl
    | cons c m =>
      obtain ⟨b, y⟩ := c
      have := hlt _ List.mem_cons_self
      simp only [memGet]
      rw [if_neg (by simp at this; omega), if_pos (by simpa using this)]
  have head : ∀ {b : Nat} {y : Byte} {m : Memory}, memGet ((b, y) :: m) b = some y := by intros; simp [memGet]
  induction m generalizing n with
  | nil =>
    cases n with
    | nil => rfl
    | cons c n => obtain ⟨b, y⟩ := c; have := h b; rw [head] at this; simp [memGet] at this
  | cons c m ih =>
    obtain ⟨b, y⟩ := c
    have gtm : ∀ c ∈ m, b < c.1 := fun c hc => (List.pairwise_cons.1 hm.1).1 _ (List.mem_map_of_mem hc)
    cases n with
    | nil => have := h b; rw [head] at this; simp [memGet] at this
    | cons d n =>
      obtain ⟨e, z⟩ := d
      have gtn : ∀ c ∈ n, e < c.1 := fun c hc => (List.pairwise_cons.1 hn.1).1 _ (List.mem_map_of_mem hc)
      have hbe : b = e := by
        rcases Nat.lt_trichotomy b e with hlt | heq | hgt
        · have := h b
          rw [head, below (fun c hc => by rcases List.mem_cons.1 hc with rfl | hc <;> [exact hlt; exact hlt.trans (gtn c hc)])] at this
          simp at this
        · exact heq
        · have := h e
          rw [head, below (fun c hc => by rcases List.mem_cons.1 hc with rfl | hc <;> [exact hgt; exact hgt.trans (gtm c hc)])] at this
          simp at this
      subst hbe
      have hyz : y = z := by have := h b; rw [head, head] at this; simpa using this
      subst hyz
      have hmn : m = n := by
        refine ih ⟨(List.pairwise_cons.1 hm.1).2, fun c hc => hm.2 c (List.mem_cons_of_mem _ hc)⟩
          ⟨(List.pairwise_cons.1 hn.1).2, fun c hc => hn.2 c (List.mem_cons_of_mem _ hc)⟩ (fun a => ?_)
        have ha := h a
        simp only [memGet] at ha
        rcases Nat.lt_trichotomy a b with hlt | heq | hgt
        · rw [below (fun c hc => hlt.trans (gtm c hc)), below (fun c hc => hlt.trans (gtn c hc))]
        · subst heq; rw [below gtm, below gtn]
        · rw [if_neg (by omega), if_neg (by omega), if_neg (by omega), if_neg (by omega)] at ha; exact ha
      rw [hmn]

/-! ### The operations on the chip -/

/-- The places of a typed write. -/
theorem kindCells_places (p : Params) (k : Kind) (v : KindVal) :
    (kindCells p k (encodeValue p k v)).map Prod.fst = (List.range (p.kindLen k)).map (p.kindAddr k + ·) := by
  apply List.ext_getElem
  · simp [kindCells]
  · intro i h₁ h₂; simp [kindCells]

/-- The places of the bytes after the first of a raw write are places the turn names. -/
theorem laterCells_places (bytes : List Byte) (landing : List (Option (Fin 255))) :
    ∀ d ∈ laterCells bytes landing, some d.1 ∈ landing.map (Option.map Fin.val) := by
  induction landing generalizing bytes with
  | nil => cases bytes <;> simp [laterCells]
  | cons l landing ih =>
    cases bytes with
    | nil => simp [laterCells]
    | cons x bytes =>
      intro d hd
      cases l with
      | none => exact List.mem_cons_of_mem _ (ih bytes d hd)
      | some a =>
        rcases List.mem_cons.1 hd with rfl | hd
        · simp
        · exact List.mem_cons_of_mem _ (ih bytes d hd)

/-- A raw write of at most one byte has no other place than its own. -/
theorem rawCells_one (a : Byte) (bytes : List Byte) (landing : List (Option (Fin 255))) (h : bytes.length ≤ 1) :
    ∀ d ∈ rawCells a bytes landing, d.1 = a.toNat := by
  match bytes, h with
  | [], _ => simp [rawCells]
  | [x], _ => simp [rawCells, laterCells]

/-- A raw write outside the FIFO stays inside the register space. -/
theorem rawCells_inside {a : Byte} (h : a ≠ 0xFF) (bytes : List Byte) (landing : List (Option (Fin 255))) :
    ∀ d ∈ rawCells a bytes landing, d.1 < 255 := by
  intro d hd
  have ha : a.toNat < 255 := by
    have := a.isLt
    have hne : a.toNat ≠ 255 := fun he => h (by apply BitVec.eq_of_toNat_eq; simpa using he)
    omega
  cases bytes with
  | nil => simp [rawCells] at hd
  | cons x bytes =>
    rcases List.mem_cons.1 hd with rfl | hd
    · exact ha
    · have := laterCells_places bytes landing d hd
      simp only [List.mem_map] at this
      obtain ⟨o, -, ho⟩ := this
      cases o with
      | none => simp at ho
      | some b => simp only [Option.map_some, Option.some.injEq] at ho; omega

/-- What a part of a register holds is in the register. -/
theorem part_subset {α : Type} {x : Transfer} {l : List α} {a : α} (h : a ∈ x.part l) : a ∈ l :=
  List.mem_of_mem_drop (List.mem_of_mem_take h)

/-- The places of a typed write are in the register space. -/
theorem kindCells_inside {p : Params} (hp : p.Legal) (k : Kind) (v : KindVal) :
    ∀ d ∈ kindCells p k (encodeValue p k v), d.1 < 255 := by
  intro d hd
  have : d.1 ∈ (kindCells p k (encodeValue p k v)).map Prod.fst := List.mem_map_of_mem hd
  rw [kindCells_places] at this
  obtain ⟨i, hi, he⟩ := List.mem_map.1 this
  have := (hp.kindInside k).2
  have := List.mem_range.1 hi
  omega

/-- A typed write keeps the canonical form. -/
theorem memWf_chipAfterWrite {p : Params} (hp : p.Legal) (k : Kind) (v : KindVal) {c : Chip} (h : memWf c.mem) :
    memWf (chipAfterWrite p k v c).mem :=
  memWf_memSetAll _ (kindCells_inside hp k v) h

/-- A write of one part of a kind keeps the canonical form. -/
theorem memWf_chipAfterPartWrite {p : Params} (hp : p.Legal) (k : Kind) (x : Transfer) (v : KindVal) {c : Chip}
    (h : memWf c.mem) : memWf (chipAfterPartWrite p k x v c).mem :=
  memWf_memSetAll _ (fun d hd => kindCells_inside hp k v d (part_subset hd)) h

/-- A write of one part of a kind leaves every byte outside the kind. -/
theorem memGet_chipAfterPartWrite_other (p : Params) (k : Kind) (x : Transfer) (v : KindVal) (c : Chip) {a : Nat}
    (h : kindCovers p k a = false) : memGet (chipAfterPartWrite p k x v c).mem a = memGet c.mem a := by
  refine memGet_memSetAll_other _ _ _ fun ha => ?_
  obtain ⟨d, hd, rfl⟩ := List.mem_map.1 ha
  have : d.1 ∈ (kindCells p k (encodeValue p k v)).map Prod.fst := List.mem_map_of_mem (part_subset hd)
  rw [kindCells_places] at this
  obtain ⟨i, hi, he⟩ := List.mem_map.1 this
  have := List.mem_range.1 hi
  simp only [kindCovers, decide_eq_false_iff_not, not_and] at h
  omega

/-- A raw write keeps the canonical form. -/
theorem memWf_chipAfterRawWrite (a : Byte) (bytes : List Byte) (landing : List (Option (Fin 255))) {c : Chip}
    (h : memWf c.mem) : memWf (chipAfterRawWrite a bytes landing c).mem := by
  unfold chipAfterRawWrite
  dsimp only
  split
  · exact h
  · next ha =>
    exact memWf_memSetAll _ (rawCells_inside ha bytes landing) h

/-! ### The FIFOs (R60 (b), R308) -/

/-- A FIFO holds at most 96 bytes after an append. -/
theorem fifoAppend_length (held bytes : List Byte) : (fifoAppend held bytes).length ≤ 96 := by
  unfold fifoAppend
  split
  · simpa using ‹_›
  · simp

/-- What there is room for is appended. -/
theorem fifoAppend_fits {held bytes : List Byte} (h : held.length + bytes.length ≤ 96) :
    fifoAppend held bytes = held ++ bytes := if_pos h

/-- A change of the chip's own leaves both FIFOs with at most 96 bytes. -/
theorem chipDrift_fifos (d : ChipChange) {c : Chip} (h : c.txFifo.length ≤ 96 ∧ c.rxFifo.length ≤ 96) :
    (chipDrift c d).txFifo.length ≤ 96 ∧ (chipDrift c d).rxFifo.length ≤ 96 := by
  cases d <;> simp only [chipDrift] <;> refine ⟨?_, ?_⟩ <;> first | exact h.1 | exact h.2 | simp

/-- A change of the chip's own keeps the canonical form. -/
theorem memWf_chipDrift (d : ChipChange) {c : Chip} (h : memWf c.mem) : memWf (chipDrift c d).mem := by
  cases d with
  | register a b => exact memWf_memSet b a.isLt h
  | txFifo bs => exact h
  | rxFifo bs => exact h
  | stateCode n => exact h
  | pending w => exact h

/-- All changes before a transaction keep the canonical form. -/
theorem memWf_drift (ds : List ChipChange) {c : Chip} (h : memWf c.mem) : memWf (ds.foldl chipDrift c).mem := by
  induction ds generalizing c with
  | nil => exact h
  | cons d ds ih => exact ih (memWf_chipDrift d h)

/-- The register space after reset has the canonical form: nothing is listed. -/
theorem memWf_reset (p : Params) : memWf (State.resetWith p).chip.mem := ⟨.nil, by simp [State.resetWith]⟩

end Sys2Proof.Machine
end

