-- ==== Sys2Proof/Laws/Run.lean ====
section
/-! SUPPORT. What a run of a micro-sequence is: `settle` is the state where no further step can be taken (R62), it can be
unrolled one step at a time, and what every step keeps, the run keeps. -/

namespace Sys2Proof.Machine

/-- A successful `andThen` is an ended or a returned primitive. -/
theorem andThen_cases {α : Type} {x : Prim α} {k : α → State → State} {t : State} (h : x.andThen k = some t) :
    x = .ended t ∨ ∃ a s1, x = .done a s1 ∧ t = k a s1 := by
  cases x with
  | waiting => simp [Prim.andThen] at h
  | ended s => left; simp [Prim.andThen] at h; rw [h]
  | done a s => right; exact ⟨a, s, rfl, by simpa [Prim.andThen] using h.symm⟩

/-- What a primitive can do (R62, R63, R272, R278): wait because the world outside has not answered; fail in transport; be
answered with an error of its own; or return. -/
theorem transact_cases {α : Type} (s : State) (value : Turn → State → Except Err α) (effect : Turn → State → Chip)
    (event : State → Option α → BusEvent) :
    (s.turns = [] ∧ transact s value effect event = .waiting) ∨
    ∃ t ts s1, s.turns = t :: ts ∧ s1 = { s with turns := ts, chip := t.drift.foldl chipDrift s.chip } ∧
      ((∃ f, t.failure = some f ∧ transact s value effect event = .ended (raise (.busFailure f.cause)
          (emit (event s1 none) { s1 with chip := if f.reached then effect t s1 else s1.chip }))) ∨
       (t.failure = none ∧ ∃ e, value t s1 = .error e ∧
          transact s value effect event = .ended (raise e (emit (event s1 none) { s1 with chip := effect t s1 }))) ∨
       (t.failure = none ∧ ∃ a, value t s1 = .ok a ∧
          transact s value effect event = .done a (emit (event s1 (some a)) { s1 with chip := effect t s1 }))) := by
  cases hs : s.turns with
  | nil => left; simp [transact, nextTurn, hs]
  | cons t ts =>
    right
    refine ⟨t, ts, _, rfl, rfl, ?_⟩
    cases hf : t.failure with
    | some f => left; exact ⟨f, rfl, by simp [transact, nextTurn, hs, hf]⟩
    | none =>
      right
      cases hv : value t { s with turns := ts, chip := t.drift.foldl chipDrift s.chip } with
      | error e => left; exact ⟨rfl, e, rfl, by simp [transact, nextTurn, hs, hf, hv]⟩
      | ok a => right; exact ⟨rfl, a, rfl, by simp [transact, nextTurn, hs, hf, hv]⟩

/-- A primitive ends the operation, idle, with one answer of the world outside used up; or returns with the position as
it was. -/
theorem transact_turns {α : Type} (s : State) (value : Turn → State → Except Err α) (effect : Turn → State → Chip)
    (event : State → Option α → BusEvent) :
    match transact s value effect event with
    | .waiting => s.turns = []
    | .ended t => t.pc = .idle ∧ t.turns.length + 1 = s.turns.length
    | .done _ t => t.pc = s.pc ∧ t.turns.length + 1 = s.turns.length := by
  obtain ⟨h, e⟩ | ⟨t, ts, s1, h, rfl, ⟨f, _, e⟩ | ⟨_, x, _, e⟩ | ⟨_, a, _, e⟩⟩ := transact_cases s value effect event <;>
    simp [e, h]

/-- After a step that issues a primitive, the bound is below what one answer of the world outside buys. -/
theorem andThen_bound {α : Type} {s t : State} {value : Turn → State → Except Err α} {effect : Turn → State → Chip}
    {event : State → Option α → BusEvent} {k : α → State → State} {n : Nat}
    (hk : ∀ a s1, stepBound (k a s1) ≤ n + 8 + 8 * s1.turns.length)
    (h : (transact s value effect event).andThen k = some t) : stepBound t ≤ n + 8 * s.turns.length := by
  have u := transact_turns s value effect event
  obtain e | ⟨a, s1, e, rfl⟩ := andThen_cases h
  · rw [e] at u
    simp [stepBound, u.1]
  · rw [e] at u
    have := hk a s1
    simp only at u
    omega

/-- `andThen_bound` for `busRead`. -/
theorem busRead_bound {k : Kind} {s t : State} {g : KindVal → State → State} {n : Nat}
    (hk : ∀ a s1, stepBound (g a s1) ≤ n + 8 + 8 * s1.turns.length) (h : (busRead k s).andThen g = some t) :
    stepBound t ≤ n + 8 * s.turns.length :=
  andThen_bound hk h

/-- `andThen_bound` for `busSet`. -/
theorem busSet_bound {k : Kind} {fs : List (Field × FieldVal)} {s t : State} {g : Unit → State → State} {n : Nat}
    (hk : ∀ a s1, stepBound (g a s1) ≤ n + 8 + 8 * s1.turns.length) (h : (busSet k fs s).andThen g = some t) :
    stepBound t ≤ n + 8 * s.turns.length :=
  by unfold busSet busWriteWith at h; exact andThen_bound hk h

/-- `andThen_bound` for `busReadPart`. -/
theorem busReadPart_bound {k : Kind} {x : Transfer} {s t : State} {g : List Byte → State → State} {n : Nat}
    (hk : ∀ a s1, stepBound (g a s1) ≤ n + 8 + 8 * s1.turns.length) (h : (busReadPart k x s).andThen g = some t) :
    stepBound t ≤ n + 8 * s.turns.length :=
  andThen_bound hk h

/-- `andThen_bound` for `busWritePart`. -/
theorem busWritePart_bound {k : Kind} {x : Transfer} {held : List (Nat × Byte)} {fs : List (Field × FieldVal)} {s t : State}
    {g : Unit → State → State} {n : Nat} (hk : ∀ a s1, stepBound (g a s1) ≤ n + 8 + 8 * s1.turns.length)
    (h : (busWritePart k x held fs s).andThen g = some t) : stepBound t ≤ n + 8 * s.turns.length :=
  andThen_bound hk h

/-- `andThen_bound` for `busWrite`. -/
theorem busWrite_bound {k : Kind} {v : KindVal} {s t : State} {g : Unit → State → State} {n : Nat}
    (hk : ∀ a s1, stepBound (g a s1) ≤ n + 8 + 8 * s1.turns.length) (h : (busWrite k v s).andThen g = some t) :
    stepBound t ≤ n + 8 * s.turns.length :=
  by unfold busWrite busWriteWith at h; exact andThen_bound hk h

/-- `andThen_bound` for `memWrite`. -/
theorem memWrite_bound {a : Byte} {bytes : List Byte} {s t : State} {g : Unit → State → State} {n : Nat}
    (hk : ∀ a s1, stepBound (g a s1) ≤ n + 8 + 8 * s1.turns.length) (h : (memWrite a bytes s).andThen g = some t) :
    stepBound t ≤ n + 8 * s.turns.length :=
  andThen_bound hk h

/-- `andThen_bound` for `memRead`. -/
theorem memRead_bound {a : Byte} {m : Nat} {s t : State} {g : List Byte → State → State} {n : Nat}
    (hk : ∀ a s1, stepBound (g a s1) ≤ n + 8 + 8 * s1.turns.length) (h : (memRead a m s).andThen g = some t) :
    stepBound t ≤ n + 8 * s.turns.length :=
  andThen_bound (s := { s with fresh := s.fresh + 1 }) hk h

/-- `andThen_bound` for `busCommand`. -/
theorem busCommand_bound {c : Command} {s t : State} {g : DevState → State → State} {n : Nat}
    (hk : ∀ a s1, stepBound (g a s1) ≤ n + 8 + 8 * s1.turns.length) (h : (busCommand c s).andThen g = some t) :
    stepBound t ≤ n + 8 * s.turns.length :=
  andThen_bound hk h

/-- The bound of an idle state. -/
theorem stepBound_idle {s : State} (h : s.pc = .idle) : stepBound s = 0 := by simp [stepBound, h]

/-- The bound of a position. -/
@[simp] theorem stepBound_goto (op : Op) (l : List Micro) (s : State) :
    stepBound (goto op l s) = l.length + 1 + 8 * s.turns.length := by simp [stepBound]

/-- What a step of a `RegSet` in several transactions can do (U1): with none left the operation goes on; else the first of
them ends the operation, or returns, and the others are left. -/
theorem transferStep_cases {op : Op} {l : Label} {rest : List Micro} {k : Kind} {fs : List (Field × FieldVal)}
    {held : List (Nat × Byte)} {s t : State} {xs : List Transfer} (h : transferStep op l rest k fs held s xs = some t) :
    (xs = [] ∧ t = goto op rest s) ∨ ∃ x left, xs = x :: left ∧
      ((x.read = true ∧ (busReadPart k x s = .ended t ∨ ∃ bs u, busReadPart k x s = .done bs u ∧
          t = goto op (⟨l, .transfers k fs (partCells x bs ++ held) left⟩ :: rest) u)) ∨
       (x.read = false ∧ (busWritePart k x held fs s = .ended t ∨ ∃ u, busWritePart k x held fs s = .done () u ∧
          t = goto op (⟨l, .transfers k fs held left⟩ :: rest) u))) := by
  cases xs with
  | nil => cases h; exact .inl ⟨rfl, rfl⟩
  | cons x left =>
    right
    refine ⟨x, left, rfl, ?_⟩
    simp only [transferStep] at h
    split at h
    · next hr => exact .inl ⟨hr, andThen_cases h⟩
    · next hr =>
      obtain e | ⟨a, u, e, rfl⟩ := andThen_cases h
      · exact .inr ⟨by simpa using hr, .inl e⟩
      · exact .inr ⟨by simpa using hr, .inr ⟨u, e, rfl⟩⟩

/-- What a read of one part of a kind can return: the bytes of the part, or the decode failure. -/
theorem partRead_cases (p : Params) (k : Kind) (x : Transfer) (t : Turn) (c : Chip) :
    partRead p k x t c = .ok (x.part (bytesRead p k t c)) ∨
    ∃ code, badCodeAmong (p.partTags k x) (orderBytes p k (bytesRead p k t c)) = some code ∧
      partRead p k x t c = .error (decodeFailure p k code) := by
  unfold partRead
  cases badCodeAmong (p.partTags k x) (orderBytes p k (bytesRead p k t c)) with
  | none => exact .inl rfl
  | some code => exact .inr ⟨code, rfl, rfl⟩

/-- A transaction of a `RegSet` in several lowers the bound. -/
theorem transferStep_bound {op : Op} {l : Label} {rest : List Micro} {k : Kind} {fs : List (Field × FieldVal)}
    {held : List (Nat × Byte)} {s t : State} {xs : List Transfer} (h : transferStep op l rest k fs held s xs = some t) :
    stepBound t < rest.length + 2 + 8 * s.turns.length := by
  cases xs with
  | nil => cases h; simp
  | cons x left =>
    simp only [transferStep] at h
    split at h
    · have := busReadPart_bound (n := rest.length + 1) (fun v s1 => by simp) h; omega
    · have := busWritePart_bound (n := rest.length + 1) (fun v s1 => by simp) h; omega

/-- Every step of the sequencer lowers the bound, so a run comes to its end. -/
theorem actStep_bound {op : Op} {l : Label} {rest : List Micro} {s t : State} {a : Act}
    (h : actStep op l rest s a = some t) : stepBound t < rest.length + 2 + 8 * s.turns.length := by
  have pollRx_le : ∀ v s1, stepBound (afterPollRx op rest v s1) ≤ rest.length + 1 + 8 + 8 * s1.turns.length := by
    intro v s1
    unfold afterPollRx
    split
    · simp
    · split
      · split
        · simp [stepBound]
        · simp [strobeSteps]
      · simp
  cases a <;> simp only [actStep] at h
  case engine e => cases h; simp
  case zeroCounters => cases h; simp
  case setMask w => cases h; simp
  case delay ms => cases h; simp
  case finish r => cases h; simp [stepBound]
  case raise e => cases h; simp [stepBound]
  case countPoll =>
    cases h
    unfold countPoll
    split
    · simp [stepBound]
    · simp
  case regSet k fs =>
    split at h
    · split at h
      · have := busRead_bound (n := rest.length + 1) (fun v s1 => by simp) h; omega
      · have := busSet_bound (n := rest.length + 1) (fun v s1 => by simp) h; omega
    · exact transferStep_bound h
  case transfers k fs held xs => exact transferStep_bound h
  case modify k fs => have := busRead_bound (n := rest.length + 1) (fun v s1 => by simp) h; omega
  case store k v => have := busWrite_bound (n := rest.length + 1) (fun v s1 => by simp) h; omega
  case readDiscard k => have := busRead_bound (n := rest.length + 1) (fun v s1 => by simp) h; omega
  case readValue k => have := busRead_bound (n := rest.length + 1) (fun v s1 => by simp [stepBound]) h; omega
  case rawWrite a bytes => have := memWrite_bound (n := rest.length + 1) (fun v s1 => by simp) h; omega
  case rawRead a n => have := memRead_bound (n := rest.length + 1) (fun v s1 => by simp [stepBound]) h; omega
  case command c => have := busCommand_bound (n := rest.length + 1) (fun v s1 => by simp) h; omega
  case commandValue c => have := busCommand_bound (n := rest.length + 1) (fun v s1 => by simp [stepBound]) h; omega
  case pollState target =>
    have := busRead_bound (n := rest.length + 1) (fun v s1 => by unfold afterPollState; split <;> simp) h
    omega
  case pollTx =>
    have := busRead_bound (n := rest.length + 1) (fun v s1 => by unfold afterPollTx; split <;> simp) h
    omega
  case pollRx => have := busRead_bound (n := rest.length + 1) pollRx_le h; omega
  case fifoCount =>
    have := busRead_bound (n := rest.length + 1)
      (fun v s1 => by unfold afterFifoCount; split <;> simp [stepBound]) h
    omega
  case drain c => have := memRead_bound (n := rest.length + 1) (fun v s1 => by simp [afterDrain, stepBound]) h; omega

/-- Every step of the sequencer lowers the bound. -/
theorem seqStep_bound {s t : State} (h : seqStep s = some t) : stepBound t < stepBound s := by
  unfold seqStep at h
  split at h
  · cases h
  · next op hp => cases h; simp [stepBound, hp]
  · next op m rest hp =>
    have := actStep_bound h
    have hs : stepBound s = (m :: rest).length + 1 + 8 * s.turns.length := by simp [stepBound, hp]
    rw [hs, List.length_cons]
    omega

/-- Enough steps are enough: the run does not depend on how many more are allowed. -/
theorem runSteps_stable {m n : Nat} {s : State} (hm : stepBound s ≤ m) (hn : stepBound s ≤ n) :
    runSteps m s = runSteps n s := by
  induction m generalizing n s with
  | zero =>
    cases n with
    | zero => rfl
    | succ n =>
      cases h : seqStep s with
      | none => simp [runSteps, h]
      | some t => have := seqStep_bound h; omega
  | succ m ih =>
    cases n with
    | zero =>
      cases h : seqStep s with
      | none => simp [runSteps, h]
      | some t => have := seqStep_bound h; omega
    | succ n =>
      cases h : seqStep s with
      | none => simp [runSteps, h]
      | some t =>
        have := seqStep_bound h
        simp only [runSteps, h]
        exact ih (by omega) (by omega)

/-- The run unrolled by one step: this is all a proof needs of `settle`. -/
theorem settle_eq (s : State) : settle s = match seqStep s with | none => s | some t => settle t := by
  cases h : seqStep s with
  | none => cases hb : stepBound s <;> simp [settle, hb, runSteps, h]
  | some t =>
    have hb := seqStep_bound h
    obtain ⟨n, hn⟩ : ∃ n, stepBound s = n + 1 := ⟨stepBound s - 1, by omega⟩
    simp only [settle, hn, runSteps, h]
    exact runSteps_stable (by omega) (by omega)

/-- A run that can take a step is the run from there. -/
theorem settle_some {s t : State} (h : seqStep s = some t) : settle s = settle t := by rw [settle_eq, h]

/-- A run that can take no step is over. -/
theorem settle_none {s : State} (h : seqStep s = none) : settle s = s := by rw [settle_eq, h]

/-- An idle block stays as it is. -/
theorem settle_idle {s : State} (h : s.pc = .idle) : settle s = s := settle_none (by simp [seqStep, h])

/-- What every step of the sequencer keeps, the run keeps. -/
theorem settle_keeps (P : State → Prop) (hP : ∀ s t, P s → seqStep s = some t → P t) {s : State} (h : P s) :
    P (settle s) := by
  have main : ∀ n s, P s → P (runSteps n s) := by
    intro n
    induction n with
    | zero => intro s h; exact h
    | succ n ih =>
      intro s h
      unfold runSteps
      split
      · exact h
      · next t ht => exact ih t (hP s t h ht)
  exact main _ s h

/-- A run ends where no step can be taken (R62). -/
theorem settle_stops (s : State) : seqStep (settle s) = none := by
  have main : ∀ n s, stepBound s ≤ n → seqStep (runSteps n s) = none := by
    intro n
    induction n with
    | zero =>
      intro s h
      cases hs : seqStep s with
      | none => exact hs
      | some t => have := seqStep_bound hs; omega
    | succ n ih =>
      intro s h
      unfold runSteps
      split
      · assumption
      · next t ht => have := seqStep_bound ht; exact ih t (by omega)
  exact main _ s le_rfl

/-- A request an idle block accepts (R8, R24, R27). -/
theorem start_idle {s : State} (h : s.pc = .idle) (i : Instr) (steps : List Micro) :
    start i steps s = settle { s with operands := loadOperands i s.operands, pc := .busy (opOf i) steps } := by
  simp [start, h]

/-- A request presented to a busy block is not accepted (R8). -/
theorem start_busy {s : State} {op : Op} {l : List Micro} (h : s.pc = .busy op l) (i : Instr) (steps : List Micro) :
    start i steps s = s := by
  simp [start, h]

end Sys2Proof.Machine
end

