-- ==== Sys2Proof/Laws/Frame.lean ====
section
/-! SUPPORT. What one step of a micro-sequence can change, and how a property of states is carried through a whole run of an
instruction: one induction, used by every frame and every invariant. -/

namespace Sys2Proof.Machine

/-- What no primitive of the Bus Port touches: all of the block but `ERR`, the position, the result latches, `RXBUF` and the
counter of free values. -/
structure SameBlock (s t : State) : Prop where
  params : t.params = s.params
  xtalHz : t.xtalHz = s.xtalHz
  baseHz : t.baseHz = s.baseHz
  band : t.band = s.band
  operands : t.operands = s.operands
  engine : t.engine = s.engine
  maskAcc : t.maskAcc = s.maskAcc
  polls : t.polls = s.polls
  retries : t.retries = s.retries
  port : t.port = s.port

/-- A state agrees with itself. -/
theorem SameBlock.refl (s : State) : SameBlock s s := ⟨rfl, rfl, rfl, rfl, rfl, rfl, rfl, rfl, rfl, rfl⟩

/-- `raise` touches nothing of it. -/
theorem sameBlock_raise (e : Err) (s : State) : SameBlock s (raise e s) := by
  constructor <;> simp

/-- What an error can have done to `RXBUF`: nothing, or what it does to that of the operation in progress (R25, R276). -/
def RxbufAfterError (s t : State) : Prop :=
  t.rxbuf = s.rxbuf ∨ ∃ op l n, s.pc = .busy op l ∧ t.rxbuf = unspecifyRxbuf s.rxbuf op n

/-- `raise` does no more than that to `RXBUF`. -/
theorem rxbufAfterError_raise {s u : State} (e : Err) (hp : u.pc = s.pc) (hr : u.rxbuf = s.rxbuf) :
    RxbufAfterError s (raise e u) := by
  unfold raise
  split
  · exact .inl hr
  · next op l h => exact .inr ⟨op, l, _, hp ▸ h, by rw [← hr]⟩

/-- What a primitive that waits, ends the operation or returns has done to the block (R62, R63, R276): used up one answer
and recorded one event; ended, the block is idle and `RXBUF` as after an error; returned, nothing else of the block is
changed. -/
inductive Issued {α : Type} (s : State) : Prim α → Prop where
  | waiting : s.turns = [] → Issued s .waiting
  | ended (t : Turn) (e : BusEvent) (u : State) : s.turns = t :: u.turns → SameBlock s u → u.trace = s.trace ++ [e] →
      u.pc = .idle → RxbufAfterError s u → Issued s (.ended u)
  | done (t : Turn) (e : BusEvent) (a : α) (u : State) : s.turns = t :: u.turns → SameBlock s u →
      u.trace = s.trace ++ [e] → u.pc = s.pc → u.results = s.results → u.err = s.err → u.rxbuf = s.rxbuf →
      Issued s (.done a u)

/-- Every primitive is `Issued`. -/
theorem transact_issued {α : Type} (s : State) (value : Turn → State → Except Err α) (effect : Turn → State → Chip)
    (event : State → Option α → BusEvent) : Issued s (transact s value effect event) := by
  obtain ⟨h, e⟩ | ⟨t, ts, s1, h, rfl, ⟨f, _, e⟩ | ⟨_, x, _, e⟩ | ⟨_, a, _, e⟩⟩ := transact_cases s value effect event
  · rw [e]; exact .waiting h
  · rw [e]; exact .ended t _ _ (by simp [h]) (by constructor <;> simp) (by simp; rfl) (by simp)
      (rxbufAfterError_raise _ (by split <;> rfl) (by split <;> rfl))
  · rw [e]; exact .ended t _ _ (by simp [h]) (by constructor <;> simp) (by simp; rfl) (by simp)
      (rxbufAfterError_raise _ rfl rfl)
  · rw [e]; exact .done t _ _ _ (by simp [h]) (by constructor <;> simp) (by simp; rfl) (by simp) (by simp) (by simp)
      (by simp)

/-- The primitives of R16 other than `Delay`, in all their forms, are `Issued`. -/
theorem busRead_issued (k : Kind) (s : State) : Issued s (busRead k s) := transact_issued _ _ _ _
theorem busSet_issued (k : Kind) (fs : List (Field × FieldVal)) (s : State) : Issued s (busSet k fs s) := by
  unfold busSet busWriteWith; exact transact_issued _ _ _ _
theorem busReadPart_issued (k : Kind) (x : Transfer) (s : State) : Issued s (busReadPart k x s) := transact_issued _ _ _ _
theorem busWritePart_issued (k : Kind) (x : Transfer) (held : List (Nat × Byte)) (fs : List (Field × FieldVal)) (s : State) :
    Issued s (busWritePart k x held fs s) := transact_issued _ _ _ _
theorem busWrite_issued (k : Kind) (v : KindVal) (s : State) : Issued s (busWrite k v s) := by
  unfold busWrite busWriteWith; exact transact_issued _ _ _ _
theorem memWrite_issued (a : Byte) (bytes : List Byte) (s : State) : Issued s (memWrite a bytes s) :=
  transact_issued _ _ _ _
theorem busCommand_issued (c : Command) (s : State) : Issued s (busCommand c s) := transact_issued _ _ _ _
theorem memRead_issued (a : Byte) (n : Nat) (s : State) : Issued s (memRead a n s) := by
  unfold memRead
  have h := transact_issued { s with fresh := s.fresh + 1 } (fun t s1 => Except.ok (rawReadBytes s1.params a n t s.fresh s1.chip))
    (fun _ s1 => chipAfterRawRead s1.params a n s1.chip) (fun _ bs => BusEvent.rdRaw a n bs)
  revert h
  generalize transact _ _ _ _ = x
  intro h
  cases h with
  | waiting h => exact .waiting h
  | ended t e u h b tr p x => exact .ended t e u h ⟨b.1, b.2, b.3, b.4, b.5, b.6, b.7, b.8, b.9, b.10⟩ tr p x
  | done t e a u h b tr p r er x => exact .done t e a u h ⟨b.1, b.2, b.3, b.4, b.5, b.6, b.7, b.8, b.9, b.10⟩ tr p r er x

/-- Whether every state a primitive can leave meets `P`. -/
def EveryEnd {α : Type} (P : State → Prop) : Prim α → Prop
  | .waiting => True
  | .ended s => P s
  | .done _ s => P s

/-- What holds of every end of a primitive and is kept by what follows holds after the step. -/
theorem andThen_ensures {α : Type} {P : State → Prop} {x : Prim α} {k : α → State → State} {t : State}
    (h : x.andThen k = some t) (hx : EveryEnd P x) (hk : ∀ a u, P u → P (k a u)) : P t := by
  obtain rfl | ⟨a, u, rfl, rfl⟩ := andThen_cases h
  · exact hx
  · exact hk a u hx

/-- What every end of a primitive meets: `P` kept by taking the next answer, by the effect on the chip, by recording and by
raising. -/
theorem transact_ensures {α : Type} {P : State → Prop} {s : State} {value : Turn → State → Except Err α}
    {effect : Turn → State → Chip} {event : State → Option α → BusEvent}
    (hturn : ∀ t ts, s.turns = t :: ts → P { s with turns := ts, chip := t.drift.foldl chipDrift s.chip })
    (heffect : ∀ (t : Turn) (u : State), u.params = s.params → P u → P { u with chip := effect t u })
    (hemit : ∀ e u, P u → P (emit e u)) (hraise : ∀ e u, P u → P (raise e u)) :
    EveryEnd P (transact s value effect event) := by
  obtain ⟨h, e⟩ | ⟨t, ts, s1, h, rfl, hh⟩ := transact_cases s value effect event
  · rw [e]; trivial
  · have h1 := hturn t ts h
    have h2 := heffect t { s with turns := ts, chip := t.drift.foldl chipDrift s.chip } rfl h1
    obtain ⟨f, _, e⟩ | ⟨_, x, _, e⟩ | ⟨_, a, _, e⟩ := hh <;> rw [e] <;> dsimp only [EveryEnd]
    · apply hraise
      apply hemit
      split
      · exact h2
      · exact h1
    · exact hraise _ _ (hemit _ _ h2)
    · exact hemit _ _ h2

/-- What every step of a micro-sequence keeps (R10, R17, R24): facts, operand latches, port; the answers of the world
outside are used from the front; the trace only grows. -/
structure Carried (s t : State) : Prop where
  params : t.params = s.params
  xtalHz : t.xtalHz = s.xtalHz
  baseHz : t.baseHz = s.baseHz
  band : t.band = s.band
  operands : t.operands = s.operands
  port : t.port = s.port
  turns : ∃ used : List Turn, s.turns = used ++ t.turns
  trace : ∃ es : List BusEvent, t.trace = s.trace ++ es

theorem Carried.refl (s : State) : Carried s s := ⟨rfl, rfl, rfl, rfl, rfl, rfl, ⟨[], rfl⟩, ⟨[], by simp⟩⟩

theorem Carried.trans {s t u : State} (h : Carried s t) (k : Carried t u) : Carried s u := by
  obtain ⟨x, hx⟩ := h.turns
  obtain ⟨y, hy⟩ := k.turns
  obtain ⟨v, hv⟩ := h.trace
  obtain ⟨w, hw⟩ := k.trace
  exact ⟨k.1.trans h.1, k.2.trans h.2, k.3.trans h.3, k.4.trans h.4, k.5.trans h.5, k.6.trans h.6,
    ⟨x ++ y, by rw [hx, hy, List.append_assoc]⟩, ⟨v ++ w, by rw [hw, hv, List.append_assoc]⟩⟩

/-- A step that issues a primitive carries, if what follows the primitive does. -/
theorem Issued.carried {α : Type} {s t : State} {x : Prim α} {k : α → State → State} (i : Issued s x)
    (hk : ∀ a u, Carried u (k a u)) (h : x.andThen k = some t) : Carried s t := by
  cases i with
  | waiting _ => simp [Prim.andThen] at h
  | ended y e u hu b tr _ _ =>
    simp only [Prim.andThen, Option.some.injEq] at h
    subst h
    exact ⟨b.1, b.2, b.3, b.4, b.5, b.10, ⟨[y], hu⟩, ⟨[e], tr⟩⟩
  | done y e a u hu b tr _ _ _ _ =>
    simp only [Prim.andThen, Option.some.injEq] at h
    subst h
    exact Carried.trans ⟨b.1, b.2, b.3, b.4, b.5, b.10, ⟨[y], hu⟩, ⟨[e], tr⟩⟩ (hk a u)

/-- Equality of these fields is enough to carry. -/
theorem Carried.of_eq {s t : State} (h : t.params = s.params ∧ t.xtalHz = s.xtalHz ∧ t.baseHz = s.baseHz ∧ t.band = s.band ∧
    t.operands = s.operands ∧ t.port = s.port ∧ t.turns = s.turns ∧ ∃ es, t.trace = s.trace ++ es) : Carried s t :=
  ⟨h.1, h.2.1, h.2.2.1, h.2.2.2.1, h.2.2.2.2.1, h.2.2.2.2.2.1, ⟨[], by simp [h.2.2.2.2.2.2.1]⟩, h.2.2.2.2.2.2.2⟩

theorem carried_goto (op : Op) (l : List Micro) (s : State) : Carried s (goto op l s) :=
  .of_eq ⟨rfl, rfl, rfl, rfl, rfl, rfl, rfl, [], by simp⟩

theorem carried_finish (r : ResultWrite) (s : State) : Carried s (finish r s) :=
  .of_eq ⟨rfl, rfl, rfl, rfl, rfl, rfl, rfl, [], by simp⟩

theorem carried_raise (e : Err) (s : State) : Carried s (raise e s) :=
  .of_eq ⟨by simp, by simp, by simp, by simp, by simp, by simp, by simp, [], by simp⟩

/-- A transaction of a `RegSet` in several carries. -/
theorem transferStep_carried {op : Op} {l : Label} {rest : List Micro} {k : Kind} {fs : List (Field × FieldVal)}
    {held : List (Nat × Byte)} {s t : State} {xs : List Transfer} (h : transferStep op l rest k fs held s xs = some t) :
    Carried s t := by
  cases xs with
  | nil => cases h; exact carried_goto _ _ _
  | cons x left =>
    simp only [transferStep] at h
    split at h
    · exact (busReadPart_issued k x s).carried (fun _ _ => carried_goto _ _ _) h
    · exact (busWritePart_issued k x held fs s).carried (fun _ _ => carried_goto _ _ _) h

/-- Every step of a micro-sequence carries. -/
theorem actStep_carried {op : Op} {l : Label} {rest : List Micro} {s t : State} {a : Act}
    (h : actStep op l rest s a = some t) : Carried s t := by
  have same : ∀ {u v : State}, u.params = v.params ∧ u.xtalHz = v.xtalHz ∧ u.baseHz = v.baseHz ∧ u.band = v.band ∧
      u.operands = v.operands ∧ u.port = v.port ∧ u.turns = v.turns ∧ u.trace = v.trace → Carried v u :=
    fun h => .of_eq ⟨h.1, h.2.1, h.2.2.1, h.2.2.2.1, h.2.2.2.2.1, h.2.2.2.2.2.1, h.2.2.2.2.2.2.1, [], by simp [h.2.2.2.2.2.2.2]⟩
  cases a <;> simp only [actStep] at h
  case engine e => cases h; exact same ⟨rfl, rfl, rfl, rfl, rfl, rfl, rfl, rfl⟩
  case zeroCounters => cases h; exact same ⟨rfl, rfl, rfl, rfl, rfl, rfl, rfl, rfl⟩
  case setMask w => cases h; exact same ⟨rfl, rfl, rfl, rfl, rfl, rfl, rfl, rfl⟩
  case delay ms => cases h; exact .of_eq ⟨rfl, rfl, rfl, rfl, rfl, rfl, rfl, [_], rfl⟩
  case finish r => cases h; exact carried_finish r s
  case raise e => cases h; exact carried_raise e s
  case countPoll =>
    cases h
    unfold countPoll
    split
    · exact (same (u := { s with polls := s.polls + 1 }) (v := s) ⟨rfl, rfl, rfl, rfl, rfl, rfl, rfl, rfl⟩).trans
        (carried_raise _ _)
    · exact .of_eq ⟨rfl, rfl, rfl, rfl, rfl, rfl, rfl, [_], rfl⟩
  case regSet k fs =>
    split at h
    · split at h
      · exact (busRead_issued k s).carried (fun _ _ => carried_goto _ _ _) h
      · exact (busSet_issued k fs s).carried (fun _ _ => carried_goto _ _ _) h
    · exact transferStep_carried h
  case transfers k fs held xs => exact transferStep_carried h
  case modify k fs => exact (busRead_issued k s).carried (fun _ _ => carried_goto _ _ _) h
  case store k v => exact (busWrite_issued k v s).carried (fun _ _ => carried_goto _ _ _) h
  case readDiscard k => exact (busRead_issued k s).carried (fun _ _ => carried_goto _ _ _) h
  case readValue k => exact (busRead_issued k s).carried (fun _ _ => carried_finish _ _) h
  case rawWrite b bytes => exact (memWrite_issued b bytes s).carried (fun _ _ => carried_goto _ _ _) h
  case rawRead b n => exact (memRead_issued b n s).carried (fun _ _ => carried_finish _ _) h
  case command c => exact (busCommand_issued c s).carried (fun _ _ => carried_goto _ _ _) h
  case commandValue c => exact (busCommand_issued c s).carried (fun _ _ => carried_finish _ _) h
  case pollState target =>
    refine (busRead_issued _ s).carried (fun v u => ?_) h
    unfold afterPollState
    split <;> exact carried_goto _ _ _
  case pollTx =>
    refine (busRead_issued _ s).carried (fun v u => ?_) h
    unfold afterPollTx
    split
    · exact same ⟨rfl, rfl, rfl, rfl, rfl, rfl, rfl, rfl⟩
    · exact carried_goto _ _ _
  case pollRx =>
    refine (busRead_issued _ s).carried (fun v u => ?_) h
    unfold afterPollRx
    split
    · exact same ⟨rfl, rfl, rfl, rfl, rfl, rfl, rfl, rfl⟩
    · split
      · split
        · refine Carried.trans (same ?_) (carried_raise _ _)
          exact ⟨rfl, rfl, rfl, rfl, rfl, rfl, rfl, rfl⟩
        · exact same ⟨rfl, rfl, rfl, rfl, rfl, rfl, rfl, rfl⟩
      · exact carried_goto _ _ _
  case fifoCount =>
    refine (busRead_issued _ s).carried (fun v u => ?_) h
    unfold afterFifoCount
    split
    · exact carried_raise _ _
    · exact carried_goto _ _ _
  case drain c =>
    refine (memRead_issued _ c s).carried (fun v u => ?_) h
    exact Carried.trans (same (u := { u with rxbuf := fillRxbuf u.rxbuf v }) ⟨rfl, rfl, rfl, rfl, rfl, rfl, rfl, rfl⟩)
      (carried_finish _ _)

/-- Every step of the sequencer carries. -/
theorem seqStep_carried {s t : State} (h : seqStep s = some t) : Carried s t := by
  unfold seqStep at h
  split at h
  · cases h
  · cases h; exact carried_finish _ s
  · exact actStep_carried h

/-- A run carries. -/
theorem settle_carried (s : State) : Carried s (settle s) :=
  settle_keeps (Carried s) (fun _ _ h k => h.trans (seqStep_carried k)) (Carried.refl s)

/-! ### What a step leaves to do -/

/-- The steps a step of a micro-sequence can put before those that are left. -/
def Spawns (p : Params) : Act → Act → Prop
  | .regSet k fs, b => (∃ v, b = .store k (withFields p k v fs)) ∨ ∃ held left, b = .transfers k fs held left
  | .transfers k fs _ _, b => ∃ held left, b = .transfers k fs held left
  | .modify k fs, b => ∃ v, b = .store k (withFields p k v fs)
  | .pollState target, b => b = .countPoll ∨ b = .pollState target
  | .pollTx, b => b = .countPoll ∨ b = .pollTx
  | .pollRx, b => b ∈ (strobeSteps p).map Micro.act ∨ b = .countPoll ∨ b = .pollRx
  | .fifoCount, b => ∃ c, c ≤ 96 ∧ b = .drain c
  | _, _ => False

/-- After a step the operation has ended, or is the same operation with steps that were left or that the step put there. -/
theorem actStep_pc {op : Op} {l : Label} {rest : List Micro} {s t : State} {a : Act}
    (h : actStep op l rest s a = some t) :
    t.pc = .idle ∨ ∃ steps, t.pc = .busy op steps ∧ ∀ m ∈ steps, m ∈ rest ∨ Spawns s.params a m.act := by
  have prim : ∀ {α : Type} {x : Prim α} {k : α → State → State}, Issued s x → x.andThen k = some t →
      (∀ u : State, u.pc = .idle → u.pc = .idle ∨
        ∃ steps, u.pc = .busy op steps ∧ ∀ m ∈ steps, m ∈ rest ∨ Spawns s.params a m.act) →
      (∀ b u, u.params = s.params → (k b u).pc = .idle ∨
        ∃ steps, (k b u).pc = .busy op steps ∧ ∀ m ∈ steps, m ∈ rest ∨ Spawns s.params a m.act) →
      t.pc = .idle ∨ ∃ steps, t.pc = .busy op steps ∧ ∀ m ∈ steps, m ∈ rest ∨ Spawns s.params a m.act := by
    intro α x k i h h1 h2
    cases i with
    | waiting _ => simp [Prim.andThen] at h
    | ended _ _ u _ _ _ hp _ => simp only [Prim.andThen, Option.some.injEq] at h; subst h; exact h1 _ hp
    | done _ _ a u _ b _ _ _ _ _ => simp only [Prim.andThen, Option.some.injEq] at h; subst h; exact h2 _ _ b.params
  have transfers : ∀ {k : Kind} {fs : List (Field × FieldVal)} {held : List (Nat × Byte)} {xs : List Transfer},
      (∀ held left, Spawns s.params a (.transfers k fs held left)) → transferStep op l rest k fs held s xs = some t →
      t.pc = .idle ∨ ∃ steps, t.pc = .busy op steps ∧ ∀ m ∈ steps, m ∈ rest ∨ Spawns s.params a m.act := by
    intro k fs held xs hs h
    have next : ∀ (held' : List (Nat × Byte)) (left : List Transfer) (m : Micro),
        m ∈ ⟨l, .transfers k fs held' left⟩ :: rest → m ∈ rest ∨ Spawns s.params a m.act := by
      intro held' left m hm
      rcases List.mem_cons.1 hm with rfl | hm
      · right; exact hs held' left
      · left; exact hm
    cases xs with
    | nil => cases h; right; exact ⟨rest, rfl, fun m hm => .inl hm⟩
    | cons x left =>
      simp only [transferStep] at h
      split at h
      · exact prim (busReadPart_issued k x s) h (fun u hu => .inl hu) (fun v u _ => .inr ⟨_, rfl, next _ _⟩)
      · exact prim (busWritePart_issued k x held fs s) h (fun u hu => .inl hu) (fun v u _ => .inr ⟨_, rfl, next _ _⟩)
  cases a <;> simp only [actStep] at h
  case engine e => cases h; right; exact ⟨rest, rfl, fun m hm => .inl hm⟩
  case zeroCounters => cases h; right; exact ⟨rest, rfl, fun m hm => .inl hm⟩
  case setMask w => cases h; right; exact ⟨rest, rfl, fun m hm => .inl hm⟩
  case delay ms => cases h; right; exact ⟨rest, rfl, fun m hm => .inl hm⟩
  case finish r => cases h; left; rfl
  case raise e => cases h; left; simp
  case countPoll =>
    cases h
    unfold countPoll
    split
    · left; simp
    · right; exact ⟨rest, rfl, fun m hm => .inl hm⟩
  case regSet k fs =>
    split at h
    · split at h
      · refine prim (busRead_issued k s) h (fun u hu => .inl hu) (fun v u hu => .inr ⟨_, rfl, fun m hm => ?_⟩)
        rcases List.mem_cons.1 hm with rfl | hm
        · right; left; exact ⟨v, by rw [hu]⟩
        · left; exact hm
      · exact prim (busSet_issued k fs s) h (fun u hu => .inl hu) (fun v u _ => .inr ⟨_, rfl, fun m hm => .inl hm⟩)
    · exact transfers (fun held left => .inr ⟨held, left, rfl⟩) h
  case transfers k fs held xs => exact transfers (fun held left => ⟨held, left, rfl⟩) h
  case modify k fs =>
    refine prim (busRead_issued k s) h (fun u hu => .inl hu) (fun v u hu => .inr ⟨_, rfl, fun m hm => ?_⟩)
    rcases List.mem_cons.1 hm with rfl | hm
    · right; exact ⟨v, by rw [hu]⟩
    · left; exact hm
  case store k v => exact prim (busWrite_issued k v s) h (fun u hu => .inl hu) (fun v u _ => .inr ⟨_, rfl, fun m hm => .inl hm⟩)
  case readDiscard k => exact prim (busRead_issued k s) h (fun u hu => .inl hu) (fun v u _ => .inr ⟨_, rfl, fun m hm => .inl hm⟩)
  case readValue k => exact prim (busRead_issued k s) h (fun u hu => .inl hu) (fun v u _ => .inl rfl)
  case rawWrite b bytes =>
    exact prim (memWrite_issued b bytes s) h (fun u hu => .inl hu) (fun v u _ => .inr ⟨_, rfl, fun m hm => .inl hm⟩)
  case rawRead b n => exact prim (memRead_issued b n s) h (fun u hu => .inl hu) (fun v u _ => .inl rfl)
  case command c => exact prim (busCommand_issued c s) h (fun u hu => .inl hu) (fun v u _ => .inr ⟨_, rfl, fun m hm => .inl hm⟩)
  case commandValue c => exact prim (busCommand_issued c s) h (fun u hu => .inl hu) (fun v u _ => .inl rfl)
  case pollState target =>
    refine prim (busRead_issued _ s) h (fun u hu => .inl hu) (fun v u _ => ?_)
    unfold afterPollState
    split
    · exact .inr ⟨_, rfl, fun m hm => .inl hm⟩
    · refine .inr ⟨_, rfl, fun m hm => ?_⟩
      simp only [List.mem_cons] at hm
      rcases hm with rfl | rfl | hm <;> simp [Spawns, *]
  case pollTx =>
    refine prim (busRead_issued _ s) h (fun u hu => .inl hu) (fun v u _ => ?_)
    unfold afterPollTx
    split
    · exact .inr ⟨_, rfl, fun m hm => .inl hm⟩
    · refine .inr ⟨_, rfl, fun m hm => ?_⟩
      simp only [List.mem_cons] at hm
      rcases hm with rfl | rfl | hm <;> simp [Spawns, *]
  case pollRx =>
    refine prim (busRead_issued _ s) h (fun u hu => .inl hu) (fun v u hu => ?_)
    unfold afterPollRx
    split
    · exact .inr ⟨_, rfl, fun m hm => .inl hm⟩
    · split
      · split
        · left; simp
        · refine .inr ⟨_, rfl, fun m hm => ?_⟩
          rcases List.mem_append.1 hm with hm | hm
          · right; left; rw [← hu]; exact List.mem_map_of_mem hm
          · simp only [List.mem_cons] at hm
            rcases hm with rfl | rfl | hm <;> simp [Spawns, *]
      · refine .inr ⟨_, rfl, fun m hm => ?_⟩
        simp only [List.mem_cons] at hm
        rcases hm with rfl | rfl | hm <;> simp [Spawns, *]
  case fifoCount =>
    refine prim (busRead_issued _ s) h (fun u hu => .inl hu) (fun v u _ => ?_)
    unfold afterFifoCount
    split
    · left; simp
    · refine .inr ⟨_, rfl, fun m hm => ?_⟩
      rcases List.mem_cons.1 hm with rfl | hm
      · right; exact ⟨_, by omega, rfl⟩
      · left; exact hm
  case drain c => exact prim (memRead_issued _ c s) h (fun u hu => .inl hu) (fun v u _ => .inl rfl)

/-- A property kept by every allowed step of an operation is kept by the run, if what an allowed step puts before the rest
is allowed. -/
theorem settle_frame {P : State → Prop} {ok : Act → Prop} {op : Op} {s : State} {steps : List Micro}
    (hs : s.pc = .busy op steps) (hok : ∀ m ∈ steps, ok m.act)
    (closed : ∀ a b, ok a → Spawns s.params a b → ok b)
    (hend : ∀ u, u.params = s.params → P u → P (finish .nothing u))
    (hstep : ∀ u v l rest a, u.params = s.params → ok a → u.pc = .busy op (⟨l, a⟩ :: rest) →
      actStep op l rest u a = some v → P u → P v)
    (h : P s) : P (settle s) := by
  refine (settle_keeps (fun u => P u ∧ u.params = s.params ∧
    ∀ op' l, u.pc = .busy op' l → op' = op ∧ ∀ m ∈ l, ok m.act) ?_ ⟨h, rfl, ?_⟩).1
  · rintro u v ⟨hu, hp, hl⟩ hv
    refine ⟨?_, (seqStep_carried hv).params.trans hp, ?_⟩
    · unfold seqStep at hv
      split at hv
      · cases hv
      · cases hv; exact hend u hp hu
      · next op' m rest hpc =>
        obtain ⟨rfl, hm⟩ := hl _ _ hpc
        exact hstep u v m.label rest m.act hp (hm m List.mem_cons_self) hpc hv hu
    · intro op' l hpc
      unfold seqStep at hv
      split at hv
      · cases hv
      · cases hv; simp at hpc
      · next op'' m rest hpc' =>
        obtain ⟨rfl, hm⟩ := hl _ _ hpc'
        rcases actStep_pc hv with hi | ⟨st, hst, hin⟩
        · rw [hi] at hpc; cases hpc
        · rw [hst] at hpc
          cases hpc
          refine ⟨rfl, fun x hx => ?_⟩
          rcases hin x hx with hx | hx
          · exact hm x (List.mem_cons_of_mem _ hx)
          · exact closed _ _ (hm m List.mem_cons_self) (hp ▸ hx)
  · intro op' l hpc
    rw [hs] at hpc
    cases hpc
    exact ⟨rfl, hok⟩

end Sys2Proof.Machine
end

