-- ==== Sys2Proof/Laws/Exec.lean ====
section
/-! SUPPORT. Every instruction is the acceptance of a request with a micro-sequence (R24, R27): the sequence of each, and what
that says of `exec` and `step` at once. -/

namespace Sys2Proof.Machine

/-- The micro-sequence of an instruction in a state. -/
def sequenceOf (i : Instr) (s : State) : List Micro :=
  match i with
  | .bandResolve b =>
    [⟨.only, if bandOf s.params b.toNat = .invalid then .raise .invalidParameter
      else .finish (.band (bandOf s.params b.toNat))⟩]
  | .encDatarate t d x =>
    [⟨.only, .finish (.mantExp (BitVec.ofNat 8 (datarateOf s.params t.toNat d x.toNat).1)
      (BitVec.ofNat 8 (datarateOf s.params t.toNat d x.toNat).2))⟩]
  | .encFdev t x =>
    [⟨.only, match fdev t.toNat x.toNat with
      | none => .raise .invalidParameter
      | some me => .finish (.mantExp (BitVec.ofNat 8 me.1) (BitVec.ofNat 8 me.2))⟩]
  | .encChflt t d x =>
    [⟨.only, .finish (.mantExp (BitVec.ofNat 8 (indexMantExp (chfltOf s.params t.toNat d x.toNat)).1)
      (BitVec.ofNat 8 (indexMantExp (chfltOf s.params t.toNat d x.toNat)).2))⟩]
  | .encRssiTh d => [⟨.only, .finish (.reg (rssiThreshold d.toInt))⟩]
  | .encRxTimeout t x => [⟨.only, .finish (.timeout (rxTimeout t x.toNat).1 (rxTimeout t x.toNat).2)⟩]
  | .encPaDbm slot dbm b =>
    [⟨.only, match paPower s.params Config.paSegment slot.toNat dbm b.toNat with
      | none => .raise .invalidParameter
      | some r => .finish (.reg r)⟩]
  | .encFoffset ppm b x =>
    [⟨.only, .finish (.foffset (foffset s.params ppm b.toNat x.toNat).1 (foffset s.params ppm b.toNat x.toNat).2)⟩]
  | .encChspace sp x => [⟨.only, .finish (.reg (chspaceOf s.params sp.toNat x.toNat))⟩]
  | .encIfOffset x => [⟨.only, .finish (.ifOffset (ifAnaOf s.params x.toNat) (ifDigOf s.params x.toNat))⟩]
  | .init o => initSteps s.params o s.baseHz.toNat s.xtalHz.toNat
  | .waExtraCurrent => waSteps s.params
  | .waitForState target => if target = .invalid then [⟨.w0, .raise .invalidParameter⟩] else waitSteps target
  | .txBlocking payload => txSteps s.params s.band payload
  | .rxBlocking => rxSteps s.params
  | .strobeRx => strobeSteps s.params
  | .irqSilence => [⟨.only, .store .irqMask (.word 0)⟩]
  | .irqClear => [⟨.only, .readDiscard .irqStatus⟩]
  | .irqMaskNew => [⟨.only, .setMask 0⟩]
  | .irqMaskSet e => [⟨.only, .setMask (maskWith s.params s.maskAcc e)⟩]
  | .irqMaskCommit => [⟨.only, .store .irqMask (.word s.maskAcc)⟩]
  | .irqIsSet w e => [⟨.only, .finish (.isSet (eventSet s.params w e))⟩]
  | .pktConfigure c => pktSteps s.params c
  | .pktConfigureFilter f => filterSteps f
  | .write k v =>
    [⟨.only, match constructValue s.params k v with
      | none => .raise .invalidParameter
      | some w => .store k w⟩]
  | .writeRaw a bytes => [⟨.only, .rawWrite a bytes⟩]
  | .read k => [⟨.only, .readValue k⟩]
  | .readRaw a n => [⟨.only, .rawRead a n⟩]
  | .delay ms => [⟨.only, .delay ms.toNat⟩]
  | .tx => [⟨.only, .commandValue .tx⟩]
  | .rx => [⟨.only, .commandValue .rx⟩]
  | .ready => [⟨.only, .commandValue .ready⟩]
  | .standby => [⟨.only, .commandValue .standby⟩]
  | .sleep => [⟨.only, .commandValue .sleep⟩]
  | .lockRx => [⟨.only, .commandValue .lockRx⟩]
  | .lockTx => [⟨.only, .commandValue .lockTx⟩]
  | .sabort => [⟨.only, .commandValue .sabort⟩]
  | .ldcReload => [⟨.only, .commandValue .ldcReload⟩]
  | .sequenceUpdate => [⟨.only, .commandValue .sequenceUpdate⟩]
  | .aesEncrypt => [⟨.only, .commandValue .aesEncrypt⟩]
  | .aesKey => [⟨.only, .commandValue .aesKey⟩]
  | .aesDecrypt => [⟨.only, .commandValue .aesDecrypt⟩]
  | .aesKeyDecrypt => [⟨.only, .commandValue .aesKeyDecrypt⟩]
  | .sRes => [⟨.only, .commandValue .sRes⟩]
  | .flushRxFifo => [⟨.only, .commandValue .flushRxFifo⟩]
  | .flushTxFifo => [⟨.only, .commandValue .flushTxFifo⟩]

/-- Every meaning is the acceptance of its micro-sequence. -/
theorem exec_eq (i : Instr) (s : State) : exec i s = .next (start i (sequenceOf i s) s) := by
  cases i <;> rfl

/-- The state in which an accepted instruction begins (R24, R27). -/
def accepted (i : Instr) (s : State) : State :=
  { s with operands := loadOperands i s.operands, pc := .busy (opOf i) (sequenceOf i s) }

/-- An idle block runs the instruction from its first step. -/
theorem exec_idle (i : Instr) {s : State} (h : s.pc = .idle) : exec i s = .next (settle (accepted i s)) := by
  rw [exec_eq, start_idle h]; rfl

/-- A busy block accepts nothing (R8). -/
theorem exec_busy (i : Instr) {s : State} {op : Op} {l : List Micro} (h : s.pc = .busy op l) : exec i s = .next s := by
  rw [exec_eq, start_busy h]

/-- The two cases of `exec` for a claim about its next state. -/
theorem exec_cases {i : Instr} {s t : State} (h : exec i s = .next t) :
    (s.pc = .idle ∧ t = settle (accepted i s)) ∨ ((∃ op l, s.pc = .busy op l) ∧ t = s) := by
  cases hp : s.pc with
  | idle => rw [exec_idle i hp] at h; left; exact ⟨rfl, by cases h; rfl⟩
  | busy op l => rw [exec_busy i hp] at h; right; exact ⟨⟨op, l, rfl⟩, by cases h; rfl⟩

/-- A step of a state is a run of a busy block, an instruction, nothing, or the end of an unlisted selector. -/
theorem step_cases {s t : State} (h : step s = .next t) :
    ((∃ op l, s.pc = .busy op l) ∧ t = settle s) ∨
    (s.pc = .idle ∧ s.port = [] ∧ t = s) ∨
    (s.pc = .idle ∧ ∃ x rest i, s.port = x :: rest ∧ decode s.params x = .ok i ∧
      exec i { s with port := rest } = .next t) ∨
    (s.pc = .idle ∧ ∃ x rest op, s.port = x :: rest ∧ decode s.params x = .error (.unlistedSelector op) ∧
      t = { s with port := rest, err := .invalidParameter }) := by
  by_cases hp : s.pc = .idle
  · right
    simp only [step, hp] at h
    cases hq : s.port with
    | nil => left; simp only [fetch, hq] at h; exact ⟨hp, rfl, by cases h; rfl⟩
    | cons x rest =>
      right
      simp only [fetch, hq] at h
      cases hd : decode s.params x with
      | ok i => left; rw [hd] at h; exact ⟨hp, x, rest, i, rfl, hd, h⟩
      | error e =>
        rw [hd] at h
        cases e <;> simp only [undecodable] at h <;> cases h
        right
        exact ⟨hp, x, rest, _, rfl, hd, rfl⟩
  · left
    cases hq : s.pc with
    | idle => exact absurd hq hp
    | busy op l => simp only [step, hq] at h; exact ⟨⟨op, l, rfl⟩, by cases h; rfl⟩

/-- Where a run stops, the block is idle, or the answer its primitive waits for is missing (R62). -/
theorem stops_idle_or_waits {s : State} (h : seqStep s = none) : s.pc = .idle ∨ s.turns = [] := by
  unfold seqStep at h
  split at h
  · left; assumption
  · cases h
  · next op m rest hp =>
    right
    have prim : ∀ {α : Type} {x : Prim α} {k : α → State → State}, Issued s x → x.andThen k = none → s.turns = [] := by
      intro α x k i h
      cases i with
      | waiting w => exact w
      | ended _ _ _ _ _ _ _ => simp [Prim.andThen] at h
      | done _ _ _ _ _ _ _ _ _ _ => simp [Prim.andThen] at h
    have transfers : ∀ {k : Kind} {fs : List (Field × FieldVal)} {held : List (Nat × Byte)} {xs : List Transfer},
        transferStep op m.label rest k fs held s xs = none → s.turns = [] := by
      intro k fs held xs h
      cases xs with
      | nil => cases h
      | cons x left =>
        simp only [transferStep] at h
        split at h
        · exact prim (busReadPart_issued k x s) h
        · exact prim (busWritePart_issued k x held fs s) h
    cases hm : m.act <;> rw [hm] at h <;> simp only [actStep] at h
    case engine => cases h
    case zeroCounters => cases h
    case setMask => cases h
    case delay => cases h
    case finish => cases h
    case raise => cases h
    case countPoll => cases h
    case regSet k fs =>
      split at h
      · split at h
        · exact prim (busRead_issued k s) h
        · exact prim (busSet_issued k fs s) h
      · exact transfers h
    case transfers k fs held xs => exact transfers h
    case modify k fs => exact prim (busRead_issued k s) h
    case store k v => exact prim (busWrite_issued k v s) h
    case readDiscard k => exact prim (busRead_issued k s) h
    case readValue k => exact prim (busRead_issued k s) h
    case rawWrite b bytes => exact prim (memWrite_issued b bytes s) h
    case rawRead b n => exact prim (memRead_issued b n s) h
    case command c => exact prim (busCommand_issued c s) h
    case commandValue c => exact prim (busCommand_issued c s) h
    case pollState target => exact prim (busRead_issued _ s) h
    case pollTx => exact prim (busRead_issued _ s) h
    case pollRx => exact prim (busRead_issued _ s) h
    case fifoCount => exact prim (busRead_issued _ s) h
    case drain c => exact prim (memRead_issued _ c s) h

/-! ### Instructions of one pure step -/

/-- A run at its `finish` ends there (R25, R40). -/
theorem settle_finish {s : State} {op : Op} {l : Label} {r : ResultWrite} {rest : List Micro}
    (h : s.pc = .busy op (⟨l, .finish r⟩ :: rest)) : settle s = finish r s := by
  rw [settle_some (t := finish r s) (by simp [seqStep, h, actStep])]
  exact settle_idle rfl

/-- A run at its `raise` ends there (R276). -/
theorem settle_raise {s : State} {op : Op} {l : Label} {e : Err} {rest : List Micro}
    (h : s.pc = .busy op (⟨l, .raise e⟩ :: rest)) : settle s = raise e s := by
  rw [settle_some (t := raise e s) (by simp [seqStep, h, actStep])]
  exact settle_idle (by simp)

/-- A run with no step left ends without results (R27). -/
theorem settle_end {s : State} {op : Op} (h : s.pc = .busy op []) : settle s = finish .nothing s := by
  rw [settle_some (t := finish .nothing s) (by simp [seqStep, h])]
  exact settle_idle rfl

/-- An instruction whose one step is `finish r`. -/
theorem exec_finish (i : Instr) {s : State} {l : Label} {r : ResultWrite} (hs : s.pc = .idle)
    (h : sequenceOf i s = [⟨l, .finish r⟩]) :
    exec i s = .next { s with
      operands := loadOperands i s.operands
      results := writeResults s.results r
      err := .none } := by
  rw [exec_idle i hs, settle_finish (s := accepted i s) (op := opOf i) (l := l) (r := r) (rest := []) (by simp [accepted, h])]
  simp [accepted, finish, hs]

/-- An instruction whose one step is `raise e`. -/
theorem exec_raise (i : Instr) {s : State} {l : Label} {e : Err} (hs : s.pc = .idle)
    (h : sequenceOf i s = [⟨l, .raise e⟩]) :
    exec i s = .next { s with
      operands := loadOperands i s.operands
      results := unspecifyResults s.results (opOf i) s.fresh
      rxbuf := unspecifyRxbuf s.rxbuf (opOf i) s.fresh
      err := e
      fresh := s.fresh + 1 } := by
  rw [exec_idle i hs, settle_raise (s := accepted i s) (op := opOf i) (l := l) (e := e) (rest := []) (by simp [accepted, h]),
    raise_busy e (accepted i s) (opOf i) (sequenceOf i s) rfl]
  simp [accepted, hs]

end Sys2Proof.Machine
end

