-- ==== Sys2Proof/Laws/PerInstr.lean ====
section
/-! SUPPORT. Facts stated once per instruction. Latching the operands of an instruction writes its own latches and, once
written, writes nothing more (spec/10_state.md R24). -/

namespace Sys2Proof.Laws.OperandLatching

open Sys2Proof.Machine

/-- Operands latched twice are operands latched once, and what the encoder sends with the instruction does not depend on
which of the two the operand lines carry (R24, R95). -/
def Statement (i : Instr) : Prop :=
  ∀ (p : Params) (o : Operands), loadOperands i (loadOperands i o) = loadOperands i o ∧
    encodeOver p (loadOperands i o) i = encodeOver p o i

theorem bandResolve (b : Word) : Statement (.bandResolve b) := fun _ _ => ⟨rfl, rfl⟩
theorem encDatarate (t : Word) (d : Bool) (x : Word) : Statement (.encDatarate t d x) := fun _ _ => ⟨rfl, rfl⟩
theorem encFdev (t x : Word) : Statement (.encFdev t x) := fun _ _ => ⟨rfl, rfl⟩
theorem encChflt (t : Word) (d : Bool) (x : Word) : Statement (.encChflt t d x) := fun _ _ => ⟨rfl, rfl⟩
theorem encRssiTh (d : BitVec 32) : Statement (.encRssiTh d) := fun _ _ => ⟨rfl, rfl⟩
theorem encRxTimeout (t : NonNegRat) (x : Word) : Statement (.encRxTimeout t x) := fun _ _ => ⟨rfl, rfl⟩
theorem encPaDbm (s : Byte) (d : ℚ) (b : Word) : Statement (.encPaDbm s d b) := fun _ _ => ⟨rfl, rfl⟩
theorem encFoffset (n : BitVec 16) (b x : Word) : Statement (.encFoffset n b x) := fun _ _ => ⟨rfl, rfl⟩
theorem encChspace (s x : Word) : Statement (.encChspace s x) := fun _ _ => ⟨rfl, rfl⟩
theorem encIfOffset (x : Word) : Statement (.encIfOffset x) := fun _ _ => ⟨rfl, rfl⟩
theorem init (o : RadioInitOptions) : Statement (.init o) := fun _ _ => ⟨rfl, rfl⟩
theorem waExtraCurrent : Statement .waExtraCurrent := fun _ _ => ⟨rfl, rfl⟩
theorem waitForState (t : DevState) : Statement (.waitForState t) := fun _ _ => ⟨rfl, rfl⟩
theorem txBlocking (b : List Byte) : Statement (.txBlocking b) := fun _ _ => ⟨rfl, rfl⟩
theorem rxBlocking : Statement .rxBlocking := fun _ _ => ⟨rfl, rfl⟩
theorem strobeRx : Statement .strobeRx := fun _ _ => ⟨rfl, rfl⟩
theorem irqSilence : Statement .irqSilence := fun _ _ => ⟨rfl, rfl⟩
theorem irqClear : Statement .irqClear := fun _ _ => ⟨rfl, rfl⟩
theorem irqMaskNew : Statement .irqMaskNew := fun _ _ => ⟨rfl, rfl⟩
theorem irqMaskSet (e : Event) : Statement (.irqMaskSet e) := fun _ _ => ⟨rfl, rfl⟩
theorem irqMaskCommit : Statement .irqMaskCommit := fun _ _ => ⟨rfl, rfl⟩
theorem irqIsSet (w : Word) (e : Event) : Statement (.irqIsSet w e) := fun _ _ => ⟨rfl, rfl⟩
theorem pktConfigure (c : PacketConfig) : Statement (.pktConfigure c) := fun _ _ => ⟨rfl, rfl⟩
theorem pktConfigureFilter (f : FilterOptions) : Statement (.pktConfigureFilter f) := fun _ _ => ⟨rfl, rfl⟩
theorem write (k : Kind) (v : KindVal) : Statement (.write k v) := fun _ _ => ⟨rfl, rfl⟩
theorem writeRaw (a : Byte) (b : List Byte) : Statement (.writeRaw a b) := fun _ _ => ⟨rfl, rfl⟩
theorem read (k : Kind) : Statement (.read k) := fun _ _ => ⟨rfl, rfl⟩
theorem readRaw (a : Byte) (n : Nat) : Statement (.readRaw a n) := fun _ _ => ⟨rfl, rfl⟩
theorem delay (m : Word) : Statement (.delay m) := fun _ _ => ⟨rfl, rfl⟩
theorem tx : Statement .tx := fun _ _ => ⟨rfl, rfl⟩
theorem rx : Statement .rx := fun _ _ => ⟨rfl, rfl⟩
theorem ready : Statement .ready := fun _ _ => ⟨rfl, rfl⟩
theorem standby : Statement .standby := fun _ _ => ⟨rfl, rfl⟩
theorem sleep : Statement .sleep := fun _ _ => ⟨rfl, rfl⟩
theorem lockRx : Statement .lockRx := fun _ _ => ⟨rfl, rfl⟩
theorem lockTx : Statement .lockTx := fun _ _ => ⟨rfl, rfl⟩
theorem sabort : Statement .sabort := fun _ _ => ⟨rfl, rfl⟩
theorem ldcReload : Statement .ldcReload := fun _ _ => ⟨rfl, rfl⟩
theorem sequenceUpdate : Statement .sequenceUpdate := fun _ _ => ⟨rfl, rfl⟩
theorem aesEncrypt : Statement .aesEncrypt := fun _ _ => ⟨rfl, rfl⟩
theorem aesKey : Statement .aesKey := fun _ _ => ⟨rfl, rfl⟩
theorem aesDecrypt : Statement .aesDecrypt := fun _ _ => ⟨rfl, rfl⟩
theorem aesKeyDecrypt : Statement .aesKeyDecrypt := fun _ _ => ⟨rfl, rfl⟩
theorem sRes : Statement .sRes := fun _ _ => ⟨rfl, rfl⟩
theorem flushRxFifo : Statement .flushRxFifo := fun _ _ => ⟨rfl, rfl⟩
theorem flushTxFifo : Statement .flushTxFifo := fun _ _ => ⟨rfl, rfl⟩

end Sys2Proof.Laws.OperandLatching
end

