-- ==== Sys2Proof/Laws/Resume.lean ====
section
/-! SUPPORT. An operation that waited and went on is the operation run without a pause (R62): answers that come later are
used as if they had been there from the start, so what holds of a run from idle holds of a run with pauses. -/

namespace Sys2Proof.Machine

/-- The state with more answers of the world outside to come. -/
def withMore (ts : List Turn) (s : State) : State := { s with turns := s.turns ++ ts }

/-- What is still to come is not looked at by what raises, ends, records or moves on. -/
theorem withMore_raise (ts : List Turn) (e : Err) (s : State) : raise e (withMore ts s) = withMore ts (raise e s) := by
  unfold raise withMore; dsimp only; split <;> rfl

/-- What issuing a primitive comes to, with more answers to come. -/
def Prim.more {α : Type} (ts : List Turn) : Prim α → Prim α
  | .waiting => .waiting
  | .ended u => .ended (withMore ts u)
  | .done a u => .done a (withMore ts u)

/-- A primitive that has its answer does not look at the answers after it. -/
theorem transact_more {α : Type} (ts : List Turn) (s : State) (value : Turn → State → Except Err α)
    (effect : Turn → State → Chip) (event : State → Option α → BusEvent) (hs : s.turns ≠ [])
    (hv : ∀ t u, value t (withMore ts u) = value t u) (he : ∀ t u, effect t (withMore ts u) = effect t u)
    (hev : ∀ u r, event (withMore ts u) r = event u r) :
    transact (withMore ts s) value effect event = (transact s value effect event).more ts := by
  cases h : s.turns with
  | nil => exact absurd h hs
  | cons t tl =>
    have h1 : nextTurn s = some (t, { s with turns := tl, chip := t.drift.foldl chipDrift s.chip }) := by
      simp [nextTurn, h]
    have h2 : nextTurn (withMore ts s) =
        some (t, withMore ts { s with turns := tl, chip := t.drift.foldl chipDrift s.chip }) := by
      simp [nextTurn, withMore, h]
    obtain ⟨u, hu⟩ : ∃ u, u = { s with turns := tl, chip := t.drift.foldl chipDrift s.chip } := ⟨_, rfl⟩
    rw [← hu] at h1 h2
    simp only [transact, h1, h2]
    cases t.failure with
    | some f => dsimp only; rw [he, hev, Prim.more, ← withMore_raise]; rfl
    | none =>
      dsimp only
      rw [hv]
      cases value t u with
      | error e => dsimp only; rw [he, hev, Prim.more, ← withMore_raise]; rfl
      | ok a => dsimp only; rw [he, hev]; rfl

/-- A write that has its answer does not look at the answers after it, nor does the value it writes. -/
theorem busWriteWith_more (ts : List Turn) (s : State) (k : Kind) (v : State → KindVal) (hs : s.turns ≠ [])
    (hv : ∀ u, v (withMore ts u) = v u) :
    busWriteWith k v (withMore ts s) = (busWriteWith k v s).more ts := by
  unfold busWriteWith
  refine transact_more ts s _ _ _ hs ?_ ?_ ?_ <;> (intro _ _; simp only [hv]; try rfl)

/-- A primitive and what follows it do not look at the answers after the one it uses. -/
theorem andThen_more {α : Type} {ts : List Turn} {x y : Prim α} {k : α → State → State} {t : State}
    (hx : y = x.more ts)
    (hk : ∀ a u, k a (withMore ts u) = withMore ts (k a u)) (h : x.andThen k = some t) :
    y.andThen k = some (withMore ts t) := by
  subst hx
  cases x with
  | waiting => simp [Prim.andThen] at h
  | ended u => simp only [Prim.andThen, Option.some.injEq] at h; subst h; rfl
  | done a u => simp only [Prim.andThen, Option.some.injEq] at h; subst h; simp [Prim.more, Prim.andThen, hk]

/-- A step that could be taken is taken the same way when more answers are to come. -/
theorem actStep_more {op : Op} {l : Label} {rest : List Micro} {s t : State} {a : Act} (ts : List Turn)
    (h : actStep op l rest s a = some t) : actStep op l rest (withMore ts s) a = some (withMore ts t) := by
  have turns : ∀ {α : Type} {x : Prim α} {k : α → State → State}, Issued s x → x.andThen k = some t → s.turns ≠ [] := by
    intro α x k i h
    cases i with
    | waiting _ => simp [Prim.andThen] at h
    | ended _ _ _ hu _ _ _ => rw [hu]; simp
    | done _ _ _ _ hu _ _ _ _ _ => rw [hu]; simp
  have read : ∀ {k : Kind} {g : KindVal → State → State}, (∀ a u, g a (withMore ts u) = withMore ts (g a u)) →
      (busRead k s).andThen g = some t → (busRead k (withMore ts s)).andThen g = some (withMore ts t) :=
    fun hg h => andThen_more (transact_more ts s _ _ _ (turns (busRead_issued _ s) h) (fun _ _ => rfl) (fun _ _ => rfl)
      (fun _ _ => rfl)) hg h
  have transfers : ∀ {k : Kind} {fs : List (Field × FieldVal)} {held : List (Nat × Byte)} {xs : List Transfer},
      transferStep op l rest k fs held s xs = some t →
      transferStep op l rest k fs held (withMore ts s) xs = some (withMore ts t) := by
    intro k fs held xs h
    cases xs with
    | nil => cases h; rfl
    | cons x left =>
      simp only [transferStep] at h ⊢
      split at h
      · next hr =>
        rw [if_pos hr]
        exact andThen_more (transact_more ts s _ _ _ (turns (busReadPart_issued k x s) h) (fun _ _ => rfl) (fun _ _ => rfl)
          (fun _ _ => rfl)) (fun _ _ => rfl) h
      · next hr =>
        rw [if_neg hr]
        exact andThen_more (transact_more ts s _ _ _ (turns (busWritePart_issued k x held fs s) h) (fun _ _ => rfl)
          (fun _ _ => rfl) (fun _ _ => rfl)) (fun _ _ => rfl) h
  cases a <;> simp only [actStep] at h ⊢
  case engine | zeroCounters | setMask | delay | finish => cases h; rfl
  case raise e => cases h; rw [withMore_raise]
  case countPoll =>
    cases h
    unfold countPoll
    simp only [show (withMore ts s).params = s.params from rfl, show (withMore ts s).polls = s.polls from rfl]
    split
    · rw [← withMore_raise]; rfl
    · rfl
  case regSet k fs =>
    simp only [show (withMore ts s).params = s.params from rfl]
    split at h
    · split at h
      · next hr => rw [if_pos hr]; exact read (fun _ _ => rfl) h
      · next hr =>
        rw [if_neg hr]
        refine andThen_more ?_ (fun _ _ => rfl) h
        exact busWriteWith_more ts s k (fun u => setOnChip u.params k fs u.chip) (turns (busSet_issued k fs s) h) fun _ => rfl
    · exact transfers h
  case transfers k fs held xs => exact transfers h
  case modify k fs => exact read (fun _ _ => rfl) h
  case store k v =>
    refine andThen_more ?_ (fun _ _ => rfl) h
    exact busWriteWith_more ts s k (fun _ => v) (turns (busWrite_issued k v s) h) fun _ => rfl
  case readDiscard k => exact read (fun _ _ => rfl) h
  case readValue k => exact read (fun _ _ => rfl) h
  case rawWrite b bytes =>
    exact andThen_more (transact_more ts s _ _ _ (turns (memWrite_issued b bytes s) h) (fun _ _ => rfl) (fun _ _ => rfl)
      (fun _ _ => rfl)) (fun _ _ => rfl) h
  case rawRead b n =>
    refine andThen_more ?_ (fun _ _ => rfl) h
    exact transact_more ts { s with fresh := s.fresh + 1 } _ _ _ (turns (memRead_issued b n s) h) (fun _ _ => rfl)
      (fun _ _ => rfl) (fun _ _ => rfl)
  case command c =>
    exact andThen_more (transact_more ts s _ _ _ (turns (busCommand_issued c s) h) (fun _ _ => rfl) (fun _ _ => rfl)
      (fun _ _ => rfl)) (fun _ _ => rfl) h
  case commandValue c =>
    exact andThen_more (transact_more ts s _ _ _ (turns (busCommand_issued c s) h) (fun _ _ => rfl) (fun _ _ => rfl)
      (fun _ _ => rfl)) (fun _ _ => rfl) h
  case pollState target =>
    refine read (fun v u => ?_) h
    unfold afterPollState; split <;> rfl
  case pollTx =>
    refine read (fun v u => ?_) h
    unfold afterPollTx
    simp only [show (withMore ts u).params = u.params from rfl]
    split <;> rfl
  case pollRx =>
    refine read (fun v u => ?_) h
    unfold afterPollRx
    simp only [show (withMore ts u).params = u.params from rfl, show (withMore ts u).retries = u.retries from rfl]
    split
    · rfl
    · split
      · split
        · rw [← withMore_raise]; rfl
        · rfl
      · rfl
  case fifoCount =>
    refine read (fun v u => ?_) h
    unfold afterFifoCount
    split
    · rw [withMore_raise]
    · rfl
  case drain c =>
    refine andThen_more ?_ (fun _ _ => rfl) h
    exact transact_more ts { s with fresh := s.fresh + 1 } _ _ _ (turns (memRead_issued 0xFF c s) h) (fun _ _ => rfl)
      (fun _ _ => rfl) (fun _ _ => rfl)

/-- A step of the sequencer that could be taken is taken the same way when more answers are to come. -/
theorem seqStep_more {s t : State} (ts : List Turn) (h : seqStep s = some t) :
    seqStep (withMore ts s) = some (withMore ts t) := by
  unfold seqStep at h ⊢
  simp only [show (withMore ts s).pc = s.pc from rfl]
  split at h
  · cases h
  · cases h; rfl
  · exact actStep_more ts h

/-- Going on from where a run stopped, with more answers, is the run with all of them from the start. -/
theorem settle_more (ts : List Turn) (s : State) : settle (withMore ts (settle s)) = settle (withMore ts s) := by
  have main : ∀ n u, stepBound u ≤ n → settle (withMore ts (settle u)) = settle (withMore ts u) := by
    intro n
    induction n with
    | zero =>
      intro u hn
      cases hu : seqStep u with
      | none => rw [settle_none hu]
      | some v => have := seqStep_bound hu; omega
    | succ n ih =>
      intro u hn
      cases hu : seqStep u with
      | none => rw [settle_none hu]
      | some v =>
        have := seqStep_bound hu
        rw [settle_some hu, settle_some (seqStep_more ts hu)]
        exact ih v (by omega)
  exact main _ s le_rfl

end Sys2Proof.Machine

namespace Sys2Proof.Safety

open Sys2Proof.Machine

/-- An operation that waited any number of times and went on with the answers `more` has come where it comes with all of
them from the start. -/
theorem Runs.exec_all {i : Instr} {s t : State} {more : List Turn} (h : Runs i s more t) :
    exec i { s with turns := s.turns ++ more } = .next t := by
  induction h with
  | requested t h => simpa using h
  | resumed more ts t u hs ht hb hstep ih =>
    have hrun : ∀ l : List Turn, exec i { s with turns := s.turns ++ l } =
        .next (settle (withMore l (accepted i s))) := fun l => by
      have hseq : sequenceOf i { s with turns := s.turns ++ l } = sequenceOf i s := by cases i <;> rfl
      rw [exec_idle i (s := { s with turns := s.turns ++ l }) hs, accepted, hseq]; rfl
    have h1 : t = settle (withMore more (accepted i s)) := by
      have := (hrun more).symm.trans ih; injection this with this; exact this.symm
    have h2 : u = settle (withMore ts t) := by
      have : step (withMore ts t) = .next u := hstep
      simp only [step] at this
      split at this
      · injection this with this; exact this.symm
      · next hp => exact absurd hp hb
    rw [hrun (more ++ ts), h2, h1, settle_more]
    simp [withMore, List.append_assoc]

end Sys2Proof.Safety
end

