-- ==== Sys2Proof/Tests/Slice0.lean ====
section
/-! SUPPORT. The model's own tests. Expected values are those of spec/95_test_vectors.md or worked out by hand from the rule
named; `witness_<Name>` shows values that meet the hypotheses of the statement `<Name>`. -/

namespace Sys2Proof.Tests

open Sys2Proof Sys2Proof.Machine Sys2Proof.Safety

/- One theorem at a time: elaborated together they ask for more threads than the build's memory limit grants. -/
set_option Elab.async false

/-! ### A parameter set and a state to test on -/

/-- Register layout for the tests: kind number `i` at address `8 i`, four bytes (`FLT_ADDR` three), the fields one after the
other; `DATARATE` and `PA_CONFIG` are read before a field update, `FDEV` is least significant byte first. -/
def testKinds : List KindInfo :=
  allKinds.map fun k =>
    { someLegalKind k with
      addr := if k.index < 24 then 8 * k.index else 200
      bigEndian := k != .fdev
      rmw := k == .datarate || k == .paConfig
      suppliesCode := k == .datarate }

/-- Parameters for the tests, with the event bits and raw bytes of G10 and G11. -/
def testParams : Params :=
  { Params.someLegal with
    xtalStrap := 50000000
    baseStrap := 433400000
    vlMax := 170000000
    bwTable := 8001 :: ((List.range 88).map (fun i => (7000 : ℚ) - 50 * i) ++ [11])
    kinds := testKinds
    stateCodes := [(1, .ready), (2, .standby), (3, .rx)]
    eventBits := [2, 0, 1, 29] ++ (List.range 26).map (· + 3) ++ [30, 31]
    splitTimeSet := 1
    paSlotMax := 7
    paCoeff := List.replicate 5 ⟨-2, 5, -1, 27, -2, 29⟩
    txVcoBuf := ⟨0xA9, 0x11⟩
    txPmTrim := ⟨0xA5, 0x20⟩
    rxPmTrim := ⟨0xA5, 0x98⟩
    waEc0 := ⟨0xB2, 1⟩
    waEc1 := ⟨0xA8, 2⟩
    waEc2 := ⟨0xA8, 3⟩
    waSettleMs := 1
    pollDelayMs := 1
    pollLimit := some 3
    rxRetryLimit := some 1 }

/-- A register space with zeros at `MC_STATE`, `RX_FIFO_STATUS` and `DATARATE`. -/
def testMem : Memory := [0, 1, 2, 3, 24, 25, 26, 27, 72, 73, 74, 75].map fun a => (a, 0)

/-- A chip in state code 1 with the given RX FIFO and pending bits. -/
def testChip (rxFifo : List Byte) (pending : Word) : Chip := ⟨testMem, [], rxFifo, 1, pending⟩

/-- The block after reset with parameters `p`, a chip in state code 1, and the given answers to come. -/
def testState (p : Params) (turns : List Turn) : State :=
  { State.resetWith p with chip := testChip [] 0, turns := turns }

/-- `n` transactions that a chip changing nothing by itself answers. -/
def quiet (n : Nat) : List Turn := List.replicate n {}

/-- A transaction before which the chip sets its pending bits. -/
def pendingTurn (w : Word) : Turn := { drift := [.pending w] }

/-- A transaction before which the chip changes its state code. -/
def stateTurn (code : Nat) : Turn := { drift := [.stateCode code] }

/-- A transaction whose answer to a read of `DATARATE` decodes (the chip's own would, too, and is not asked). -/
def goodTurn : Turn := { answers := [(.datarate, [0xFF, 0xFF, 0xF8, 0xFF])] }
def good (n : Nat) : List Turn := List.replicate n goodTurn

/-- A transaction that fails at the transport. -/
def failTurn (cause : Nat) : Turn := { failure := some ⟨cause, false⟩ }

/-- The state an outcome goes on to. -/
def after (o : Host.Outcome State Fault Refusal) : State :=
  match o with
  | .next t => t
  | .fault _ | .refused _ => testState testParams []

theorem test_params_legal : testParams.Legal := by decide +kernel

theorem test_installed_params_legal : Params.someLegal.Legal := by decide +kernel

/-! ### Well-formedness: each check refuses an ill-formed term -/

theorem test_wf_state_kind_takes_record : (Instr.write .mcState (.word 0)).wf = false := by decide
theorem test_wf_mask_takes_word : (Instr.write .irqMask (.record [0, 0, 0, 0] [])).wf = false := by decide
theorem test_wf_status_takes_word : (Instr.write .irqStatus (.record [] [])).wf = false := by decide
theorem test_wf_fifo_count_takes_record : (Instr.write .rxFifoStatus (.word 0)).wf = false := by decide
theorem test_wf_record_kind_takes_record : (Instr.write .afc (.word 0)).wf = false := by decide
theorem test_wf_foreign_field : (Instr.write .chnum (.record [] [(.cwc, .num 1)])).wf = false := by decide
theorem test_wf_flag_takes_bool : (Instr.write .pcktFltOptions (.record [] [(.crcCheck, .num 7)])).wf = false := by decide
theorem test_wf_address_is_a_number : (Instr.write .fltAddr (.record [] [(.my, .flag true)])).wf = false := by decide
theorem test_wf_repeated_field :
    (Instr.write .chnum (.record [] [(.value, .num 1), (.value, .num 2)])).wf = false := by decide
theorem test_wf_well_formed :
    (Instr.write .irqMask (.word 7)).wf = true ∧ (Instr.write .sync (.record [1, 2, 3, 4] [])).wf = true ∧
    (Instr.write .fdev (.record [0] [(.mantissa, .num 5), (.exponent, .num 4)])).wf = true := by decide

/-! ### Decoding: words written out from R92, R93, R96 -/

/-- Operand lines with a different value on each line. -/
def lines : Operands where
  baseHz := 433400000
  targetBps := 38400
  clockDivided := true
  crystalHz := 50000000
  targetHz := 20000
  rssiDbm := -120
  timeoutMs := ⟨5, 1⟩
  slot := 7
  paDbm := 12
  xtalOffsetPpm := -3
  spacingHz := 20001
  opts := ⟨1, 2, 3, .fsk2, 4, 5, 6⟩
  target := .lock
  payload := [1, 2, 3]
  event := .rxTimeout
  word := 0x20000002
  cfg := .wmbus [4]
  flt := ⟨true, false, true, 1, 2, 3⟩

theorem test_decode_calculators :
    [0x00, 0x01, 0x02, 0x03, 0x04, 0x05, 0x06, 0x07, 0x08, 0x09].map (fun op => decode testParams ⟨.req op, lines⟩) =
      [.ok (.bandResolve 433400000), .ok (.encDatarate 38400 true 50000000), .ok (.encFdev 20000 50000000),
       .ok (.encChflt 20000 true 50000000), .ok (.encRssiTh (-120)), .ok (.encRxTimeout ⟨5, 1⟩ 50000000),
       .ok (.encPaDbm 7 12 433400000), .ok (.encFoffset (-3) 433400000 50000000), .ok (.encChspace 20001 50000000),
       .ok (.encIfOffset 50000000)] := rfl

theorem test_decode_sequencer_and_engine :
    [0x10, 0x11, 0x12, 0x20, 0x21, 0x22].map (fun op => decode testParams ⟨.req op, lines⟩) =
      [.ok (.init ⟨1, 2, 3, .fsk2, 4, 5, 6⟩), .ok .waExtraCurrent, .ok (.waitForState .lock), .ok (.txBlocking [1, 2, 3]),
       .ok .rxBlocking, .ok .strobeRx] := rfl

theorem test_decode_irq_and_packet :
    [0x30, 0x31, 0x32, 0x33, 0x34, 0x35, 0x40, 0x41].map (fun op => decode testParams ⟨.req op, lines⟩) =
      [.ok .irqSilence, .ok .irqClear, .ok .irqMaskNew, .ok (.irqMaskSet .rxTimeout), .ok .irqMaskCommit,
       .ok (.irqIsSet 0x20000002 .rxTimeout), .ok (.pktConfigure (.wmbus [4])),
       .ok (.pktConfigureFilter ⟨true, false, true, 1, 2, 3⟩)] := rfl

theorem test_decode_raw_frames :
    decode testParams ⟨.frame 0x00 0x99, { lines with bytes := [0x80, 0xE3] }⟩ = .ok (.writeRaw 0x99 [0x80, 0xE3]) ∧
    decode testParams ⟨.frame 0x01 0xFF, { lines with count := 3 }⟩ = .ok (.readRaw 0xFF 3) ∧
    decode testParams ⟨.noFrame, { lines with ms := 1 }⟩ = .ok (.delay 1) := ⟨rfl, rfl, rfl⟩

/-- In the tests' layout `IRQ_MASK` is at 8, `MC_STATE` at 0. -/
theorem test_decode_typed_frames :
    decode testParams ⟨.frame 0x00 0x08, { lines with kind := some .irqMask, value := .word 7 }⟩ =
      .ok (.write .irqMask (.word 7)) ∧
    decode testParams ⟨.frame 0x01 0x00, { lines with kind := some .mcState }⟩ = .ok (.read .mcState) := ⟨rfl, rfl⟩

theorem test_decode_takes_any_value_and_refuses_other_frames :
    decode testParams ⟨.frame 0x00 0x08, { lines with kind := some .irqMask, value := .record [] [] }⟩ =
      .ok (.write .irqMask (.record [] [])) ∧
    decode testParams ⟨.frame 0x01 0x09, { lines with kind := some .irqMask }⟩ =
      .error (.callAddressMismatch .irqMask 0x09) ∧
    decode testParams ⟨.frame 0x02 0x00, lines⟩ = .error (.unlistedFrameSelector 0x02) ∧
    decode testParams ⟨.frame 0x80 0x6E, lines⟩ = .error (.unlistedCommandCode 0x6E) := ⟨rfl, rfl, rfl, rfl⟩

theorem test_decode_commands :
    [0x8060, 0x8061, 0x8062, 0x8063, 0x8064, 0x8065, 0x8066, 0x8067, 0x8068, 0x8069, 0x806A, 0x806B, 0x806C, 0x806D,
      0x8070, 0x8071, 0x8072].map (decodeTableWord 16) =
      [some .tx, some .rx, some .ready, some .standby, some .sleep, some .lockRx, some .lockTx, some .sabort,
       some .ldcReload, some .sequenceUpdate, some .aesEncrypt, some .aesKey, some .aesDecrypt, some .aesKeyDecrypt,
       some .sRes, some .flushRxFifo, some .flushTxFifo] := rfl

/-- The unlisted selectors of spec/95 section 3.13. -/
theorem test_decode_unlisted_selectors :
    [0x0A, 0x13, 0x23, 0x36, 0x42, 0xFF].map (decodeTableWord 8) = [none, none, none, none, none, none] := rfl

theorem test_first_step_runs_presented_word :
    step (State.reset.withFetchWord 8 0x32) = exec .irqMaskNew State.reset := rfl

/-- R8: a request presented to a busy block stays on the port. -/
theorem test_request_waits_for_busy_block :
    let s : State := { after (exec (.waitForState .ready) (testState testParams [])) with port := [⟨.req 0x32, lines⟩] }
    (after (step s)).port.length = 1 ∧ (after (step s)).pc ≠ .idle := by decide +kernel

/-! ### The register codec -/

/-- In `DATARATE` of the tests' layout the mantissa is bits 0 to 3, the exponent bits 4 to 7, the modulation bits 8 to 10,
and every other bit is kept (R66). -/
theorem test_codec_puts_fields_and_keeps_the_rest :
    encodeValue testParams .datarate (.record [0xFF, 0xFF, 0xFF, 0xFF]
      [(.mantissa, .num 5), (.exponent, .num 4), (.modulation, .modulation .fsk2)]) = [0xFF, 0xFF, 0xF8, 0x45] ∧
    encodeValue testParams .fdev (.record [0, 0, 0, 0] [(.mantissa, .num 5), (.exponent, .num 4)]) = [0x45, 0, 0, 0] := by
  decide +kernel

theorem test_codec_reads_named_fields :
    decodeBytes testParams .datarate [0xFF, 0xFF, 0xF9, 0x45] = .ok (.record [0xFF, 0xFF, 0xF9, 0x45]
      [(.mantissa, .num 5), (.exponent, .num 4), (.modulation, .modulation (.other 0))]) ∧
    decodeBytes testParams .datarate [0, 0, 0x05, 0] = .error (.registerDecodeFailure .datarate (some 5)) := by
  decide +kernel

/-- R65, U12: 5000 does not fit in the 12 bits of the FC offset. -/
theorem test_codec_clamps_wide_value :
    constructValue testParams .fcOffset (.record [] [(.value, .num 5000)]) = some (.record [] [(.value, .num 4095)]) := by
  decide +kernel

/-- R65, U12: values that are none of the kind are rejected; 256 is too wide for a filter address. -/
theorem test_codec_rejects_foreign_values :
    [(Kind.irqMask, KindVal.record [0, 0, 0, 0] []), (.chnum, .word 1), (.chnum, .record [] [(.cwc, .num 1)])].map
      (fun x => constructValue testParams x.1 x.2) = [none, none, none] ∧
    constructValue testParams .fltAddr (.record [] [(.my, .num 256)]) = some (.record [] [(.my, .num 255)]) := by
  decide +kernel

/-- R43, R65: a state code that is none of the seven decodes to `Invalid` and goes back as it came. -/
theorem test_codec_unknown_state_goes_back :
    decodeBytes testParams .mcState [1, 2, 3, 0x85] = .ok (.record [1, 2, 3, 0x85] [(.state, .state .invalid)]) ∧
    encodeValue testParams .mcState (.record [1, 2, 3, 0x85] [(.state, .state .invalid)]) = [1, 2, 3, 0x85] := by
  decide +kernel

/-- R274: a number that the codec makes an enumerated field can fail to decode. -/
theorem test_codec_decides_what_is_enumerated :
    let p : Params :=
      { testParams with kinds := testKinds.map fun i =>
          { i with fields := i.fields.map fun x => if x.1 = .splitTime then (x.1, { x.2 with codes := [1] }) else x } }
    decodeBytes p .synthConfig [0, 0, 0, 0] = .error (.registerDecodeFailure .synthConfig none) ∧
    decodeBytes p .synthConfig [0, 0, 0, 1] = .ok (.record [0, 0, 0, 1] [(.splitTime, .num 1)]) := by decide +kernel

/-! ### Calculators: vectors of spec/95 sections 2 and 3 -/

/-- The result latches after an instruction on the test state. -/
def resultsOf (i : Instr) : Results := (after (exec i (testState testParams []))).results

/-- The error latch after an instruction on the test state. -/
def errOf (i : Instr) : Err := (after (exec i (testState testParams []))).err

theorem test_band_resolve_examples :
    (resultsOf (.bandResolve 433400000)).band = .middle ∧ (resultsOf (.bandResolve 915000000)).band = .high ∧
    (resultsOf (.bandResolve 348000000)).band = .low ∧ (resultsOf (.bandResolve 169000000)).band = .veryLow := by
  decide +kernel

theorem test_band_resolve_refuses :
    [200000000, 348000001, 386999999, 470000001, 778999999, 956000001, 0, 4294967295].map (fun b => errOf (.bandResolve b)) =
      List.replicate 8 .invalidParameter := by decide +kernel

/-- With `DR(M, E) = f_clk / 1000 * (1 + M) * 2^E` and a 50 MHz crystal halved to 25 MHz: 100 kHz is `(0, 2)` or `(1, 1)` or
`(3, 0)`, first first; unhalved it is `(1, 0)` or `(0, 1)`; 10 MHz is nearest to the largest rate. -/
theorem test_datarate_halves_and_minimises :
    let eq : ℚ → Nat → Nat → ℚ := fun f m e => f / 1000 * (1 + m) * 2 ^ e
    datarate eq 2 2 0 100000 true 50000000 = (3, 0) ∧ datarate eq 2 2 2 100000 true 50000000 = (0, 2) ∧
    datarate eq 2 2 0 100000 false 50000000 = (1, 0) ∧ datarate eq 2 2 0 10000000 false 50000000 = (3, 3) := by
  decide +kernel

/-- R123 (c): above the largest rate the result is the top pair whatever the equation and the tie, one with all rates equal and
one that falls with the exponent among them; at a rate in reach the first of the nearest pairs. -/
theorem test_datarate_above_largest_rate :
    ([0, 5] : List Nat).all (fun tie => datarate (fun _ _ _ => 7) 2 2 tie 8 false 26000000 = (3, 3) ∧
      datarate (fun _ m e => 10 + m - e) 2 2 tie 100 true 26000000 = (3, 3)) ∧
    datarate (fun _ m e => 10 + m - e) 2 2 0 9 false 26000000 = (0, 1) := by decide +kernel

theorem test_fdev_vectors :
    [(20000, 50000000), (20000, 26000000), (100, 50000000), (763, 50000000), (1430, 50000000), (1431, 50000000),
      (127000, 26000000), (380859, 26000000)].map (fun x => fdev x.1 x.2) =
      [some (5, 4), some (5, 5), some (0, 0), some (0, 0), some (7, 0), some (0, 1), some (2, 8), some (7, 9)] ∧
    fdev 380860 26000000 = none ∧ fdev 732422 50000000 = none := by decide +kernel

theorem test_enc_fdev :
    (resultsOf (.encFdev 20000 50000000)).mantissa = 5 ∧ (resultsOf (.encFdev 20000 50000000)).exponent = 4 ∧
    errOf (.encFdev 732422 50000000) = .invalidParameter := by decide +kernel

/-- The last steps of the scan on the entries `890 - 10 i`: an exact entry, a target below the narrowest, and a tie between
entries 87 and 88, which the free choice decides. -/
theorem test_chflt_scan :
    let S : Nat → ℚ := fun i => 890 - 10 * i
    chfltIndex S 20 (fun _ => true) = 87 ∧ chfltIndex S (-5) (fun _ => true) = 89 ∧
    chfltIndex S 15 (fun _ => true) = 87 ∧ chfltIndex S 15 (fun _ => false) = 88 := by decide +kernel

/-- The test table ends with the entries 2650 and 11; at 26 MHz and unit 1 they are the entries in Hz, and halved by the
divider. -/
theorem test_enc_chflt :
    (resultsOf (.encChflt 2600 false 26000000)).mantissa = 7 ∧ (resultsOf (.encChflt 2600 false 26000000)).exponent = 9 ∧
    (resultsOf (.encChflt 5 true 26000000)).mantissa = 8 := by decide +kernel

theorem test_rssi_threshold_vectors :
    [-2147483648, -131, -130, -129, -120, -100, -4, -3, -2, -1, 0, 2, 3, 2147483647].map (fun d : Int =>
      (resultsOf (.encRssiTh (BitVec.ofInt 32 d))).reg) =
      [0x00, 0x00, 0x00, 0x02, 0x14, 0x3C, 0xFC, 0xFE, 0x00, 0x02, 0x04, 0x08, 0x08, 0x08] := by decide +kernel

theorem test_rx_timeout_vectors :
    [(⟨0, 0⟩, 50000000), (⟨1, 0⟩, 50000000), (⟨12, 0⟩, 50000000), (⟨100, 0⟩, 50000000), (⟨1000, 0⟩, 50000000),
      (⟨3130, 0⟩, 50000000), (⟨3135, 0⟩, 50000000), (⟨5, 1⟩, 26000000), (⟨100, 0⟩, 30000000),
      (⟨100, 0⟩, 30000001)].map (fun x : NonNegRat × Nat => rxTimeout x.1 x.2) =
      [(1, 1), (10, 1), (123, 1), (207, 9), (249, 82), (254, 254), (255, 255), (26, 1), (225, 10), (206, 5)] := by
  decide +kernel

theorem test_enc_rx_timeout :
    (resultsOf (.encRxTimeout ⟨1000, 0⟩ 50000000)).counter = 249 ∧
    (resultsOf (.encRxTimeout ⟨1000, 0⟩ 50000000)).prescaler = 82 := by decide +kernel

/-- The lines of `testParams`, by hand: up `5 - 24 < 1`, mid `27`, low `62 + 29 > 90`; the row changes at 900 MHz. -/
theorem test_pa_power_line_and_clamp :
    paPower testParams (fun _ _ => .up) 0 12 915000000 = some 1 ∧
    paPower testParams (fun _ _ => .mid) 7 0 868000000 = some 27 ∧
    paPower testParams (fun _ _ => .low) 0 (-31) 433400000 = some 90 ∧
    paRow testParams 900000000 = some 0 ∧ paRow testParams 899999999 = some 1 := by decide +kernel

theorem test_enc_pa_dbm_refuses :
    [Instr.encPaDbm 0 (25 / 2) 915000000, .encPaDbm 0 (-63 / 2) 915000000, .encPaDbm 0 13 200000000,
      .encPaDbm 0 0 200000000, .encPaDbm 8 0 915000000].map errOf = List.replicate 5 .invalidParameter := by decide +kernel

theorem test_offset_hz_vectors :
    [((0 : Int), 433400000), (10, 433400000), (-10, 433400000), (-3, 433400000), (1, 999999), (-1, 999999),
      (32767, 956000000), (-32768, 956000000)].map (fun x => offsetHz x.1 x.2) =
      [0, 4334, -4334, -1300, 0, 0, 31325252, -31326208] := by decide +kernel

theorem test_limits_clamp_or_wrap :
    limitS12 .clamp 2097 = 0x7FF ∧ limitS12 .wrap 2097 = 0x831 ∧ limitS12 .clamp (-2097) = 0x800 ∧
    limitS12 .wrap (-2097) = 0x7CF ∧ limitS12 .clamp (-22) = 0xFEA ∧
    limitU8 .clamp 300 = 0xFF ∧ limitU8 .wrap 300 = 0x2C ∧ limitU8 .clamp (-1) = 0x00 := by decide +kernel

theorem test_enc_foffset : (resultsOf (.encFoffset (-3) 433400000 50000000)).offsetHz.toInt = -1300 := by decide +kernel

/-- R147: the candidate's value for -10 ppm of spec/95 section 3.8; an equation of the other sign gives no other pattern. -/
theorem test_fc_offset_shows_sign :
    fcOffset .clamp (fun o x => (o : ℚ) * 2 ^ 18 / x) (-4334) 50000000 = 0xFEA ∧
    fcOffset .clamp (fun _ _ => 22) (-4334) 50000000 = 0xFEA ∧ fcOffset .clamp (fun _ _ => 22) 4334 50000000 = 0x016 ∧
    fcOffset .clamp (fun _ _ => 22) 0 50000000 = 0x000 := by decide +kernel

/-- R14: truncation toward zero on both sides; 53.9992 gives 53 (spec/95 section 3.10). -/
theorem test_if_offset_truncates :
    ifOffset .clamp (fun _ => 539992 / 10000) 50000000 = 53 ∧ trunc (-13 / 10) = -1 ∧
    chspace .clamp (fun s _ => (s : ℚ) / 1500) 20000 0 = 13 := by decide +kernel

theorem test_enc_chspace_and_if_offset_raise_nothing :
    errOf (.encChspace 20000 50000000) = .none ∧ errOf (.encIfOffset 50000000) = .none ∧
    errOf (.encDatarate 38400 true 50000000) = .none := by decide +kernel

/-- R154: the flags derived from the crystal. -/
theorem test_crystal_flags :
    freqSelect 50000000 = true ∧ freqSelect 48000000 = false ∧ pdClkdiv 30000000 = true ∧ pdClkdiv 30000001 = false := by
  decide

/-! ### The IRQ manager: spec/95 section 3.11 -/

/-- The test state with pending bits and accumulator `w`. -/
def irqState (w : Word) (turns : List Turn) : State :=
  { testState testParams turns with chip := testChip [] w, maskAcc := w }

theorem test_irq_mask_new : (after (exec .irqMaskNew (irqState 0xFFFFFFFF []))).maskAcc = 0 := by decide +kernel

theorem test_irq_mask_set : (after (exec (.irqMaskSet .rxTimeout) (irqState 7 []))).maskAcc = 0x20000007 := by
  decide +kernel

theorem test_irq_mask_commit :
    let t : State := after (exec .irqMaskCommit (irqState 0x20000007 (quiet 1)))
    t.maskAcc = 0x20000007 ∧ [7, 8, 9, 10, 11, 12].map (memGet t.chip.mem) = [none, some 0x20, some 0, some 0, some 7, none] ∧
    t.trace.map (frameOf testParams) = [[0x00, 0x08, 0x20, 0x00, 0x00, 0x07]] := by decide +kernel

theorem test_irq_silence :
    let t : State := after (exec .irqSilence (irqState 7 (quiet 1)))
    t.maskAcc = 7 ∧ t.trace.map (frameOf testParams) = [[0x00, 0x08, 0x00, 0x00, 0x00, 0x00]] := by decide +kernel

theorem test_irq_clear :
    let t : State := after (exec .irqClear (irqState 0x20000001 (quiet 1)))
    t.chip.pending = 0 ∧ t.trace = [.rd .irqStatus (some (.word 0x20000001))] ∧
    t.results = (irqState 0x20000001 []).results := by decide +kernel

theorem test_irq_is_set :
    (resultsOf (.irqIsSet 0x20000002 .rxTimeout)).isSet = true ∧
    (resultsOf (.irqIsSet 0x20000002 .rxDataReady)).isSet = false := by decide +kernel

theorem test_word_is_big_endian :
    bytesWord [0x12, 0x34, 0x56, 0x78] = 0x12345678 ∧ wordBytes 0x12345678 = [0x12, 0x34, 0x56, 0x78] := by decide

/-! ### Sequencer, engine, packet configurator: spec/95 section 3.13 -/

theorem test_wait_polls_until_ready :
    let t : State := after (exec (.waitForState .ready) (testState testParams [stateTurn 9, stateTurn 1, {}]))
    t.err = .none ∧ t.turns.length = 1 ∧ t.trace.map bare =
      [.rd .mcState (some (.record [] [(.state, .state .invalid)])), .dly 1,
       .rd .mcState (some (.record [] [(.state, .state .ready)]))] := by decide +kernel

theorem test_wait_times_out_at_three_polls :
    let t : State := after (exec (.waitForState .ready) (testState testParams (stateTurn 2 :: quiet 5)))
    t.err = .timeout .pollLimit ∧ t.turns.length = 3 ∧ t.trace.length = 5 := by decide +kernel

theorem test_init_order :
    let s : State := testState testParams (quiet 40)
    let t : State := after (exec initDefaults s)
    t.err = .none ∧ (sent s t).length = 16 ∧ (sent s t).take 4 =
      [.fields .synthConfig [(.splitTime, .num 1)], .command .standby, .fields .clkdivCtrl [(.pdClkdiv, .flag false)],
       .command .ready] ∧
    ((sent s t).drop 8).take 2 =
      [.fields .fdev [(.mantissa, .num 5), (.exponent, .num 4)], .fields .chflt [(.mantissa, .num 0), (.exponent, .num 0)]] ∧
    (sent s t).drop 11 =
      [.fields .freqSelect [(.flag, .flag true)], .fields .chnum [(.value, .num 0)], .raw 0x99 [0x80, 0xE3],
       .raw 0xBC [0x22], .fields .afc [(.freezeOnSync, .flag true)]] := by decide +kernel

theorem test_init_stops_at_deviation :
    let s : State := testState testParams (quiet 40)
    let t : State := after (exec (.init ⟨0, 20000, 0, .fsk2, 38400, 800000, 1005000⟩) s)
    t.err = .invalidParameter ∧ (sent s t).length = 8 := by decide +kernel

theorem test_extra_current_second_write_fails :
    let t : State := after (exec .waExtraCurrent (testState testParams [{}, failTurn 7, {}]))
    t.err = .busFailure 7 ∧ t.trace = [.wrRaw 0xB2 [1] true, .wrRaw 0xA8 [2] false] := by decide +kernel

theorem test_tx_truncates :
    let s : State := testState testParams (quiet 8 ++ [{}, pendingTurn 4])
    let t : State := after (exec (.txBlocking (List.replicate 200 0xAA)) s)
    t.err = .none ∧ t.engine = .txDone ∧ t.results.count = 96 ∧ t.chip.txFifo.length = 96 ∧ t.chip.pending = 0 ∧
    t.trace.length = 11 := by decide +kernel

theorem test_tx_times_out :
    let t : State := after (exec (.txBlocking []) (testState testParams (quiet 20)))
    t.err = .timeout .pollLimit ∧ t.engine = .txPending := by decide +kernel

/-- Program P3 of spec/95, with `RMW(PA_CONFIG)`. -/
theorem test_rx_rearms_once :
    let s : State := { testState testParams (quiet 4 ++ pendingTurn 2 :: quiet 4 ++ pendingTurn 1 :: quiet 2) with
      chip := testChip [0x48, 0x45, 0x4C, 0x4C, 0x4F] 0, rxbuf := List.replicate 96 0xEE }
    let t : State := after (exec .rxBlocking s)
    t.err = .none ∧ t.results.count = 5 ∧ t.rxbuf.take 6 = [0x48, 0x45, 0x4C, 0x4C, 0x4F, 0xEE] ∧
    t.rxbuf.length = 96 ∧ t.engine = .rxReady ∧ ((sent s t).filter (· == .command .rx)).length = 2 := by decide +kernel

theorem test_rx_count_97 :
    let s : State := testState testParams (quiet 4 ++ [pendingTurn 1, { answers := [(.rxFifoStatus, [0, 0, 0, 97])] }, {}])
    let t : State := after (exec .rxBlocking s)
    t.err = .invalidParameter ∧ t.turns.length = 1 ∧ t.rxbuf.length = 96 := by decide +kernel

theorem test_strobe_rx :
    let s : State := testState testParams (quiet 4)
    let t : State := after (exec .strobeRx s)
    t.engine = .rxArmed ∧
    sent s t = [.raw 0xA5 [0x98], .fields .paConfig [(.cwc, .num 0)], .command .rx] := by decide +kernel

/-- Options with preamble length 0 and no CRC. -/
def basicOptions : BasicOptions := ⟨.noCrc, true, 1, 0, 4, .variable, 0x88, 0x88, 0x88, 0x89⟩

theorem test_packet_basic :
    let s : State := testState testParams (quiet 3)
    let t : State := after (exec (.pktConfigure (.basic basicOptions)) s)
    t.err = .none ∧ sent s t =
      [.fields .pcktFltOptions [(.autoFiltering, .flag true), (.crcCheck, .flag false)],
       .fields .pcktctrl [(.addressField, .flag true), (.controlLen, .num 1), (.preambleLen, .num 1), (.syncLen, .num 4),
        (.lengthMode, .lengthMode .variable), (.format, .basicFormat)],
       .whole .sync (.record [0x88, 0x88, 0x88, 0x89] [])] := by decide +kernel

/-- The tests' parameters with a grouping of `PCKTCTRL`, which in the tests' layout is kind 19, at 152. -/
def grouped (xs : List Transfer) : Params :=
  { testParams with kinds := testKinds.set 19 { testKinds.getD 19 default with transfers := xs } }

/-- The four registers written one by one. -/
def fourWrites : List Transfer := (List.range 4).map fun i => ⟨false, i, 1⟩

/-- The test state for such parameters; `PCKTCTRL` holds `01 02`, the given byte and `00`. -/
def groupedState (xs : List Transfer) (third : Byte) (turns : List Turn) : State :=
  { testState (grouped xs) turns with
    chip := { testChip [] 0 with mem := testMem ++ [(152, 1), (153, 2), (154, third), (155, 0)] } }

theorem test_grouped_params_legal : (grouped fourWrites).Legal := by decide +kernel

/-- U1: each byte is written once; a grouping that leaves one out or writes one twice is none. -/
theorem test_groupings :
    transfersFit 4 [⟨true, 0, 4⟩, ⟨false, 2, 2⟩, ⟨true, 0, 1⟩, ⟨false, 0, 2⟩] = true ∧
    transfersFit 4 [⟨false, 0, 3⟩] = false ∧ transfersFit 4 [⟨false, 0, 3⟩, ⟨false, 2, 2⟩] = false := by decide

/-- R226, U1: four transactions; bit 0 is the address field, bits 1 to 3 the control length, 4 to 6 the preamble length, 7 to 9
the sync length (across two registers), 10 the length mode, 11 to 13 the format; every other bit is kept. -/
theorem test_packet_basic_in_four_writes :
    let t : State := after (exec (.pktConfigure (.basic basicOptions)) (groupedState fourWrites 0xC0 (quiet 6)))
    t.err = .none ∧ t.turns = [] ∧ [152, 153, 154, 155].map (memGet t.chip.mem) = [some 1, some 2, some 0xC6, some 0x13] ∧
    ((t.trace.drop 1).take 4).map (frameOf (grouped fourWrites)) =
      [[0x00, 0x98, 0x01], [0x00, 0x99, 0x02], [0x00, 0x9A, 0xC6], [0x00, 0x9B, 0x13]] := by decide +kernel

/-- R274: code 5 stands in the format, which lies in the third register: the read of that one fails. -/
theorem test_packet_basic_grouped_read_fails :
    let xs : List Transfer := [⟨true, 3, 1⟩, ⟨false, 3, 1⟩, ⟨true, 2, 1⟩, ⟨false, 0, 3⟩]
    let t : State := after (exec (.pktConfigure (.basic basicOptions)) (groupedState xs 0x28 (quiet 6)))
    t.err = .registerDecodeFailure .pcktctrl none ∧ t.turns.length = 2 ∧ memGet t.chip.mem 155 = some 0x13 ∧
    (t.trace.drop 1).map (frameOf (grouped xs)) = [[0x01, 0x9B], [0x00, 0x9B, 0x13], [0x01, 0x9A]] := by decide +kernel

theorem test_packet_stack_not_implemented :
    let t : State := after (exec (.pktConfigure (.stack [1])) (testState testParams (quiet 3)))
    t.err = .notImplemented ∧ t.trace = [] := by decide +kernel

/-- Program P5 of spec/95: the second write fails and the flags stay written. -/
theorem test_filter_second_write_fails :
    let s : State := testState testParams [{}, failTurn 3]
    let t : State := after (exec (.pktConfigureFilter ⟨true, false, true, 0x34, 0xEE, 0xFF⟩) s)
    t.err = .busFailure 3 ∧ sent s t =
      [.fields .pcktFltOptions [(.destVsMy, .flag true), (.destVsMulticast, .flag false), (.destVsBroadcast, .flag true)]] := by
  decide +kernel

/-! ### Bus transactions: spec/95 section 3.12 -/

/-- R65, U12: a WRITE of a value that is none of its kind ends before any frame. -/
theorem test_write_of_foreign_value :
    let t : State := after (step { testState testParams (quiet 1) with
      port := [⟨.frame 0x00 0x08, { lines with kind := some .irqMask, value := .record [] [] }⟩] })
    t.err = .invalidParameter ∧ t.trace = [] ∧ t.turns.length = 1 ∧ t.pc = .idle := by decide +kernel

theorem test_write_mask_bytes :
    let t : State := after (exec (.write .irqMask (.word 0x12345678)) (testState testParams (quiet 1)))
    [8, 9, 10, 11].map (memGet t.chip.mem) = [some 0x12, some 0x34, some 0x56, some 0x78] := by decide +kernel

theorem test_read_state :
    let t : State := after (exec (.read .mcState) (testState testParams [stateTurn 3]))
    t.results.value = .record [0, 0, 0, 3] [(.state, .state .rx)] ∧ t.err = .none := by decide +kernel

theorem test_write_raw_fifo :
    let t : State := after (exec (.writeRaw 0xFF [0xAA, 0xBB]) (testState testParams (quiet 1)))
    t.chip.txFifo = [0xAA, 0xBB] ∧ t.chip.mem = testMem ∧
    t.trace.map (frameOf testParams) = [[0x00, 0xFF, 0xAA, 0xBB]] := by decide +kernel

/-- The second byte lands where the answer from outside says, or nowhere. -/
theorem test_write_raw_second_byte :
    let t (landing : List (Option (Fin 255))) : State :=
      after (exec (.writeRaw 0x99 [0x80, 0xE3]) (testState testParams [{ landing := landing }]))
    [0x99, 0x9A].map (memGet (t [some 0x9A]).chip.mem) = [some 0x80, some 0xE3] ∧
    [0x99, 0x9A].map (memGet (t []).chip.mem) = [some 0x80, none] := by decide +kernel

theorem test_read_raw_fifo :
    let s : State := { testState testParams (quiet 1) with chip := testChip [1, 2, 3, 4] 0 }
    let t : State := after (exec (.readRaw 0xFF 3) s)
    t.results.bytes = [1, 2, 3] ∧ t.chip.rxFifo = [4] := by decide +kernel

/-- R282: one byte read raw from `IRQ_STATUS` (at 16) clears the whole word. -/
theorem test_read_raw_clears_pending :
    let t : State := after (exec (.readRaw 0x10 1) (irqState 0x20000003 (quiet 1)))
    t.results.bytes = [0x20] ∧ t.chip.pending = 0 := by decide +kernel

theorem test_delay_zero_is_recorded :
    (after (exec (.delay 0) (testState testParams []))).trace = [.dly 0] := by decide +kernel

/-- Every command, one after the other: its frame, the reported state, nothing else in the block. -/
theorem test_commands_report_state :
    [Instr.tx, .rx, .ready, .standby, .sleep, .lockRx, .lockTx, .sabort, .ldcReload, .sequenceUpdate, .aesEncrypt, .aesKey,
      .aesDecrypt, .aesKeyDecrypt, .sRes, .flushRxFifo, .flushTxFifo].map (fun i =>
        let t : State := after (exec i (testState testParams [{ reported := 3 }]))
        (t.trace.map (frameOf testParams), t.results.devState)) =
      [0x60, 0x61, 0x62, 0x63, 0x64, 0x65, 0x66, 0x67, 0x68, 0x69, 0x6A, 0x6B, 0x6C, 0x6D, 0x70, 0x71, 0x72].map
        (fun c => ([[0x80, c]], DevState.rx)) := by decide +kernel

theorem test_command_unknown_code_is_invalid :
    let t : State := after (exec .ready (testState testParams [{ reported := 200 }]))
    t.results.devState = .invalid ∧ t.err = .none := by decide +kernel

/-- Whether an outcome goes on. -/
def goesOn : Host.Outcome State Fault Refusal → Bool
  | .next _ => true
  | .fault _ | .refused _ => false

theorem exists_next : {o : Host.Outcome State Fault Refusal} → goesOn o = true → ∃ t, o = .next t
  | .next t, _ => ⟨t, rfl⟩

theorem next_after : {o : Host.Outcome State Fault Refusal} → goesOn o = true → o = .next (after o)
  | .next _, _ => rfl

/-! ### Witnesses: values that meet the hypotheses of each statement, clause by clause -/

/-- The test state with no answers to come. -/
def s0 : State := testState testParams []

/-- The test state in the middle of a wait. -/
def busy0 : State := after (exec (.waitForState .standby) s0)
/-- IRQ_SILENCE requested with no answer there, and gone on with once one came. -/
def resumed0 : State := after (step { after (exec .irqSilence s0) with turns := (after (exec .irqSilence s0)).turns ++ quiet 1 })

theorem runs_resumed0 : Runs .irqSilence s0 ([] ++ quiet 1) resumed0 :=
  .resumed [] (quiet 1) _ _ rfl (.requested _ (next_after (by decide +kernel))) (by decide +kernel)
    (next_after (by decide +kernel))

/-- The test state in the poll loop of TX_BLOCKING. -/
def polling (turns : List Turn) : State :=
  { testState testParams turns with pc := .busy .txBlocking [⟨.t9, .pollTx⟩, ⟨.t10, .finish (.count 5)⟩] }

theorem witness_StepKeepsInvariant : StateInv s0 ∧ ∃ t, step s0 = .next t :=
  ⟨⟨test_params_legal, by decide +kernel, by decide +kernel, by decide +kernel, by decide +kernel, by decide +kernel⟩, exists_next (by decide +kernel)⟩

theorem witness_StepRunsDecodedInstruction :
    Idle s0 ∧ s0.port = [] ∧ ({ s0 with port := [⟨.req 0x04, lines⟩] } : State).port = ⟨.req 0x04, lines⟩ :: [] ∧
    decode s0.params ⟨.req 0x04, lines⟩ = .ok (.encRssiTh (-120)) := ⟨rfl, rfl, rfl, rfl⟩

theorem witness_BusyBlockAcceptsNothing :
    busy0.pc = .busy .waitForState [⟨.w1, .pollState .standby⟩] := by decide +kernel

theorem witness_StepEndsIdleOrWaiting : (∃ t, step s0 = .next t) ∧ ∃ t, step busy0 = .next t :=
  ⟨exists_next (by decide +kernel), exists_next (by decide +kernel)⟩

theorem witness_UnlistedSelectorIsInvalidParameter :
    Idle { s0 with port := [⟨.req 0xFF, lines⟩] } ∧
    ([0x0A, 0x13, 0x23, 0x36, 0x42, 0xFF] : List (BitVec 8)).all
      fun op => op ∉ [(0x00 : BitVec 8), 0x01, 0x02, 0x03, 0x04, 0x05, 0x06, 0x07, 0x08, 0x09, 0x10, 0x11, 0x12, 0x20, 0x21, 0x22,
        0x30, 0x31, 0x32, 0x33, 0x34, 0x35, 0x40, 0x41] := by decide +kernel

/-- A well-formed instruction, one that is not, and a frame that is none. -/
theorem witness_DecodedIsWhatWasEncoded :
    decode testParams ⟨.req 0x20, lines⟩ = .ok (.txBlocking [1, 2, 3]) ∧
    decode testParams ⟨.frame 0x00 0x08, { lines with kind := some .irqMask, value := .record [] [] }⟩ =
      .ok (.write .irqMask (.record [] [])) ∧
    decode testParams ⟨.frame 0x02 0x00, lines⟩ = .error (.unlistedFrameSelector 0x02) := ⟨rfl, rfl, rfl⟩

theorem witness_DeviceFactsNeverChange :
    (∃ t, step busy0 = .next t) ∧ ∃ t, exec (.init lines.opts) s0 = .next t :=
  ⟨exists_next (by decide +kernel), exists_next (by decide +kernel)⟩

/-- At once, and after a pause; INIT's second raw byte lands where the answer says. -/
theorem witness_MemoryChangesOnlyWhereStored :
    Runs .irqSilence (testState testParams (quiet 2)) [] (after (exec .irqSilence (testState testParams (quiet 2)))) ∧
    Runs .irqSilence s0 ([] ++ quiet 1) resumed0 ∧
    (∀ x ∈ quiet 2, ∀ d ∈ x.drift, keepsRegisters d = true) ∧
    7 ∉ storesTo testParams .irqSilence ∧ 12 ∉ storesTo testParams .irqSilence ∧
    landings (.init lines.opts) [{ landing := [some 0x9A] }] = [0x9A] ∧ landings .irqSilence [{ landing := [some 7] }] = [] :=
  ⟨.requested _ (next_after (by decide +kernel)), runs_resumed0, by decide +kernel, by decide +kernel, by decide +kernel,
    by decide +kernel, rfl⟩

theorem witness_BlockStateChangesOnlyWhereOwned :
    Runs .irqSilence s0 ([] ++ quiet 1) resumed0 ∧ Idle s0 ∧ writesEngine .irqSilence = false ∧
    writesMaskAcc .irqSilence = false ∧ Instr.irqSilence ≠ .rxBlocking ∧ usesCounters .irqSilence = false :=
  ⟨runs_resumed0, rfl, rfl, rfl, by decide +kernel, rfl⟩

theorem witness_BusFreeInstructionsEndAtOnce :
    isBusFree (.pktConfigure (.wmbus [])) = true ∧ isBusFree (.delay 0) = true ∧ Idle s0 ∧
    (∃ t, exec (.pktConfigure (.wmbus [])) s0 = .next t) ∧ ∀ ms : Word, Instr.pktConfigure (.wmbus []) ≠ .delay ms :=
  ⟨rfl, rfl, rfl, exists_next (by decide +kernel), by intro ms h; cases h⟩

theorem witness_CalculatorsIgnoreDeviceFacts :
    isCalculator (.bandResolve 0) = true ∧ (∃ t, exec (.bandResolve 0) s0 = .next t) ∧
    ∃ u, exec (.bandResolve 0) { s0 with xtalHz := 0, baseHz := 0, band := .high } = .next u :=
  ⟨rfl, exists_next (by decide +kernel), exists_next (by decide +kernel)⟩

/-- A read of an enumerated kind that finds a code outside its enumeration. -/
def badTurn : Turn := { answers := [(.datarate, [0, 0, 5, 0])] }
def badRead : State := testState testParams [badTurn]

theorem witness_ErrorKindsByInstruction :
    Idle badRead ∧ Runs (.read .datarate) badRead [] (after (exec (.read .datarate) badRead)) ∧
    Idle (after (exec (.read .datarate) badRead)) ∧
    (after (exec (.read .datarate) badRead)).err = .registerDecodeFailure .datarate (some 5) ∧
    Runs .irqSilence s0 ([] ++ quiet 1) resumed0 ∧ Idle resumed0 :=
  ⟨rfl, .requested _ (next_after (by decide +kernel)), by decide +kernel, by decide +kernel, runs_resumed0, by decide +kernel⟩

theorem witness_FailedPrimitiveEndsOperation :
    let s : State := testState testParams [{}, failTurn 7, {}]
    Idle s ∧ Runs .waExtraCurrent s [] (after (exec .waExtraCurrent s)) ∧
    newEvents s (after (exec .waExtraCurrent s)) = [.wrRaw 0xB2 [1] true] ++ .wrRaw 0xA8 [2] false :: [] ∧
    failed (.wrRaw 0xA8 [2] false) = true :=
  ⟨rfl, .requested _ (next_after (by decide +kernel)), by decide +kernel, rfl⟩

/-- Both ends of each range, and values beside them in none. -/
theorem witness_BandResolveByRanges :
    s0.params.Legal ∧ Idle s0 ∧
    ([779000000, 956000000] : List Word).all (fun b => 779000000 ≤ b.toNat ∧ b.toNat ≤ 956000000) ∧
    ([387000000, 470000000] : List Word).all (fun b => 387000000 ≤ b.toNat ∧ b.toNat ≤ 470000000) ∧
    ([300000000, 348000000] : List Word).all (fun b => 300000000 ≤ b.toNat ∧ b.toNat ≤ 348000000) ∧
    ([169000000, 170000000] : List Word).all (fun b => s0.params.vlMin ≤ b.toNat ∧ b.toNat ≤ s0.params.vlMax) ∧
    ([0, 168999999, 170000001, 299999999, 348000001, 386999999, 470000001, 778999999, 956000001] : List Word).all
      fun b => ¬ (779000000 ≤ b.toNat ∧ b.toNat ≤ 956000000) ∧ ¬ (387000000 ≤ b.toNat ∧ b.toNat ≤ 470000000) ∧
        ¬ (300000000 ≤ b.toNat ∧ b.toNat ≤ 348000000) ∧ ¬ (s0.params.vlMin ≤ b.toNat ∧ b.toNat ≤ s0.params.vlMax) :=
  ⟨test_params_legal, by decide +kernel⟩

/-- The equation is any function, so on which side of its largest rate a target stands is open. -/
theorem witness_DatarateIsAMinimiser :
    s0.params.Legal ∧ Idle s0 ∧ 0 < (50000000 : Word).toNat ∧ 3 < 2 ^ s0.params.drMBits ∧ 3 < 2 ^ s0.params.drEBits :=
  ⟨test_params_legal, by decide +kernel⟩

/-- An exponent qualifies for the largest target in range and for 0. -/
theorem witness_FdevFollowsPseudocode :
    Idle s0 ∧ 0 < (50000000 : Word).toNat ∧
    (∃ e : Nat, e ≤ 9 ∧ ((732421 : Word).toNat : ℚ) < (50000000 : Word).toNat / 2 ^ 18 * (15 / 2) * 2 ^ e) ∧
    ∃ e : Nat, e ≤ 9 ∧ ((0 : Word).toNat : ℚ) < (50000000 : Word).toNat / 2 ^ 18 * (15 / 2) * 2 ^ e :=
  ⟨rfl, by decide, ⟨9, by decide, by decide +kernel⟩, 0, by decide, by decide +kernel⟩

theorem witness_FdevRefusesAboveLargest :
    Idle s0 ∧ 0 < (262144 : Word).toNat ∧
    ((262144 : Word).toNat : ℚ) * 3840 / 2 ^ 18 ≤ ((3840 : Word).toNat : ℚ) ∧
    ((3839 : Word).toNat : ℚ) < ((262144 : Word).toNat : ℚ) * 3840 / 2 ^ 18 :=
  ⟨rfl, by decide, by decide +kernel, by decide +kernel⟩

/-- The tests' table, and one with two equal neighbours. -/
theorem witness_ChfltPicksANearestEntry :
    ([s0.params.bwTable, 8001 :: List.replicate 88 13 ++ [11]] : List (List ℚ)).all
      (fun l => l.length = 90 ∧ l.Pairwise fun a b => b ≤ a) ∧ 0 < s0.params.bwUnitHz ∧ Idle s0 ∧ 0 < (26000000 : Word).toNat := by
  decide +kernel

theorem witness_ChfltIsMonotone :
    (s0.params.bwTable.length = 90 ∧ s0.params.bwTable.Pairwise (fun a b => b ≤ a) ∧ 0 < s0.params.bwUnitHz) ∧
    Idle s0 ∧ 0 < (26000000 : Word).toNat ∧ (5 : Word) ≤ 2600 ∧
    (∃ u, exec (.encChflt 5 false 26000000) s0 = .next u) ∧ ∃ u, exec (.encChflt 2600 false 26000000) s0 = .next u :=
  ⟨by decide +kernel, rfl, by decide, by decide, exists_next (by decide +kernel), exists_next (by decide +kernel)⟩

theorem witness_RssiThresholdClampsThenWraps : Idle s0 := rfl

/-- The last timeout below saturation and the first in it, at a 50 MHz crystal. -/
theorem witness_RxTimeoutFollowsPseudocode :
    Idle s0 ∧ 0 < (50000000 : Word).toNat ∧
    253 < ⌊((3135 : Nat) : ℚ) / (((0 : Nat) : ℚ) + 1) * ((50000000 / 2 : Nat) : ℚ) / 1210000⌋ / 255 ∧
    ⌊((3130 : Nat) : ℚ) / (((0 : Nat) : ℚ) + 1) * ((50000000 / 2 : Nat) : ℚ) / 1210000⌋ / 255 ≤ 253 := by
  refine ⟨rfl, by decide, by decide +kernel, by decide +kernel⟩

/-- In saturation, and at the last timeout below it. -/
theorem witness_RxTimeoutNeverZero :
    Idle s0 ∧ 0 < (50000000 : Word).toNat ∧ (resultsOf (.encRxTimeout ⟨3135, 0⟩ 50000000)).prescaler.toNat = 255 ∧
    (resultsOf (.encRxTimeout ⟨3130, 0⟩ 50000000)).prescaler.toNat = 254 := by
  decide +kernel

theorem witness_PaPowerIsTheClampedLine :
    Idle s0 ∧ (7 : Byte).toNat ≤ s0.params.paSlotMax ∧ (-31 : ℚ) ≤ -31 ∧ (-31 : ℚ) ≤ 12 ∧ (-31 : ℚ) ≤ 12 ∧ (12 : ℚ) ≤ 12 ∧
    ([900000000, 899999999, 433400000, 315000000, 169000000] : List Word).all
      fun b => bandOf s0.params b.toNat ≠ .invalid := by decide +kernel

theorem witness_PaPowerRefusesOutOfRange :
    Idle s0 ∧ s0.params.paSlotMax < (8 : Byte).toNat ∧ (-63 / 2 : ℚ) < -31 ∧ (12 : ℚ) < 25 / 2 ∧
    bandOf s0.params (200000000 : Word).toNat = .invalid := by decide +kernel

/-- The equation is any function, so which range its value meets is open, but for offset 0; either limit is a legal
parameter. -/
theorem witness_FoffsetTruncatesAndLimits :
    Idle s0 ∧ 0 < (50000000 : Word).toNat ∧ s0.params.fcLimit = .clamp ∧
    ({ testParams with fcLimit := .wrap } : Params).Legal ∧
    (resultsOf (.encFoffset 0 433400000 50000000)).fcOffset = 0x000 :=
  ⟨rfl, by decide, rfl, test_params_legal, by decide +kernel⟩

theorem witness_SpacingAndIfOffsetsTruncateAndLimit : Idle s0 ∧ 0 < (50000000 : Word).toNat := by decide +kernel

theorem witness_ZeroCrystalStillEnds :
    Idle s0 ∧ Instr.encIfOffset 0 ∈ [Instr.encDatarate s0.operands.targetBps s0.operands.clockDivided 0,
      .encChflt s0.operands.targetHz s0.operands.clockDivided 0, .encRxTimeout s0.operands.timeoutMs 0,
      .encFoffset s0.operands.xtalOffsetPpm s0.operands.baseHz 0, .encChspace s0.operands.spacingHz 0, .encIfOffset 0] :=
  ⟨rfl, by simp⟩

theorem witness_MaskNewClearsAccumulator : Idle s0 := rfl

theorem witness_MaskSetAddsOneBit :
    (irqState 0x20000000 []).params.Legal ∧ Idle (irqState 0x20000000 []) ∧
    (irqState 0x20000000 []).maskAcc.getLsbD ((irqState 0x20000000 []).params.eventBit .rxTimeout) = true ∧ 31 < 32 :=
  ⟨test_params_legal, by decide +kernel⟩

theorem witness_SilenceWritesZeroMask :
    Idle (irqState 7 [{}]) ∧ (irqState 7 [{}]).turns = {} :: [] ∧ ({} : Turn).failure = none ∧
    (irqState 7 [failTurn 1]).turns = failTurn 1 :: [] ∧ (failTurn 1).failure = some ⟨1, false⟩ := by decide +kernel

theorem witness_CommitWritesAccumulatorBigEndian :
    Idle (irqState 7 [{}]) ∧ (irqState 7 [{}]).turns = {} :: [] ∧ ({} : Turn).failure = none := by decide +kernel

theorem witness_ClearConsumesPendingBits :
    Idle (irqState 7 [{}]) ∧ (irqState 7 [{}]).turns = {} :: [] ∧ ({} : Turn).failure = none ∧ ({} : Turn).answers = [] := by
  decide +kernel

theorem witness_IsSetTestsOneBit : Idle s0 := rfl

/-- Two misses, one of them an unknown code, then the target, inside a limit of three. -/
theorem witness_WaitEndsAtFirstMatchingPoll :
    let misses : List Turn := [stateTurn 2, stateTurn 9]
    let s : State := testState testParams (misses ++ stateTurn 1 :: quiet 1)
    Idle s ∧ DevState.ready ≠ .invalid ∧ s.turns = misses ++ stateTurn 1 :: quiet 1 ∧
    (∀ x ∈ misses ++ [stateTurn 1], x.failure = none) ∧
    statesSeen s.params s.chip (misses ++ [stateTurn 1]) = [.standby, .invalid] ++ [.ready] ∧
    DevState.ready ∉ [DevState.standby, .invalid] ∧ s.params.pollLimit = some 3 ∧ misses.length < 3 := by decide +kernel

theorem witness_WaitTimesOutAtPollLimit :
    let polls : List Turn := [stateTurn 2, {}, {}]
    let s : State := testState testParams (polls ++ quiet 1)
    Idle s ∧ DevState.ready ≠ .invalid ∧ s.params.pollLimit = some polls.length ∧ s.turns = polls ++ quiet 1 ∧
    (∀ x ∈ polls, x.failure = none) ∧ statesSeen s.params s.chip polls = [.standby, .standby] ++ [.standby] ∧
    DevState.ready ∉ [DevState.standby, .standby] ++ [.standby] := by decide +kernel

theorem witness_ExtraCurrentWritesInOrder :
    Idle (testState testParams [{}, {}, {}]) ∧ (testState testParams [{}, {}, {}]).turns = {} :: {} :: {} :: [] ∧
    ({} : Turn).failure = none ∧ (testState testParams [{}, failTurn 7, {}]).turns = {} :: failTurn 7 :: {} :: [] ∧
    (failTurn 7).failure = some ⟨7, false⟩ := by decide +kernel

/-- A chip that is not READY at the first poll and READY at the second. -/
theorem witness_InitCompletesInOrder :
    let s : State := testState testParams (good 5 ++ [stateTurn 2] ++ stateTurn 1 :: good 13)
    let s : State := { s with turns := s.turns.map fun x => { x with answers := goodTurn.answers } }
    let before : List Turn := s.turns.take 5
    let misses : List Turn := (s.turns.drop 5).take 1
    s.params.Legal ∧ Idle s ∧ 0 < s.xtalHz.toNat ∧
    ((20000 : Word).toNat : ℚ) < (s.xtalHz.toNat : ℚ) * 3840 / 2 ^ 18 ∧
    s.turns = before ++ misses ++ { stateTurn 1 with answers := goodTurn.answers } :: good 13 ∧
    (∀ x ∈ s.turns, Good s.params initKinds x) ∧ before.length = turnsToWait s.params ∧
    turnsOfDerived s.params + turnsOfRest s.params ≤ (good 13).length ∧
    statesSeen s.params (chipAfter before s.chip) (misses ++ [{ stateTurn 1 with answers := goodTurn.answers }]) =
      [.standby] ++ [.ready] ∧
    DevState.ready ∉ [DevState.standby] ∧ s.params.pollLimit = some 3 ∧ misses.length < 3 :=
  ⟨test_params_legal, by decide +kernel⟩

/-- READY at the second poll and a deviation out of reach; never READY in the three polls the limit allows. -/
theorem witness_InitStopsWhereItFails :
    let as : List (Kind × List Byte) := goodTurn.answers
    let s (polls : List Turn) : State := testState testParams (good 5 ++ polls ++ good 5)
    let hit : List Turn := [{ stateTurn 2 with answers := as }, { stateTurn 1 with answers := as }]
    let miss : List Turn := [{ stateTurn 2 with answers := as }, goodTurn, goodTurn]
    (s hit).params.Legal ∧ Idle (s hit) ∧ 0 < (s hit).xtalHz.toNat ∧ (s hit).turns = good 5 ++ hit ++ good 5 ∧
    (s miss).turns = good 5 ++ miss ++ good 5 ∧ (∀ x ∈ (s hit).turns ++ (s miss).turns, Good (s hit).params initKinds x) ∧
    (good 5).length = turnsToWait (s hit).params ∧
    statesSeen (s hit).params (chipAfter (good 5) (s hit).chip) hit = [.standby] ++ [.ready] ∧
    DevState.ready ∉ [DevState.standby, .standby] ∧
    ((s hit).xtalHz.toNat : ℚ) * 3840 / 2 ^ 18 ≤ ((732422 : Word).toNat : ℚ) ∧ (s hit).params.pollLimit = some 3 ∧
    [DevState.standby].length < 3 ∧ turnsOfDerived (s hit).params ≤ (good 5).length ∧
    statesSeen (s miss).params (chipAfter (good 5) (s miss).chip) miss = [.standby, .standby] ++ [.standby] ∧
    (s miss).params.pollLimit = some miss.length :=
  ⟨test_params_legal, by decide +kernel⟩

/-- A poll that misses (a stale event with it), then the event; and a FIFO that the flush emptied. -/
theorem witness_TxSendsTruncatedPayload :
    let before : List Turn := { drift := [.txFifo []] } :: quiet 7
    let polls : List Turn := [pendingTurn 1, pendingTurn 4]
    let s : State := testState testParams (before ++ polls ++ quiet 1)
    Idle s ∧ s.turns = before ++ polls ++ quiet 1 ∧ (∀ x ∈ before ++ polls, Good s.params [.pcktlen, .paConfig] x) ∧
    before.length = 5 + regSetTurns s.params .pcktlen + regSetTurns s.params .paConfig ∧
    wordsSeen s.params (chipAfter before s.chip) polls = [1] ++ [4] ∧ eventSet s.params 1 .txDataSent = false ∧
    eventSet s.params 4 .txDataSent = true ∧ s.params.pollLimit = some 3 ∧ [(1 : Word)].length < 3 ∧
    s.params.txVcoBuf.addr ≠ 0xFF ∧ s.params.txPmTrim.addr ≠ 0xFF ∧
    ∀ x ∈ (before ++ polls).drop 2, ∀ d ∈ x.drift, keepsTxFifo d = true := by decide +kernel

theorem witness_TxPollLoopTestsEachWordOnce :
    let hit : List Turn := [{}, pendingTurn 1, pendingTurn 4]
    let miss : List Turn := quiet 3
    let p : Params := testParams
    (polling (hit ++ quiet 1)).pc = .busy .txBlocking [⟨.t9, .pollTx⟩, ⟨.t10, .finish (.count 5)⟩] ∧
    (∀ x ∈ hit, x.failure = none) ∧ wordsSeen p (polling []).chip hit = [0, 1] ++ [4] ∧
    eventSet p 0 .txDataSent = false ∧ eventSet p 1 .txDataSent = false ∧ eventSet p 4 .txDataSent = true ∧
    (polling []).polls + 2 < 3 ∧ (polling []).params.pollLimit = some 3 ∧
    (∀ x ∈ miss, x.failure = none) ∧ wordsSeen p (polling []).chip miss = [0, 0] ++ [0] ∧
    eventSet p 0 .txDataSent = false ∧ (polling []).params.pollLimit = some ((polling []).polls + miss.length) := by
  decide +kernel

theorem witness_StrobeArmsTheReceiver :
    let s : State := testState testParams (good 5)
    Idle s ∧ s.turns = good 4 ++ good 1 ∧ (∀ x ∈ good 4, Good s.params [.paConfig] x) ∧ (good 4).length = strobeTurns s.params := by
  decide +kernel

/-- A poll with none of the events, then all three; counts of 96 and of 97. -/
theorem witness_RxDrainsReportedCount :
    let count (n : Byte) : Turn := { goodTurn with answers := (.rxFifoStatus, [0, 0, 0, n]) :: goodTurn.answers }
    let polls : List Turn := [goodTurn, { goodTurn with drift := [.pending 0x20000003] }]
    let s (n : Byte) : State := testState testParams (good 4 ++ polls ++ count n :: good 1)
    let c (n : Byte) : Chip := chipAt (count n) (chipAfterPolls polls (chipAfter (good 4) (s n).chip))
    (s 96).params.Legal ∧ Idle (s 96) ∧ (s 96).rxbuf.length = 96 ∧ (s 96).turns = good 4 ++ polls ++ count 96 :: good 1 ∧
    (∀ x ∈ (s 96).turns ++ (s 97).turns, Good (s 96).params [.paConfig] x) ∧ (good 4).length = strobeTurns (s 96).params ∧
    wordsSeen (s 96).params (chipAfter (good 4) (s 96).chip) polls = [0] ++ [0x20000003] ∧
    eventSet (s 96).params 0 .rxDataReady = false ∧ rearms (s 96).params 0 = false ∧
    eventSet (s 96).params 0x20000003 .rxDataReady = true ∧ (s 96).params.pollLimit = some 3 ∧ [(0 : Word)].length < 3 ∧
    countRead (s 96).params (count 96) (c 96) = 96 ∧ countRead (s 97).params (count 97) (c 97) = 97 :=
  ⟨test_params_legal, by decide +kernel⟩

/-- Answers from one chip: `w` is what it sets pending before a poll. -/
def wordTurn (w : Word) : Turn := { goodTurn with drift := [.pending w] }

/-- A poll with none of the events and one with a discard; then the ready event, with the discard again beside it. -/
theorem witness_RxRearmsOncePerDiscard :
    let rounds : List (Turn × List Turn) := [(wordTurn 0, []), (wordTurn 2, good 4)]
    let s : State := testState testParams (good 4 ++ rxTurns rounds ++ wordTurn 3 :: goodTurn :: goodTurn :: good 1)
    let ready : Chip := chipAt (wordTurn 3) (rxEnd rounds (chipAfter (good 4) s.chip))
    s.params.Legal ∧ Idle s ∧ s.turns = good 4 ++ rxTurns rounds ++ wordTurn 3 :: goodTurn :: goodTurn :: good 1 ∧
    (∀ x ∈ s.turns, Good s.params [.paConfig] x) ∧ (good 4).length = strobeTurns s.params ∧
    rxMisses s.params (chipAfter (good 4) s.chip) rounds ∧
    eventSet s.params (wordRead s.params (wordTurn 3) ready) .rxDataReady = true ∧
    countRead s.params goodTurn (chipAt goodTurn ready) ≤ 96 ∧ rearmCount rounds = 1 ∧ s.params.rxRetryLimit = some 1 ∧
    s.params.pollLimit = some 3 ∧ rounds.length < 3 := by
  refine ⟨test_params_legal, rfl, rfl, by decide +kernel, by decide +kernel, ?_, by decide +kernel, by decide +kernel,
    by decide +kernel, rfl, rfl, by decide +kernel⟩
  simp only [rxMisses]
  decide +kernel

/-- One re-arm allowed and made, then a timeout; and three polls, one of them a discard, under a limit of three. -/
theorem witness_RxTimesOutAtItsLimits :
    let rounds : List (Turn × List Turn) := [(wordTurn 2, good 4)]
    let bad : Turn := wordTurn 0x20000000
    let s : State := testState testParams (good 4 ++ rxTurns rounds ++ bad :: good 1)
    let w : Word := wordRead s.params bad (chipAt bad (rxEnd rounds (chipAfter (good 4) s.chip)))
    let polls : List (Turn × List Turn) := [(wordTurn 0, []), (wordTurn 2, good 4), (wordTurn 0, [])]
    let u : State := testState testParams (good 4 ++ rxTurns polls ++ good 1)
    Idle s ∧ (good 4).length = strobeTurns s.params ∧ rxMisses s.params (chipAfter (good 4) s.chip) rounds ∧
    s.turns = good 4 ++ rxTurns rounds ++ bad :: good 1 ∧ (∀ x ∈ good 4 ++ rxTurns rounds ++ [bad], Good s.params [.paConfig] x) ∧
    eventSet s.params w .rxDataReady = false ∧ rearms s.params w = true ∧
    s.params.rxRetryLimit = some (rearmCount rounds) ∧ s.params.pollLimit = some 3 ∧ rounds.length < 3 ∧
    rxMisses u.params (chipAfter (good 4) u.chip) polls ∧ u.turns = good 4 ++ rxTurns polls ++ good 1 ∧
    (∀ x ∈ good 4 ++ rxTurns polls, Good u.params [.paConfig] x) ∧ polls ≠ [] ∧ u.params.pollLimit = some polls.length ∧
    u.params.rxRetryLimit = some 1 ∧ rearmCount polls ≤ 1 := by
  refine ⟨rfl, by decide +kernel, ?_, rfl, by decide +kernel, by decide +kernel, by decide +kernel, by decide +kernel, rfl,
    by decide, ?_, rfl, by decide +kernel, by simp, rfl, rfl, by decide +kernel⟩ <;> simp only [rxMisses] <;>
    decide +kernel

/-- The test state with three answers to come and the codec rejecting numbers too wide for their fields, or clamping them;
the lengths of a packet have three bits. -/
def narrow (rejects : Bool) : State :=
  testState { testParams with
    kinds := testKinds.map fun i => { i with fields := i.fields.map fun x => (x.1, { x.2 with rejects := rejects }) } } (good 3)

/-- A `PCKTCTRL` that goes out at once, and one in four writes. -/
theorem witness_PacketBasicWritesInOrder :
    let s : State := narrow true
    Idle s ∧ s.turns = good 3 ++ [] ∧ (∀ x ∈ good 3, Good s.params [.pcktFltOptions, .pcktctrl] x) ∧
    (good 3).length = regSetTurns s.params .pcktFltOptions + regSetTurns s.params .pcktctrl + 1 ∧
    (good 6).length = regSetTurns (grouped fourWrites) .pcktFltOptions + regSetTurns (grouped fourWrites) .pcktctrl + 1 ∧
    (∀ x ∈ good 6, Good (grouped fourWrites) [.pcktFltOptions, .pcktctrl] x) ∧
    ∀ f ∈ [(Field.controlLen, 7), (.preambleLen, max 0 1), (.syncLen, 4)], f.2 < 2 ^ s.params.fieldWidth .pcktctrl f.1 := by
  decide +kernel

/-- Each of the three lengths too wide by one, for a codec that rejects and one that clamps; and each at its widest. -/
theorem witness_PacketTooWideOptionClampsOrFails :
    ∀ r : Bool, Idle (narrow r) ∧ (narrow r).turns = good 3 ++ [] ∧ (∀ x ∈ good 3, Good (narrow r).params [.pcktFltOptions, .pcktctrl] x) ∧
      (good 3).length =
        regSetTurns (narrow r).params .pcktFltOptions + regSetTurns (narrow r).params .pcktctrl + 1 ∧
      ([.controlLen, .preambleLen, .syncLen] : List Field).all fun f =>
        2 ^ (narrow r).params.fieldWidth .pcktctrl f - 1 = 7 ∧ ((narrow r).params.fieldInfo .pcktctrl f).rejects = r := by
  decide +kernel

theorem witness_FilterWritesFlagsThenAddresses :
    let s : State := testState testParams (good 3)
    Idle s ∧ s.turns = good 2 ++ good 1 ∧ (∀ x ∈ good 2, Good s.params [.pcktFltOptions] x) ∧
    (good 2).length = regSetTurns s.params .pcktFltOptions + 1 := by decide +kernel

theorem witness_FirstTransportFailureIsReported :
    isBusFree (.write .irqMask (.word 1)) = false ∧ Instr.write .irqMask (.word 1) ≠ .waitForState .invalid ∧
    constructValue testParams .irqMask (.word 1) ≠ none ∧ constructFields testParams .pcktctrl (basicFields basicOptions) ≠ none ∧
    Idle (testState testParams [failTurn 1]) ∧
    (testState testParams [failTurn 1]).turns = failTurn 1 :: [] ∧ (failTurn 1).failure = some ⟨1, false⟩ := by
  decide +kernel

/-- No answer from outside for each status register; an answer that decodes, one that does not. -/
theorem witness_ReadReturnsDecodedValue :
    let s : State := { testState testParams [{}] with chip := testChip (List.replicate 96 0) 7 }
    let u : State := testState testParams [goodTurn]
    Idle s ∧ s.turns = {} :: [] ∧ ({} : Turn).failure = none ∧ ({} : Turn).answers = [] ∧ s.params.Legal ∧
    (chipAt {} s.chip).stateCode < 2 ^ s.params.fieldWidth .mcState .state ∧ (chipAt {} s.chip).rxFifo.length ≤ 96 ∧
    valueRead s.params .irqStatus {} (chipAt {} s.chip) = .ok (.word 7) ∧
    Kind.datarate ∉ [Kind.irqMask, .irqStatus] ∧
    valueRead u.params .datarate goodTurn (chipAt goodTurn u.chip) = .ok (.record [0xFF, 0xFF, 0xF8, 0xFF]
      [(.mantissa, .num 15), (.exponent, .num 15), (.modulation, .modulation .fsk2)]) ∧
    valueRead badRead.params .datarate badTurn (chipAt badTurn badRead.chip) =
      .error (.registerDecodeFailure .datarate (some 5)) :=
  ⟨rfl, rfl, rfl, rfl, test_params_legal, by decide +kernel, by decide +kernel, by decide +kernel, by decide +kernel,
    by decide +kernel, by decide +kernel⟩

theorem witness_WriteStoresEncodedValue :
    Idle (testState testParams [{}]) ∧ (testState testParams [{}]).turns = {} :: [] ∧
    (Instr.write .irqMask (.word 1)).wf = true ∧ constructValue testParams .irqMask (.word 1) = some (.word 1) ∧
    ({} : Turn).failure = none ∧ (Instr.write .pcktctrl (.record [] [(.controlLen, .num 8)])).wf = true ∧
    constructValue (narrow true).params .pcktctrl (.record [] [(.controlLen, .num 8)]) = none ∧
    (Instr.write .irqMask (.record [] [])).wf = false := by decide +kernel

/-- A write that fills the FIFO to 96 and one that overfills it; later bytes that land beside the first and nowhere. -/
theorem witness_WriteRawStoresOrAppends :
    let t : Turn := { landing := [some 0x9A, none] }
    let s : State := { testState testParams [t] with chip := { testChip [] 0 with txFifo := List.replicate 95 0 } }
    Idle s ∧ s.turns = t :: [] ∧ t.failure = none ∧ (chipAt t s.chip).txFifo.length + [(1 : Byte)].length ≤ 96 ∧
    (0x99 : Byte) ≠ 0xFF ∧ some (0x99 : Byte).toNat ∉ t.landing.map (Option.map Fin.val) ∧
    0x98 ∉ rawPlaces 0x99 3 ∧ some 0x98 ∉ t.landing.map (Option.map Fin.val) ∧
    ({ landing := [some 0x99] } : Turn).landing = [some 0x99] := by decide +kernel

/-- The FIFO without an answer from outside, and an answer of two bytes. -/
theorem witness_ReadRawReturnsBytes :
    let s : State := { testState testParams [{}] with chip := testChip [1, 2] 0 }
    Idle s ∧ s.turns = {} :: [] ∧ ({} : Turn).failure = none ∧ ({} : Turn).rawAnswer = [] ∧
    2 ≤ (chipAt {} s.chip).rxFifo.length ∧ (0xFE : Byte) ≠ 0xFF ∧ kindCovers s.params .irqStatus (0x13 : Byte).toNat = true ∧
    2 ≤ ({ rawAnswer := [8, 9] } : Turn).rawAnswer.length := by decide +kernel

theorem witness_MaskReadIsMaskWritten :
    Idle (testState testParams [{}, {}]) ∧ (testState testParams [{}, {}]).turns = {} :: {} :: [] ∧ Quiet {} ∧
    (∀ j < 4, liveKindAt testParams (testParams.kindAddr .irqMask + j) = none) ∧
    (∃ u, exec (.write .irqMask (.word 7)) (testState testParams [{}, {}]) = .next u) ∧
    ∃ v, exec (.read .irqMask) (after (exec (.write .irqMask (.word 7)) (testState testParams [{}, {}]))) = .next v := by
  refine ⟨rfl, rfl, by decide +kernel, by decide +kernel, exists_next (by decide +kernel),
    exists_next (by decide +kernel)⟩

/-- S3b of INIT, and a `RegSet` with and without a read first, and one that goes out in several transactions. -/
theorem witness_RegSetKeepsOtherFields :
    let s (k : Kind) (fs : List (Field × FieldVal)) : State :=
      { testState testParams (good 2) with pc := .busy (.init lines.opts |> opOf) (⟨.s5d, .regSet k fs⟩ :: []) }
    let fs : List (Field × FieldVal) := [(.mantissa, .num 15), (.exponent, .num 0), (.modulation, .modulation (.other 0))]
    testParams.Legal ∧ Kind.datarate ∈ regSetKinds ∧ Kind.afc ∈ regSetKinds ∧
    (∀ x ∈ fs, fits testParams .datarate x = true) ∧ (fs.map Prod.fst).Nodup ∧
    fits testParams .afc (.freezeOnSync, .flag true) = true ∧
    (s .datarate fs).turns = goodTurn :: goodTurn :: [] ∧ goodTurn.failure = none ∧
    (s .datarate fs).pc = .busy .init (⟨.s5d, .regSet .datarate fs⟩ :: []) ∧
    (testParams.kindInfo .datarate).transfers = [] ∧ (testParams.kindInfo .afc).transfers = [] ∧
    (testParams.kindInfo .datarate).rmw = true ∧ (testParams.kindInfo .afc).rmw = false ∧
    valueRead testParams .datarate goodTurn (chipAt goodTurn (s .datarate fs).chip) = .ok (.record [0xFF, 0xFF, 0xF8, 0xFF]
      [(.mantissa, .num 15), (.exponent, .num 15), (.modulation, .modulation .fsk2)]) :=
  ⟨test_params_legal, by decide +kernel, by decide +kernel, by decide +kernel, by decide +kernel, by decide +kernel, rfl, rfl,
    rfl, by decide +kernel, by decide +kernel, by decide +kernel, by decide +kernel, by decide +kernel⟩

/-- The second register read and written, then the rest in two writes, highest addresses first. -/
theorem witness_RegSetKeepsOtherFields_grouped :
    let xs : List Transfer := [⟨true, 1, 1⟩, ⟨false, 1, 1⟩, ⟨false, 2, 2⟩, ⟨false, 0, 1⟩]
    let fs : List (Field × FieldVal) := [(.syncLen, .num 4), (.format, .basicFormat)]
    let s : State :=
      { groupedState xs 0xC0 (quiet 5) with pc := .busy .pktConfigure (⟨.k2, .regSet .pcktctrl fs⟩ :: []) }
    s.params.Legal ∧ Kind.pcktctrl ∈ regSetKinds ∧ (∀ x ∈ fs, fits s.params .pcktctrl x = true) ∧ (fs.map Prod.fst).Nodup ∧
    s.turns = quiet 4 ++ quiet 1 ∧ (s.params.kindInfo .pcktctrl).transfers = xs ∧
    (quiet 4).length = regSetTurns s.params .pcktctrl ∧ (∀ t ∈ quiet 4, Quiet t) ∧
    ∀ e ∈ newEvents s (runSteps 5 s), failed e = false := by decide +kernel

theorem witness_DelayIsRecorded : Idle s0 := rfl

theorem witness_CommandsReturnReportedState :
    Idle (testState testParams [{}]) ∧ (testState testParams [{}]).turns = {} :: [] ∧ ({} : Turn).failure = none ∧
    (failTurn 1).failure = some ⟨1, false⟩ ∧
    ([0x5F, 0x6E, 0x6F, 0x73] : List Byte).all fun c => c ∉ commands.map commandCode := by decide +kernel

end Sys2Proof.Tests
end

section
/-! PROOFS. The scope of the block (spec/00_scope.md): a busy block accepts nothing (R8), and nothing writes the parameters or
the device facts (R10, R21). Both rest on what every run of a micro-sequence carries along (`settle_carried`). -/

namespace Sys2Proof.Machine

/-- The step of a busy block goes on with the operation in progress and takes nothing from the port (R8). -/
theorem step_busy {s : State} {op : Op} {l : List Micro} (h : s.pc = .busy op l) : step s = .next (settle s) := by
  simp [step, h]

end Sys2Proof.Machine

namespace Sys2Proof.Safety

open Sys2Proof.Machine

/-! ### `SameFacts` as a relation between states -/

theorem SameFacts.refl (s : State) : SameFacts s s := ⟨rfl, rfl, rfl, rfl⟩

/-- What carries along a run has the facts it began with. -/
theorem sameFacts_of_carried {s t : State} (h : Carried s t) : SameFacts s t := ⟨h.params, h.xtalHz, h.baseHz, h.band⟩

/-- Accepting an instruction latches operands and moves the position; the run after it carries the facts. -/
theorem sameFacts_settle_accepted (i : Instr) (s : State) : SameFacts s (settle (accepted i s)) :=
  have hrun : Carried (accepted i s) (settle (accepted i s)) := settle_carried _
  ⟨hrun.params, hrun.xtalHz, hrun.baseHz, hrun.band⟩

/-- No instruction writes the facts, accepted or not (R10, R21). -/
theorem exec_sameFacts {i : Instr} {s t : State} (h : exec i s = .next t) : SameFacts s t := by
  obtain ⟨_, rfl⟩ | ⟨_, rfl⟩ := exec_cases h
  · exact sameFacts_settle_accepted i s
  · exact .refl _

/-- No step writes the facts (R10, R21), whichever of the four things it does. -/
theorem step_sameFacts {s t : State} (h : step s = .next t) : SameFacts s t := by
  obtain ⟨_, rfl⟩ | ⟨_, _, rfl⟩ | ⟨_, x, rest, i, _, _, hexec⟩ | ⟨_, x, rest, op, _, _, rfl⟩ := step_cases h
  · exact sameFacts_of_carried (settle_carried s)
  · exact .refl _
  · exact exec_sameFacts (s := { s with port := rest }) hexec
  · exact ⟨rfl, rfl, rfl, rfl⟩

/-! ### The obligations -/

/-- Settles O5: `exec` on a busy block is the identity, and its step is the run in progress, which carries the port and the
operand latches. -/
theorem busyBlockAcceptsNothing : Obligations.BusyBlockAcceptsNothing := by
  intro s op l hbusy
  have hrun : Carried s (settle s) := settle_carried s
  exact ⟨fun i => exec_busy i hbusy, settle s, step_busy hbusy, hrun.port, hrun.operands⟩

/-- Settles O11, by the cases of a step and of `exec`. -/
theorem deviceFactsNeverChange : Obligations.DeviceFactsNeverChange :=
  ⟨fun _ _ => step_sameFacts, fun _ _ _ => exec_sameFacts⟩

end Sys2Proof.Safety
end

section
/-! PROOFS. The block's state (spec/10_state.md): what every step keeps (R21, R22, R44, R45, R60, R308), where a step ends
(R27, R62), and which instruction may write what (R24 to R26, R28, R29, R45, R62, R284). A property of states goes through a
whole run once it is known to bear what the Bus Port does to any state and what the acts of the micro-sequence write. -/

namespace Sys2Proof.Machine

/-! ### What the Bus Port does to any state -/

/-- What one transaction, reached or not, or the chip's own changes before it can make of the chip (R60, R66, R67, R75). -/
inductive ChipEffect (p : Params) (c : Chip) : Chip → Prop where
  | same : ChipEffect p c c
  | drift (ds : List ChipChange) : ChipEffect p c (ds.foldl chipDrift c)
  | read (k : Kind) : ChipEffect p c (chipAfterRead k c)
  | write (k : Kind) (v : KindVal) : ChipEffect p c (chipAfterWrite p k v c)
  | partWrite (k : Kind) (x : Transfer) (v : KindVal) : ChipEffect p c (chipAfterPartWrite p k x v c)
  | rawWrite (a : Byte) (bytes : List Byte) (landing : List (Option (Fin 255))) :
      ChipEffect p c (chipAfterRawWrite a bytes landing c)
  | rawRead (a : Byte) (n : Nat) : ChipEffect p c (chipAfterRawRead p a n c)

/-- `P` bears what every operation `op` may do whatever its instruction is: use an answer, change the chip by a transaction,
record, raise, and move on. -/
structure BearsBus (P : State → Prop) (op : Op) : Prop where
  turns : ∀ ts u, P u → P { u with turns := ts }
  chip : ∀ c u, ChipEffect u.params u.chip c → P u → P { u with chip := c }
  fresh : ∀ n u, P u → P { u with fresh := n }
  emit : ∀ e u, P u → P (emit e u)
  raise : ∀ e u, P u → P (raise e u)
  goto : ∀ l u, P u → P (goto op l u)

/-- What a primitive with one of the effects above leaves still meets `P`. -/
theorem BearsBus.transact {P : State → Prop} {op : Op} (bus : BearsBus P op) {α : Type} {s : State}
    {value : Turn → State → Except Err α} {effect : Turn → State → Chip} {event : State → Option α → BusEvent}
    (heffect : ∀ t u, ChipEffect u.params u.chip (effect t u)) (h : P s) :
    EveryEnd P (transact s value effect event) :=
  transact_ensures (fun t ts _ => bus.chip _ { s with turns := ts } (.drift t.drift) (bus.turns ts s h))
    (fun t u _ hu => bus.chip _ u (heffect t u) hu) bus.emit bus.raise

section
variable {P : State → Prop} {op : Op} {s : State}

/-- The primitives of R16 other than `Delay`, in all their forms, leave a state that meets `P`. -/
theorem BearsBus.busRead (bus : BearsBus P op) (k : Kind) (h : P s) : EveryEnd P (busRead k s) :=
  bus.transact (fun _ _ => .read k) h

theorem BearsBus.busWriteWith (bus : BearsBus P op) (k : Kind) (v : State → KindVal) (h : P s) :
    EveryEnd P (busWriteWith k v s) :=
  bus.transact (fun _ u => .write k (v u)) h

theorem BearsBus.busReadPart (bus : BearsBus P op) (k : Kind) (x : Transfer) (h : P s) : EveryEnd P (busReadPart k x s) :=
  bus.transact (fun _ _ => .read k) h

theorem BearsBus.busWritePart (bus : BearsBus P op) (k : Kind) (x : Transfer) (held : List (Nat × Byte))
    (fs : List (Field × FieldVal)) (h : P s) : EveryEnd P (busWritePart k x held fs s) :=
  bus.transact (fun _ _ => .partWrite k x _) h

theorem BearsBus.memWrite (bus : BearsBus P op) (a : Byte) (bytes : List Byte) (h : P s) :
    EveryEnd P (memWrite a bytes s) :=
  bus.transact (fun t _ => .rawWrite a bytes t.landing) h

theorem BearsBus.memRead (bus : BearsBus P op) (a : Byte) (n : Nat) (h : P s) : EveryEnd P (memRead a n s) :=
  bus.transact (fun _ _ => .rawRead a n) (bus.fresh _ _ h)

theorem BearsBus.busCommand (bus : BearsBus P op) (c : Command) (h : P s) : EveryEnd P (busCommand c s) :=
  bus.transact (fun _ _ => .same) h

/-! ### What the acts of a micro-sequence write -/

/-- `P` bears what act `a`, and the acts it puts before the rest, write to the block besides: `ENGINE`, `MASK_ACC`, the
counters, `RXBUF` and the result latches (R25, R28, R29, R45, R284). -/
def BearsAct (P : State → Prop) : Act → Prop
  | .engine e => ∀ u, P u → P { u with engine := e }
  | .zeroCounters => ∀ u, P u → P { u with polls := 0, retries := 0 }
  | .setMask w => ∀ u, P u → P { u with maskAcc := w }
  | .countPoll | .pollState _ => ∀ n u, P u → P { u with polls := n }
  | .pollTx => (∀ n u, P u → P { u with polls := n }) ∧ ∀ e u, P u → P { u with engine := e }
  | .pollRx =>
    (∀ n u, P u → P { u with polls := n }) ∧ (∀ e u, P u → P { u with engine := e }) ∧
      ∀ n u, P u → P { u with retries := n }
  | .fifoCount | .drain _ => ∀ c bytes u, P u → P (afterDrain c bytes u)
  | .finish r => ∀ u, P u → P (finish r u)
  | .readValue _ => ∀ v u, P u → P (finish (.value v) u)
  | .rawRead _ _ => ∀ bs u, P u → P (finish (.bytes bs) u)
  | .commandValue _ => ∀ st u, P u → P (finish (.devState st) u)
  | .regSet _ _ | .modify _ _ | .transfers _ _ _ _ | .store _ _ | .readDiscard _ | .rawWrite _ _ | .command _ | .delay _
  | .raise _ => True

/-- What an act puts before the rest writes no more than the act. -/
theorem BearsAct.spawned {p : Params} {a b : Act} (h : BearsAct P a) (hab : Spawns p a b) : BearsAct P b := by
  cases a <;> simp only [Spawns] at hab
  case regSet => obtain ⟨_, rfl⟩ | ⟨_, _, rfl⟩ := hab <;> trivial
  case transfers => obtain ⟨_, _, rfl⟩ := hab; trivial
  case modify => obtain ⟨_, rfl⟩ := hab; trivial
  case pollState => obtain rfl | rfl := hab <;> exact h
  case pollTx =>
    obtain rfl | rfl := hab
    · exact h.1
    · exact h
  case pollRx =>
    obtain hb | rfl | rfl := hab
    · simp only [strobeSteps, List.map_cons, List.map_nil, List.mem_cons, List.not_mem_nil, or_false] at hb
      obtain rfl | rfl | rfl | rfl := hb
      · trivial
      · trivial
      · trivial
      · exact h.2.1 _
    · exact h.1
    · exact h
  case fifoCount => obtain ⟨_, _, rfl⟩ := hab; exact h

variable {l : Label} {rest : List Micro} {t : State}

/-- V3 and V4 of R194 keep `P`. -/
theorem BearsBus.afterPollRx (bus : BearsBus P op) (act : BearsAct P .pollRx) (v : KindVal) (h : P s) :
    P (afterPollRx op rest v s) := by
  obtain ⟨-, hengine, hretries⟩ := act
  unfold Machine.afterPollRx
  have hdisc := hengine .rxDiscardedRetry _ (hretries (s.retries + 1) s h)
  split
  · exact bus.goto _ _ (hengine _ _ h)
  · split
    · split
      · exact bus.raise _ _ hdisc
      · exact bus.goto _ _ hdisc
    · exact bus.goto _ _ h

/-- W3 and W4, T11, V5 keep `P`. -/
theorem BearsBus.countPoll (bus : BearsBus P op) (act : BearsAct P .countPoll) (h : P s) : P (countPoll op rest s) := by
  have hcount := act (s.polls + 1) s h
  unfold Machine.countPoll
  split
  · exact bus.raise _ _ hcount
  · exact bus.goto _ _ (bus.emit _ _ hcount)

/-- A transaction of a `RegSet` in several keeps `P`. -/
theorem BearsBus.transferStep (bus : BearsBus P op) {k : Kind} {fs : List (Field × FieldVal)} {held : List (Nat × Byte)}
    {xs : List Transfer} (h : P s) (hstep : transferStep op l rest k fs held s xs = some t) : P t := by
  cases xs with
  | nil => cases hstep; exact bus.goto _ _ h
  | cons x left =>
    simp only [Machine.transferStep] at hstep
    split at hstep
    · exact andThen_ensures hstep (bus.busReadPart k x h) fun _ _ => bus.goto _ _
    · exact andThen_ensures hstep (bus.busWritePart k x held fs h) fun _ _ => bus.goto _ _

/-- One step of a micro-sequence keeps `P`. -/
theorem BearsBus.actStep (bus : BearsBus P op) {a : Act} (act : BearsAct P a) (h : P s)
    (hstep : actStep op l rest s a = some t) : P t := by
  cases a <;> simp only [Machine.actStep] at hstep
  case engine e => cases hstep; exact bus.goto _ _ (act _ h)
  case zeroCounters => cases hstep; exact bus.goto _ _ (act _ h)
  case setMask w => cases hstep; exact bus.goto _ _ (act _ h)
  case delay ms => cases hstep; exact bus.goto _ _ (bus.emit _ _ h)
  case finish r => cases hstep; exact act _ h
  case raise e => cases hstep; exact bus.raise _ _ h
  case countPoll => cases hstep; exact bus.countPoll act h
  case regSet k fs =>
    split at hstep
    · split at hstep
      · exact andThen_ensures hstep (bus.busRead k h) fun _ _ => bus.goto _ _
      · exact andThen_ensures hstep (bus.busWriteWith k _ h) fun _ _ => bus.goto _ _
    · exact bus.transferStep h hstep
  case transfers k fs held xs => exact bus.transferStep h hstep
  case modify k fs => exact andThen_ensures hstep (bus.busRead k h) fun _ _ => bus.goto _ _
  case store k v => exact andThen_ensures hstep (bus.busWriteWith k _ h) fun _ _ => bus.goto _ _
  case readDiscard k => exact andThen_ensures hstep (bus.busRead k h) fun _ _ => bus.goto _ _
  case readValue k => exact andThen_ensures hstep (bus.busRead k h) act
  case rawWrite b bytes => exact andThen_ensures hstep (bus.memWrite b bytes h) fun _ _ => bus.goto _ _
  case rawRead b n => exact andThen_ensures hstep (bus.memRead b n h) act
  case command c => exact andThen_ensures hstep (bus.busCommand c h) fun _ _ => bus.goto _ _
  case commandValue c => exact andThen_ensures hstep (bus.busCommand c h) act
  case pollState target =>
    refine andThen_ensures hstep (bus.busRead _ h) fun v u hu => ?_
    unfold afterPollState
    split <;> exact bus.goto _ _ hu
  case pollTx =>
    refine andThen_ensures hstep (bus.busRead _ h) fun v u hu => ?_
    unfold afterPollTx
    split
    · exact bus.goto _ _ (act.2 _ _ hu)
    · exact bus.goto _ _ hu
  case pollRx => exact andThen_ensures hstep (bus.busRead _ h) fun v u => bus.afterPollRx act v
  case fifoCount =>
    refine andThen_ensures hstep (bus.busRead _ h) fun v u hu => ?_
    unfold afterFifoCount
    split
    · exact bus.raise _ _ hu
    · exact bus.goto _ _ hu
  case drain c => exact andThen_ensures hstep (bus.memRead _ c h) (act c)

/-- A run keeps `P` if `P` bears the bus, every act of the micro-sequence, and the end of the sequence. -/
theorem BearsBus.settle (bus : BearsBus P op) {steps : List Micro} (hbusy : s.pc = .busy op steps)
    (hacts : ∀ m ∈ steps, BearsAct P m.act) (hend : BearsAct P (.finish .nothing)) (h : P s) : P (settle s) :=
  settle_frame hbusy hacts (fun _ _ => BearsAct.spawned) (fun u _ => hend u)
    (fun _ _ _ _ _ _ hact _ hstep hu => bus.actStep hact hu hstep) h

end

end Sys2Proof.Machine

namespace Sys2Proof.Safety

open Sys2Proof.Machine

/-! ### The invariant -/

/-- `RXBUF[0 .. c-1] <- bytes` keeps the 96 bytes of `RXBUF` (R45). -/
theorem fillRxbuf_length {buf : List Byte} (h : buf.length = 96) (bytes : List Byte) : (fillRxbuf buf bytes).length = 96 := by
  simp only [fillRxbuf, List.length_take, List.length_append, List.length_drop, h]
  omega

/-- All changes of the chip's own before a transaction leave at most 96 bytes in each FIFO. -/
theorem drift_fifos (ds : List ChipChange) {c : Chip} (h : c.txFifo.length ≤ 96 ∧ c.rxFifo.length ≤ 96) :
    (ds.foldl chipDrift c).txFifo.length ≤ 96 ∧ (ds.foldl chipDrift c).rxFifo.length ≤ 96 := by
  induction ds generalizing c with
  | nil => exact h
  | cons d ds ih => exact ih (chipDrift_fifos d h)

/-- A transaction keeps the canonical form of the register space (R60 (a)). -/
theorem memWf_of_chipEffect {p : Params} (hp : p.Legal) {c d : Chip} (h : memWf c.mem) (he : ChipEffect p c d) :
    memWf d.mem := by
  cases he with
  | same => exact h
  | drift ds => exact memWf_drift ds h
  | read k => exact h
  | write k v => exact memWf_chipAfterWrite hp k v h
  | partWrite k x v => exact memWf_chipAfterPartWrite hp k x v h
  | rawWrite a bytes landing => exact memWf_chipAfterRawWrite a bytes landing h
  | rawRead a n => exact h

/-- A transaction leaves at most 96 bytes in each FIFO (R60 (b), R308): a raw write appends within that bound, a raw read
takes bytes away. -/
theorem fifos_of_chipEffect {p : Params} {c d : Chip} (h : c.txFifo.length ≤ 96 ∧ c.rxFifo.length ≤ 96)
    (he : ChipEffect p c d) : d.txFifo.length ≤ 96 ∧ d.rxFifo.length ≤ 96 := by
  obtain ⟨htx, hrx⟩ := h
  cases he with
  | same => exact ⟨htx, hrx⟩
  | drift ds => exact drift_fifos ds ⟨htx, hrx⟩
  | read k => exact ⟨htx, hrx⟩
  | write k v => exact ⟨htx, hrx⟩
  | partWrite k x v => exact ⟨htx, hrx⟩
  | rawWrite a bytes landing =>
    refine ⟨?_, hrx⟩
    unfold chipAfterRawWrite
    dsimp only
    split
    · exact fifoAppend_length _ _
    · exact htx
  | rawRead a n =>
    refine ⟨htx, ?_⟩
    unfold chipAfterRawRead
    dsimp only
    split
    · rw [List.length_drop]; omega
    · exact hrx

/-- The invariant speaks of the parameters, the device facts, the chip's memories and `RXBUF` alone. -/
theorem StateInv.of_same {s t : State} (h : StateInv s) (hrxbuf : t.rxbuf.length = 96)
    (hparams : t.params = s.params := by rfl) (hbase : t.baseHz = s.baseHz := by rfl)
    (hband : t.band = s.band := by rfl) (hchip : t.chip = s.chip := by rfl) : StateInv t :=
  ⟨hparams ▸ h.legal, hchip ▸ h.mem, hchip ▸ h.txFifo, hchip ▸ h.rxFifo, hrxbuf, by rw [hband, hparams, hbase, h.band]⟩

/-- The invariant bears what the Bus Port does: a transaction keeps the chip's part, and an error keeps the length of
`RXBUF` (R25, R276). -/
theorem stateInv_bearsBus (op : Op) : BearsBus StateInv op where
  turns _ _ h := h.of_same h.rxbuf
  chip c u he h :=
    have hfifos := fifos_of_chipEffect ⟨h.txFifo, h.rxFifo⟩ he
    ⟨h.legal, memWf_of_chipEffect h.legal h.mem he, hfifos.1, hfifos.2, h.rxbuf, h.band⟩
  fresh _ _ h := h.of_same h.rxbuf
  emit _ _ h := h.of_same h.rxbuf
  raise e u h := h.of_same (raise_rxbuf_length e u h.rxbuf) (by simp) (by simp) (by simp) (by simp)
  goto _ _ h := h.of_same h.rxbuf

/-- The invariant bears every end of an operation. -/
theorem StateInv.finish {u : State} (h : StateInv u) (r : ResultWrite) : StateInv (finish r u) :=
  h.of_same h.rxbuf

/-- The invariant bears every act: only V9 of R194 writes anything it speaks of. -/
theorem stateInv_bearsAct (a : Act) : BearsAct StateInv a := by
  cases a <;> dsimp only [BearsAct]
  case engine | zeroCounters | setMask => exact fun _ h => h.of_same h.rxbuf
  case countPoll | pollState => exact fun _ _ h => h.of_same h.rxbuf
  case pollTx => exact ⟨fun _ _ h => h.of_same h.rxbuf, fun _ _ h => h.of_same h.rxbuf⟩
  case pollRx =>
    exact ⟨fun _ _ h => h.of_same h.rxbuf, fun _ _ h => h.of_same h.rxbuf, fun _ _ h => h.of_same h.rxbuf⟩
  case fifoCount | drain => exact fun _ bytes _ h => h.of_same (fillRxbuf_length h.rxbuf bytes)
  case finish r => exact fun _ h => h.finish r
  case readValue | rawRead | commandValue => exact fun _ _ h => h.finish _

/-- A run keeps the invariant. -/
theorem StateInv.settle {s : State} (h : StateInv s) : StateInv (settle s) := by
  cases hpc : s.pc with
  | idle => rwa [settle_idle hpc]
  | busy op steps =>
    exact (stateInv_bearsBus op).settle hpc (fun m _ => stateInv_bearsAct m.act) (stateInv_bearsAct _) h

/-- Every instruction keeps the invariant, accepted or not. -/
theorem StateInv.exec {i : Instr} {s t : State} (h : StateInv s) (hexec : exec i s = .next t) : StateInv t := by
  obtain ⟨_, rfl⟩ | ⟨_, rfl⟩ := exec_cases hexec
  · exact StateInv.settle (s := accepted i s) (h.of_same h.rxbuf)
  · exact h

/-- Settles O3, by the cases of a step; a run keeps the invariant because it bears the bus and every act. -/
theorem stepKeepsInvariant : Obligations.StepKeepsInvariant := by
  intro s t h hstep
  obtain ⟨_, rfl⟩ | ⟨_, _, rfl⟩ | ⟨_, x, rest, i, _, _, hexec⟩ | ⟨_, x, rest, op, _, _, rfl⟩ := step_cases hstep
  · exact h.settle
  · exact h
  · exact StateInv.exec (s := { s with port := rest }) (h.of_same h.rxbuf) hexec
  · exact h.of_same h.rxbuf

/-- The state after reset meets the invariant, whatever the straps, if the parameters are legal. -/
theorem stateInv_resetWith {p : Params} (h : p.Legal) : StateInv (State.resetWith p) where
  legal := h
  mem := memWf_reset p
  txFifo := List.length_take_le _ _
  rxFifo := List.length_take_le _ _
  rxbuf := List.length_replicate
  band := rfl

/-- Settles O2: the installed parameters are made legal. -/
theorem resetMeetsInvariant : Obligations.ResetMeetsInvariant := stateInv_resetWith (legalise_legal _)

/-! ### Where a step ends, and what it runs -/

/-- A run ends idle or waiting (R62). -/
theorem settle_idle_or_waiting (s : State) : Idle (settle s) ∨ Waiting (settle s) := by
  have hstops := settle_stops s
  by_cases hidle : Idle (settle s)
  · exact .inl hidle
  · exact .inr ⟨hidle, (stops_idle_or_waits hstops).resolve_left hidle, hstops⟩

/-- Settles O6, by the cases of a step: two of them run, the other two leave the block idle. -/
theorem stepEndsIdleOrWaiting : Obligations.StepEndsIdleOrWaiting := by
  intro s t hstep
  obtain ⟨_, rfl⟩ | ⟨hidle, _, rfl⟩ | ⟨hidle, x, rest, i, _, _, hexec⟩ | ⟨hidle, x, rest, op, _, _, rfl⟩ := step_cases hstep
  · exact settle_idle_or_waiting s
  · exact .inl hidle
  · rw [exec_idle i (s := { s with port := rest }) hidle] at hexec
    cases hexec
    exact settle_idle_or_waiting _
  · exact .inl hidle

/-- An idle block with something presented takes it from the port and decodes it (R27, R95). -/
theorem step_presented {s : State} {x : Presented} {rest : List Presented} {i : Instr} (hidle : Idle s)
    (hport : s.port = x :: rest) (hdecode : decode s.params x = .ok i) : step s = exec i { s with port := rest } := by
  simp only [step, hidle, fetch, hport, hdecode]

/-- An idle block with nothing presented stays as it is (R300). -/
theorem step_nothing_presented {s : State} (hidle : Idle s) (hport : s.port = []) : step s = .next s := by
  simp only [step, hidle, fetch, hport]

/-- Settles O4: the two cases of what an idle block finds on the port. -/
theorem stepRunsDecodedInstruction : Obligations.StepRunsDecodedInstruction :=
  ⟨fun _ _ _ _ => step_presented, fun _ => step_nothing_presented⟩

/-! ### What an instruction owns -/

/-- The result latches that `r` writes are those of instruction `i` (R25). -/
def OwnResult (i : Instr) (r : ResultWrite) : Prop := ∀ held, otherResults i (writeResults held r) = otherResults i held

/-- Act `a` writes no block state but what the rules give instruction `i` (R25, R28, R29, R45, R284). -/
def OwnAct (i : Instr) : Act → Prop
  | .engine _ => writesEngine i = true
  | .setMask _ => writesMaskAcc i = true
  | .zeroCounters | .countPoll | .pollState _ => usesCounters i = true
  | .pollTx | .pollRx => usesCounters i = true ∧ writesEngine i = true
  | .fifoCount | .drain _ => i = .rxBlocking
  | .finish r => OwnResult i r
  | .readValue _ => ∀ v, OwnResult i (.value v)
  | .rawRead _ _ => ∀ bs, OwnResult i (.bytes bs)
  | .commandValue _ => ∀ st, OwnResult i (.devState st)
  | .regSet _ _ | .modify _ _ | .transfers _ _ _ _ | .store _ _ | .readDiscard _ | .rawWrite _ _ | .command _ | .delay _
  | .raise _ => True

/-- `u` is `s` but for the block state that instruction `i` may write, and any operation in progress is that of `i`. -/
structure OwnedOnly (i : Instr) (s u : State) : Prop where
  engine : writesEngine i = false → u.engine = s.engine
  maskAcc : writesMaskAcc i = false → u.maskAcc = s.maskAcc
  rxbuf : i ≠ .rxBlocking → u.rxbuf = s.rxbuf
  counters : usesCounters i = false → u.polls = s.polls ∧ u.retries = s.retries
  results : otherResults i u.results = otherResults i s.results
  op : ∀ op l, u.pc = .busy op l → op = opOf i

/-- Writing no result latch is writing none but one's own. -/
theorem ownResult_nothing (i : Instr) : OwnResult i .nothing := fun _ => rfl

/-- What an error leaves unspecified are the result latches of the operation (R25, U7). -/
theorem otherResults_unspecifyResults (i : Instr) (held : Results) (n : Nat) :
    otherResults i (unspecifyResults held (opOf i) n) = otherResults i held := by
  unfold otherResults
  generalize opOf i = op
  cases op <;> rfl

/-- RX_BLOCKING is requested by no other instruction. -/
theorem opOf_ne_rxBlocking {i : Instr} (h : i ≠ .rxBlocking) : opOf i ≠ .rxBlocking := by
  cases i
  case rxBlocking => exact absurd rfl h
  all_goals exact Op.noConfusion

/-- An error of an instruction's operation changes only what the instruction owns (R25, R276). -/
theorem OwnedOnly.raise {i : Instr} {s u : State} (h : OwnedOnly i s u) (e : Err) : OwnedOnly i s (raise e u) where
  engine hw := by rw [raise_engine, h.engine hw]
  maskAcc hw := by rw [raise_maskAcc, h.maskAcc hw]
  rxbuf hi := by
    cases hpc : u.pc with
    | idle => simpa [Machine.raise, hpc] using h.rxbuf hi
    | busy op l =>
      rw [raise_rxbuf_busy e u op l hpc, h.op op l hpc, unspecifyRxbuf_other _ _ (opOf_ne_rxBlocking hi), h.rxbuf hi]
  counters hw := by simpa using h.counters hw
  results := by
    cases hpc : u.pc with
    | idle => simpa [Machine.raise, hpc] using h.results
    | busy op l => rw [raise_results_busy e u op l hpc, h.op op l hpc, otherResults_unspecifyResults, h.results]
  op _ _ hpc := by simp at hpc

/-- The Bus Port writes no block state but through an error. -/
theorem ownedOnly_bearsBus (i : Instr) (s : State) : BearsBus (OwnedOnly i s) (opOf i) where
  turns _ _ h := { h with }
  chip _ _ _ h := { h with }
  fresh _ _ h := { h with }
  emit _ _ h := { h with }
  raise e _ h := h.raise e
  goto _ _ h := { h with op := fun _ _ hpc => by cases hpc; rfl }

section
variable {i : Instr} {s : State}

theorem OwnedOnly.setEngine {u : State} (h : OwnedOnly i s u) (hw : writesEngine i = true) (e : Engine) :
    OwnedOnly i s { u with engine := e } :=
  { h with engine := fun hn => by simp [hw] at hn }

theorem OwnedOnly.setMaskAcc {u : State} (h : OwnedOnly i s u) (hw : writesMaskAcc i = true) (w : Word) :
    OwnedOnly i s { u with maskAcc := w } :=
  { h with maskAcc := fun hn => by simp [hw] at hn }

theorem OwnedOnly.setCounters {u : State} (h : OwnedOnly i s u) (hw : usesCounters i = true) (m n : Nat) :
    OwnedOnly i s { u with polls := m, retries := n } :=
  { h with counters := fun hn => by simp [hw] at hn }

theorem OwnedOnly.finish {u : State} (h : OwnedOnly i s u) {r : ResultWrite} (hr : OwnResult i r) :
    OwnedOnly i s (finish r u) :=
  { h with results := (hr u.results).trans h.results, op := fun _ _ hpc => by simp at hpc }

/-- V9, V10 of R194, which RX_BLOCKING alone takes. -/
theorem OwnedOnly.afterDrain {u : State} (h : OwnedOnly .rxBlocking s u) (c : Nat) (bytes : List Byte) :
    OwnedOnly .rxBlocking s (afterDrain c bytes u) :=
  OwnedOnly.finish (u := { u with rxbuf := fillRxbuf u.rxbuf bytes }) { h with rxbuf := fun hn => absurd rfl hn }
    fun _ => rfl

/-- An act that writes what the instruction owns keeps the rest. -/
theorem OwnAct.bears {a : Act} (h : OwnAct i a) : BearsAct (OwnedOnly i s) a := by
  cases a <;> dsimp only [BearsAct] <;> dsimp only [OwnAct] at h
  case engine e => exact fun _ hu => hu.setEngine h e
  case setMask w => exact fun _ hu => hu.setMaskAcc h w
  case zeroCounters => exact fun _ hu => hu.setCounters h 0 0
  case countPoll | pollState => exact fun n u hu => hu.setCounters h n u.retries
  case pollTx => exact ⟨fun n u hu => hu.setCounters h.1 n u.retries, fun e _ hu => hu.setEngine h.2 e⟩
  case pollRx =>
    exact ⟨fun n u hu => hu.setCounters h.1 n u.retries, fun e _ hu => hu.setEngine h.2 e,
      fun n u hu => hu.setCounters h.1 u.polls n⟩
  case fifoCount | drain => subst h; exact fun c bytes _ hu => hu.afterDrain c bytes
  case finish r => exact fun _ hu => hu.finish h
  case readValue => exact fun v _ hu => hu.finish (h v)
  case rawRead => exact fun bs _ hu => hu.finish (h bs)
  case commandValue => exact fun st _ hu => hu.finish (h st)

end

/-! ### What the micro-sequences write -/

/-- Every act of a micro-sequence is one of those the rules give instruction `i`. -/
def OwnSteps (i : Instr) (steps : List Micro) : Prop := ∀ m ∈ steps, OwnAct i m.act

@[simp] theorem ownSteps_nil (i : Instr) : OwnSteps i [] := fun _ hm => absurd hm List.not_mem_nil

@[simp] theorem ownSteps_cons (i : Instr) (m : Micro) (steps : List Micro) :
    OwnSteps i (m :: steps) ↔ OwnAct i m.act ∧ OwnSteps i steps := List.forall_mem_cons

@[simp] theorem ownSteps_append (i : Instr) (xs ys : List Micro) :
    OwnSteps i (xs ++ ys) ↔ OwnSteps i xs ∧ OwnSteps i ys := List.forall_mem_append

/-- WAIT_FOR_STATE, alone and inside INIT (R171). -/
theorem ownSteps_waitSteps {i : Instr} (h : usesCounters i = true) (target : DevState) : OwnSteps i (waitSteps target) := by
  simp [waitSteps, OwnAct, h]

/-- STROBE_RX, alone and inside RX_BLOCKING (R193). -/
theorem ownSteps_strobeSteps {i : Instr} (h : writesEngine i = true) (p : Params) : OwnSteps i (strobeSteps p) := by
  simp [strobeSteps, OwnAct, h]

/-- INIT uses the counters in its wait and owns nothing else (R172, R173). -/
theorem ownSteps_initSteps (p : Params) (o : RadioInitOptions) (baseHz xtalHz : Nat) :
    OwnSteps (.init o) (initSteps p o baseHz xtalHz) := by
  simp only [initSteps, initSteps1, initSteps2, initFdevStep]
  split <;> simp [ownSteps_waitSteps (i := .init o) rfl, OwnAct]

/-- WA_EXTRA_CURRENT owns nothing (R174). -/
theorem ownSteps_waSteps (i : Instr) (p : Params) : OwnSteps i (waSteps p) := by
  unfold waSteps
  split <;> simp [OwnAct]

/-- TX_BLOCKING owns `ENGINE`, the counters and `count` (R191). -/
theorem ownSteps_txSteps (p : Params) (band : Band) (payload : List Byte) :
    OwnSteps (.txBlocking payload) (txSteps p band payload) := by
  simp [txSteps, OwnAct, OwnResult, writesEngine, usesCounters, otherResults, opOf, writeResults]

/-- RX_BLOCKING owns `ENGINE`, the counters, `RXBUF` and `count` (R194). -/
theorem ownSteps_rxSteps (p : Params) : OwnSteps .rxBlocking (rxSteps p) := by
  simp [rxSteps, ownSteps_strobeSteps (i := .rxBlocking) rfl, OwnAct, writesEngine, usesCounters]

/-- PKT_CONFIGURE owns nothing (R226, R227). -/
theorem ownSteps_pktSteps (i : Instr) (p : Params) (c : PacketConfig) : OwnSteps i (pktSteps p c) := by
  cases c with
  | basic o =>
    simp only [pktSteps, basicSteps]
    split <;> simp [OwnAct]
  | wmbus _ => simp [pktSteps, OwnAct]
  | stack _ => simp [pktSteps, OwnAct]

/-- The micro-sequence of one act. -/
theorem ownSteps_only {i : Instr} {l : Label} {a : Act} (h : OwnAct i a) : OwnSteps i [⟨l, a⟩] := by simpa using h

/-- Every instruction's micro-sequence writes only what the instruction owns. -/
theorem ownSteps_sequenceOf (i : Instr) (s : State) : OwnSteps i (sequenceOf i s) := by
  cases i <;> dsimp only [sequenceOf]
  case init o => exact ownSteps_initSteps _ _ _ _
  case waExtraCurrent => exact ownSteps_waSteps _ _
  case waitForState target =>
    split
    · exact ownSteps_only trivial
    · exact ownSteps_waitSteps rfl target
  case txBlocking payload => exact ownSteps_txSteps _ _ _
  case rxBlocking => exact ownSteps_rxSteps _
  case strobeRx => exact ownSteps_strobeSteps rfl _
  case pktConfigure c => exact ownSteps_pktSteps _ _ _
  case pktConfigureFilter f => simp [filterSteps, OwnAct]
  all_goals refine ownSteps_only ?_
  case bandResolve b =>
    split
    · trivial
    · exact fun _ => rfl
  case encFdev | encPaDbm =>
    split
    · trivial
    · exact fun _ => rfl
  case write k v => split <;> trivial
  case irqMaskNew | irqMaskSet => rfl
  case irqSilence | irqClear | irqMaskCommit | writeRaw | delay => trivial
  case encDatarate | encChflt | encRssiTh | encRxTimeout | encFoffset | encChspace | encIfOffset | irqIsSet =>
    exact fun _ => rfl
  all_goals exact fun _ _ => rfl

/-- A run of an accepted instruction writes only what the instruction owns. -/
theorem ownedOnly_settle_accepted (i : Instr) (s : State) : OwnedOnly i s (settle (accepted i s)) :=
  have hstart : OwnedOnly i s (accepted i s) :=
    ⟨fun _ => rfl, fun _ => rfl, fun _ => rfl, fun _ => ⟨rfl, rfl⟩, rfl, fun _ _ hpc => by cases hpc; rfl⟩
  have hend : OwnAct i (.finish .nothing) := ownResult_nothing i
  (ownedOnly_bearsBus i s).settle rfl (fun m hm => (ownSteps_sequenceOf i s m hm).bears) hend.bears hstart

/-- Settles O13: a run with pauses is the run with all its answers from the start, which writes only what the instruction
owns and carries the rest. -/
theorem blockStateChangesOnlyWhereOwned : Obligations.BlockStateChangesOnlyWhereOwned := by
  intro i s t more hruns
  obtain ⟨hidle, rfl⟩ | ⟨⟨op, l, hbusy⟩, rfl⟩ := exec_cases hruns.exec_all
  · have hown := ownedOnly_settle_accepted i { s with turns := s.turns ++ more }
    have hrun := settle_carried (accepted i { s with turns := s.turns ++ more })
    exact ⟨hown.engine, hown.maskAcc, hown.rxbuf, hown.counters, hown.results, fun _ => hrun.operands, hrun.port,
      hrun.turns, hrun.trace⟩
  · have hnotIdle : ¬ Idle s := fun hidle => by cases hidle.symm.trans hbusy
    exact ⟨fun _ => rfl, fun _ => rfl, fun _ => rfl, fun _ => ⟨rfl, rfl⟩, rfl, fun hidle => absurd hidle hnotIdle, rfl,
      ⟨[], rfl⟩, ⟨[], (List.append_nil _).symm⟩⟩

end Sys2Proof.Safety
end

section
/-! PROOFS. What one step of a micro-sequence does on the bus, said once for every act: the answer it uses, the event it
records, where it may store (R61, R69 to R71), and the errors it may end the operation with (R63, R271 to R278). The frame of
memory, the errors of each instruction and the reports of failed transactions all follow from it. -/

namespace Sys2Proof.Machine

open Sys2Proof.Safety

/-! ### Failures of decoding (R274) -/

/-- `e` is a decode failure of kind `k`, whose decode is not total. -/
def DecodeFails (k : Kind) (e : Err) : Prop :=
  (∃ code, e = .registerDecodeFailure k code) ∧ k ∉ [Kind.mcState, .irqMask, .irqStatus, .rxFifoStatus]

/-- A kind in which a bad code is found has enumerated fields, so its decode is not total. -/
theorem notTotal_of_tags {p : Params} {k : Kind} (h : p.kindTags k ≠ []) :
    k ∉ [Kind.mcState, .irqMask, .irqStatus, .rxFifoStatus] := by
  intro hk
  simp only [List.mem_cons, List.not_mem_nil, or_false] at hk
  obtain rfl | rfl | rfl | rfl := hk <;> exact h rfl

/-- A bad code is found among at least one field. -/
theorem tags_of_badCodeAmong {tags : List TagInfo} {bs : List Byte} {code : Nat} (h : badCodeAmong tags bs = some code) :
    tags ≠ [] := by
  rintro rfl
  cases h

/-- A typed read that does not decode is a decode failure of its kind. -/
theorem decodeFails_of_valueRead {p : Params} {k : Kind} {x : Turn} {c : Chip} {e : Err}
    (h : valueRead p k x c = .error e) : DecodeFails k e := by
  obtain ⟨_, ok⟩ | ⟨_, ⟨_, ok⟩ | ⟨code, hbad, err⟩⟩ := decodeBytes_cases p k (bytesRead p k x c)
  · rw [valueRead, ok] at h; cases h
  · rw [valueRead, ok] at h; cases h
  · rw [valueRead, err] at h
    cases h
    exact ⟨⟨_, rfl⟩, notTotal_of_tags (tags_of_badCodeAmong hbad)⟩

/-- A read of one part that does not decode is a decode failure of its kind. -/
theorem decodeFails_of_partRead {p : Params} {k : Kind} {part : Transfer} {x : Turn} {c : Chip} {e : Err}
    (h : partRead p k part x c = .error e) : DecodeFails k e := by
  obtain ok | ⟨code, hbad, err⟩ := partRead_cases p k part x c
  · rw [ok] at h; cases h
  · rw [err] at h
    cases h
    refine ⟨⟨_, rfl⟩, notTotal_of_tags (p := p) fun hnone => tags_of_badCodeAmong hbad ?_⟩
    rw [Params.partTags, hnone, List.filter_nil]

/-! ### What a primitive reports -/

/-- The transaction answered by `x` has used up that answer, recorded the event `e`, and stored nowhere but where `stores`
says; elsewhere the register space is as the chip's own changes left it. -/
structure Answered (stores : Turn → Nat → Prop) (s : State) (x : Turn) (e : BusEvent) (u : State) : Prop where
  turns : s.turns = x :: u.turns
  trace : u.trace = s.trace ++ [e]
  mem : ∀ a, ¬ stores x a → memGet u.chip.mem a = memGet (chipAt x s.chip).mem a

/-- What a primitive can come to: no answer yet; a failure, recorded as `Fail`, that ends the operation with the transport's
cause or with one of the errors `bad` of its own; or a return, recorded as such. -/
inductive Reported {α : Type} (stores : Turn → Nat → Prop) (bad : Err → Prop) (s : State) : Prim α → Prop where
  | waiting : s.turns = [] → Reported stores bad s .waiting
  | ended (x : Turn) (e : BusEvent) (u : State) : Answered stores s x e u → failed e = true → u.pc = .idle →
      ((∃ f, x.failure = some f ∧ u.err = .busFailure f.cause) ∨ x.failure = none ∧ bad u.err) →
      Reported stores bad s (.ended u)
  | done (x : Turn) (e : BusEvent) (v : α) (u : State) : Answered stores s x e u → failed e = false →
      x.failure = none → u.pc = s.pc → Reported stores bad s (.done v u)

/-- Every primitive reports. -/
theorem transact_reported {α : Type} {stores : Turn → Nat → Prop} {bad : Err → Prop} {s : State}
    {value : Turn → State → Except Err α} {effect : Turn → State → Chip} {event : State → Option α → BusEvent}
    (hstores : ∀ x u a, u.params = s.params → ¬ stores x a → memGet (effect x u).mem a = memGet u.chip.mem a)
    (hbad : ∀ x u e, value x u = .error e → bad e)
    (hfail : ∀ u, failed (event u none) = true) (hok : ∀ u v, failed (event u (some v)) = false) :
    Reported stores bad s (transact s value effect event) := by
  obtain ⟨h, e⟩ | ⟨x, ts, s1, h, rfl, ⟨f, hf, e⟩ | ⟨hf, er, hv, e⟩ | ⟨hf, v, hv, e⟩⟩ := transact_cases s value effect event <;>
    rw [e]
  · exact .waiting h
  · refine .ended x _ _ ⟨by simp [h], by simp; rfl, fun a ha => ?_⟩ (hfail _) (by simp) (.inl ⟨f, hf, by simp⟩)
    simp only [raise_chip, emit_chip]
    split
    · exact hstores x _ a rfl ha
    · rfl
  · exact .ended x _ _ ⟨by simp [h], by simp; rfl, fun a ha => by rw [raise_chip]; exact hstores x _ a rfl ha⟩ (hfail _) (by simp)
      (.inr ⟨hf, by simpa using hbad x _ er hv⟩)
  · exact .done x _ v _ ⟨by simp [h], by simp; rfl, fun a ha => hstores x _ a rfl ha⟩ (hok _ v) hf rfl

/-- The first byte of a raw write outside the FIFO, if there is one, goes to the address given. -/
theorem mem_rawPlaces {b : Byte} {n a : Nat} : a ∈ rawPlaces b n ↔ b ≠ 0xFF ∧ n ≠ 0 ∧ a = b.toNat := by
  unfold rawPlaces
  split
  · next h => simp only [List.not_mem_nil, false_iff]; tauto
  · next h => rw [List.mem_singleton]; tauto

/-- A transaction that stores nothing. -/
abbrev nowhere : Turn → Nat → Prop := fun _ _ => False

/-- A transaction whose result raises no error. -/
abbrev noError : Err → Prop := fun _ => False

/-- A store to kind `k`. -/
abbrev inKind (p : Params) (k : Kind) : Turn → Nat → Prop := fun _ a => a ∈ kindPlaces p k

/-- A raw write: its first byte goes to its address, a later one where the answer says (R71; notes 12). -/
def inRaw (b : Byte) (n : Nat) (x : Turn) (a : Nat) : Prop :=
  a ∈ rawPlaces b n ∨ b ≠ 0xFF ∧ 2 ≤ n ∧ a ∈ x.landing.filterMap (Option.map Fin.val)

/-- A typed write leaves every byte outside its kind. -/
theorem memGet_chipAfterWrite_other {p : Params} {k : Kind} {v : KindVal} {c : Chip} {a : Nat} (h : a ∉ kindPlaces p k) :
    memGet (chipAfterWrite p k v c).mem a = memGet c.mem a :=
  memGet_memSetAll_other _ _ _ (by rwa [kindCells_places])

/-- The addresses of a kind are those it covers. -/
theorem kindCovers_iff {p : Params} {k : Kind} {a : Nat} : kindCovers p k a = true ↔ a ∈ kindPlaces p k := by
  simp only [kindCovers, kindPlaces, decide_eq_true_eq, List.mem_map, List.mem_range]
  constructor
  · intro h; exact ⟨a - p.kindAddr k, by omega, by omega⟩
  · rintro ⟨i, hi, rfl⟩; omega

/-- A raw write leaves every byte where none of its bytes lands. -/
theorem memGet_chipAfterRawWrite_other {b : Byte} {bytes : List Byte} {x : Turn} {c : Chip} {a : Nat}
    (h : ¬ inRaw b bytes.length x a) : memGet (chipAfterRawWrite b bytes x.landing c).mem a = memGet c.mem a := by
  simp only [inRaw, mem_rawPlaces, not_or] at h
  obtain ⟨hfirst, hlater⟩ := h
  unfold chipAfterRawWrite
  dsimp only
  split
  · rfl
  · next hb =>
    refine memGet_memSetAll_other _ _ _ fun ha => ?_
    obtain ⟨d, hd, rfl⟩ := List.mem_map.1 ha
    match bytes with
    | [] => simp [rawCells] at hd
    | [y] => exact hfirst ⟨hb, by simp, rawCells_one b [y] x.landing (by simp) d hd⟩
    | y :: z :: rest =>
      rcases List.mem_cons.1 hd with rfl | hd
      · exact hfirst ⟨hb, by simp, rfl⟩
      · refine hlater ⟨hb, by simp, ?_⟩
        obtain ⟨o, ho, he⟩ := List.mem_map.1 (laterCells_places _ _ d hd)
        exact List.mem_filterMap.2 ⟨o, ho, he⟩

theorem busRead_reported (k : Kind) (s : State) : Reported nowhere (DecodeFails k) s (busRead k s) :=
  transact_reported (fun _ _ _ _ _ => rfl) (fun _ _ _ => decodeFails_of_valueRead) (fun _ => rfl) (fun _ _ => rfl)

theorem busReadPart_reported (k : Kind) (part : Transfer) (s : State) :
    Reported nowhere (DecodeFails k) s (busReadPart k part s) :=
  transact_reported (fun _ _ _ _ _ => rfl) (fun _ _ _ => decodeFails_of_partRead) (fun _ => rfl) (fun _ _ => rfl)

theorem busWriteWith_reported (k : Kind) (v : State → KindVal) (s : State) :
    Reported (inKind s.params k) noError s (busWriteWith k v s) :=
  transact_reported (fun _ _ _ hp ha => by rw [hp]; exact memGet_chipAfterWrite_other ha) (fun _ _ _ h => by cases h)
    (fun _ => rfl) (fun _ _ => rfl)

theorem busWritePart_reported (k : Kind) (part : Transfer) (held : List (Nat × Byte)) (fs : List (Field × FieldVal))
    (s : State) : Reported (inKind s.params k) noError s (busWritePart k part held fs s) :=
  transact_reported (fun _ _ _ hp ha => by
      rw [hp]
      exact memGet_chipAfterPartWrite_other _ _ _ _ _ (Bool.eq_false_iff.2 fun hc => ha (kindCovers_iff.1 hc)))
    (fun _ _ _ h => by cases h) (fun _ => rfl) (fun _ _ => rfl)

theorem memWrite_reported (b : Byte) (bytes : List Byte) (s : State) :
    Reported (inRaw b bytes.length) noError s (memWrite b bytes s) :=
  transact_reported (fun _ _ _ _ ha => memGet_chipAfterRawWrite_other ha) (fun _ _ _ h => by cases h) (fun _ => rfl)
    (fun _ _ => rfl)

theorem memRead_reported (b : Byte) (n : Nat) (s : State) : Reported nowhere noError s (memRead b n s) := by
  have h : Reported nowhere noError { s with fresh := s.fresh + 1 } (memRead b n s) :=
    transact_reported (fun _ _ _ _ _ => rfl) (fun _ _ _ h => by cases h) (fun _ => rfl) (fun _ _ => rfl)
  generalize memRead b n s = x at h
  cases h with
  | waiting h => exact .waiting h
  | ended x e u h => exact .ended x e u ⟨h.turns, h.trace, h.mem⟩ ‹_› ‹_› ‹_›
  | done x e v u h => exact .done x e v u ⟨h.turns, h.trace, h.mem⟩ ‹_› ‹_› ‹_›

theorem busCommand_reported (c : Command) (s : State) : Reported nowhere noError s (busCommand c s) :=
  transact_reported (fun _ _ _ _ _ => rfl) (fun _ _ _ h => by cases h) (fun _ => rfl) (fun _ _ => rfl)

/-! ### What an act may do on the bus, by itself or by the acts it puts before the rest -/

/-- Whether the act issues a transaction. -/
def callsBus : Act → Bool
  | .engine _ | .zeroCounters | .setMask _ | .delay _ | .countPoll | .finish _ | .raise _ => false
  | .regSet _ _ | .modify _ _ | .transfers _ _ _ _ | .store _ _ | .readDiscard _ | .readValue _ | .rawWrite _ _
  | .rawRead _ _ | .command _ | .commandValue _ | .pollState _ | .pollTx | .pollRx | .fifoCount | .drain _ => true

/-- The addresses the act may store to when the answer is `x` (R61, R69, R71). -/
def MayStore (p : Params) : Act → Turn → Nat → Prop
  | .regSet k _ | .modify k _ | .transfers k _ _ _ | .store k _ => inKind p k
  | .rawWrite b bytes => inRaw b bytes.length
  | .pollRx => fun x a => inKind p .paConfig x a ∨ inRaw p.rxPmTrim.addr 1 x a
  | .engine _ | .zeroCounters | .setMask _ | .delay _ | .countPoll | .finish _ | .raise _ | .readDiscard _ | .readValue _
  | .rawRead _ _ | .command _ | .commandValue _ | .pollState _ | .pollTx | .fifoCount | .drain _ => nowhere

/-- The errors the act may raise beside a failure of the transport (R271, R273, R274). -/
def MayRaise : Act → Err → Prop
  | .raise e' => fun e => e = e'
  | .countPoll | .pollState _ | .pollTx => fun e => e = .timeout .pollLimit
  | .pollRx => fun e => (∃ l, e = .timeout l) ∨ DecodeFails .paConfig e
  | .fifoCount => fun e => e = .invalidParameter
  | .regSet k _ | .modify k _ | .transfers k _ _ _ | .readDiscard k | .readValue k => DecodeFails k
  | .engine _ | .zeroCounters | .setMask _ | .delay _ | .finish _ | .store _ _ | .rawWrite _ _ | .rawRead _ _ | .command _
  | .commandValue _ | .drain _ => noError

/-- The errors an operation may end with at the act. -/
def MayEnd (a : Act) (e : Err) : Prop := e = .none ∨ (callsBus a = true ∧ ∃ c, e = .busFailure c) ∨ MayRaise a e

/-- The four acts of STROBE_RX inside RX_BLOCKING (R193). -/
theorem strobeSteps_act {p : Params} {b : Act} (h : b ∈ (strobeSteps p).map Micro.act) :
    b = .rawWrite p.rxPmTrim.addr [p.rxPmTrim.byte] ∨ b = .regSet .paConfig [(.cwc, .num p.rxCwc)] ∨ b = .command .rx ∨
      b = .engine .rxArmed := by
  simpa [strobeSteps] using h

/-- What an act puts before the rest stores nowhere else. -/
theorem MayStore.of_spawned {p : Params} {a b : Act} (hab : Spawns p a b) {x : Turn} {adr : Nat} (h : MayStore p b x adr) :
    MayStore p a x adr := by
  cases a <;> simp only [Spawns] at hab
  case regSet => obtain ⟨_, rfl⟩ | ⟨_, _, rfl⟩ := hab <;> exact h
  case transfers => obtain ⟨_, _, rfl⟩ := hab; exact h
  case modify => obtain ⟨_, rfl⟩ := hab; exact h
  case pollState | pollTx => obtain rfl | rfl := hab <;> exact h
  case pollRx =>
    obtain hb | rfl | rfl := hab
    · obtain rfl | rfl | rfl | rfl := strobeSteps_act hb
      · exact .inr h
      · exact .inl h
      · exact h.elim
      · exact h.elim
    · exact h.elim
    · exact h
  case fifoCount => obtain ⟨_, _, rfl⟩ := hab; exact h

/-- What an act puts before the rest issues transactions only if the act does. -/
theorem callsBus_of_spawned {p : Params} {a b : Act} (hab : Spawns p a b) : callsBus a = true := by
  cases a <;> simp only [Spawns] at hab <;> rfl

/-- What an act puts before the rest raises no other error. -/
theorem MayRaise.of_spawned {p : Params} {a b : Act} (hab : Spawns p a b) {e : Err} (h : MayRaise b e) : MayRaise a e := by
  cases a <;> simp only [Spawns] at hab
  case regSet =>
    obtain ⟨_, rfl⟩ | ⟨_, _, rfl⟩ := hab
    · exact h.elim
    · exact h
  case transfers => obtain ⟨_, _, rfl⟩ := hab; exact h
  case modify => obtain ⟨_, rfl⟩ := hab; exact h.elim
  case pollState | pollTx => obtain rfl | rfl := hab <;> exact h
  case pollRx =>
    obtain hb | rfl | rfl := hab
    · obtain rfl | rfl | rfl | rfl := strobeSteps_act hb
      · exact h.elim
      · exact .inr h
      · exact h.elim
      · exact h.elim
    · exact .inl ⟨_, h⟩
    · exact h
  case fifoCount => obtain ⟨_, _, rfl⟩ := hab; exact h.elim

/-- What an act puts before the rest ends the operation with no other error. -/
theorem MayEnd.of_spawned {p : Params} {a b : Act} (hab : Spawns p a b) {e : Err} (h : MayEnd b e) : MayEnd a e := by
  obtain rfl | ⟨_, hbus⟩ | hraise := h
  · exact .inl rfl
  · exact .inr (.inl ⟨callsBus_of_spawned hab, hbus⟩)
  · exact .inr (.inr (hraise.of_spawned hab))

/-! ### What one step does -/

/-- What follows a returned primitive, or an act without one: nothing more on the bus, and an end only as the act allows. -/
structure Follows (a : Act) (u v : State) : Prop where
  turns : v.turns = u.turns
  chip : v.chip = u.chip
  trace : v.trace = u.trace
  ends : v.pc = .idle → MayEnd a v.err

/-- What the step of act `a` did from `s` to `t`. -/
inductive Stepped (a : Act) (s t : State) : Prop where
  /-- no transaction: the act issues none, or none is left of a `RegSet` in several -/
  | alone (es : List BusEvent) : (callsBus a = true → ∃ k fs held, a = .transfers k fs held []) →
      t.turns = s.turns → t.chip = s.chip → t.trace = s.trace ++ es → (∀ e ∈ es, failed e = false) →
      (t.pc = .idle → MayEnd a t.err) → Stepped a s t
  /-- a failed transaction, which ended the operation -/
  | failed (x : Turn) (e : BusEvent) : Answered (MayStore s.params a) s x e t → failed e = true → t.pc = .idle →
      MayEnd a t.err →
      ((∃ f, x.failure = some f ∧ t.err = .busFailure f.cause) ∨
        x.failure = none ∧ ∃ k code, t.err = .registerDecodeFailure k code) → Stepped a s t
  /-- a transaction that returned, and what followed -/
  | returned (x : Turn) (e : BusEvent) : Answered (MayStore s.params a) s x e t → Safety.failed e = false →
      x.failure = none → (t.pc = .idle → MayEnd a t.err) → Stepped a s t

/-- An act whose primitive reports did what the primitive reports. -/
theorem Reported.stepped {α : Type} {a : Act} {s t : State} {x : Prim α} {k : α → State → State}
    {stores : Turn → Nat → Prop} {bad : Err → Prop} (h : Reported stores bad s x)
    (hbus : callsBus a = true) (hstores : ∀ y adr, stores y adr → MayStore s.params a y adr)
    (hbad : ∀ e, bad e → MayRaise a e ∧ ∃ k code, e = .registerDecodeFailure k code)
    (hk : ∀ v u, Follows a u (k v u)) (hstep : x.andThen k = some t) : Stepped a s t := by
  cases h with
  | waiting _ => cases hstep
  | ended y e u hu he hpc herr =>
    cases hstep
    have hans : Answered (MayStore s.params a) s y e t :=
      ⟨hu.turns, hu.trace, fun adr hn => hu.mem adr fun hs => hn (hstores _ _ hs)⟩
    obtain ⟨f, hf, hc⟩ | ⟨hf, hb⟩ := herr
    · exact .failed y e hans he hpc (.inr (.inl ⟨hbus, _, hc⟩)) (.inl ⟨f, hf, hc⟩)
    · obtain ⟨hraise, hcode⟩ := hbad _ hb
      exact .failed y e hans he hpc (.inr (.inr hraise)) (.inr ⟨hf, hcode⟩)
  | done y e v u hu he hf hpc =>
    cases hstep
    have hv := hk v u
    refine .returned y e ⟨?_, ?_, fun adr hn => ?_⟩ he hf hv.ends
    · rw [hv.turns]; exact hu.turns
    · rw [hv.trace]; exact hu.trace
    · rw [hv.chip]; exact hu.mem adr fun hs => hn (hstores _ _ hs)

/-- A kind's decode failure is one. -/
theorem DecodeFails.code {k : Kind} {e : Err} (h : DecodeFails k e) :
    ∃ k code, e = .registerDecodeFailure k code := ⟨k, h.1⟩

/-- The kinds of the polls decode always (R274). -/
theorem not_decodeFails {k : Kind} (h : k ∈ [Kind.mcState, .irqMask, .irqStatus, .rxFifoStatus]) (e : Err) :
    ¬ DecodeFails k e := fun hf => hf.2 h

theorem follows_goto (a : Act) (op : Op) (l : List Micro) (u : State) : Follows a u (goto op l u) :=
  ⟨rfl, rfl, rfl, fun h => by cases h⟩

theorem follows_finish (a : Act) (r : ResultWrite) (u : State) : Follows a u (finish r u) :=
  ⟨rfl, rfl, rfl, fun _ => .inl rfl⟩

theorem follows_raise {a : Act} {e : Err} (h : MayRaise a e) (u : State) : Follows a u (raise e u) :=
  ⟨by simp, by simp, by simp, fun _ => by rw [raise_err]; exact .inr (.inr h)⟩

theorem follows_afterPollRx (op : Op) (rest : List Micro) (v : KindVal) (u : State) :
    Follows .pollRx u (afterPollRx op rest v u) := by
  unfold afterPollRx
  split
  · exact ⟨rfl, rfl, rfl, fun h => by cases h⟩
  · split
    · split
      · exact ⟨by simp, by simp, by simp, fun _ => .inr (.inr (.inl ⟨_, by simp; rfl⟩))⟩
      · exact ⟨rfl, rfl, rfl, fun h => by cases h⟩
    · exact follows_goto _ _ _ _

variable {op : Op} {l : Label} {rest : List Micro} {s t : State}

/-- An act without a transaction. -/
theorem Follows.stepped {a : Act} {s t : State} (ha : callsBus a = false) (h : Follows a s t) : Stepped a s t :=
  .alone [] (fun hb => by rw [ha] at hb; cases hb) h.turns h.chip (by simp [h.trace]) (by simp) h.ends

/-- A transaction of a `RegSet` in several, for the act that begins it and the one that goes on with it. -/
theorem transferStep_stepped {a : Act} {k : Kind} {fs : List (Field × FieldVal)} {held : List (Nat × Byte)}
    {xs : List Transfer} (hbus : callsBus a = true) (hstore : MayStore s.params a = inKind s.params k)
    (hraise : MayRaise a = DecodeFails k) (hnil : xs = [] → a = .transfers k fs held [])
    (h : transferStep op l rest k fs held s xs = some t) : Stepped a s t := by
  cases xs with
  | nil =>
    cases h
    exact .alone [] (fun _ => ⟨k, fs, held, hnil rfl⟩) rfl rfl (by simp) (by simp) fun h => by cases h
  | cons x left =>
    simp only [transferStep] at h
    split at h
    · exact (busReadPart_reported k x s).stepped hbus (fun _ _ h => h.elim) (fun e he => ⟨hraise ▸ he, he.code⟩)
        (fun _ _ => follows_goto _ _ _ _) h
    · exact (busWritePart_reported k x held fs s).stepped hbus (fun _ _ h => hstore ▸ h) (fun _ he => he.elim)
        (fun _ _ => follows_goto _ _ _ _) h

/-- What each act does in one step. -/
theorem actStep_stepped {a : Act} (h : actStep op l rest s a = some t) : Stepped a s t := by
  cases a <;> simp only [actStep] at h
  case engine | zeroCounters | setMask =>
    cases h; exact Follows.stepped rfl ⟨rfl, rfl, rfl, fun h => by cases h⟩
  case finish r => cases h; exact (follows_finish _ r s).stepped rfl
  case raise e => cases h; exact (follows_raise (a := .raise e) rfl s).stepped rfl
  case delay ms =>
    cases h
    exact .alone [.dly ms] (fun hb => by cases hb) rfl rfl rfl (by simp [failed]) fun h => by cases h
  case countPoll =>
    cases h
    unfold countPoll
    split
    · exact Follows.stepped rfl ⟨by simp, by simp, by simp, fun _ => .inr (.inr (by simp [MayRaise]))⟩
    · exact .alone [_] (fun hb => by cases hb) rfl rfl rfl (by simp [failed]) fun h => by cases h
  case regSet k fs =>
    split at h
    · split at h
      · exact (busRead_reported k s).stepped rfl (fun _ _ h => h.elim) (fun _ he => ⟨he, he.code⟩)
          (fun _ _ => follows_goto _ _ _ _) h
      · exact (busWriteWith_reported k _ s).stepped rfl (fun _ _ h => h) (fun _ he => he.elim)
          (fun _ _ => follows_goto _ _ _ _) h
    · next hne => exact transferStep_stepped rfl rfl rfl (fun hnil => absurd hnil hne) h
  case transfers k fs held xs => exact transferStep_stepped rfl rfl rfl (fun hnil => by rw [hnil]) h
  case modify k fs =>
    exact (busRead_reported k s).stepped rfl (fun _ _ h => h.elim) (fun _ he => ⟨he, he.code⟩)
      (fun _ _ => follows_goto _ _ _ _) h
  case store k v =>
    exact (busWriteWith_reported k _ s).stepped rfl (fun _ _ h => h) (fun _ he => he.elim)
      (fun _ _ => follows_goto _ _ _ _) h
  case readDiscard k =>
    exact (busRead_reported k s).stepped rfl (fun _ _ h => h.elim) (fun _ he => ⟨he, he.code⟩)
      (fun _ _ => follows_goto _ _ _ _) h
  case readValue k =>
    exact (busRead_reported k s).stepped rfl (fun _ _ h => h.elim) (fun _ he => ⟨he, he.code⟩)
      (fun _ _ => follows_finish _ _ _) h
  case rawWrite b bytes =>
    exact (memWrite_reported b bytes s).stepped rfl (fun _ _ h => h) (fun _ he => he.elim)
      (fun _ _ => follows_goto _ _ _ _) h
  case rawRead b n =>
    exact (memRead_reported b n s).stepped rfl (fun _ _ h => h) (fun _ he => he.elim) (fun _ _ => follows_finish _ _ _) h
  case command c =>
    exact (busCommand_reported c s).stepped rfl (fun _ _ h => h) (fun _ he => he.elim) (fun _ _ => follows_goto _ _ _ _) h
  case commandValue c =>
    exact (busCommand_reported c s).stepped rfl (fun _ _ h => h) (fun _ he => he.elim) (fun _ _ => follows_finish _ _ _) h
  case pollState target =>
    refine (busRead_reported _ s).stepped rfl (fun _ _ h => h) (fun e he => absurd he (not_decodeFails (by simp) e))
      (fun v u => ?_) h
    unfold afterPollState
    split <;> exact follows_goto _ _ _ _
  case pollTx =>
    refine (busRead_reported _ s).stepped rfl (fun _ _ h => h) (fun e he => absurd he (not_decodeFails (by simp) e))
      (fun v u => ?_) h
    unfold afterPollTx
    split
    · exact ⟨rfl, rfl, rfl, fun h => by cases h⟩
    · exact follows_goto _ _ _ _
  case pollRx =>
    exact (busRead_reported _ s).stepped rfl (fun _ _ h => h.elim) (fun e he => absurd he (not_decodeFails (by simp) e))
      (fun v u => follows_afterPollRx op rest v u) h
  case fifoCount =>
    refine (busRead_reported _ s).stepped rfl (fun _ _ h => h) (fun e he => absurd he (not_decodeFails (by simp) e))
      (fun v u => ?_) h
    unfold afterFifoCount
    split
    · exact follows_raise (a := .fifoCount) rfl u
    · exact follows_goto _ _ _ _
  case drain c =>
    exact (memRead_reported _ c s).stepped rfl (fun _ _ h => h) (fun _ he => he.elim)
      (k := afterDrain c) (fun v u => ⟨rfl, rfl, rfl, fun _ => .inl rfl⟩) h

/-- What one step of the sequencer does: the step of the current act, or the end of the sequence. -/
theorem seqStep_cases (h : seqStep s = some t) :
    (∃ op, s.pc = .busy op [] ∧ t = finish .nothing s) ∨
      ∃ op m rest, s.pc = .busy op (m :: rest) ∧ Stepped m.act s t := by
  unfold seqStep at h
  split at h
  · cases h
  · next op hpc => cases h; exact .inl ⟨op, hpc, rfl⟩
  · next op m rest hpc => exact .inr ⟨op, m, rest, hpc, actStep_stepped h⟩

end Sys2Proof.Machine
end

section
/-! PROOFS. The frame of memory (R61, R69 to R71), the errors of each instruction (R271 to R277), and what a failed
transaction does to its operation (R63, R276, R278): each is carried through a run by what one step of an act does. -/

namespace Sys2Proof.Safety

open Sys2Proof.Machine

/-! ### Acts of a micro-sequence -/

/-- Every act of a micro-sequence meets `ok`. -/
def AllActs (ok : Act → Prop) (steps : List Micro) : Prop := ∀ m ∈ steps, ok m.act

section
variable {ok : Act → Prop}

@[simp] theorem allActs_nil : AllActs ok [] := fun _ hm => absurd hm List.not_mem_nil

@[simp] theorem allActs_cons (m : Micro) (steps : List Micro) :
    AllActs ok (m :: steps) ↔ ok m.act ∧ AllActs ok steps := List.forall_mem_cons

@[simp] theorem allActs_append (xs ys : List Micro) : AllActs ok (xs ++ ys) ↔ AllActs ok xs ∧ AllActs ok ys :=
  List.forall_mem_append

/-- The micro-sequence of one act. -/
theorem allActs_only {l : Label} {a : Act} (h : ok a) : AllActs ok [⟨l, a⟩] := by simpa using h

/-- WAIT_FOR_STATE, alone and inside INIT (R171). -/
theorem allActs_waitSteps {target : DevState} (hzero : ok .zeroCounters) (hpoll : ok (.pollState target)) :
    AllActs ok (waitSteps target) := by
  simp [waitSteps, hzero, hpoll]

/-- S5e of INIT (R173). -/
theorem initFdevStep_act {freqDev xtalHz : Nat} (hkind : ∀ fs, ok (.regSet .fdev fs)) (hraise : ok (.raise .invalidParameter)) :
    ok (initFdevStep freqDev xtalHz).act := by
  unfold initFdevStep
  split
  · exact hraise
  · exact hkind _

/-- INIT (R172). -/
theorem allActs_initSteps {p : Params} {o : RadioInitOptions} {baseHz xtalHz : Nat}
    (hkind : ∀ k ∈ initKinds, ∀ fs, ok (.regSet k fs) ∧ ok (.modify k fs)) (hcommand : ∀ c, ok (.command c))
    (hzero : ok .zeroCounters) (hpoll : ok (.pollState .ready)) (hraise : ok (.raise .invalidParameter))
    (hfirst : ok (.rawWrite 0x99 [0x80, 0xE3])) (hsecond : ok (.rawWrite 0xBC [0x22])) :
    AllActs ok (initSteps p o baseHz xtalHz) := by
  have hset : ∀ {k fs}, k ∈ initKinds → ok (.regSet k fs) := fun hk => (hkind _ hk _).1
  have hfdev := initFdevStep_act (freqDev := o.freqDev.toNat) (xtalHz := xtalHz) (fun _ => hset (by decide)) hraise
  simp only [initSteps, allActs_append]
  refine ⟨⟨?_, allActs_waitSteps hzero hpoll⟩, ?_⟩
  · simp only [initSteps1, allActs_cons, allActs_nil, and_true]
    exact ⟨hset (by decide), hcommand _, (hkind _ (by decide) _).2, hcommand _⟩
  · simp only [initSteps2, allActs_cons, allActs_nil, and_true]
    exact ⟨hset (by decide), hset (by decide), hset (by decide), hset (by decide), hfdev, hset (by decide),
      hset (by decide), hset (by decide), hset (by decide), hfirst, hsecond, hset (by decide)⟩

/-- WA_EXTRA_CURRENT (R174). -/
theorem allActs_waSteps {p : Params} (hdelay : ∀ ms, ok (.delay ms))
    (hraw : ∀ r ∈ [p.waEc0, p.waEc1, p.waEc2], ok (.rawWrite r.addr [r.byte])) : AllActs ok (waSteps p) := by
  simp only [List.forall_mem_cons] at hraw
  unfold waSteps
  split <;> simp [hdelay, hraw]

/-- STROBE_RX, alone and inside RX_BLOCKING (R193). -/
theorem allActs_strobeSteps {p : Params} (hraw : ok (.rawWrite p.rxPmTrim.addr [p.rxPmTrim.byte]))
    (hkind : ∀ fs, ok (.regSet .paConfig fs)) (hcommand : ok (.command .rx)) (hengine : ok (.engine .rxArmed)) :
    AllActs ok (strobeSteps p) := by
  simp [strobeSteps, hraw, hkind, hcommand, hengine]

/-- PKT_CONFIGURE for the Basic format (R226). -/
theorem allActs_basicSteps {p : Params} {o : BasicOptions} (hraise : ok (.raise .invalidParameter))
    (hkind : ∀ k ∈ [Kind.pcktFltOptions, .pcktctrl], ∀ fs, ok (.regSet k fs)) (hsync : ∀ v, ok (.store .sync v)) :
    AllActs ok (basicSteps p o) := by
  simp only [List.forall_mem_cons] at hkind
  unfold basicSteps
  split
  · exact allActs_only hraise
  · simp [hkind, hsync]

end

/-! ### The frame of memory -/

/-- Whatever the answer, the act stores only where instruction `i` may: to its addresses, or where the answer lands it. -/
def StoresFor (p : Params) (i : Instr) (a : Act) : Prop :=
  ∀ x adr, MayStore p a x adr → adr ∈ storesTo p i ∨ adr ∈ landings i [x]

section
variable {p : Params} {i : Instr}

/-- An act that stores nothing stores where any instruction may. -/
theorem storesFor_nowhere {a : Act} (h : MayStore p a = nowhere) : StoresFor p i a :=
  fun x adr hs => by rw [h] at hs; exact hs.elim

/-- A typed write to a kind of the instruction. -/
theorem storesFor_kind {a : Act} {k : Kind} (h : MayStore p a = inKind p k) (hk : kindPlaces p k ⊆ storesTo p i) :
    StoresFor p i a :=
  fun x adr hs => by rw [h] at hs; exact .inl (hk hs)

/-- A raw write of one byte has no later byte. -/
theorem storesFor_rawOne {b y : Byte} (hb : rawPlaces b 1 ⊆ storesTo p i) : StoresFor p i (.rawWrite b [y]) := by
  rintro x adr (hs | ⟨_, hlong, _⟩)
  · exact .inl (hb hs)
  · simp at hlong

/-- A raw write into the FIFO stores nothing in the register space. -/
theorem storesFor_fifo {bytes : List Byte} : StoresFor p i (.rawWrite 0xFF bytes) := by
  rintro x adr (hs | ⟨hne, _⟩)
  · exact absurd rfl (mem_rawPlaces.1 hs).1
  · exact absurd rfl hne

/-- A raw write of an instruction whose later bytes land where the answers say. -/
theorem storesFor_rawMany {b : Byte} {bytes : List Byte}
    (hi : ∀ x, landings i [x] = x.landing.filterMap (Option.map Fin.val))
    (hb : rawPlaces b bytes.length ⊆ storesTo p i) : StoresFor p i (.rawWrite b bytes) := by
  rintro x adr (hs | ⟨_, _, hland⟩)
  · exact .inl (hb hs)
  · exact .inr (by rwa [hi])

end

/-- STROBE_RX, alone and inside RX_BLOCKING, stores where these two may (R193). -/
theorem storesFor_strobeSteps {p : Params} {i : Instr}
    (hi : storesTo p i = kindPlaces p .paConfig ++ rawPlaces p.rxPmTrim.addr 1) : AllActs (StoresFor p i) (strobeSteps p) :=
  allActs_strobeSteps (storesFor_rawOne fun _ ha => hi ▸ List.mem_append_right _ ha)
    (fun _ => storesFor_kind rfl fun _ ha => hi ▸ List.mem_append_left _ ha) (storesFor_nowhere rfl) (storesFor_nowhere rfl)

/-- A poll of RX_BLOCKING stores where its strobe does (R194). -/
theorem storesFor_pollRx {p : Params} {i : Instr}
    (hi : storesTo p i = kindPlaces p .paConfig ++ rawPlaces p.rxPmTrim.addr 1) : StoresFor p i .pollRx := by
  rintro x adr (hk | hr | ⟨_, hlong, _⟩)
  · exact .inl (hi ▸ List.mem_append_left _ hk)
  · exact .inl (hi ▸ List.mem_append_right _ hr)
  · omega

/-- Where one answer lands bytes, a row of answers with it in does. -/
theorem landings_mono {i : Instr} {x : Turn} {ts : List Turn} (hx : x ∈ ts) : landings i [x] ⊆ landings i ts := by
  cases i
  case init | writeRaw =>
    intro adr h
    simp only [landings, List.flatMap_cons, List.flatMap_nil, List.append_nil] at h
    exact List.mem_flatMap.2 ⟨x, hx, h⟩
  all_goals exact List.Subset.refl _

/-- Every act of an instruction's micro-sequence stores where the instruction may. -/
theorem storesFor_sequenceOf (i : Instr) (s : State) : AllActs (StoresFor s.params i) (sequenceOf i s) := by
  cases i <;> dsimp only [sequenceOf]
  case init o =>
    have hkind : ∀ k ∈ initKinds, kindPlaces s.params k ⊆ storesTo s.params (.init o) := fun k hk _ ha =>
      List.mem_append_left _ (List.mem_append_left _ (List.mem_flatMap.2 ⟨k, hk, ha⟩))
    refine allActs_initSteps (fun k hk _ => ⟨storesFor_kind rfl (hkind k hk), storesFor_kind rfl (hkind k hk)⟩)
      (fun _ => storesFor_nowhere rfl) (storesFor_nowhere rfl) (storesFor_nowhere rfl) (storesFor_nowhere rfl)
      (storesFor_rawMany (fun x => by simp [landings]) fun _ ha => ?_) (storesFor_rawOne fun _ ha => ?_)
    · exact List.mem_append_left _ (List.mem_append_right _ ha)
    · exact List.mem_append_right _ ha
  case waExtraCurrent =>
    refine allActs_waSteps (fun _ => storesFor_nowhere rfl) fun r hr => storesFor_rawOne fun _ ha => ?_
    simp only [List.mem_cons, List.not_mem_nil, or_false] at hr
    simp only [storesTo, List.mem_append]
    obtain rfl | rfl | rfl := hr
    · exact .inl (.inl ha)
    · exact .inl (.inr ha)
    · exact .inr ha
  case waitForState target =>
    split
    · exact allActs_only (storesFor_nowhere rfl)
    · exact allActs_waitSteps (storesFor_nowhere rfl) (storesFor_nowhere rfl)
  case txBlocking payload =>
    have hkind : ∀ k ∈ [Kind.pcktlen, .paConfig], kindPlaces s.params k ⊆ storesTo s.params (.txBlocking payload) :=
      fun k hk _ ha => List.mem_append_left _ (List.mem_append_left _ (List.mem_flatMap.2 ⟨k, hk, ha⟩))
    have hvco : rawPlaces s.params.txVcoBuf.addr 1 ⊆ storesTo s.params (.txBlocking payload) := fun _ ha =>
      List.mem_append_left _ (List.mem_append_right _ ha)
    have htrim : rawPlaces s.params.txPmTrim.addr 1 ⊆ storesTo s.params (.txBlocking payload) := fun _ ha =>
      List.mem_append_right _ ha
    simp only [txSteps, allActs_cons, allActs_nil, and_true]
    exact ⟨storesFor_nowhere rfl, storesFor_nowhere rfl, storesFor_nowhere rfl, storesFor_fifo,
      storesFor_kind rfl (hkind _ (by decide)), storesFor_kind rfl (hkind _ (by decide)), storesFor_rawOne hvco,
      storesFor_rawOne htrim, storesFor_nowhere rfl, storesFor_nowhere rfl, storesFor_nowhere rfl, storesFor_nowhere rfl⟩
  case strobeRx => exact storesFor_strobeSteps rfl
  case rxBlocking =>
    simp only [rxSteps, allActs_append, allActs_cons, allActs_nil, and_true]
    exact ⟨⟨⟨storesFor_nowhere rfl, storesFor_nowhere rfl⟩, storesFor_strobeSteps rfl⟩, storesFor_pollRx rfl,
      storesFor_nowhere rfl⟩
  case pktConfigure c =>
    cases c with
    | basic o =>
      have hkind : ∀ k ∈ [Kind.pcktFltOptions, .pcktctrl, .sync],
          kindPlaces s.params k ⊆ storesTo s.params (.pktConfigure (.basic o)) :=
        fun k hk _ ha => List.mem_flatMap.2 ⟨k, hk, ha⟩
      simp only [List.forall_mem_cons] at hkind
      obtain ⟨hflt, hctrl, hsync, -⟩ := hkind
      refine allActs_basicSteps (storesFor_nowhere rfl) ?_ fun _ => storesFor_kind rfl hsync
      simp only [List.forall_mem_cons]
      exact ⟨fun _ => storesFor_kind rfl hflt, fun _ => storesFor_kind rfl hctrl, by simp⟩
    | wmbus _ => exact allActs_only (storesFor_nowhere rfl)
    | stack _ => exact allActs_only (storesFor_nowhere rfl)
  case pktConfigureFilter f =>
    have hkind : ∀ k ∈ [Kind.pcktFltOptions, .fltAddr],
        kindPlaces s.params k ⊆ storesTo s.params (.pktConfigureFilter f) :=
      fun k hk _ ha => List.mem_flatMap.2 ⟨k, hk, ha⟩
    simp only [filterSteps, allActs_cons, allActs_nil, and_true]
    exact ⟨storesFor_kind rfl (hkind _ (by decide)), storesFor_kind rfl (hkind _ (by decide))⟩
  all_goals refine allActs_only ?_
  case bandResolve | encFdev | encPaDbm => split <;> exact storesFor_nowhere rfl
  case irqSilence | irqMaskCommit => exact storesFor_kind rfl (List.Subset.refl _)
  case write k v =>
    split
    · exact storesFor_nowhere rfl
    · exact storesFor_kind rfl (List.Subset.refl _)
  case writeRaw b bytes => exact storesFor_rawMany (fun x => by simp [landings]) (List.Subset.refl _)
  all_goals exact storesFor_nowhere rfl

/-- A change that leaves the register space alone leaves every byte of it. -/
theorem mem_chipAt {x : Turn} (h : ∀ d ∈ x.drift, keepsRegisters d = true) (c : Chip) : (chipAt x c).mem = c.mem := by
  unfold chipAt
  generalize x.drift = ds at h
  induction ds generalizing c with
  | nil => rfl
  | cons d ds ih =>
    rw [List.foldl_cons, ih _ fun e he => h e (List.mem_cons_of_mem _ he)]
    have hd := h d List.mem_cons_self
    cases d with
    | register _ _ => cases hd
    | txFifo _ | rxFifo _ | stateCode _ | pending _ => rfl

/-- A byte outside the addresses of the acts, and outside where the answers `ts` land bytes, is kept by a step. -/
theorem memGet_eq_of_stepped {i : Instr} {a : Act} {s t : State} {ts : List Turn} {adr : Nat} (h : Stepped a s t)
    (hstores : StoresFor s.params i a) (hts : s.turns ⊆ ts) (hdrift : ∀ x ∈ ts, ∀ d ∈ x.drift, keepsRegisters d = true)
    (hadr : adr ∉ storesTo s.params i) (hland : adr ∉ landings i ts) : memGet t.chip.mem adr = memGet s.chip.mem adr := by
  have answered : ∀ {x e}, Answered (MayStore s.params a) s x e t → memGet t.chip.mem adr = memGet s.chip.mem adr := by
    intro x e h
    have hx : x ∈ ts := hts (h.turns ▸ List.mem_cons_self)
    rw [h.mem adr fun hm => (hstores x adr hm).elim hadr fun hl => hland (landings_mono hx hl), mem_chipAt (hdrift x hx)]
  cases h with
  | alone es _ _ hchip => rw [hchip]
  | failed x e h => exact answered h
  | returned x e h => exact answered h

/-- Settles O12: a run with pauses is the run with all its answers from the start, and each of its steps keeps every byte
outside the addresses of its act. -/
theorem memoryChangesOnlyWhereStored : Obligations.MemoryChangesOnlyWhereStored := by
  intro i s t more hruns hdrift adr hadr hland
  obtain ⟨hidle, rfl⟩ | ⟨_, rfl⟩ := exec_cases hruns.exec_all
  · have hframe := settle_frame (s := accepted i { s with turns := s.turns ++ more })
      (P := fun u => memGet u.chip.mem adr = memGet s.chip.mem adr ∧ u.turns ⊆ s.turns ++ more)
      (ok := StoresFor s.params i) rfl (storesFor_sequenceOf i _)
      (fun a b ha hab x ad hb => ha x ad (hb.of_spawned hab)) (fun u _ hu => hu)
      (fun u v l rest a hp ha hpc hstep ⟨hmem, hturns⟩ => ?_) ⟨rfl, List.Subset.refl _⟩
    · exact hframe.1
    · obtain ⟨used, hused⟩ := (actStep_carried hstep).turns
      refine ⟨?_, fun x hx => hturns (hused ▸ List.mem_append_right used hx)⟩
      rw [← hmem]
      exact memGet_eq_of_stepped (i := i) (actStep_stepped hstep) (hp ▸ ha) hturns hdrift (hp ▸ hadr) hland
  · rfl

/-! ### The errors of each instruction -/

/-- An error instruction `i` may end with: one of its own, and no decode failure of a kind whose decode is total (R274). -/
def GoodEnd (i : Instr) (e : Err) : Prop :=
  mayEndWith i e = true ∧
    ∀ k code, e = .registerDecodeFailure k code → k ∉ [Kind.mcState, .irqMask, .irqStatus, .rxFifoStatus]

/-- Every error the act may end an operation with is one instruction `i` may end with. -/
def EndsFor (i : Instr) (a : Act) : Prop := ∀ e, MayEnd a e → GoodEnd i e

theorem goodEnd_none (i : Instr) : GoodEnd i .none := ⟨rfl, by simp⟩

/-- A failure of the transport ends the instructions that use the bus, and no other (R272). -/
theorem mayEndWith_busFailure (i : Instr) (cause : Nat) : mayEndWith i (.busFailure cause) = !isBusFree i := by
  cases i with
  | pktConfigure c => cases c <;> rfl
  | _ => rfl

theorem goodEnd_busFailure {i : Instr} (hi : isBusFree i = false) (cause : Nat) : GoodEnd i (.busFailure cause) :=
  ⟨by rw [mayEndWith_busFailure, hi]; rfl, by simp⟩

section
variable {i : Instr} {a : Act}

/-- What an act may end with, case by case. -/
theorem endsFor_of (hbus : callsBus a = true → isBusFree i = false) (hraise : ∀ e, MayRaise a e → GoodEnd i e) :
    EndsFor i a := by
  rintro e (rfl | ⟨ha, cause, rfl⟩ | he)
  · exact goodEnd_none i
  · exact goodEnd_busFailure (hbus ha) cause
  · exact hraise e he

/-- An act that touches no bus and raises nothing. -/
theorem endsFor_silent (ha : callsBus a = false) (hraise : MayRaise a = noError) : EndsFor i a :=
  endsFor_of (fun h => by rw [ha] at h; cases h) fun _ he => by rw [hraise] at he; exact he.elim

/-- An act that touches the bus and raises nothing but a failure of the transport. -/
theorem endsFor_bus (hi : isBusFree i = false) (hraise : MayRaise a = noError) : EndsFor i a :=
  endsFor_of (fun _ => hi) fun _ he => by rw [hraise] at he; exact he.elim

/-- An act that reads kind `k`, whose decode failure the instruction may end with. -/
theorem endsFor_read {k : Kind} (hi : isBusFree i = false) (hraise : MayRaise a = DecodeFails k)
    (hk : ∀ code, mayEndWith i (.registerDecodeFailure k code) = true) : EndsFor i a := by
  refine endsFor_of (fun _ => hi) fun e he => ?_
  rw [hraise] at he
  obtain ⟨⟨code, rfl⟩, htotal⟩ := he
  exact ⟨hk code, fun _ _ h => by cases h; exact htotal⟩

/-- An act that raises one error, no decode failure, that the instruction may end with. -/
theorem endsFor_raises {e : Err} (hbus : callsBus a = true → isBusFree i = false) (hraise : MayRaise a = fun e' => e' = e)
    (he : mayEndWith i e = true) (hcode : ∀ k code, e ≠ .registerDecodeFailure k code) : EndsFor i a := by
  refine endsFor_of hbus fun e' he' => ?_
  rw [hraise] at he'
  subst he'
  exact ⟨he, fun k code h => absurd h (hcode k code)⟩

/-- An act that raises `InvalidParameter` for an instruction that checks its operands (R273). -/
theorem endsFor_invalid (hi : mayEndWith i .invalidParameter = true) : EndsFor i (.raise .invalidParameter) :=
  endsFor_raises (fun h => by cases h) rfl hi (by simp)

/-- A poll loop that ends at `POLL_LIMIT` (R171, R191). -/
theorem endsFor_poll (hi : isBusFree i = false) (hraise : MayRaise a = fun e => e = .timeout .pollLimit)
    (ht : mayEndWith i (.timeout .pollLimit) = true) : EndsFor i a :=
  endsFor_raises (fun _ => hi) hraise ht (by simp)

/-- STROBE_RX, alone and inside RX_BLOCKING, ends only as these two may (R193). -/
theorem endsFor_strobeSteps {p : Params} (hi : isBusFree i = false)
    (hk : ∀ code, mayEndWith i (.registerDecodeFailure .paConfig code) = true) : AllActs (EndsFor i) (strobeSteps p) :=
  allActs_strobeSteps (endsFor_bus hi rfl) (fun _ => endsFor_read hi rfl hk) (endsFor_bus hi rfl) (endsFor_silent rfl rfl)

/-- What an act puts before the rest ends only as the act may. -/
theorem EndsFor.of_spawned {p : Params} {b : Act} (ha : EndsFor i a) (hab : Spawns p a b) : EndsFor i b :=
  fun e he => ha e (he.of_spawned hab)

end

/-- Every act of an instruction's micro-sequence ends only as the instruction may. -/
theorem endsFor_sequenceOf (i : Instr) (s : State) : AllActs (EndsFor i) (sequenceOf i s) := by
  cases i <;> dsimp only [sequenceOf]
  case init o =>
    have hk : ∀ k ∈ initKinds, ∀ code, mayEndWith (.init o) (.registerDecodeFailure k code) = true :=
      fun k hk _ => List.contains_iff_mem.2 hk
    exact allActs_initSteps (fun k hk' _ => ⟨endsFor_read rfl rfl (hk k hk'), endsFor_read rfl rfl (hk k hk')⟩)
      (fun _ => endsFor_bus rfl rfl) (endsFor_silent rfl rfl) (endsFor_poll rfl rfl rfl) (endsFor_invalid rfl)
      (endsFor_bus rfl rfl) (endsFor_bus rfl rfl)
  case waExtraCurrent => exact allActs_waSteps (fun _ => endsFor_silent rfl rfl) fun _ _ => endsFor_bus rfl rfl
  case waitForState target =>
    split
    · exact allActs_only (endsFor_invalid rfl)
    · exact allActs_waitSteps (endsFor_silent rfl rfl) (endsFor_poll rfl rfl rfl)
  case txBlocking payload =>
    simp only [txSteps, allActs_cons, allActs_nil, and_true]
    exact ⟨endsFor_silent rfl rfl, endsFor_silent rfl rfl, endsFor_bus rfl rfl, endsFor_bus rfl rfl,
      endsFor_read rfl rfl fun _ => rfl, endsFor_read rfl rfl fun _ => rfl, endsFor_bus rfl rfl, endsFor_bus rfl rfl,
      endsFor_bus rfl rfl, endsFor_silent rfl rfl, endsFor_poll rfl rfl rfl, endsFor_silent rfl rfl⟩
  case strobeRx => exact endsFor_strobeSteps rfl fun _ => rfl
  case rxBlocking =>
    have hpoll : EndsFor .rxBlocking .pollRx := by
      refine endsFor_of (fun _ => rfl) ?_
      rintro e (⟨l, rfl⟩ | ⟨⟨code, rfl⟩, htotal⟩)
      · exact ⟨rfl, by simp⟩
      · exact ⟨rfl, fun _ _ h => by cases h; exact htotal⟩
    simp only [rxSteps, allActs_append, allActs_cons, allActs_nil, and_true]
    exact ⟨⟨⟨endsFor_silent rfl rfl, endsFor_silent rfl rfl⟩, endsFor_strobeSteps rfl fun _ => rfl⟩, hpoll,
      endsFor_raises (fun _ => rfl) rfl rfl (by simp)⟩
  case pktConfigure c =>
    cases c with
    | basic o =>
      refine allActs_basicSteps (endsFor_invalid rfl) ?_ fun _ => endsFor_bus rfl rfl
      simp only [List.forall_mem_cons]
      exact ⟨fun _ => endsFor_read rfl rfl fun _ => rfl, fun _ => endsFor_read rfl rfl fun _ => rfl, by simp⟩
    | wmbus _ => exact allActs_only (endsFor_raises (fun h => by cases h) rfl rfl (by simp))
    | stack _ => exact allActs_only (endsFor_raises (fun h => by cases h) rfl rfl (by simp))
  case pktConfigureFilter f =>
    simp only [filterSteps, allActs_cons, allActs_nil, and_true]
    exact ⟨endsFor_read rfl rfl fun _ => rfl, endsFor_bus rfl rfl⟩
  all_goals refine allActs_only ?_
  case bandResolve | encFdev | encPaDbm =>
    split
    · exact endsFor_invalid rfl
    · exact endsFor_silent rfl rfl
  case write k v =>
    split
    · exact endsFor_invalid rfl
    · exact endsFor_bus rfl rfl
  case irqClear =>
    exact endsFor_of (fun _ => rfl) fun e he => absurd he (not_decodeFails (by simp) e)
  case read k => exact endsFor_read rfl rfl fun _ => beq_self_eq_true k
  case irqSilence | irqMaskCommit | writeRaw | readRaw => exact endsFor_bus rfl rfl
  case encDatarate | encChflt | encRssiTh | encRxTimeout | encFoffset | encChspace | encIfOffset | irqMaskNew | irqMaskSet
    | irqIsSet | delay => exact endsFor_silent rfl rfl
  all_goals exact endsFor_bus rfl rfl

/-- What a step leaves idle ended as its act may. -/
theorem mayEnd_of_stepped {a : Act} {s t : State} (h : Stepped a s t) (hidle : Idle t) : MayEnd a t.err := by
  cases h with
  | alone _ _ _ _ _ _ hend => exact hend hidle
  | failed _ _ _ _ _ hend => exact hend
  | returned _ _ _ _ _ hend => exact hend hidle

/-- Settles O16: a run ends where one of its acts ends it, and every act of an instruction ends only as the instruction
may. -/
theorem errorKindsByInstruction : Obligations.ErrorKindsByInstruction := by
  intro i s t more hidle hruns hend
  have hexec := hruns.exec_all
  rw [exec_idle i (s := { s with turns := s.turns ++ more }) hidle] at hexec
  cases hexec
  exact settle_frame (s := accepted i { s with turns := s.turns ++ more })
    (P := fun u => Idle u → GoodEnd i u.err) (ok := EndsFor i) rfl (endsFor_sequenceOf i _)
    (fun _ _ => EndsFor.of_spawned) (fun _ _ _ _ => goodEnd_none i)
    (fun u v l rest a _ ha _ hstep _ hv => ha _ (mayEnd_of_stepped (actStep_stepped hstep) hv))
    (fun h => by cases h) hend

/-! ### A failed transaction is the last of its operation -/

/-- How far an operation requested in `s` has come in `u`, as its trace shows: no transaction has failed; or the last one has,
it alone, the block is idle, and `ERR` says so (R63, R276, R278). -/
def FailsLast (s u : State) : Prop :=
  ∃ es : List BusEvent, (∀ e ∈ es, failed e = false) ∧
    (u.trace = s.trace ++ es ∨
      Idle u ∧ (∃ e, failed e = true ∧ u.trace = s.trace ++ (es ++ [e])) ∧
        ((∃ cause, u.err = .busFailure cause) ∨ ∃ k code, u.err = .registerDecodeFailure k code))

/-- A step of a busy block keeps it: it records what returned, or what failed, and then the block is idle. -/
theorem FailsLast.step {s u v : State} (h : FailsLast s u) (hstep : seqStep u = some v) : FailsLast s v := by
  obtain ⟨es, hes, htrace | ⟨hidle, _⟩⟩ := h
  · have grown : ∀ l : List BusEvent, (∀ e ∈ l, failed e = false) → v.trace = u.trace ++ l → FailsLast s v :=
      fun l hl hv => ⟨es ++ l, List.forall_mem_append.2 ⟨hes, hl⟩, .inl (by rw [hv, htrace, List.append_assoc])⟩
    obtain ⟨op, _, rfl⟩ | ⟨op, m, rest, _, hdid⟩ := seqStep_cases hstep
    · exact grown [] (by simp) (by simp)
    · cases hdid with
      | alone l _ _ _ hv hl => exact grown l hl hv
      | failed x e hans he hpc _ herr =>
        refine ⟨es, hes, .inr ⟨hpc, ⟨e, he, by rw [hans.trace, htrace, List.append_assoc]⟩, ?_⟩⟩
        obtain ⟨f, _, hc⟩ | ⟨_, hk⟩ := herr
        · exact .inl ⟨_, hc⟩
        · exact .inr hk
      | returned x e hans he => exact grown [e] (by simpa using he) hans.trace
  · simp [seqStep, hidle] at hstep

/-- A list whose last element alone fails, split at an element that fails, is split at its last. -/
theorem split_at_last_failed {es before after : List BusEvent} {e x : BusEvent} (hes : ∀ y ∈ es, failed y = false)
    (hx : failed x = true) (h : es ++ [e] = before ++ x :: after) : after = [] ∧ ∀ y ∈ before, failed y = false := by
  obtain rfl | ⟨init, last, rfl⟩ := List.eq_nil_or_concat after
  · have hsplit := List.append_inj' h rfl
    exact ⟨rfl, hsplit.1 ▸ hes⟩
  · have hinit : es = before ++ x :: init := by
      refine (List.append_inj' (s₁ := es) (t₁ := [e]) (s₂ := before ++ x :: init) (t₂ := [last]) ?_ rfl).1
      simpa using h
    have hxok := hes x (by simp [hinit])
    rw [hx] at hxok
    cases hxok

/-- Settles O17: the run keeps `FailsLast`, so a failed event among the new ones is the one that ended it. -/
theorem failedPrimitiveEndsOperation : Obligations.FailedPrimitiveEndsOperation := by
  intro i s t more before after e hidle hruns hnew he
  have hexec := hruns.exec_all
  rw [exec_idle i (s := { s with turns := s.turns ++ more }) hidle] at hexec
  cases hexec
  have hlast : FailsLast s (settle (accepted i { s with turns := s.turns ++ more })) :=
    settle_keeps (FailsLast s) (fun _ _ => FailsLast.step) ⟨[], by simp, .inl (by simp [accepted])⟩
  obtain ⟨es, hes, htrace | ⟨hend, ⟨x, _, htrace⟩, herr⟩⟩ := hlast
  · rw [newEvents, htrace, List.drop_left] at hnew
    have heok := hes e (by simp [hnew])
    rw [he] at heok
    cases heok
  · rw [newEvents, htrace, List.drop_left] at hnew
    obtain ⟨hafter, hbefore⟩ := split_at_last_failed hes he hnew
    exact ⟨hafter, hend, hbefore, herr⟩

/-! ### A failure of the first transaction -/

/-- `u` is `s` after one transaction that failed in transport with cause `cause`, `ts` being the answers after it. -/
def EndedByTransport (s u : State) (cause : Nat) (ts : List Turn) : Prop :=
  ∃ e : BusEvent, Idle u ∧ u.err = .busFailure cause ∧ u.trace = s.trace ++ [e] ∧ failed e = true ∧ u.turns = ts

/-- A run whose current act issues a transaction ends there if the transport fails (R63, R272). -/
theorem settle_transportFailure {s : State} {op : Op} {m : Micro} {rest : List Micro} {x : Turn} {ts : List Turn}
    {f : TransportFailure} (hpc : s.pc = .busy op (m :: rest)) (hbus : callsBus m.act = true)
    (hnew : ∀ k fs held, m.act ≠ .transfers k fs held []) (hturns : s.turns = x :: ts) (hf : x.failure = some f) :
    EndedByTransport s (settle s) f.cause ts := by
  cases hstep : seqStep s with
  | none =>
    obtain hidle | hnil := stops_idle_or_waits hstep
    · rw [hpc] at hidle; cases hidle
    · rw [hturns] at hnil; cases hnil
  | some t =>
    rw [settle_some hstep]
    simp only [seqStep, hpc] at hstep
    cases actStep_stepped hstep with
    | alone es ha => obtain ⟨k, fs, held, h⟩ := ha hbus; exact absurd h (hnew k fs held)
    | failed y e hans he hidle _ herr =>
      obtain ⟨rfl, hts⟩ : x = y ∧ ts = t.turns := by simpa [hturns] using hans.turns
      rw [settle_idle hidle]
      obtain ⟨g, hg, hc⟩ | ⟨hg, _⟩ := herr
      · rw [hf] at hg; cases hg
        exact ⟨e, hidle, hc, hans.trace, he, hts.symm⟩
      · rw [hf] at hg; cases hg
    | returned y e hans _ hnone =>
      obtain ⟨rfl, _⟩ : x = y ∧ ts = t.turns := by simpa [hturns] using hans.turns
      rw [hf] at hnone; cases hnone

/-- An act before the first transaction: it changes neither the trace nor the answers to come. -/
def Preparatory : Act → Prop
  | .engine _ | .zeroCounters => True
  | _ => False

/-- A micro-sequence that reaches the bus: after acts that only prepare, an act that issues a transaction. -/
inductive ReachesBus : List Micro → Prop where
  | here (m : Micro) (rest : List Micro) : callsBus m.act = true → (∀ k fs held, m.act ≠ .transfers k fs held []) →
      ReachesBus (m :: rest)
  | after (m : Micro) (rest : List Micro) : Preparatory m.act → ReachesBus rest → ReachesBus (m :: rest)

/-- An act that only prepares goes on with the rest. -/
theorem seqStep_preparatory {s : State} {op : Op} {m : Micro} {rest : List Micro} (hpc : s.pc = .busy op (m :: rest))
    (hm : Preparatory m.act) :
    ∃ t, seqStep s = some t ∧ t.pc = .busy op rest ∧ t.turns = s.turns ∧ t.trace = s.trace := by
  obtain ⟨l, a⟩ := m
  simp only [seqStep, hpc]
  cases a
  case engine | zeroCounters => exact ⟨_, rfl, rfl, rfl, rfl⟩
  all_goals exact hm.elim

/-- A run of a micro-sequence that reaches the bus ends there if the transport fails. -/
theorem ReachesBus.settle {steps : List Micro} (h : ReachesBus steps) {s : State} {op : Op} {x : Turn} {ts : List Turn}
    {f : TransportFailure} (hpc : s.pc = .busy op steps) (hturns : s.turns = x :: ts) (hf : x.failure = some f) :
    EndedByTransport s (settle s) f.cause ts := by
  induction h generalizing s with
  | here m rest hbus hnew => exact settle_transportFailure hpc hbus hnew hturns hf
  | after m rest hm _ ih =>
    obtain ⟨t, hstep, hpc', hturns', htrace⟩ := seqStep_preparatory hpc hm
    obtain ⟨e, hidle, herr, hgrown, he, hts⟩ := ih hpc' (hturns'.trans hturns)
    rw [settle_some hstep]
    exact ⟨e, hidle, herr, by rw [hgrown, htrace], he, hts⟩

/-- A micro-sequence that begins with a transaction. -/
theorem reachesBus_first {l : Label} {a : Act} {rest : List Micro} (hbus : callsBus a = true)
    (hnew : ∀ k fs held, a ≠ .transfers k fs held [] := by simp) : ReachesBus (⟨l, a⟩ :: rest) :=
  .here _ _ hbus hnew

/-- Every instruction that uses the bus reaches it, but for the requests that are refused before any access (R171, R226,
R236). -/
theorem reachesBus_sequenceOf {i : Instr} {s : State} (hi : isBusFree i = false) (hwait : i ≠ .waitForState .invalid)
    (hwrite : ∀ k v, i = .write k v → constructValue s.params k v ≠ none)
    (hpkt : ∀ o, i = .pktConfigure (.basic o) → constructFields s.params .pcktctrl (basicFields o) ≠ none) :
    ReachesBus (sequenceOf i s) := by
  cases i <;> dsimp only [sequenceOf] <;> try cases hi
  case init o => exact reachesBus_first rfl
  case waExtraCurrent => exact reachesBus_first rfl
  case waitForState target =>
    rw [if_neg fun h => hwait (by rw [h])]
    exact .after _ _ trivial (reachesBus_first rfl)
  case txBlocking payload => exact .after _ _ trivial (.after _ _ trivial (reachesBus_first rfl))
  case rxBlocking => exact .after _ _ trivial (.after _ _ trivial (reachesBus_first rfl))
  case pktConfigure c =>
    cases c with
    | basic o =>
      obtain ⟨fs, hfs⟩ := Option.ne_none_iff_exists'.1 (hpkt o rfl)
      simp only [pktSteps, basicSteps, hfs]
      exact reachesBus_first rfl
    | wmbus _ => cases hi
    | stack _ => cases hi
  case write k v =>
    obtain ⟨w, hw⟩ := Option.ne_none_iff_exists'.1 (hwrite k v rfl)
    rw [hw]
    exact reachesBus_first rfl
  all_goals exact reachesBus_first rfl

/-- Settles O52: the instruction's micro-sequence reaches the bus, and its run ends there. -/
theorem firstTransportFailureIsReported : Obligations.FirstTransportFailureIsReported := by
  intro i s x ts f hi hwait hwrite hpkt hidle hturns hf
  obtain ⟨e, hend, herr, htrace, he, hts⟩ :=
    (reachesBus_sequenceOf hi hwait hwrite hpkt).settle (s := accepted i s) rfl hturns hf
  exact ⟨_, e, exec_idle i hidle, hend, herr, htrace, he, hts⟩

end Sys2Proof.Safety
end

section
/-! PROOFS. What a `RegSet` does, whatever its codec's grouping (R66, U1): how a primitive returns, the run of its transactions
one by one, and what it sends to a chip whose answers decode. -/

namespace Sys2Proof.Machine

open Sys2Proof.Safety

/-! ### Primitives that return -/

/-- The state after a transaction that returned: the answers still to come, the chip, and the event recorded (R17). -/
def returned (ts : List Turn) (c : Chip) (e : BusEvent) (s : State) : State :=
  { s with turns := ts, chip := c, trace := s.trace ++ [e] }

section
variable {s : State} {x : Turn} {ts : List Turn}

/-- A primitive that the transport delivers and whose result raises nothing returns. -/
theorem transact_returns {α : Type} {value : Turn → State → Except Err α} {effect : Turn → State → Chip}
    {event : State → Option α → BusEvent} {v : α} (hs : s.turns = x :: ts) (hx : x.failure = none)
    (hv : value x { s with turns := ts, chip := chipAt x s.chip } = .ok v) :
    transact s value effect event = .done v
      (returned ts (effect x { s with turns := ts, chip := chipAt x s.chip })
        (event { s with turns := ts, chip := chipAt x s.chip } (some v)) s) := by
  unfold chipAt at hv
  simp only [transact, nextTurn, hs, hx, hv]
  rfl

/-- `BusRead` whose bytes decode. -/
theorem busRead_returns {k : Kind} {v : KindVal} (hs : s.turns = x :: ts) (hx : x.failure = none)
    (hv : valueRead s.params k x (chipAt x s.chip) = .ok v) :
    busRead k s = .done v (returned ts (chipAfterRead k (chipAt x s.chip)) (.rd k (some v)) s) :=
  transact_returns hs hx hv

/-- `BusWrite`, its value fixed when it reaches the chip. -/
theorem busWriteWith_returns (k : Kind) (v : State → KindVal) (hs : s.turns = x :: ts) (hx : x.failure = none) :
    busWriteWith k v s = .done () (returned ts
      (chipAfterWrite s.params k (v { s with turns := ts, chip := chipAt x s.chip }) (chipAt x s.chip))
      (.wr k (v { s with turns := ts, chip := chipAt x s.chip }) true) s) :=
  transact_returns (value := fun _ _ => .ok ()) hs hx rfl

/-- `BusWrite` of a value fixed beforehand. -/
theorem busWrite_returns (k : Kind) (v : KindVal) (hs : s.turns = x :: ts) (hx : x.failure = none) :
    busWrite k v s = .done () (returned ts (chipAfterWrite s.params k v (chipAt x s.chip)) (.wr k v true) s) :=
  busWriteWith_returns k (fun _ => v) hs hx

/-- The write of a `RegSet` that does not read first. -/
theorem busSet_returns (k : Kind) (fs : List (Field × FieldVal)) (hs : s.turns = x :: ts) (hx : x.failure = none) :
    busSet k fs s = .done () (returned ts
      (chipAfterWrite s.params k (setOnChip s.params k fs (chipAt x s.chip)) (chipAt x s.chip))
      (.wr k (setOnChip s.params k fs (chipAt x s.chip)) true) s) :=
  busWriteWith_returns k (fun u => setOnChip u.params k fs u.chip) hs hx

/-- A write of one part. -/
theorem busWritePart_returns (k : Kind) (part : Transfer) (held : List (Nat × Byte)) (fs : List (Field × FieldVal))
    (hs : s.turns = x :: ts) (hx : x.failure = none) :
    busWritePart k part held fs s = .done () (returned ts
      (chipAfterPartWrite s.params k part (setOnHeld s.params k held fs (chipAt x s.chip)) (chipAt x s.chip))
      (.wrPart k part (setOnHeld s.params k held fs (chipAt x s.chip)) true) s) :=
  transact_returns (value := fun _ _ => .ok ()) hs hx rfl

/-- A read of one part whose fields decode. -/
theorem busReadPart_returns {k : Kind} {part : Transfer} {bs : List Byte} (hs : s.turns = x :: ts)
    (hx : x.failure = none) (hv : partRead s.params k part x (chipAt x s.chip) = .ok bs) :
    busReadPart k part s = .done bs (returned ts (chipAfterRead k (chipAt x s.chip)) (.rdPart k part (some bs)) s) :=
  transact_returns hs hx hv

/-- A read of one part whose fields do not decode ends the operation, recorded as `Fail`. -/
theorem busReadPart_fails {k : Kind} {part : Transfer} {er : Err} (hs : s.turns = x :: ts) (hx : x.failure = none)
    (hv : partRead s.params k part x (chipAt x s.chip) = .error er) :
    ∃ u, busReadPart k part s = .ended u ∧ u.trace = s.trace ++ [.rdPart k part none] := by
  obtain ⟨h, _⟩ | ⟨y, tl, s1, h, rfl, ⟨f, hf, _⟩ | ⟨_, _, _, e⟩ | ⟨_, _, hok, _⟩⟩ :=
    transact_cases s (fun t s1 => partRead s1.params k part t s1.chip) (fun _ s1 => chipAfterRead k s1.chip)
      (fun _ bs => .rdPart k part bs)
  · rw [hs] at h; cases h
  · rw [hs] at h; cases h; rw [hx] at hf; cases hf
  · exact ⟨_, e, by simp⟩
  · rw [hs] at h; cases h; cases hv.symm.trans hok

end

/-! ### Runs of a number of steps -/

/-- A run of a number of steps carries. -/
theorem runSteps_carried (n : Nat) (s : State) : Carried s (runSteps n s) := by
  induction n generalizing s with
  | zero => exact .refl s
  | succ n ih =>
    unfold runSteps
    split
    · exact .refl s
    · next t h => exact (seqStep_carried h).trans (ih t)

/-- The run goes on from where a number of its steps have come. -/
theorem settle_runSteps (n : Nat) (s : State) : settle (runSteps n s) = settle s := by
  induction n generalizing s with
  | zero => rfl
  | succ n ih =>
    unfold runSteps
    split
    · rfl
    · next t h => rw [ih t, settle_some h]

theorem runSteps_succ {n : Nat} {s t : State} (h : seqStep s = some t) : runSteps (n + 1) s = runSteps n t := by
  simp [runSteps, h]

/-! ### The transactions of a `RegSet` in several (U1) -/

/-- The transactions `xs` that are left of a `RegSet`, each answered: from the bytes held and the chip before them to the
events recorded and the chip after them. -/
inductive PartsRun (p : Params) (k : Kind) (fs : List (Field × FieldVal)) :
    List (Nat × Byte) → Chip → List Turn → List Transfer → List BusEvent → Chip → Prop where
  | nil (held : List (Nat × Byte)) (c : Chip) : PartsRun p k fs held c [] [] [] c
  | read {held : List (Nat × Byte)} {c d : Chip} {t : Turn} {ts : List Turn} {x : Transfer} {xs : List Transfer}
      {es : List BusEvent} : x.read = true →
      PartsRun p k fs (partCells x (x.part (bytesRead p k t (chipAt t c))) ++ held) (chipAfterRead k (chipAt t c)) ts xs es d →
      PartsRun p k fs held c (t :: ts) (x :: xs) (.rdPart k x (some (x.part (bytesRead p k t (chipAt t c)))) :: es) d
  | write {held : List (Nat × Byte)} {c d : Chip} {t : Turn} {ts : List Turn} {x : Transfer} {xs : List Transfer}
      {es : List BusEvent} : x.read = false →
      PartsRun p k fs held (chipAfterPartWrite p k x (setOnHeld p k held fs (chipAt t c)) (chipAt t c)) ts xs es d →
      PartsRun p k fs held c (t :: ts) (x :: xs) (.wrPart k x (setOnHeld p k held fs (chipAt t c)) true :: es) d

/-- Where the transactions `xs` left of a `RegSet` have brought `s`: one of the reads did not decode, and the trace says so; or
all of them are done, and the operation goes on with the rest. -/
def TransfersRun (op : Op) (next : List Micro) (k : Kind) (fs : List (Field × FieldVal)) (held : List (Nat × Byte))
    (used left : List Turn) (xs : List Transfer) (s w : State) : Prop :=
  ∃ es : List BusEvent, w.trace = s.trace ++ es ∧
    (((∃ e ∈ es, failed e = true) ∧
        ∃ t ∈ used, ∃ x ∈ xs, x.read = true ∧ ∃ c er, partRead s.params k x t c = .error er) ∨
      ∃ d, PartsRun s.params k fs held s.chip used xs es d ∧
        w = goto op next { s with turns := left, chip := d, trace := s.trace ++ es })

section
variable {op : Op} {l : Label} {next : List Micro} {k : Kind} {fs : List (Field × FieldVal)} {held held' : List (Nat × Byte)}
  {used left : List Turn} {xs : List Transfer} {s w : State}

/-- One transaction before the others. -/
theorem TransfersRun.cons {t : Turn} {x : Transfer} {e : BusEvent} {c : Chip}
    (hrun : ∀ es d, PartsRun s.params k fs held' c used xs es d → PartsRun s.params k fs held s.chip (t :: used) (x :: xs) (e :: es) d)
    (h : TransfersRun op next k fs held' used left xs
      (goto op (⟨l, .transfers k fs held' xs⟩ :: next) (returned (used ++ left) c e s)) w) :
    TransfersRun op next k fs held (t :: used) left (x :: xs) s w := by
  obtain ⟨es, htrace, ⟨⟨f, hf, hfail⟩, t', ht', x', hx', hpart⟩ | ⟨d, hd, hend⟩⟩ := h
  · exact ⟨e :: es, by simp [htrace, returned],
      .inl ⟨⟨f, List.mem_cons_of_mem _ hf, hfail⟩, t', List.mem_cons_of_mem _ ht', x', List.mem_cons_of_mem _ hx', hpart⟩⟩
  · exact ⟨e :: es, by simp [htrace, returned], .inr ⟨d, hrun es d hd, by rw [hend]; simp [goto, returned]⟩⟩

/-- A run of the transactions left of a `RegSet` that the transport delivers: one step each, and one to go on. -/
theorem runSteps_transfers (hlen : used.length = xs.length) (hused : ∀ t ∈ used, t.failure = none)
    (hstep : seqStep s = transferStep op l next k fs held s xs) (hturns : s.turns = used ++ left) :
    TransfersRun op next k fs held used left xs s (runSteps (xs.length + 1) s) := by
  induction xs generalizing used s held with
  | nil =>
    obtain rfl := List.length_eq_zero_iff.1 hlen
    obtain rfl : s.turns = left := by simpa using hturns
    rw [List.length_nil, runSteps_succ hstep]
    exact ⟨[], by simp [runSteps], .inr ⟨s.chip, .nil _ _, by simp [runSteps]⟩⟩
  | cons x xs ih =>
    obtain ⟨t, ts, rfl⟩ := List.exists_cons_of_length_eq_add_one hlen
    simp only [List.forall_mem_cons, List.length_cons, Nat.add_right_cancel_iff] at hused hlen
    obtain ⟨ht, hts⟩ := hused
    cases hread : x.read with
    | true =>
      simp only [transferStep, hread, if_true] at hstep
      obtain hok | ⟨code, _, herr⟩ := partRead_cases s.params k x t (chipAt t s.chip)
      · rw [busReadPart_returns hturns ht hok] at hstep
        rw [List.length_cons, runSteps_succ hstep]
        exact .cons (fun _ _ => .read hread) (ih hlen hts rfl rfl)
      · obtain ⟨u, hu, htrace⟩ := busReadPart_fails hturns ht herr
        rw [hu] at hstep
        obtain ⟨es, hes⟩ := (runSteps_carried (xs.length + 1) u).trace
        rw [List.length_cons, runSteps_succ hstep]
        exact ⟨.rdPart k x none :: es, by rw [hes, htrace, List.append_assoc, List.singleton_append],
          .inl ⟨⟨_, List.mem_cons_self, rfl⟩, t, List.mem_cons_self, x, List.mem_cons_self, hread, _, _, herr⟩⟩
    | false =>
      simp only [transferStep, hread, Bool.false_eq_true, if_false] at hstep
      rw [busWritePart_returns k x held fs hturns ht] at hstep
      rw [List.length_cons, runSteps_succ hstep]
      exact .cons (fun _ _ => .write hread) (ih hlen hts rfl rfl)

end

/-! ### The other steps of a `RegSet` -/

section
variable {op : Op} {l : Label} {next : List Micro} {k : Kind} {fs : List (Field × FieldVal)} {s : State} {t : Turn}
  {ts : List Turn}

/-- `BusWrite(k, v)`, delivered. -/
theorem seqStep_store {v : KindVal} (hpc : s.pc = .busy op (⟨l, .store k v⟩ :: next)) (hturns : s.turns = t :: ts)
    (ht : t.failure = none) :
    seqStep s = some (goto op next (returned ts (chipAfterWrite s.params k v (chipAt t s.chip)) (.wr k v true) s)) := by
  simp only [seqStep, hpc, actStep, busWrite_returns k v hturns ht, Prim.andThen]

/-- A `RegSet` in one write, delivered (R66). -/
theorem seqStep_regSet_write (hpc : s.pc = .busy op (⟨l, .regSet k fs⟩ :: next))
    (hx : (s.params.kindInfo k).transfers = []) (hrmw : (s.params.kindInfo k).rmw = false) (hturns : s.turns = t :: ts)
    (ht : t.failure = none) :
    seqStep s = some (goto op next (returned ts
      (chipAfterWrite s.params k (setOnChip s.params k fs (chipAt t s.chip)) (chipAt t s.chip))
      (.wr k (setOnChip s.params k fs (chipAt t s.chip)) true) s)) := by
  simp only [seqStep, hpc, actStep, hx, hrmw, Bool.false_eq_true, if_false, busSet_returns k fs hturns ht, Prim.andThen]

/-- The act reads kind `k` and then writes it with the fields replaced: a `RegSet` that reads first, and S3b of INIT. -/
def ReadsThenWrites (p : Params) (k : Kind) (fs : List (Field × FieldVal)) (a : Act) : Prop :=
  a = .regSet k fs ∧ (p.kindInfo k).transfers = [] ∧ (p.kindInfo k).rmw = true ∨ a = .modify k fs

/-- The read of such an act, delivered and decoded (R66). -/
theorem seqStep_readsThenWrites {a : Act} {v : KindVal} (ha : ReadsThenWrites s.params k fs a)
    (hpc : s.pc = .busy op (⟨l, a⟩ :: next)) (hturns : s.turns = t :: ts) (ht : t.failure = none)
    (hv : valueRead s.params k t (chipAt t s.chip) = .ok v) :
    seqStep s = some (goto op (⟨l, .store k (withFields s.params k v fs)⟩ :: next)
      (returned ts (chipAfterRead k (chipAt t s.chip)) (.rd k (some v)) s)) := by
  obtain ⟨rfl, hx, hrmw⟩ | rfl := ha
  · simp only [seqStep, hpc, actStep, hx, hrmw, if_true, busRead_returns hturns ht hv, Prim.andThen]
    rfl
  · simp only [seqStep, hpc, actStep, busRead_returns hturns ht hv, Prim.andThen]
    rfl

/-- A `RegSet` in several transactions begins with the first of them (U1). -/
theorem seqStep_regSet_transfers (hpc : s.pc = .busy op (⟨l, .regSet k fs⟩ :: next))
    (hx : (s.params.kindInfo k).transfers ≠ []) :
    seqStep s = transferStep op l next k fs [] s (s.params.kindInfo k).transfers := by
  simp only [seqStep, hpc, actStep]

end

/-! ### Answers that decode -/

/-- A read of a register with an enumerated field gets an answer that decodes (R274). -/
theorem badCode_of_good {p : Params} {ks : List Kind} {k : Kind} {t : Turn} (ht : Good p ks t) (hk : k ∈ ks)
    (hreads : regSetReads p k = true) (c : Chip) : badCode p k (orderBytes p k (bytesRead p k t c)) = none := by
  cases hcan : p.canFail k with
  | false =>
    have hnone : p.kindTags k = [] := by simpa [Params.canFail] using hcan
    simp [badCode, badCodeAmong, hnone]
  | true =>
    have hdecodes := ht.2 k hk (by simp [riskyRead, hreads, hcan])
    unfold answerDecodes at hdecodes
    split at hdecodes
    · next bytes hlookup =>
      unfold bytesRead
      rw [hlookup]
      exact Option.isNone_iff_eq_none.1 hdecodes
    · cases hdecodes

/-- So a typed read returns a value. -/
theorem valueRead_of_good {p : Params} {ks : List Kind} {k : Kind} {t : Turn} (ht : Good p ks t) (hk : k ∈ ks)
    (hreads : regSetReads p k = true) (c : Chip) : ∃ v, valueRead p k t c = .ok v := by
  obtain ⟨_, ok⟩ | ⟨_, ⟨_, ok⟩ | ⟨code, hbad, _⟩⟩ := decodeBytes_cases p k (bytesRead p k t c)
  · exact ⟨_, ok⟩
  · exact ⟨_, ok⟩
  · rw [badCode_of_good ht hk hreads] at hbad; cases hbad

/-- So does a read of one part. -/
theorem partRead_of_good {p : Params} {ks : List Kind} {k : Kind} {t : Turn} (ht : Good p ks t) (hk : k ∈ ks)
    (hreads : regSetReads p k = true) (x : Transfer) (c : Chip) (er : Err) : partRead p k x t c ≠ .error er := by
  have hgood := badCode_of_good ht hk hreads c
  simp only [badCode, badCodeAmong, Option.map_eq_none_iff, List.find?_eq_none] at hgood
  have hpart : badCodeAmong (p.partTags k x) (orderBytes p k (bytesRead p k t c)) = none := by
    simp only [badCodeAmong, Option.map_eq_none_iff, List.find?_eq_none]
    exact fun g hg => hgood g (List.mem_filter.1 hg).1
  simp [partRead, hpart]

/-! ### What a `RegSet` sends -/

/-- The transactions of a `RegSet` send its fields as far as they lie in the parts written. -/
theorem PartsRun.sent {p : Params} {k : Kind} {fs : List (Field × FieldVal)} {held : List (Nat × Byte)} {c d : Chip}
    {ts : List Turn} {xs : List Transfer} {es : List BusEvent} (h : PartsRun p k fs held c ts xs es d) :
    es.filterMap sentOf = (xs.filter fun x => !x.read).map fun x => .part k x fs := by
  induction h with
  | nil => rfl
  | read hr _ ih => rw [List.filterMap_cons_none rfl, ih]; simp [hr]
  | write hr _ ih => simpa [hr, sentOf, setOnHeld] using ih

/-- What a row of steps sent, from `s`, before the operation went on with `steps` and the answers `left`. -/
def SentOn (op : Op) (steps : List Micro) (left : List Turn) (sends : List Sent) (s : State) : Prop :=
  ∃ (es : List BusEvent) (c : Chip), es.filterMap sentOf = sends ∧
    settle s = settle (goto op steps { s with turns := left, chip := c, trace := s.trace ++ es })

section
variable {op : Op} {l : Label} {next : List Micro} {k : Kind} {fs : List (Field × FieldVal)} {s : State}
  {p : Params} {used left : List Turn} {ks : List Kind}

/-- What is sent in two rows of steps is sent in one. -/
theorem SentOn.append {steps : List Micro} {mid : List Turn} {xs ys : List Sent} (h : SentOn op steps mid xs s)
    (k : ∀ es c, SentOn op next left ys (goto op steps { s with turns := mid, chip := c, trace := s.trace ++ es })) :
    SentOn op next left (xs ++ ys) s := by
  obtain ⟨es, c, hes, hs⟩ := h
  obtain ⟨es', c', hes', hs'⟩ := k es c
  exact ⟨es ++ es', c', by rw [List.filterMap_append, hes, hes'], by rw [hs, hs']; simp [goto]⟩

/-- `BusWrite(k, v)` sends its value. -/
theorem sentOn_store {t : Turn} {v : KindVal} {x : Sent} (hpc : s.pc = .busy op (⟨l, .store k v⟩ :: next))
    (hturns : s.turns = t :: left) (ht : t.failure = none) (hx : sentOf (.wr k v true) = some x) :
    SentOn op next left [x] s :=
  ⟨[.wr k v true], _, by simp [hx], settle_some (seqStep_store hpc hturns ht)⟩

/-- A `RegSet` of a kind sends its fields, in one transaction or in those of its grouping, to a chip whose answers decode (R66,
U1). -/
theorem sentOn_regSet (hpc : s.pc = .busy op (⟨l, .regSet k fs⟩ :: next)) (hturns : s.turns = used ++ left)
    (hlen : used.length = regSetTurns p k) (hused : ∀ t ∈ used, Good p ks t) (hk : k ∈ ks) (hfs : fs ≠ [])
    (hp : s.params = p := by rfl) : SentOn op next left (regSends p k fs) s := by
  subst hp
  obtain ⟨f, fs', rfl⟩ := List.exists_cons_of_ne_nil hfs
  cases hx : (s.params.kindInfo k).transfers with
  | nil =>
    simp only [regSetTurns, regSends, hx] at hlen ⊢
    cases hrmw : (s.params.kindInfo k).rmw with
    | false =>
      obtain ⟨t, rfl⟩ := List.length_eq_one_iff.1 (by simpa [hrmw] using hlen)
      exact ⟨[_], _, rfl, settle_some (seqStep_regSet_write hpc hx hrmw hturns (hused t (by simp)).1)⟩
    | true =>
      obtain ⟨t₁, t₂, rfl⟩ := List.length_eq_two.1 (by simpa [hrmw] using hlen)
      have hgood := hused t₁ (by simp)
      obtain ⟨v, hv⟩ := valueRead_of_good hgood hk (by simp [regSetReads, hx, hrmw]) (chipAt t₁ s.chip)
      exact SentOn.append (xs := []) ⟨[_], _, rfl, settle_some
        (seqStep_readsThenWrites (.inl ⟨rfl, hx, hrmw⟩) hpc hturns hgood.1 hv)⟩
        fun es c => sentOn_store rfl rfl (hused t₂ (by simp)).1 rfl
  | cons x xs =>
    have hlen' : used.length = (s.params.kindInfo k).transfers.length := by rw [hlen, regSetTurns, hx]
    have hrun := runSteps_transfers hlen' (fun t ht => (hused t ht).1)
      (seqStep_regSet_transfers hpc (by simp [hx])) hturns
    obtain ⟨es, _, ⟨_, t, ht, y, hy, hread, c, er, herr⟩ | ⟨d, hd, hend⟩⟩ := hrun
    · have hreads : regSetReads s.params k = true := by
        rw [regSetReads, hx]
        exact List.any_eq_true.2 ⟨y, hx ▸ hy, hread⟩
      exact absurd herr (partRead_of_good (hused t ht) hk hreads y c er)
    · refine ⟨es, d, ?_, by rw [← hend, settle_runSteps]⟩
      rw [hd.sent, regSends, hx]

end

end Sys2Proof.Machine
end

section
/-! PROOFS. Packet lengths too wide for their fields (R65, R226, U12): what the construction of a field value does with them,
and what PKT_CONFIGURE sends for the values constructed. -/

namespace Sys2Proof.Machine

open Sys2Proof.Safety

/-! ### Field values at their construction (R65, U12) -/

section
variable {p : Params} {k : Kind} {f : Field} {n : Nat}

/-- A number too wide for a field that rejects is rejected. -/
theorem constructField_rejected (hwide : 2 ^ p.fieldWidth k f - 1 < n) (hrej : (p.fieldInfo k f).rejects = true) :
    constructField p k (f, .num n) = none := by
  simp only [constructField]
  rw [if_neg (by omega), if_pos hrej]

/-- Any other number is cut at the widest value of the field. -/
theorem constructField_clamped (h : 2 ^ p.fieldWidth k f - 1 < n → (p.fieldInfo k f).rejects = false) :
    constructField p k (f, .num n) = some (f, .num (min n (2 ^ p.fieldWidth k f - 1))) := by
  have hpos : 0 < 2 ^ p.fieldWidth k f := Nat.two_pow_pos _
  simp only [constructField]
  split
  · rw [min_eq_left (by omega)]
  · next hn => rw [h (by omega), min_eq_right (by omega)]; rfl

/-- One rejected field value rejects the whole. -/
theorem constructFields_rejected {fs : List (Field × FieldVal)} {x : Field × FieldVal} (hx : x ∈ fs)
    (hrej : constructField p k x = none) : constructFields p k fs = none := by
  induction fs with
  | nil => cases hx
  | cons y fs ih =>
    rcases List.mem_cons.1 hx with rfl | hx
    · simp [constructFields, hrej]
    · rw [constructFields, ih hx]
      cases constructField p k y <;> rfl

end

/-- The fields K2 writes, with the three lengths given (R226). -/
def packetFields (o : BasicOptions) (controlLen preambleLen syncLen : Nat) : List (Field × FieldVal) :=
  [(.addressField, .flag o.addressField), (.controlLen, .num controlLen), (.preambleLen, .num preambleLen),
    (.syncLen, .num syncLen), (.lengthMode, .lengthMode o.lengthMode), (.format, .basicFormat)]

/-- The three lengths that K2 writes, each under the name of its field. -/
def packetLengths (o : BasicOptions) : List (Field × Nat) :=
  [(.controlLen, o.controlLen), (.preambleLen, max o.preambleLen 1), (.syncLen, o.syncLen)]

/-- A length that is rejected refuses the whole packet. -/
theorem basicSteps_rejected {p : Params} {o : BasicOptions} {x : Field × Nat} (hx : x ∈ packetLengths o)
    (hwide : 2 ^ p.fieldWidth .pcktctrl x.1 - 1 < x.2) (hrej : (p.fieldInfo .pcktctrl x.1).rejects = true) :
    basicSteps p o = [⟨.k1, .raise .invalidParameter⟩] := by
  have hmem : (x.1, FieldVal.num x.2) ∈ basicFields o := by
    simp only [packetLengths, List.mem_cons, List.not_mem_nil, or_false] at hx
    obtain rfl | rfl | rfl := hx <;> simp [basicFields]
  simp only [basicSteps, constructFields_rejected hmem (constructField_rejected hwide hrej)]

/-- Lengths that are not rejected are cut at the widest values of their fields. -/
theorem constructFields_basicFields {p : Params} {o : BasicOptions}
    (h : ∀ x ∈ packetLengths o, 2 ^ p.fieldWidth .pcktctrl x.1 - 1 < x.2 → (p.fieldInfo .pcktctrl x.1).rejects = false) :
    constructFields p .pcktctrl (basicFields o) = some (packetFields o
      (min o.controlLen (2 ^ p.fieldWidth .pcktctrl .controlLen - 1))
      (min (max o.preambleLen 1) (2 ^ p.fieldWidth .pcktctrl .preambleLen - 1))
      (min o.syncLen (2 ^ p.fieldWidth .pcktctrl .syncLen - 1))) := by
  simp only [packetLengths, List.forall_mem_cons] at h
  obtain ⟨hcontrol, hpreamble, hsync, -⟩ := h
  simp only [basicFields, constructFields, constructField_clamped hcontrol, constructField_clamped hpreamble,
    constructField_clamped hsync]
  rfl

/-! ### What PKT_CONFIGURE sends -/

/-- A row of answers cut after the first `m`. -/
theorem exists_split {α : Type} {l : List α} {m n : Nat} (h : l.length = m + n) :
    ∃ xs ys, l = xs ++ ys ∧ xs.length = m ∧ ys.length = n :=
  ⟨l.take m, l.drop m, (List.take_append_drop m l).symm, by rw [List.length_take]; omega, by rw [List.length_drop]; omega⟩

/-- K1, K2 and K3 send the packet, to a chip whose answers decode (R226). -/
theorem exec_pktConfigure_sends {o : BasicOptions} {s : State} {used rest : List Turn} {controlLen preambleLen syncLen : Nat}
    (hidle : Idle s)
    (hfields : constructFields s.params .pcktctrl (basicFields o) = some (packetFields o controlLen preambleLen syncLen))
    (hturns : s.turns = used ++ rest) (hused : ∀ x ∈ used, Good s.params [.pcktFltOptions, .pcktctrl] x)
    (hlen : used.length = regSetTurns s.params .pcktFltOptions + regSetTurns s.params .pcktctrl + 1) :
    ∃ t : State, exec (.pktConfigure (.basic o)) s = .next t ∧ Idle t ∧ t.err = .none ∧ t.turns = rest ∧
      sent s t = packetSends s.params o controlLen preambleLen syncLen := by
  obtain ⟨used', last, rfl, hlen', hlast⟩ := exists_split hlen
  obtain ⟨flt, ctrl, rfl, hflt, hctrl⟩ := exists_split hlen'
  obtain ⟨x, rfl⟩ := List.length_eq_one_iff.1 hlast
  simp only [List.forall_mem_append] at hused
  obtain ⟨⟨hgflt, hgctrl⟩, hgx⟩ := hused
  have hpc : (accepted (.pktConfigure (.basic o)) s).pc = .busy .pktConfigure (basicSteps s.params o) := rfl
  simp only [basicSteps, hfields] at hpc
  have hsends : SentOn .pktConfigure [] rest (packetSends s.params o controlLen preambleLen syncLen)
      (accepted (.pktConfigure (.basic o)) s) := by
    have hk1 := sentOn_regSet hpc (left := ctrl ++ ([x] ++ rest)) (by simp [accepted, hturns]) hflt hgflt (by simp) (by simp)
    exact (hk1.append fun _ _ => sentOn_regSet rfl rfl hctrl hgctrl
      (by simp) (List.cons_ne_nil _ _)).append fun _ _ => sentOn_store (t := x)
        (v := .record [o.sync0, o.sync1, o.sync2, o.sync3] []) rfl rfl (hgx x (by simp)).1 rfl
  obtain ⟨es, c, hes, hsettle⟩ := hsends
  refine ⟨_, exec_idle _ hidle, ?_⟩
  rw [hsettle, settle_end rfl]
  refine ⟨rfl, rfl, rfl, ?_⟩
  rw [← hes, sent, newEvents]
  simp [accepted]

end Sys2Proof.Machine

namespace Sys2Proof.Safety

open Sys2Proof.Machine

/-- Settles O50: the construction of the three lengths decides between a refusal before K1 and the packet of the values cut to
their fields. -/
theorem packetTooWideOptionClampsOrFails : Obligations.PacketTooWideOptionClampsOrFails := by
  intro o s hidle
  refine ⟨fun ⟨x, hx, hwide, hrej⟩ => ?_, fun h used rest hturns hused hlen => ?_⟩
  · rw [exec_raise (.pktConfigure (.basic o)) hidle (basicSteps_rejected hx hwide hrej)]
    rfl
  · exact exec_pktConfigure_sends hidle (constructFields_basicFields h) hturns hused hlen

end Sys2Proof.Safety
end

section
/-! PROOFS. The mask read back (R64, R68, R74): a typed write stands in the register space at the addresses of its kind, and
outside the status registers a typed read gets what stands there. -/

namespace Sys2Proof.Machine

open Sys2Proof.Safety

/-- A typed write puts its bytes at the consecutive addresses of its kind (R60, R66). -/
theorem memGet_chipAfterWrite (p : Params) (k : Kind) (v : KindVal) (c : Chip) {j : Nat} (hj : j < p.kindLen k) :
    memGet (chipAfterWrite p k v c).mem (p.kindAddr k + j) = some ((encodeValue p k v).getD j 0) := by
  have hlen := encodeValue_length p k v
  refine memGet_memSetAll_mem _ _ _ _ ?_ ?_
  · rw [kindCells_places]
    exact List.nodup_range.map fun a b h => by omega
  · refine List.mem_map.2 ⟨((encodeValue p k v).getD j 0, j), ?_, rfl⟩
    rw [List.mem_zipIdx_iff_getElem?, List.getD_eq_getElem?_getD, List.getElem?_eq_getElem (by omega)]
    rfl

/-- The bytes of a register that is no status register are those the chip shows at its addresses. -/
theorem kindBytes_eq_map {p : Params} {k : Kind} (hk : k ∉ [Kind.irqStatus, .mcState, .rxFifoStatus]) (c : Chip) :
    kindBytes p c k = (List.range (p.kindLen k)).map fun i => chipByte p c (p.kindAddr k + i) := by
  cases k
  case irqStatus | mcState | rxFifoStatus => simp at hk
  all_goals rfl

/-- What a typed write of kind `k` leaves in a register that is no status register is what a read of it finds. -/
theorem kindBytes_chipAfterWrite {p : Params} {k : Kind} {v : KindVal} {c : Chip}
    (hk : k ∉ [Kind.irqStatus, .mcState, .rxFifoStatus])
    (hplace : ∀ j < p.kindLen k, liveKindAt p (p.kindAddr k + j) = none) :
    kindBytes p (chipAfterWrite p k v c) k = encodeValue p k v := by
  rw [kindBytes_eq_map hk]
  refine List.ext_getElem (by simp) fun j h₁ h₂ => ?_
  have hj : j < p.kindLen k := by simpa using h₁
  simp only [List.getElem_map, List.getElem_range, chipByte, hplace j hj, storedByte, memGet_chipAfterWrite p k v c hj]
  simp [List.getD_eq_getElem?_getD, List.getElem?_eq_getElem h₂]

/-- An instruction that stores one value of a kind, delivered: the value stands on the chip (R236). -/
theorem exec_store {i : Instr} {s : State} {l : Label} {k : Kind} {v : KindVal} {t : Turn} {ts : List Turn} (hidle : Idle s)
    (hseq : sequenceOf i s = [⟨l, .store k v⟩]) (hturns : s.turns = t :: ts) (ht : t.failure = none) :
    exec i s = .next (finish .nothing (goto (opOf i) []
      (returned ts (chipAfterWrite s.params k v (chipAt t s.chip)) (.wr k v true) (accepted i s)))) := by
  rw [exec_idle i hidle, settle_some (seqStep_store (s := accepted i s) (by simp only [accepted, hseq]; rfl) hturns ht),
    settle_end rfl]
  rfl

/-- READ of bytes that decode gives the value (R235). -/
theorem exec_read_ok {k : Kind} {s : State} {v : KindVal} {t : Turn} {ts : List Turn} (hidle : Idle s)
    (hturns : s.turns = t :: ts) (ht : t.failure = none) (hv : valueRead s.params k t (chipAt t s.chip) = .ok v) :
    exec (.read k) s = .next (finish (.value v)
      (returned ts (chipAfterRead k (chipAt t s.chip)) (.rd k (some v)) (accepted (.read k) s))) := by
  have hstep : seqStep (accepted (.read k) s) = (busRead k (accepted (.read k) s)).andThen fun v => finish (.value v) := rfl
  rw [busRead_returns (s := accepted (.read k) s) hturns ht hv] at hstep
  rw [exec_idle _ hidle, settle_some hstep, settle_idle rfl]
  rfl

end Sys2Proof.Machine

namespace Sys2Proof.Safety

open Sys2Proof.Machine

/-- A chip that changes nothing by itself is found as it was left. -/
theorem chipAt_quiet {t : Turn} (ht : Quiet t) (c : Chip) : chipAt t c = c := by
  rw [chipAt, ht.2.1, List.foldl_nil]

/-- A chip that answers from its own registers gives a typed read what they hold. -/
theorem bytesRead_quiet {t : Turn} (ht : Quiet t) (p : Params) (k : Kind) (c : Chip) :
    bytesRead p k t c = kindBytes p c k := by
  rw [bytesRead, ht.2.2.1]; rfl

/-- Settles O57: the four bytes of the mask stand at the addresses of `IRQ_MASK`, are read from there, and make up the mask
again. -/
theorem maskReadIsMaskWritten : Obligations.MaskReadIsMaskWritten := by
  intro w s u v t₁ t₂ ts hidle hturns ht₁ ht₂ hplace hwrite hread
  rw [exec_store hidle (i := .write .irqMask (.word w)) (l := .only) (k := .irqMask) (v := .word w) rfl hturns ht₁.1,
    chipAt_quiet ht₁] at hwrite
  cases hwrite
  have hencode : encodeValue s.params .irqMask (.word w) = wordBytes w := fitBytes_self (wordBytes w)
  have hbytes : bytesRead s.params .irqMask t₂ (chipAfterWrite s.params .irqMask (.word w) s.chip) = wordBytes w := by
    rw [bytesRead_quiet ht₂, kindBytes_chipAfterWrite (k := .irqMask) (by decide) hplace, hencode]
  have hvalue : valueRead s.params .irqMask t₂ (chipAt t₂ (chipAfterWrite s.params .irqMask (.word w) s.chip)) =
      .ok (.word w) := by
    rw [chipAt_quiet ht₂, valueRead, hbytes]
    simp only [decodeBytes, bytesWord_wordBytes]
  rw [exec_read_ok (ts := ts) (t := t₂) rfl rfl ht₂.1 hvalue] at hread
  cases hread
  exact ⟨rfl, rfl⟩

end Sys2Proof.Safety
end

section
/-! PROOFS. Field updates (R66, R72, R175): what a `RegSet` leaves in a register depends on the bits beside its fields alone,
so that a `RegSet` in several transactions, which puts the register together from what it read and what the chip holds
meanwhile, leaves the same bytes as one write (U1). -/

namespace Sys2Proof

open Sys2Proof.Machine Sys2Proof.Safety

/-! ### A field's bits are determined by its value -/

/-- Equal codes at the same places are equal bits. -/
theorem bitAt_of_codeAt {js : List Nat} {xs ys : List Byte} (h : codeAt js xs = codeAt js ys) :
    ∀ j ∈ js, bitAt xs j = bitAt ys j := by
  induction js with
  | nil => simp
  | cons i js ih =>
    simp only [codeAt] at h
    have hx := (bitAt xs i).toNat_lt
    have hy := (bitAt ys i).toNat_lt
    refine List.forall_mem_cons.2 ⟨?_, ih (by omega)⟩
    have hbool : ∀ a b : Bool, a.toNat = b.toNat → a = b := by decide
    exact hbool _ _ (by omega)

/-- Members of one enumeration with the same number are the same, `variable` being number 1 alone (R30, R42). -/
theorem member_injective {f : Field} {i j : Nat} (hf : f.isEnumerated = true) (hmode : f = .lengthMode → i < 2 ∧ j < 2)
    (h : f.member i = f.member j) : i = j := by
  cases f <;> simp only [Field.isEnumerated, Bool.false_eq_true] at hf
  case modulation | format =>
    cases i <;> cases j <;> simp_all [Field.member]
  case lengthMode =>
    obtain ⟨hi, hj⟩ := hmode rfl
    match i, j, hi, hj with
    | 0, 0, _, _ | 1, 1, _, _ => rfl
    | 0, 1, _, _ | 1, 0, _, _ => cases h

/-- In a legal layout two codes of a field that stand for one value are the same, but for the operating state, whose decode
is total (R30, R43). -/
theorem codeValue_injective {p : Params} (h : p.Legal) {k : Kind} {f : Field} {c d : Nat} {v : FieldVal} (hf : f ∈ k.fields)
    (hstate : f ≠ .state) (hc : c < 2 ^ p.fieldWidth k f) (hd : d < 2 ^ p.fieldWidth k f)
    (hcv : codeValue p k f c = some v) (hdv : codeValue p k f d = some v) : c = d := by
  obtain ⟨hwidth, hcodes⟩ := (h.layout k).2.2 f hf
  have enumerated : f.isEnumerated = true → ∀ {c d : Nat},
      (if (p.fieldInfo k f).codes.contains c then some (f.member ((p.fieldInfo k f).codes.idxOf c)) else none) = some v →
      (if (p.fieldInfo k f).codes.contains d then some (f.member ((p.fieldInfo k f).codes.idxOf d)) else none) = some v →
      c = d := by
    intro he c d hcv hdv
    simp only [Option.ite_none_right_eq_some, List.contains_iff_mem, Option.some.injEq] at hcv hdv
    simp only [FieldInfo.codesFit, he, Bool.not_true, Bool.false_or, Bool.and_eq_true] at hcodes
    refine (List.idxOf_inj hcv.1).1 (member_injective he (fun hm => ?_) (hcv.2.trans hdv.2.symm))
    have hlen : (p.fieldInfo k f).codes.length = 2 := by simpa [hm] using hcodes.2
    rw [← hlen]
    exact ⟨List.idxOf_lt_length_of_mem hcv.1, List.idxOf_lt_length_of_mem hdv.1⟩
  have flag : p.fieldWidth k f = 1 → some (FieldVal.flag (decide (c % 2 = 1))) = some v →
      some (FieldVal.flag (decide (d % 2 = 1))) = some v → c = d := by
    intro hw hcv hdv
    rw [hw] at hc hd
    have hb : decide (c % 2 = 1) = decide (d % 2 = 1) := by simpa using hcv.trans hdv.symm
    rw [decide_eq_decide] at hb
    omega
  cases f
  case state => exact absurd rfl hstate
  case modulation | lengthMode | format => exact enumerated rfl hcv hdv
  case pdClkdiv | algEnable | flag | freezeOnSync | autoFiltering | crcCheck | destVsMy | destVsMulticast | destVsBroadcast
    | addressField => exact flag (by simpa [Params.widthFits] using hwidth) hcv hdv
  all_goals
    have hnum := hcv.trans hdv.symm
    simpa [codeValue] using hnum

/-- What fields that fit leave in a register depends on the bits beside them alone. -/
theorem putFields_congr {p : Params} (h : p.Legal) {k : Kind} {fs : List (Field × FieldVal)} {xs ys : List Byte}
    (hfit : ∀ x ∈ fs, fits p k x = true) (hn : (fs.map Prod.fst).Nodup) (hx : xs.length = p.kindLen k)
    (hy : ys.length = p.kindLen k)
    (hbeside : ∀ q, (∀ x ∈ fs, q ∉ (p.fieldInfo k x.1).bits) → bitAt xs q = bitAt ys q) :
    putFields p k fs xs = putFields p k fs ys := by
  refine bytes_ext (by simp [hx, hy]) fun q => ?_
  by_cases hq : ∀ x ∈ fs, q ∉ (p.fieldInfo k x.1).bits
  · rw [bitAt_putFields_other _ _ _ _ _ hq, bitAt_putFields_other _ _ _ _ _ hq, hbeside q hq]
  · push Not at hq
    obtain ⟨x, hxs, hq⟩ := hq
    refine bitAt_of_codeAt (codeValue_injective h (fits_mem (hfit x hxs)) ?_ (codeAt_lt _ _) (codeAt_lt _ _)
      (fieldValue_putFields h hx hfit hn hxs) (fieldValue_putFields h hy hfit hn hxs)) q hq
    intro hstate
    have hfits := hfit x hxs
    obtain ⟨f, v⟩ := x
    subst hstate
    cases v <;> simp [fits, Field.takes] at hfits

/-! ### The bytes a register is left with -/

/-- A record over bytes of the register's length is those bytes with the fields put (R64, R66). -/
theorem logicalBytes_record {p : Params} {k : Kind} {base : List Byte} (fs : List (Field × FieldVal))
    (hb : base.length = p.kindLen k) : logicalBytes p k (.record base fs) = putFields p k fs base := by
  rw [logicalBytes, ← hb, fitBytes_self]

/-- Reading gives the bytes that are written back, whatever was decoded from them (R65). -/
theorem logicalBytes_of_valueRead {p : Params} {k : Kind} {t : Turn} {c : Chip} {v : KindVal}
    (hv : valueRead p k t c = .ok v) : logicalBytes p k v = orderBytes p k (bytesRead p k t c) := by
  rw [← encodeValue_decodeBytes (bytesRead_length p k t c) hv, encodeValue, orderBytes_orderBytes]

end Sys2Proof

namespace Sys2Proof.Machine

open Sys2Proof.Safety

/-! ### Places of a register in its bytes (R13, R68) -/

section
variable {p : Params} {k : Kind}

/-- The bit at a place of a register is a bit of the byte in which the place lies. -/
theorem bitAt_orderBytes {bs : List Byte} (hlen : bs.length = p.kindLen k) {q : Nat} (hq : q < 8 * p.kindLen k) :
    bitAt (orderBytes p k bs) q = (bs.getD (p.busByte k q) 0).getLsbD (q % 8) := by
  rw [bitAt, orderBytes_length, hlen, if_pos hq]
  unfold orderBytes Params.busByte
  split
  · rfl
  · have h₁ : p.kindLen k - 1 - q / 8 < bs.reverse.length := by rw [List.length_reverse, hlen]; omega
    have h₂ : q / 8 < bs.length := by omega
    rw [List.getD_eq_getElem _ _ h₁, List.getD_eq_getElem _ _ h₂, List.getElem_reverse]
    congr 2
    omega

/-- Every place lies in a byte of its register. -/
theorem busByte_lt {q : Nat} (hq : q < 8 * p.kindLen k) : p.busByte k q < p.kindLen k := by
  unfold Params.busByte
  split <;> omega

/-- Every bit of every byte of a register has its place. -/
theorem exists_place {m i : Nat} (hm : m < p.kindLen k) (hi : i < 8) :
    ∃ q, q < 8 * p.kindLen k ∧ p.busByte k q = m ∧ q % 8 = i := by
  unfold Params.busByte
  split
  · exact ⟨8 * (p.kindLen k - 1 - m) + i, by omega, by omega, by omega⟩
  · exact ⟨8 * m + i, by omega, by omega, by omega⟩

end

/-! ### What the chip shows of a stored byte (R60, notes 11) -/

/-- A status register shows a number put over what is stored: a stored bit that stays, or is set to what is shown there, leaves
what is shown. -/
theorem statusBit_kept {p : Params} {k : Kind} {js : List Nat} {code : Nat} {c d : Chip} {a i : Nat}
    (ha : kindCovers p k a = true) (hi : i < 8)
    (h : (storedByte d a).getLsbD i = (storedByte c a).getLsbD i ∨ (storedByte d a).getLsbD i =
      ((orderBytes p k (putCode js code (storedBytes p c k))).getD (a - p.kindAddr k) 0).getLsbD i) :
    ((orderBytes p k (putCode js code (storedBytes p d k))).getD (a - p.kindAddr k) 0).getLsbD i =
      ((orderBytes p k (putCode js code (storedBytes p c k))).getD (a - p.kindAddr k) 0).getLsbD i := by
  simp only [kindCovers, decide_eq_true_eq] at ha
  obtain ⟨q, hq, hbyte, rfl⟩ := exists_place (p := p) (k := k) (m := a - p.kindAddr k) (by omega) hi
  have hstored : ∀ c, (storedBytes p c k).length = p.kindLen k := fun c => by simp [storedBytes]
  have hshown : ∀ c, ((orderBytes p k (putCode js code (storedBytes p c k))).getD (a - p.kindAddr k) 0).getLsbD (q % 8) =
      bitAt (putCode js code (storedBytes p c k)) q := fun c => by
    rw [← hbyte, ← bitAt_orderBytes (by simp [hstored]) hq, orderBytes_orderBytes]
  have hplain : ∀ c, bitAt (storedBytes p c k) q = (storedByte c a).getLsbD (q % 8) := fun c => by
    rw [storedBytes, bitAt_orderBytes (by simp) hq, hbyte, List.getD_eq_getElem _ _ (by simp; omega)]
    simp only [List.getElem_map, List.getElem_range]
    rw [show p.kindAddr k + (a - p.kindAddr k) = a by omega]
  rw [hshown] at h
  rw [hshown, hshown]
  by_cases hjs : q ∈ js
  · exact bitAt_of_codeAt (codeAt_putCode_same_length js code (by simp [hstored])) q hjs
  · rw [bitAt_putCode_other _ _ _ _ hjs, hplain] at h ⊢
    rw [bitAt_putCode_other _ _ _ _ hjs, hplain]
    exact h.elim id id

/-- A stored bit that stays, or is set to what the chip shows there, leaves what the chip shows. -/
theorem chipByte_bit_kept {p : Params} {c d : Chip} {a i : Nat} (hi : i < 8) (hpending : d.pending = c.pending)
    (hstate : d.stateCode = c.stateCode) (hfifo : d.rxFifo = c.rxFifo)
    (h : (storedByte d a).getLsbD i = (storedByte c a).getLsbD i ∨
      (storedByte d a).getLsbD i = (chipByte p c a).getLsbD i) :
    (chipByte p d a).getLsbD i = (chipByte p c a).getLsbD i := by
  unfold chipByte at h ⊢
  cases hlive : liveKindAt p a with
  | none => simpa only [hlive, or_self] using h
  | some k =>
    simp only [hlive] at h ⊢
    have hcovers : kindCovers p k a = true := List.find?_some (p := fun k => kindCovers p k a) hlive
    have hmem : k ∈ [Kind.irqStatus, .mcState, .rxFifoStatus] := List.mem_of_find?_eq_some hlive
    simp only [List.mem_cons, List.not_mem_nil, or_false] at hmem
    obtain rfl | rfl | rfl := hmem
    · simp only [statusBytes, hpending]
    · simp only [statusBytes] at h ⊢
      rw [hstate]
      exact statusBit_kept hcovers hi h
    · simp only [statusBytes] at h ⊢
      rw [hfifo]
      exact statusBit_kept hcovers hi h

/-! ### Parts of a register (U1) -/

/-- What a part holds are the items at its places. -/
theorem mem_part_iff {α : Type} {x : Transfer} {l : List α} {a : α} :
    a ∈ x.part l ↔ ∃ i, x.first ≤ i ∧ i < x.first + x.len ∧ l[i]? = some a := by
  rw [Transfer.part, List.mem_iff_getElem?]
  constructor
  · rintro ⟨i, h⟩
    rw [List.getElem?_take] at h
    split at h
    · exact ⟨x.first + i, by omega, by omega, by rwa [List.getElem?_drop] at h⟩
    · cases h
  · rintro ⟨i, hlo, hhi, h⟩
    refine ⟨i - x.first, ?_⟩
    rw [List.getElem?_take_of_lt (by omega), List.getElem?_drop, show x.first + (i - x.first) = i by omega, h]

/-- The places and bytes of a typed access, one by one. -/
theorem getElem?_kindCells (p : Params) (k : Kind) (bytes : List Byte) (i : Nat) :
    (kindCells p k bytes)[i]? = bytes[i]?.map fun b => (p.kindAddr k + i, b) := by
  simp only [kindCells, List.getElem?_map, List.getElem?_zipIdx, Option.map_map, Nat.zero_add]
  rfl

/-- A write of one part puts its bytes at their addresses in the kind and leaves the others (U1). -/
theorem memGet_chipAfterPartWrite (p : Params) (k : Kind) (x : Transfer) (v : KindVal) (c : Chip) {j : Nat}
    (hj : j < p.kindLen k) :
    memGet (chipAfterPartWrite p k x v c).mem (p.kindAddr k + j) =
      if x.first ≤ j ∧ j < x.first + x.len then some ((encodeValue p k v).getD j 0)
      else memGet c.mem (p.kindAddr k + j) := by
  have hlen := encodeValue_length p k v
  split
  · next hin =>
    refine memGet_memSetAll_mem _ _ _ _ ?_ (mem_part_iff.2 ⟨j, hin.1, hin.2, ?_⟩)
    · have hnodup : ((kindCells p k (encodeValue p k v)).map Prod.fst).Nodup := by
        rw [kindCells_places]
        exact List.nodup_range.map fun a b h => by omega
      refine hnodup.sublist ?_
      exact ((List.take_sublist _ _).trans (List.drop_sublist _ _)).map _
    · rw [getElem?_kindCells, List.getD_eq_getElem _ _ (by omega), List.getElem?_eq_getElem (by omega)]
      rfl
  · next hout =>
    refine memGet_memSetAll_other _ _ _ fun hmem => ?_
    obtain ⟨d, hd, hplace⟩ := List.mem_map.1 hmem
    obtain ⟨i, hlo, hhi, hi⟩ := mem_part_iff.1 hd
    rw [getElem?_kindCells] at hi
    obtain ⟨b, -, rfl⟩ := Option.map_eq_some_iff.1 hi
    exact hout ⟨by omega, by omega⟩

/-! ### A `RegSet` between two of its transactions -/

/-- Byte `j` of register `k` agrees with the register bytes `base` on every bit beside the fields `fs`. -/
def ByteKept (p : Params) (k : Kind) (fs : List (Field × FieldVal)) (base : List Byte) (j : Nat) (b : Byte) : Prop :=
  ∀ q < 8 * p.kindLen k, p.busByte k q = j → (∀ x ∈ fs, q ∉ (p.fieldInfo k x.1).bits) → b.getLsbD (q % 8) = bitAt base q

/-- What a `RegSet` puts the register together from, the chip and the bytes held, agrees with the bytes `base` that the register
began with, beside the fields it sets. -/
structure Between (p : Params) (k : Kind) (fs : List (Field × FieldVal)) (base : List Byte) (held : List (Nat × Byte))
    (c : Chip) : Prop where
  chip : ∀ j < p.kindLen k, ByteKept p k fs base j (chipByte p c (p.kindAddr k + j))
  held : ∀ y ∈ held, ByteKept p k fs base y.1 y.2

/-- An update of a register in a legal layout that is no status register: fields that fit, none twice, over bytes of its length. -/
structure Update (p : Params) (k : Kind) (fs : List (Field × FieldVal)) (base : List Byte) : Prop where
  legal : p.Legal
  plain : k ∉ [Kind.irqStatus, .mcState, .rxFifoStatus]
  fit : ∀ x ∈ fs, fits p k x = true
  nodup : (fs.map Prod.fst).Nodup
  length : base.length = p.kindLen k

section
variable {p : Params} {k : Kind} {fs : List (Field × FieldVal)} {base : List Byte} {held : List (Nat × Byte)} {c : Chip}

/-- Before the first transaction. -/
theorem between_start (hk : k ∉ [Kind.irqStatus, .mcState, .rxFifoStatus]) :
    Between p k fs (orderBytes p k (kindBytes p c k)) [] c := by
  refine ⟨fun j hj q hq hbyte _ => ?_, by simp⟩
  rw [bitAt_orderBytes (kindBytes_length p c k) hq, hbyte, kindBytes_eq_map hk, List.getD_eq_getElem _ _ (by simpa using hj)]
  simp

/-- After a read of a part, its bytes are held. -/
theorem Between.read (h : Between p k fs base held c) (hk : k ∉ [Kind.irqStatus, .mcState, .rxFifoStatus]) (x : Transfer) :
    Between p k fs base (partCells x (x.part (kindBytes p c k)) ++ held) c := by
  refine ⟨h.chip, List.forall_mem_append.2 ⟨fun y hy => ?_, h.held⟩⟩
  obtain ⟨⟨b, i⟩, hbi, rfl⟩ := List.mem_map.1 hy
  rw [List.mem_zipIdx_iff_getElem?] at hbi
  have hb : (kindBytes p c k)[x.first + i]? = some b := by
    rw [Transfer.part, List.getElem?_take] at hbi
    split at hbi
    · rwa [List.getElem?_drop] at hbi
    · cases hbi
  rw [kindBytes_eq_map hk] at hb
  obtain ⟨hlt, rfl⟩ := List.getElem?_eq_some_iff.1 hb
  simp only [List.length_map, List.length_range] at hlt
  simpa only [List.getElem_map, List.getElem_range] using h.chip _ hlt

/-- The register bytes that a write of a part takes its bytes from have the fields set, and every other bit as it was. -/
theorem Between.logicalBytes_setOnHeld (h : Between p k fs base held c) (hu : Update p k fs base) :
    logicalBytes p k (setOnHeld p k held fs c) = putFields p k fs base := by
  rw [setOnHeld, logicalBytes_record fs (by simp)]
  refine putFields_congr hu.legal hu.fit hu.nodup (by simp) hu.length fun q hq => ?_
  by_cases hlt : q < 8 * p.kindLen k
  · have hj := busByte_lt hlt
    rw [bitAt_orderBytes (by simp) hlt, List.getD_eq_getElem _ _ (by simpa using hj)]
    simp only [List.getElem_map, List.getElem_zipIdx, Nat.zero_add]
    cases hheld : held.lookup (p.busByte k q) with
    | some b =>
      obtain ⟨l₁, l₂, rfl, -⟩ := List.lookup_eq_some_iff.1 hheld
      exact h.held (p.busByte k q, b) (by simp) q hlt rfl hq
    | none =>
      simp only [kindBytes_eq_map hu.plain, List.getElem_map, List.getElem_range, Option.getD_none]
      exact h.chip _ hj q hlt rfl hq
  · simp [bitAt, hlt, hu.length]

/-- After a write of a part, the chip shows the fields set in it and every other bit as it was. -/
theorem Between.write (h : Between p k fs base held c) (hu : Update p k fs base) (x : Transfer) :
    Between p k fs base held (chipAfterPartWrite p k x (setOnHeld p k held fs c) c) := by
  refine ⟨fun j hj q hq hbyte hbeside => ?_, h.held⟩
  rw [← h.chip j hj q hq hbyte hbeside]
  refine chipByte_bit_kept (Nat.mod_lt _ (by omega)) (by simp) (by simp) (by simp) ?_
  simp only [storedByte, memGet_chipAfterPartWrite p k x _ c hj]
  split
  · right
    rw [Option.getD_some, encodeValue, h.logicalBytes_setOnHeld hu, h.chip j hj q hq hbyte hbeside, ← hbyte,
      ← bitAt_orderBytes (by simp [hu.length]) hq, orderBytes_orderBytes, bitAt_putFields_other _ _ _ _ _ hbeside]
  · exact .inl rfl

end

/-! ### A `RegSet` after all of its transactions -/

/-- Event `e` is transaction `x` of a `RegSet` over the register bytes `base`, with its frame on the bus. -/
def IsTransfer (p : Params) (k : Kind) (fs : List (Field × FieldVal)) (base : List Byte) (x : Transfer) (e : BusEvent) : Prop :=
  if x.read then (∃ bytes : List Byte, e = .rdPart k x (some bytes)) ∧
    frameOf p e = [0x01, BitVec.ofNat 8 (p.kindAddr k + x.first)]
  else (∃ held : List Byte, e = .wrPart k x (.record held fs) true) ∧
    frameOf p e = 0x00 :: BitVec.ofNat 8 (p.kindAddr k + x.first) :: x.part (encodeValue p k (.record base fs))

/-- The bytes written by a read, none, and by a write, those of its part, come before those of the others. -/
theorem mem_bytesWritten_cons {x : Transfer} {xs : List Transfer} {j : Nat} :
    j ∈ bytesWritten (x :: xs) ↔
      x.read = false ∧ (x.first ≤ j ∧ j < x.first + x.len) ∨ j ∈ bytesWritten xs := by
  cases hr : x.read <;> simp [bytesWritten, hr, List.mem_range'_1]

/-- Answered by a chip that changes nothing by itself, the transactions go out as listed, and each byte written is that of the
register with the fields set. -/
theorem PartsRun.result {p : Params} {k : Kind} {fs : List (Field × FieldVal)} {base : List Byte} {held : List (Nat × Byte)}
    {c d : Chip} {ts : List Turn} {xs : List Transfer} {es : List BusEvent} (h : PartsRun p k fs held c ts xs es d)
    (hu : Update p k fs base) (hts : ∀ t ∈ ts, Quiet t) (hbetween : Between p k fs base held c) :
    List.Forall₂ (IsTransfer p k fs base) xs es ∧
      ∀ j < p.kindLen k, memGet d.mem (p.kindAddr k + j) =
        if j ∈ bytesWritten xs then some ((encodeValue p k (.record base fs)).getD j 0)
        else memGet c.mem (p.kindAddr k + j) := by
  induction h with
  | nil => exact ⟨.nil, fun j _ => by simp [bytesWritten]⟩
  | @read held c d t ts x xs es hr hrun ih =>
    obtain ⟨ht, hts⟩ := List.forall_mem_cons.1 hts
    have hirq : k ≠ .irqStatus := fun e => hu.plain (by simp [e])
    have hsame : chipAfterRead k (chipAt t c) = c := by rw [chipAt_quiet ht, chipAfterRead, if_neg hirq]
    rw [hsame, bytesRead_quiet ht, chipAt_quiet ht] at ih
    obtain ⟨hes, hmem⟩ := ih hts (hbetween.read hu.plain x)
    refine ⟨.cons ?_ hes, fun j hj => ?_⟩
    · rw [IsTransfer, if_pos hr]
      exact ⟨⟨_, rfl⟩, rfl⟩
    · simp only [hmem j hj, mem_bytesWritten_cons, hr, Bool.true_eq_false, false_and, false_or]
  | @write held c d t ts x xs es hr hrun ih =>
    obtain ⟨ht, hts⟩ := List.forall_mem_cons.1 hts
    rw [chipAt_quiet ht] at ih ⊢
    have hencode : encodeValue p k (setOnHeld p k held fs c) = encodeValue p k (.record base fs) := by
      rw [encodeValue, encodeValue, hbetween.logicalBytes_setOnHeld hu, logicalBytes_record fs hu.length]
    obtain ⟨hes, hmem⟩ := ih hts (hbetween.write hu x)
    refine ⟨.cons ?_ hes, fun j hj => ?_⟩
    · rw [IsTransfer, if_neg (by simp [hr]), ← hencode]
      exact ⟨⟨_, rfl⟩, rfl⟩
    · rw [hmem j hj, memGet_chipAfterPartWrite p k x _ c hj, hencode]
      simp only [mem_bytesWritten_cons, hr, true_and]
      by_cases hlater : j ∈ bytesWritten xs
      · rw [if_pos hlater, if_pos (.inr hlater)]
      · simp only [hlater, if_false, or_false]

/-- The writes of a legal grouping write every byte of the kind. -/
theorem mem_bytesWritten_of_legal {p : Params} (hp : p.Legal) {k : Kind} (hx : (p.kindInfo k).transfers ≠ []) {j : Nat}
    (hj : j < p.kindLen k) : j ∈ bytesWritten (p.kindInfo k).transfers := by
  obtain ⟨hinside, hnodup, hlen⟩ := hp.grouping hx
  have hsub : bytesWritten (p.kindInfo k).transfers ⊆ List.range (p.kindLen k) := by
    intro i hi
    obtain ⟨x, hx, hi⟩ := List.mem_flatMap.1 hi
    have := hinside x (List.mem_filter.1 hx).1
    have := List.mem_range'_1.1 hi
    exact List.mem_range.2 (by omega)
  have hperm := (List.subperm_of_subset hnodup hsub).perm_of_length_le (by simp [hlen])
  exact hperm.mem_iff.2 (List.mem_range.2 hj)

end Sys2Proof.Machine

namespace Sys2Proof.Safety

open Sys2Proof.Machine

/-- The kinds a micro-sequence gives to `RegSet` are no status registers. -/
theorem regSetKinds_plain : ∀ k ∈ regSetKinds, k ∉ [Kind.irqStatus, .mcState, .rxFifoStatus] := by decide

/-- A register with fields set over `base` holds the fields' values, every other field and bit as in `base`, and is left as it
is by the same fields set again (R66, R72). -/
theorem fieldsSet {p : Params} {k : Kind} {fs : List (Field × FieldVal)} {base : List Byte} (hu : Update p k fs base) :
    let after : List Byte := logicalBytes p k (.record base fs)
    (∀ x ∈ fs, fieldValue p k x.1 after = some x.2) ∧
      (∀ f ∈ k.fields, f ∉ fs.map Prod.fst → fieldValue p k f after = fieldValue p k f base) ∧
      (∀ j : Nat, (∀ x ∈ fs, j ∉ (p.fieldInfo k x.1).bits) → bitAt after j = bitAt base j) ∧
      logicalBytes p k (.record after fs) = after := by
  intro after
  have hafter : after = putFields p k fs base := logicalBytes_record fs hu.length
  rw [logicalBytes_record fs (by rw [hafter, putFields_length, hu.length]), hafter]
  exact ⟨fun _ hx => fieldValue_putFields hu.legal hu.length hu.fit hu.nodup hx,
    fun _ hf hnot => fieldValue_putFields_other hu.legal (fun x hx => fits_mem (hu.fit x hx)) hf hnot,
    fun j hj => bitAt_putFields_other _ _ _ _ j hj, putFields_twice hu.legal hu.length hu.fit hu.nodup⟩

/-- Settles O60: one write over what the chip holds, the transactions of a grouping, and a write over what was read each leave
the register with the fields set over its bytes. -/
theorem regSetKeepsOtherFields : Obligations.RegSetKeepsOtherFields := by
  intro k fs op l next s t₁ ts hp hk hfit hn hturns ht₁ p c leaves writes
  have hplain := regSetKinds_plain k hk
  have update : ∀ bs : List Byte, bs.length = p.kindLen k → Update p k fs (orderBytes p k bs) :=
    fun bs h => ⟨hp, hplain, hfit, hn, by simp [h]⟩
  have hheld := update _ (kindBytes_length p c k)
  refine ⟨fun hpc hx hrmw => ?_, fun hpc hx used left hused hcount hquiet hok => ?_,
    fun t₂ left v hts ht₂ hv hact => ?_⟩
  · exact ⟨_, seqStep_regSet_write hpc hx hrmw hturns ht₁,
      ⟨rfl, rfl, fun j hj => memGet_chipAfterWrite _ _ _ _ hj, fieldsSet hheld⟩,
        by simp [returned, setOnChip, p, c]⟩
  · have hcount' : used.length = (p.kindInfo k).transfers.length := by
      rw [hcount, regSetTurns]
      split
      · contradiction
      · rfl
    have hne : used ≠ [] := fun h => hx (List.length_eq_zero_iff.1 (by rw [← hcount', h]; rfl))
    obtain ⟨t, tl, rfl⟩ := List.exists_cons_of_ne_nil hne
    obtain ⟨rfl, -⟩ : t₁ = t ∧ ts = tl ++ left := by simpa [hturns] using hused
    have hc : c = s.chip := chipAt_quiet (hquiet t₁ List.mem_cons_self) _
    obtain ⟨es, htrace, hend⟩ := runSteps_transfers hcount' (fun t ht => (hquiet t ht).1)
      (seqStep_regSet_transfers hpc hx) hused
    rw [← hcount'] at htrace hend
    have hnew : newEvents s (runSteps ((t₁ :: tl).length + 1) s) = es := by rw [newEvents, htrace, List.drop_left]
    rw [hnew] at hok ⊢
    obtain ⟨⟨e, he, hfail⟩, -⟩ | ⟨d, hd, hend⟩ := hend
    · rw [hok e he] at hfail; cases hfail
    obtain ⟨hes, hmem⟩ := hd.result hheld hquiet (hc ▸ between_start hplain)
    rw [hend]
    refine ⟨⟨rfl, rfl, fun j hj => ?_, fieldsSet hheld⟩, hes⟩
    exact (hmem j hj).trans (if_pos (mem_bytesWritten_of_legal hp hx hj))
  · subst hts
    have hvalue : withFields p k v fs = .record (orderBytes p k (bytesRead p k t₁ c)) fs := by
      rw [withFields, logicalBytes_of_valueRead hv]
    obtain ⟨a, hpc, ha⟩ : ∃ a, s.pc = .busy op (⟨l, a⟩ :: next) ∧ ReadsThenWrites p k fs a := by
      obtain ⟨hpc, hx, hrmw⟩ | hpc := hact
      · exact ⟨_, hpc, .inl ⟨rfl, hx, hrmw⟩⟩
      · exact ⟨_, hpc, .inr rfl⟩
    refine ⟨_, _, seqStep_readsThenWrites ha hpc hturns ht₁ hv, seqStep_store rfl rfl ht₂,
      ⟨rfl, rfl, fun j hj => ?_, fieldsSet (update _ (bytesRead_length p k t₁ c))⟩, ?_⟩
    · rw [← hvalue]
      exact memGet_chipAfterWrite _ _ _ _ hj
    · rw [← hvalue]
      rfl

end Sys2Proof.Safety
end

section
/-! PROOFS. The encoding (spec/30_encoding.md R90, R92, R93, R95, R96, R99). A selector and a command code stand for one
operation each, so each part of the decoder answers an instruction exactly where the encoder writes that part's bits; an
instruction has one of the seven forms of the opcode table, and the decoder is inverted form by form. -/

namespace Sys2Proof

open Sys2Proof.Machine

/-! ### Requests (R95, R96) -/

/-- The 24 selectors are distinct: looking one up finds its operation. -/
theorem find?_requestSelector : ∀ x ∈ requestOps,
    requestOps.find? (fun y => requestSelector y == requestSelector x) = some x := by
  decide

/-- The selectors of R96, in its order. -/
theorem requestOps_map_requestSelector : requestOps.map requestSelector =
    [0x00, 0x01, 0x02, 0x03, 0x04, 0x05, 0x06, 0x07, 0x08, 0x09, 0x10, 0x11, 0x12, 0x20, 0x21, 0x22,
      0x30, 0x31, 0x32, 0x33, 0x34, 0x35, 0x40, 0x41] := rfl

/-- A selector that R96 does not list is refused as such (R99). -/
theorem decodeRequest_unlisted {op : BitVec 8} (h : op ∉ requestOps.map requestSelector) (o : Operands) :
    decodeRequest op o = .error (.unlistedSelector op) := by
  have hnone : requestOps.find? (fun x => requestSelector x == op) = none := by
    simpa [List.find?_eq_none] using h
  simp only [decodeRequest, hnone]

/-- A request decodes to the instruction of the operation its selector stands for, and to no other. -/
theorem decodeRequest_eq_ok_iff {op : BitVec 8} {o : Operands} {i : Instr} :
    decodeRequest op o = .ok i ↔ ∃ x ∈ requestOps, requestSelector x = op ∧ requestInstr x o = some i := by
  constructor
  · intro h
    unfold decodeRequest at h
    split at h
    · cases h
    · next x hfind =>
      split at h
      · cases h
      · next j hinstr =>
        cases h
        exact ⟨x, List.mem_of_find?_eq_some hfind, by simpa using List.find?_some hfind, hinstr⟩
  · rintro ⟨x, hx, rfl, hinstr⟩
    simp only [decodeRequest, find?_requestSelector x hx, hinstr]

/-- What a request makes of the operand lines is encoded by its selector over the same lines. -/
theorem encodeOver_of_requestInstr {x : Op} {o : Operands} {i : Instr} (h : requestInstr x o = some i) (p : Params) :
    encodeOver p o i = ⟨.req (requestSelector x), o⟩ := by
  cases x <;> cases h <;> rfl

/-! ### Commands (R93, R98) -/

/-- The 17 codes are distinct: looking one up finds its command. -/
theorem find?_commandCode (c : Command) : commands.find? (fun d => commandCode d == commandCode c) = some c := by
  cases c <;> rfl

/-- A command frame decodes to the instruction of the command its code stands for, and to no other. -/
theorem decodeCommand_eq_ok_iff {a : Byte} {i : Instr} :
    decodeCommand a = .ok i ↔ ∃ c, commandCode c = a ∧ i = commandInstr c := by
  constructor
  · intro h
    unfold decodeCommand at h
    split at h
    · cases h
    · next c hfind =>
      cases h
      exact ⟨c, by simpa using List.find?_some hfind, rfl⟩
  · rintro ⟨c, rfl, rfl⟩
    simp only [decodeCommand, find?_commandCode]

/-- A command is encoded by its code, and has no operands. -/
theorem encodeOver_commandInstr (p : Params) (o : Operands) (c : Command) :
    encodeOver p o (commandInstr c) = ⟨.frame 0x80 (commandCode c), o⟩ := by
  cases c <;> rfl

/-! ### Data transactions (R92) -/

/-- A WRITE frame is raw where the call names no kind, and typed where it names the kind at its address. -/
theorem decodeWrite_eq_ok_iff {p : Params} {a : Byte} {o : Operands} {i : Instr} :
    decodeWrite p a o = .ok i ↔ (o.kind = none ∧ i = .writeRaw a o.bytes) ∨
      ∃ k, o.kind = some k ∧ kindAddrByte p k = a ∧ i = .write k o.value := by
  unfold decodeWrite
  cases o.kind with
  | none => simp [@eq_comm _ i]
  | some k => by_cases ha : kindAddrByte p k = a <;> simp [ha, @eq_comm _ i]

/-- A READ frame is raw where the call names no kind, and typed where it names the kind at its address. -/
theorem decodeRead_eq_ok_iff {p : Params} {a : Byte} {o : Operands} {i : Instr} :
    decodeRead p a o = .ok i ↔ (o.kind = none ∧ i = .readRaw a o.count) ∨
      ∃ k, o.kind = some k ∧ kindAddrByte p k = a ∧ i = .read k := by
  unfold decodeRead
  cases o.kind with
  | none => simp [@eq_comm _ i]
  | some k => by_cases ha : kindAddrByte p k = a <;> simp [ha, @eq_comm _ i]

/-! ### The decoder by the header -/

section
variable (p : Params) (o : Operands) (a : Byte)

theorem decode_req (op : BitVec 8) : decode p ⟨.req op, o⟩ = decodeRequest op o := rfl
theorem decode_writeFrame : decode p ⟨.frame 0x00 a, o⟩ = decodeWrite p a o := rfl
theorem decode_readFrame : decode p ⟨.frame 0x01 a, o⟩ = decodeRead p a o := rfl
theorem decode_commandFrame : decode p ⟨.frame 0x80 a, o⟩ = decodeCommand a := rfl
theorem decode_noFrame : decode p ⟨.noFrame, o⟩ = .ok (.delay o.ms) := rfl

end

/-- A frame that decodes is a WRITE, a READ or a COMMAND (R92, R93). -/
theorem selector_of_decode_frame {p : Params} {sel a : Byte} {o : Operands} {i : Instr}
    (h : decode p ⟨.frame sel a, o⟩ = .ok i) : sel = 0x00 ∨ sel = 0x01 ∨ sel = 0x80 := by
  by_contra! hsel
  obtain ⟨hwrite, hread, hcommand⟩ := hsel
  dsimp only [decode] at h
  rw [if_neg hwrite, if_neg hread, if_neg hcommand] at h
  cases h

/-! ### The forms of the opcode table -/

/-- The seven forms an instruction can have: a request that R96 lists, with its selector and the operand latches that carry
it; a command of R93; the four calls of R92; the delay of R239. -/
inductive EncodingForm : Instr → Prop where
  | request {i : Instr} (listed : opOf i ∈ requestOps)
      (header : ∀ p, headerOf p i = .req (requestSelector (opOf i)))
      (carried : ∀ o, requestInstr (opOf i) (loadOperands i o) = some i) : EncodingForm i
  | command (c : Command) : EncodingForm (commandInstr c)
  | write (k : Kind) (v : KindVal) : EncodingForm (.write k v)
  | writeRaw (a : Byte) (bytes : List Byte) : EncodingForm (.writeRaw a bytes)
  | read (k : Kind) : EncodingForm (.read k)
  | readRaw (a : Byte) (n : Nat) : EncodingForm (.readRaw a n)
  | delay (ms : Word) : EncodingForm (.delay ms)

/-- The forms cover the 46 rows of the opcode table. -/
theorem encodingForm (i : Instr) : EncodingForm i := by
  cases i
  case write k v => exact .write k v
  case writeRaw a bytes => exact .writeRaw a bytes
  case read k => exact .read k
  case readRaw a n => exact .readRaw a n
  case delay ms => exact .delay ms
  case tx => exact .command .tx
  case rx => exact .command .rx
  case ready => exact .command .ready
  case standby => exact .command .standby
  case sleep => exact .command .sleep
  case lockRx => exact .command .lockRx
  case lockTx => exact .command .lockTx
  case sabort => exact .command .sabort
  case ldcReload => exact .command .ldcReload
  case sequenceUpdate => exact .command .sequenceUpdate
  case aesEncrypt => exact .command .aesEncrypt
  case aesKey => exact .command .aesKey
  case aesDecrypt => exact .command .aesDecrypt
  case aesKeyDecrypt => exact .command .aesKeyDecrypt
  case sRes => exact .command .sRes
  case flushRxFifo => exact .command .flushRxFifo
  case flushTxFifo => exact .command .flushTxFifo
  all_goals exact .request (by simp [opOf, requestOps]) (fun _ => rfl) (fun _ => rfl)

/-! ### Decoding and encoding -/

/-- What the encoder writes decodes to the instruction it was written for. -/
theorem decode_encodeOver (p : Params) (o : Operands) (i : Instr) : decode p (encodeOver p o i) = .ok i := by
  cases encodingForm i with
  | request listed header carried =>
    rw [encodeOver, header, decode_req, decodeRequest_eq_ok_iff]
    exact ⟨opOf i, listed, rfl, carried o⟩
  | command c =>
    rw [encodeOver_commandInstr, decode_commandFrame, decodeCommand_eq_ok_iff]
    exact ⟨c, rfl, rfl⟩
  | write k v =>
    rw [encodeOver, headerOf, decode_writeFrame, decodeWrite_eq_ok_iff]
    exact .inr ⟨k, rfl, rfl, rfl⟩
  | writeRaw a bytes =>
    rw [encodeOver, headerOf, decode_writeFrame, decodeWrite_eq_ok_iff]
    exact .inl ⟨rfl, rfl⟩
  | read k =>
    rw [encodeOver, headerOf, decode_readFrame, decodeRead_eq_ok_iff]
    exact .inr ⟨k, rfl, rfl, rfl⟩
  | readRaw a n =>
    rw [encodeOver, headerOf, decode_readFrame, decodeRead_eq_ok_iff]
    exact .inl ⟨rfl, rfl⟩
  | delay ms => exact decode_noFrame p _

/-- What decodes is what the encoder writes, over the same operand lines, for the instruction decoded: writing
to a line what it holds already (`hkind`) leaves it as it is. -/
theorem encodeOver_of_decode {p : Params} {x : Presented} {i : Instr} (h : decode p x = .ok i) :
    encodeOver p x.operands i = x := by
  obtain ⟨header, o⟩ := x
  cases header with
  | req op =>
    obtain ⟨requested, -, rfl, hinstr⟩ := decodeRequest_eq_ok_iff.1 h
    exact encodeOver_of_requestInstr hinstr p
  | frame sel a =>
    obtain rfl | rfl | rfl := selector_of_decode_frame h
    · obtain ⟨hkind, rfl⟩ | ⟨k, hkind, rfl, rfl⟩ := decodeWrite_eq_ok_iff.1 h <;>
        simp only [encodeOver, headerOf, loadOperands, ← hkind]
    · obtain ⟨hkind, rfl⟩ | ⟨k, hkind, rfl, rfl⟩ := decodeRead_eq_ok_iff.1 h <;>
        simp only [encodeOver, headerOf, loadOperands, ← hkind]
    · obtain ⟨c, rfl, rfl⟩ := decodeCommand_eq_ok_iff.1 h
      exact encodeOver_commandInstr p o c
  | noFrame =>
    cases h
    rfl

/-- Only a WRITE can be ill-formed, of a value that is none of its kind, which its construction rejects (notes 16). -/
theorem wf_or_rejected (p : Params) (i : Instr) :
    i.wf = true ∨ ∃ (k : Kind) (v : KindVal), i = .write k v ∧ constructValue p k v = none := by
  cases i
  case write k v =>
    cases haccepts : k.accepts v with
    | true => exact .inl haccepts
    | false => exact .inr ⟨k, v, rfl, by simp [constructValue, haccepts]⟩
  all_goals exact .inl rfl

/-- A word of the opcode table that is the encoding of an instruction with zeros on the other lines decodes to it. -/
theorem decodeTableWord_of_encode {nbits w : Nat} {i : Instr}
    (h : presentWord nbits w = some (encode Config.installed.legalise i)) : decodeTableWord nbits w = some i := by
  simp only [decodeTableWord, h, encode, decode_encodeOver]

end Sys2Proof

namespace Sys2Proof.Safety

open Sys2Proof.Machine

/-! ### Selectors without a meaning (R99) -/

/-- An idle block takes what is no instruction from the port, too. -/
theorem step_undecodable {s : State} {x : Presented} {rest : List Presented} {e : DecodeError} (hidle : Idle s)
    (hport : s.port = x :: rest) (hdecode : decode s.params x = .error e) :
    step s = undecodable e { s with port := rest } := by
  simp only [step, hidle, fetch, hport, hdecode]

/-- A configuration that the block carries and does not program changes its latch, `ERR` and the count of free values (R99). -/
theorem exec_pktConfigure_notImplemented {c : PacketConfig} {s : State} (hidle : Idle s)
    (h : pktSteps s.params c = [⟨.only, .raise .notImplemented⟩]) :
    exec (.pktConfigure c) s =
      .next { s with operands := { s.operands with cfg := c }, err := .notImplemented, fresh := s.fresh + 1 } :=
  exec_raise (.pktConfigure c) hidle h

/-! ### The obligations -/

/-- Settles O9, by the forms of the opcode table. -/
theorem decodeInvertsEncode : Obligations.DecodeInvertsEncode := decode_encodeOver

/-- Settles O10: the decoder is inverted by the header, and an error is no decoding of an encoding. -/
theorem decodedIsWhatWasEncoded : Obligations.DecodedIsWhatWasEncoded := by
  refine fun p x => ⟨fun i h => ⟨encodeOver_of_decode h, wf_or_rejected p i⟩, ?_⟩
  rintro e herror o i rfl
  rw [decode_encodeOver] at herror
  cases herror

/-- Settles O7: R99's selectors are those R96 leaves out; the two configurations decode because they are encodings. -/
theorem unlistedSelectorIsInvalidParameter : Obligations.UnlistedSelectorIsInvalidParameter := by
  refine ⟨fun s op o rest hidle hport hop => ?_, fun s o b hidle => ⟨?_, ?_, ?_, ?_⟩⟩
  · rw [← requestOps_map_requestSelector] at hop
    exact step_undecodable hidle hport (decodeRequest_unlisted hop o)
  · exact exec_pktConfigure_notImplemented hidle rfl
  · exact exec_pktConfigure_notImplemented hidle rfl
  · exact decode_encodeOver s.params o (.pktConfigure (.wmbus b))
  · exact decode_encodeOver s.params o (.pktConfigure (.stack b))

/-- Settles O8: each word is the encoding of its instruction with zeros on the operand lines. -/
theorem sampleWordsDecode : Obligations.SampleWordsDecode :=
  ⟨decodeTableWord_of_encode rfl, decodeTableWord_of_encode rfl, decodeTableWord_of_encode rfl,
    decodeTableWord_of_encode rfl, decodeTableWord_of_encode rfl, decodeTableWord_of_encode rfl,
    decodeTableWord_of_encode rfl, decodeTableWord_of_encode rfl⟩

end Sys2Proof.Safety
end

section
/-! PROOFS. Instructions without bus access (R120, R140, R212, R213, R215, R227, R239) and the calculators of
spec/40_calc_mantissa_exponent.md. An instruction without bus access is one step that asks for no answer from outside, and a
calculator's step is chosen by its operands and the parameters alone. ENC_DATARATE filters a non-empty list of pairs by the least
error, ENC_FDEV takes least values twice, and ENC_CHFLT scans a row whose entries only widen, so that where it stops every
entry left is at least as far away. -/

namespace Sys2Proof.Machine

open Sys2Proof.Safety

/-! ### Instructions of one step without bus access -/

/-- The acts that end an operation by themselves: all a calculator is made of (R120, R140). -/
inductive Ending : Act → Prop where
  | finish (r : ResultWrite) : Ending (.finish r)
  | raise (e : Err) : Ending (.raise e)

/-- The acts that need no answer from outside, a delay being DELAY's own. -/
inductive BusFreeAct (i : Instr) : Act → Prop where
  | ending {a : Act} (h : Ending a) : BusFreeAct i a
  | setMask (w : Word) : BusFreeAct i (.setMask w)
  | delay (ms : Word) (h : i = .delay ms) : BusFreeAct i (.delay ms.toNat)

/-- A calculator is one step that ends it. -/
theorem sequenceOf_calculator {i : Instr} (hi : isCalculator i = true) (s : State) :
    ∃ a, Ending a ∧ sequenceOf i s = [⟨.only, a⟩] := by
  cases i
  case bandResolve | encFdev | encPaDbm =>
    refine ⟨_, ?_, rfl⟩
    split
    · exact .raise _
    · exact .finish _
  case encDatarate | encChflt | encRssiTh | encRxTimeout | encFoffset | encChspace | encIfOffset =>
    exact ⟨_, .finish _, rfl⟩
  all_goals cases hi

/-- A calculator's step is chosen without the device facts (R120). -/
theorem sequenceOf_calculator_facts {i : Instr} (hi : isCalculator i = true) (s : State) (x b : Word) (d : Band) :
    sequenceOf i { s with xtalHz := x, baseHz := b, band := d } = sequenceOf i s := by
  cases i
  case bandResolve | encFdev | encPaDbm | encDatarate | encChflt | encRssiTh | encRxTimeout | encFoffset | encChspace
    | encIfOffset => rfl
  all_goals cases hi

/-- An instruction that touches no bus is one step that needs no answer from outside. -/
theorem sequenceOf_busFree {i : Instr} (hi : isBusFree i = true) (s : State) :
    ∃ a, BusFreeAct i a ∧ sequenceOf i s = [⟨.only, a⟩] := by
  have calculator (hcalc : isCalculator i = true) : ∃ a, BusFreeAct i a ∧ sequenceOf i s = [⟨.only, a⟩] := by
    obtain ⟨a, ha, hseq⟩ := sequenceOf_calculator hcalc s
    exact ⟨a, .ending ha, hseq⟩
  cases i
  case bandResolve | encFdev | encPaDbm | encDatarate | encChflt | encRssiTh | encRxTimeout | encFoffset | encChspace
    | encIfOffset => exact calculator rfl
  case irqMaskNew | irqMaskSet => exact ⟨_, .setMask _, rfl⟩
  case irqIsSet => exact ⟨_, .ending (.finish _), rfl⟩
  case delay ms => exact ⟨_, .delay ms rfl, rfl⟩
  case pktConfigure c =>
    cases c with
    | basic => cases hi
    | wmbus => exact ⟨_, .ending (.raise _), rfl⟩
    | stack => exact ⟨_, .ending (.raise _), rfl⟩
  all_goals cases hi

/-- An instruction whose one step goes on at once ends after it, without results (R27). -/
theorem exec_silent (i : Instr) {s u : State} {l : Label} {a : Act} (hidle : s.pc = .idle)
    (hseq : sequenceOf i s = [⟨l, a⟩]) (hstep : actStep (opOf i) l [] (accepted i s) a = some (goto (opOf i) [] u)) :
    exec i s = .next (finish .nothing u) := by
  have hfirst : seqStep (accepted i s) = some (goto (opOf i) [] u) := by
    simpa [seqStep, accepted, hseq] using hstep
  rw [exec_idle i hidle, settle_some hfirst, settle_end (op := opOf i) rfl]
  rfl

/-- A result byte holds a field value of at most eight bits as it is (R25). -/
theorem toNat_byte_of_lt {n bits : Nat} (hbits : bits ≤ 8) (h : n < 2 ^ bits) : (BitVec.ofNat 8 n).toNat = n := by
  rw [BitVec.toNat_ofNat, Nat.mod_eq_of_lt (h.trans_le (Nat.pow_le_pow_right two_pos hbits))]

/-! ### BAND_RESOLVE (R121) -/

section
variable {p : Params} {f : Nat}

theorem bandOf_high (h : 779000000 ≤ f ∧ f ≤ 956000000) : bandOf p f = .high := if_pos h

theorem bandOf_middle (h : 387000000 ≤ f ∧ f ≤ 470000000) : bandOf p f = .middle := by
  rw [bandOf, if_neg (by omega), if_pos h]

theorem bandOf_low (h : 300000000 ≤ f ∧ f ≤ 348000000) : bandOf p f = .low := by
  rw [bandOf, if_neg (by omega), if_neg (by omega), if_pos h]

/-- The fourth range is the parameters' own; it lies below the other three. -/
theorem bandOf_veryLow (hp : p.Legal) (h : p.vlMin ≤ f ∧ f ≤ p.vlMax) : bandOf p f = .veryLow := by
  obtain ⟨⟨-, -, hmax⟩, -⟩ := hp
  rw [bandOf, if_neg (by omega), if_neg (by omega), if_neg (by omega), if_pos h]

theorem bandOf_invalid (hhigh : ¬ (779000000 ≤ f ∧ f ≤ 956000000)) (hmiddle : ¬ (387000000 ≤ f ∧ f ≤ 470000000))
    (hlow : ¬ (300000000 ≤ f ∧ f ≤ 348000000)) (hveryLow : ¬ (p.vlMin ≤ f ∧ f ≤ p.vlMax)) : bandOf p f = .invalid := by
  rw [bandOf, if_neg hhigh, if_neg hmiddle, if_neg hlow, if_neg hveryLow]

end

/-- BAND_RESOLVE answers with the band of a frequency that is in one. -/
theorem exec_bandResolve {b : Word} {s : State} {d : Band} (hidle : Idle s) (hd : d ≠ .invalid)
    (h : bandOf s.params b.toNat = d) :
    exec (.bandResolve b) s = .next { s with
      operands := { s.operands with baseHz := b }, results := { s.results with band := d }, err := .none } :=
  exec_finish (.bandResolve b) (l := .only) (r := .band d) hidle (by simp [sequenceOf, h, hd])

/-- BAND_RESOLVE refuses a frequency in no band. -/
theorem exec_bandResolve_invalid {b : Word} {s : State} (hidle : Idle s) (h : bandOf s.params b.toNat = .invalid) :
    exec (.bandResolve b) s = .next { s with
      operands := { s.operands with baseHz := b }
      results := { s.results with band := Config.freeBand s.fresh }
      err := .invalidParameter
      fresh := s.fresh + 1 } :=
  exec_raise (.bandResolve b) (l := .only) (e := .invalidParameter) hidle (by simp [sequenceOf, h])

/-! ### ENC_DATARATE (R122, R123) -/

theorem mem_dataratePairs {mBits eBits : Nat} {c : Nat × Nat} :
    c ∈ dataratePairs mBits eBits ↔ c.1 < 2 ^ mBits ∧ c.2 < 2 ^ eBits := by
  obtain ⟨m, e⟩ := c
  simp [dataratePairs, and_comm]

/-- Folding `min` over the errors of a list, from the error of one of its members, gives the least of them. -/
theorem foldl_min_spec {α : Type} (err : α → ℚ) {l : List α} {a : α} (ha : a ∈ l) :
    (∃ c ∈ l, l.foldl (fun b c => min b (err c)) (err a) = err c) ∧
      ∀ c ∈ l, l.foldl (fun b c => min b (err c)) (err a) ≤ err c := by
  have hmin : (err a :: l.map err).min? = some (l.foldl (fun b c => min b (err c)) (err a)) := by
    rw [List.min?_cons', List.foldl_map]
  obtain ⟨hmem, hle⟩ := List.min?_eq_some_iff.1 hmin
  refine ⟨?_, fun c hc => hle _ (List.mem_cons_of_mem _ (List.mem_map_of_mem hc))⟩
  obtain heq | hmem := List.mem_cons.1 hmem
  · exact ⟨a, ha, heq⟩
  · obtain ⟨c, hc, heq⟩ := List.mem_map.1 hmem
    exact ⟨c, hc, heq.symm⟩

section
variable {rate : Nat × Nat → ℚ} {mBits eBits target : Nat}

theorem mem_dataratePairs_zero : (0, 0) ∈ dataratePairs mBits eBits :=
  mem_dataratePairs.2 ⟨Nat.two_pow_pos _, Nat.two_pow_pos _⟩

theorem mem_datarateMinimisers {c : Nat × Nat} :
    c ∈ datarateMinimisers rate mBits eBits target ↔ c ∈ dataratePairs mBits eBits ∧
      ∀ c' ∈ dataratePairs mBits eBits, datarateErr rate target c ≤ datarateErr rate target c' := by
  obtain ⟨⟨best, hbest, heq⟩, hle⟩ :=
    foldl_min_spec (datarateErr rate target) (mem_dataratePairs_zero (mBits := mBits) (eBits := eBits))
  simp only [datarateMinimisers, List.mem_filter, decide_eq_true_eq]
  refine and_congr_right fun _ => ⟨fun h c' hc' => h.trans (hle c' hc'), fun h => ?_⟩
  rw [heq]
  exact h best hbest

theorem datarateMinimisers_ne_nil : datarateMinimisers rate mBits eBits target ≠ [] := by
  obtain ⟨⟨best, hbest, heq⟩, hle⟩ :=
    foldl_min_spec (datarateErr rate target) (mem_dataratePairs_zero (mBits := mBits) (eBits := eBits))
  exact List.ne_nil_of_mem (mem_datarateMinimisers.2 ⟨hbest, fun c hc => heq ▸ hle c hc⟩)

/-- The top pair's rate is the nearest to a target above it where no rate is larger (R123 (c)). -/
theorem datarateTop_mem_minimisers (hrate : ∀ c, rate c ≤ rate (datarateTop mBits eBits))
    (h : rate (datarateTop mBits eBits) < (target : ℚ)) :
    datarateTop mBits eBits ∈ datarateMinimisers rate mBits eBits target := by
  refine mem_datarateMinimisers.2 ⟨mem_dataratePairs.2 ?_, fun c _ => ?_⟩
  · exact ⟨Nat.sub_lt (Nat.two_pow_pos _) one_pos, Nat.sub_lt (Nat.two_pow_pos _) one_pos⟩
  · have hc := hrate c
    rw [datarateErr, datarateErr, abs_of_neg (by linarith), abs_of_neg (by linarith)]
    linarith

end

section
variable {eq : ℚ → Nat → Nat → ℚ} {mBits eBits tie target crystalHz : Nat} {clockDivided : Bool}

theorem datarateClock_ne_zero (h : 0 < crystalHz) : datarateClock clockDivided crystalHz ≠ 0 := by
  have hx : (crystalHz : ℚ) ≠ 0 := by exact_mod_cast h.ne'
  cases clockDivided <;> simpa [datarateClock] using hx

/-- ENC_DATARATE gives a minimiser, whichever way a tie goes. -/
theorem datarate_mem_minimisers (h : 0 < crystalHz) :
    datarate eq mBits eBits tie target clockDivided crystalHz ∈
      datarateMinimisers (datarateRate eq mBits eBits (datarateClock clockDivided crystalHz)) mBits eBits target := by
  unfold datarate
  dsimp only
  split
  · next htop =>
    exact datarateTop_mem_minimisers (fun c => (datarateRate_le_top eq mBits eBits (datarateClock_ne_zero h) c).1) htop.2
  · have hlen := List.length_pos_iff.2 (datarateMinimisers_ne_nil (target := target) (mBits := mBits) (eBits := eBits)
      (rate := datarateRate eq mBits eBits (datarateClock clockDivided crystalHz)))
    rw [List.getD_eq_getElem _ _ (Nat.mod_lt tie hlen)]
    exact List.getElem_mem _

/-- A target above the largest rate selects the top pair (R123 (c)). -/
theorem datarate_eq_top (h : 0 < crystalHz)
    (htop : eq (datarateClock clockDivided crystalHz) (2 ^ mBits - 1) (2 ^ eBits - 1) < (target : ℚ)) :
    datarate eq mBits eBits tie target clockDivided crystalHz = datarateTop mBits eBits := by
  rw [← (datarateRate_le_top eq mBits eBits (datarateClock_ne_zero h) (0, 0)).2] at htop
  exact if_pos ⟨h, htop⟩

end

/-! ### ENC_FDEV (R124 to R126) -/

section
variable {t x e : Nat}

/-- `a(e)` is `b(7)`: the largest mantissa reaches whatever the exponent does. -/
theorem fdevA_eq_fdevB (x e : Nat) : fdevA x e = fdevB x e 7 := by
  unfold fdevA fdevB
  norm_num

theorem fdevA_mono {e e' : Nat} (h : e ≤ e') : fdevA x e ≤ fdevA x e' := by
  unfold fdevA fdevX
  gcongr
  norm_num

/-- The bound of R125 is what the largest exponent reaches. -/
theorem fdevA_nine (x : Nat) : fdevA x 9 = (x : ℚ) * 3840 / 2 ^ 18 := by
  unfold fdevA fdevX
  ring

/-- The mantissa for an exponent that qualifies: the least candidate above the target, or the one before it (R124, R126). -/
theorem fdevMantissa_of_lt (h : (t : ℚ) < fdevA x e) :
    ∃ m r, fdevMantissa t x e = some r ∧ m ≤ 7 ∧ (t : ℚ) < fdevB x e m ∧ (∀ m' < m, fdevB x e m' ≤ (t : ℚ)) ∧
      (0 < m → (t : ℚ) - fdevB x e (m - 1) < fdevB x e m - (t : ℚ) → r = m - 1) ∧
      (0 < m → ¬ (t : ℚ) - fdevB x e (m - 1) < fdevB x e m - (t : ℚ) → r = m) ∧
      (m = 0 → r = 0) := by
  unfold fdevMantissa
  split
  · next hnone =>
    rw [fdevA_eq_fdevB] at h
    have hseven := List.find?_range_eq_none.1 hnone 7 (by norm_num)
    simp [h] at hseven
  · next m hfind =>
    obtain ⟨hm, hrange, hleast⟩ := List.find?_range_eq_some.1 hfind
    refine ⟨m, _, rfl, Nat.le_of_lt_succ (List.mem_range.1 hrange), by simpa using hm, by simpa using hleast, ?_, ?_, ?_⟩
    · intro hpos hcloser
      simp [hpos, hcloser]
    · intro hpos hcloser
      simp [hpos, hcloser]
    · rintro rfl
      simp

/-- A mantissa fits in three bits: it is a candidate or the one before it. -/
theorem fdevMantissa_le {r : Nat} (h : fdevMantissa t x e = some r) : r ≤ 7 := by
  unfold fdevMantissa at h
  split at h
  · cases h
  · next m hfind =>
    have hm : m < 8 := List.mem_range.1 (List.mem_of_find?_eq_some hfind)
    cases h
    split_ifs <;> omega

/-- The exponent is the least that qualifies, and it has a mantissa. -/
theorem fdev_of_lt {e : Nat} (he : e ≤ 9) (h : (t : ℚ) < fdevA x e) :
    ∃ e r, e ≤ 9 ∧ (t : ℚ) < fdevA x e ∧ (∀ e' < e, fdevA x e' ≤ (t : ℚ)) ∧ fdevMantissa t x e = some r ∧
      fdev t x = some (r, e) := by
  unfold fdev
  split
  · next hnone =>
    have hqual := List.find?_range_eq_none.1 hnone e (by omega)
    simp [h] at hqual
  · next e hfind =>
    obtain ⟨he, hrange, hleast⟩ := List.find?_range_eq_some.1 hfind
    rw [decide_eq_true_eq] at he
    obtain ⟨m, r, hr, -⟩ := fdevMantissa_of_lt he
    exact ⟨e, r, Nat.le_of_lt_succ (List.mem_range.1 hrange), he, by simpa using hleast, hr, by rw [hr]; rfl⟩

/-- No exponent reaches a target that the largest does not reach (R125). -/
theorem fdev_eq_none (h : fdevA x 9 ≤ (t : ℚ)) : fdev t x = none := by
  have hnone : (List.range 10).find? (fun e => decide ((t : ℚ) < fdevA x e)) = none := by
    refine List.find?_range_eq_none.2 fun e he => ?_
    simpa using (fdevA_mono (Nat.le_of_lt_succ he)).trans h
  simp only [fdev, hnone]

end

/-- ENC_FDEV answers with the pair of a target in range. -/
theorem exec_encFdev {t x : Word} {s : State} {m e : Nat} (hidle : Idle s) (h : fdev t.toNat x.toNat = some (m, e)) :
    exec (.encFdev t x) s = .next { s with
      operands := { s.operands with targetHz := t, crystalHz := x }
      results := { s.results with mantissa := BitVec.ofNat 8 m, exponent := BitVec.ofNat 8 e }
      err := .none } :=
  exec_finish (.encFdev t x) (l := .only) (r := .mantExp (BitVec.ofNat 8 m) (BitVec.ofNat 8 e)) hidle
    (by simp [sequenceOf, h])

/-- ENC_FDEV refuses a target that no exponent reaches. -/
theorem exec_encFdev_refused {t x : Word} {s : State} (hidle : Idle s) (h : fdev t.toNat x.toNat = none) :
    exec (.encFdev t x) s = .next { s with
      operands := { s.operands with targetHz := t, crystalHz := x }
      results := { s.results with mantissa := Config.freeByte s.fresh 0, exponent := Config.freeByte s.fresh 1 }
      err := .invalidParameter
      fresh := s.fresh + 1 } :=
  exec_raise (.encFdev t x) (l := .only) (e := .invalidParameter) hidle (by simp [sequenceOf, h])

/-! ### ENC_CHFLT (R127 to R129) -/

/-- `idx` is an index of the table whose entry no entry beats (R129 (c)). -/
def NearestEntry (S : Nat → ℚ) (target : ℚ) (idx : Nat) : Prop :=
  idx ≤ 89 ∧ ∀ i ≤ 89, |target - S idx| ≤ |target - S i|

/-- Once a wider value is farther from the target than a narrower one, it is above the target, and a still wider value is
at least as far away. -/
theorem farther_of_wider {t a b c : ℚ} (hfar : |t - a| < |t - b|) (hab : a ≤ b) (hbc : b ≤ c) : |t - b| ≤ |t - c| := by
  have habove : t < b := by
    by_contra! hb
    rw [abs_of_nonneg (by linarith), abs_of_nonneg (by linarith)] at hfar
    linarith
  rw [abs_of_neg (by linarith), abs_of_neg (by linarith)]
  linarith

/-- The scan keeps the nearest of the entries it has seen, and stops only where every entry left is at least as far away. -/
theorem chfltScan_nearest {S : Nat → ℚ} (hS : ∀ i j, i ≤ j → j ≤ 89 → S j ≤ S i) (target : ℚ) (move : Nat → Bool)
    (i idx : Nat) (hi : i ≤ idx) (hidx : idx ≤ 89) (hseen : ∀ j, i ≤ j → j ≤ 89 → |target - S idx| ≤ |target - S j|) :
    NearestEntry S target (chfltScan S target move i idx |target - S idx|) := by
  induction i generalizing idx with
  | zero => exact ⟨hidx, fun j hj => hseen j (Nat.zero_le j) hj⟩
  | succ i ih =>
    rw [chfltScan]
    have hnext : ∀ k, |target - S k| ≤ |target - S idx| → |target - S k| ≤ |target - S i| →
        ∀ j, i ≤ j → j ≤ 89 → |target - S k| ≤ |target - S j| := by
      intro k hk hki j hij hj
      obtain rfl | hlt := hij.eq_or_lt
      · exact hki
      · exact hk.trans (hseen j hlt hj)
    split
    · next hfar =>
      refine ⟨hidx, fun j hj => ?_⟩
      by_cases hij : i < j
      · exact hseen j hij hj
      · exact hfar.le.trans (farther_of_wider hfar (hS i idx (by omega) hidx) (hS j i (by omega) (by omega)))
    · next hnear =>
      split
      · next hcloser => exact ih i le_rfl (by omega) (hnext i hcloser.le le_rfl)
      · next heq =>
        have hbest : |target - S idx| = |target - S i| := le_antisymm (not_lt.1 heq) (not_lt.1 hnear)
        split
        · rw [hbest]
          exact ih i le_rfl (by omega) (hnext i hbest.ge le_rfl)
        · exact ih idx (by omega) hidx (hnext idx le_rfl hbest.le)

theorem chfltIndex_nearest {S : Nat → ℚ} (hS : ∀ i j, i ≤ j → j ≤ 89 → S j ≤ S i) (target : ℚ) (move : Nat → Bool) :
    NearestEntry S target (chfltIndex S target move) := by
  refine chfltScan_nearest hS target move 89 89 le_rfl le_rfl fun j hlo hhi => ?_
  rw [le_antisymm hhi hlo]

/-- Of two targets the larger has no narrower nearest value. -/
theorem nearest_mono {t₁ t₂ a b : ℚ} (ht : t₁ < t₂) (ha : |t₁ - a| ≤ |t₁ - b|) (hb : |t₂ - b| ≤ |t₂ - a|) : a ≤ b := by
  by_contra! hba
  have h₁ : (t₁ - a) ^ 2 ≤ (t₁ - b) ^ 2 := sq_le_sq.2 ha
  have h₂ : (t₂ - b) ^ 2 ≤ (t₂ - a) ^ 2 := sq_le_sq.2 hb
  nlinarith [mul_pos (sub_pos.2 ht) (sub_pos.2 hba)]

/-- Entries are in the order of the table: the clock scales them all alike. -/
theorem chfltEntry_le_iff {table : List ℚ} {unitHz : ℚ} {clockDivided : Bool} {crystalHz i j : Nat} (hunit : 0 < unitHz)
    (hx : 0 < crystalHz) : chfltEntry table unitHz clockDivided crystalHz i ≤ chfltEntry table unitHz clockDivided crystalHz j ↔
      table.getD i 0 ≤ table.getD j 0 := by
  have hx : (0 : ℚ) < crystalHz := by exact_mod_cast hx
  have hclock : (0 : ℚ) < (crystalHz : ℚ) / 26000000 / (if clockDivided then 2 else 1) := by
    cases clockDivided <;> simp <;> positivity
  rw [chfltEntry, chfltEntry, mul_le_mul_iff_left₀ hclock, mul_le_mul_iff_left₀ hunit]

/-- A non-increasing table read by index. -/
theorem getD_antitone {table : List ℚ} (hsorted : table.Pairwise fun a b => b ≤ a) {i j : Nat} (hij : i ≤ j)
    (hj : j < table.length) : table.getD j 0 ≤ table.getD i 0 := by
  rw [List.getD_eq_getElem _ _ hj, List.getD_eq_getElem _ _ (hij.trans_lt hj)]
  obtain rfl | hlt := hij.eq_or_lt
  · rfl
  · exact List.pairwise_iff_getElem.1 hsorted i j _ hj hlt

/-- ENC_CHFLT selects a nearest entry of a non-increasing table, whichever way ties go. -/
theorem chfltOf_nearest {p : Params} (hlen : p.bwTable.length = 90) (hsorted : p.bwTable.Pairwise fun a b => b ≤ a)
    (hunit : 0 < p.bwUnitHz) (target : Nat) (clockDivided : Bool) {crystalHz : Nat} (hx : 0 < crystalHz) :
    NearestEntry (chfltEntry p.bwTable p.bwUnitHz clockDivided crystalHz) target
      (chfltOf p target clockDivided crystalHz) := by
  rw [chfltOf, chflt, if_neg hx.ne']
  exact chfltIndex_nearest
    (fun i j hij hj => (chfltEntry_le_iff hunit hx).2 (getD_antitone hsorted hij (by omega))) _ _

/-- The two bytes of an index inside the table give it back (R97 (a)). -/
theorem index_of_bytes {idx : Nat} (h : idx ≤ 89) :
    9 * (BitVec.ofNat 8 (indexMantExp idx).2).toNat + (BitVec.ofNat 8 (indexMantExp idx).1).toNat = idx := by
  simp only [indexMantExp, BitVec.toNat_ofNat]
  omega

/-- ENC_CHFLT answers with the pair of the index selected. -/
theorem exec_encChflt (t : Word) (d : Bool) (x : Word) {s : State} (hidle : Idle s) :
    exec (.encChflt t d x) s = .next { s with
      operands := { s.operands with targetHz := t, clockDivided := d, crystalHz := x }
      results := { s.results with
        mantissa := BitVec.ofNat 8 (indexMantExp (chfltOf s.params t.toNat d x.toNat)).1
        exponent := BitVec.ofNat 8 (indexMantExp (chfltOf s.params t.toNat d x.toNat)).2 }
      err := .none } :=
  exec_finish (.encChflt t d x) hidle rfl

end Sys2Proof.Machine

namespace Sys2Proof.Safety

open Sys2Proof.Machine

/-! ### The obligations -/

/-- Settles O14: the one step of such an instruction ends it, or goes on at once to the end. -/
theorem busFreeInstructionsEndAtOnce : Obligations.BusFreeInstructionsEndAtOnce := by
  intro i s t hfree hidle hexec
  obtain ⟨a, ha, hseq⟩ := sequenceOf_busFree hfree s
  cases ha with
  | ending hend =>
    cases hend with
    | finish r =>
      rw [exec_finish i hidle hseq] at hexec
      cases hexec
      exact ⟨hidle, rfl, rfl, fun _ => rfl⟩
    | raise e =>
      rw [exec_raise i hidle hseq] at hexec
      cases hexec
      exact ⟨hidle, rfl, rfl, fun _ => rfl⟩
  | setMask w =>
    rw [exec_silent i (u := { accepted i s with maskAcc := w }) hidle hseq rfl] at hexec
    cases hexec
    exact ⟨rfl, rfl, rfl, fun _ => rfl⟩
  | delay ms hdelay =>
    rw [exec_silent i (u := emit (.dly ms.toNat) (accepted i s)) hidle hseq rfl] at hexec
    cases hexec
    exact ⟨rfl, rfl, rfl, fun h => absurd hdelay (h ms)⟩

/-- Settles O15: with other facts a calculator takes the same one step, which reads none of them. -/
theorem calculatorsIgnoreDeviceFacts : Obligations.CalculatorsIgnoreDeviceFacts := by
  intro i s t u x b d hcalc ht hu
  by_cases hidle : Idle s
  · obtain ⟨a, ha, hseq⟩ := sequenceOf_calculator hcalc s
    have hseq' := (sequenceOf_calculator_facts hcalc s x b d).trans hseq
    cases ha with
    | finish r =>
      rw [exec_finish i hidle hseq] at ht
      rw [exec_finish i (s := { s with xtalHz := x, baseHz := b, band := d }) hidle hseq'] at hu
      cases ht
      cases hu
      exact ⟨rfl, rfl⟩
    | raise e =>
      rw [exec_raise i hidle hseq] at ht
      rw [exec_raise i (s := { s with xtalHz := x, baseHz := b, band := d }) hidle hseq'] at hu
      cases ht
      cases hu
      exact ⟨rfl, rfl⟩
  · cases hpc : s.pc with
    | idle => exact absurd hpc hidle
    | busy op l =>
      rw [exec_busy i hpc] at ht
      rw [exec_busy i (s := { s with xtalHz := x, baseHz := b, band := d }) hpc] at hu
      cases ht
      cases hu
      exact ⟨rfl, rfl⟩

/-- Settles O18: the answer follows the classification, whose four ranges exclude each other for legal parameters. -/
theorem bandResolveByRanges : Obligations.BandResolveByRanges := by
  intro b o s hp hidle
  refine ⟨decode_encodeOver s.params o (.bandResolve b), fun h => ?_, fun h => ?_, fun h => ?_, fun h => ?_, ?_⟩
  · exact exec_bandResolve hidle (by decide) (bandOf_high h)
  · exact exec_bandResolve hidle (by decide) (bandOf_middle h)
  · exact exec_bandResolve hidle (by decide) (bandOf_low h)
  · exact exec_bandResolve hidle (by decide) (bandOf_veryLow hp h)
  · rintro ⟨hhigh, hmiddle, hlow, hveryLow⟩
    exact exec_bandResolve_invalid hidle (bandOf_invalid hhigh hmiddle hlow hveryLow)

/-- Settles O19: the pair is a member of the list of minimisers, whose errors are those of the rates cut at the top pair's. -/
theorem datarateIsAMinimiser : Obligations.DatarateIsAMinimiser := by
  intro t d x o s hp hidle hx fClk largest rate
  obtain ⟨-, ⟨hmBits, heBits⟩, -⟩ := hp
  have hrate : ∀ c : Nat × Nat,
      datarateRate Config.drEq s.params.drMBits s.params.drEBits (datarateClock d x.toNat) c = rate c.1 c.2 :=
    fun c => if_neg (datarateClock_ne_zero hx)
  obtain ⟨hpair, hbest⟩ := mem_datarateMinimisers.1 (datarate_mem_minimisers (eq := Config.drEq) (target := t.toNat)
    (mBits := s.params.drMBits) (eBits := s.params.drEBits) (tie := Config.datarateTie t.toNat d x.toNat)
    (clockDivided := d) hx)
  obtain ⟨hm, he⟩ := mem_dataratePairs.1 hpair
  refine ⟨decode_encodeOver s.params o (.encDatarate t d x), (datarateOf s.params t.toNat d x.toNat).1,
    (datarateOf s.params t.toNat d x.toNat).2, hm, he, fun m' e' hm' he' => ?_, fun htop => ?_,
    toNat_byte_of_lt hmBits hm, toNat_byte_of_lt heBits he, exec_finish (.encDatarate t d x) hidle rfl⟩
  · have hle := hbest (m', e') (mem_dataratePairs.2 ⟨hm', he'⟩)
    rw [datarateErr, datarateErr, hrate, hrate] at hle
    exact hle
  · have heq : datarateOf s.params t.toNat d x.toNat = datarateTop s.params.drMBits s.params.drEBits :=
      datarate_eq_top hx htop
    rw [heq]
    exact ⟨rfl, rfl⟩

/-- Settles O20: the exponent and the mantissa are the first of their ranges that pass their tests. -/
theorem fdevFollowsPseudocode : Obligations.FdevFollowsPseudocode := by
  intro t x o s hidle _ X a b
  refine ⟨decode_encodeOver s.params o (.encFdev t x), ?_⟩
  rintro ⟨e₀, he₀, hlt₀⟩
  obtain ⟨e, r, he, hlt, hleast, hr, hfdev⟩ := fdev_of_lt (x := x.toNat) he₀ hlt₀
  obtain ⟨m, r', hr', hm, hltm, hleastm, hcloser, hfarther, hzero⟩ := fdevMantissa_of_lt hlt
  obtain rfl : r = r' := Option.some.inj (hr.symm.trans hr')
  exact ⟨e, m, r, he, hlt, hleast, hm, hltm, hleastm, hcloser, hfarther, hzero, exec_encFdev hidle hfdev⟩

/-- Settles O21: the bound is what the largest exponent reaches, and no exponent reaches further. -/
theorem fdevRefusesAboveLargest : Obligations.FdevRefusesAboveLargest := by
  intro t x s hidle _
  rw [← fdevA_nine]
  refine ⟨fun h => exec_encFdev_refused hidle (fdev_eq_none h), fun h => ?_⟩
  obtain ⟨e, r, he, hlt, -, hr, hfdev⟩ := fdev_of_lt le_rfl h
  have hr7 : r ≤ 7 := fdevMantissa_le hr
  refine ⟨_, exec_encFdev hidle hfdev, rfl, ?_, ?_⟩
  · exact (toNat_byte_of_lt (bits := 3) (by norm_num) (by omega)).trans_le hr7
  · exact (toNat_byte_of_lt (bits := 4) (by norm_num) (by omega)).trans_le he

/-- Settles O22, by the scan's invariant. -/
theorem chfltPicksANearestEntry : Obligations.ChfltPicksANearestEntry := by
  intro t d x o s hlen hsorted hunit hidle hx S
  obtain ⟨hidx, hnearest⟩ := chfltOf_nearest hlen hsorted hunit t.toNat d hx
  exact ⟨decode_encodeOver s.params o (.encChflt t d x), chfltOf s.params t.toNat d x.toNat, hidx, hnearest,
    exec_encChflt t d x hidle⟩

/-- Settles O23: nearest entries of different targets are in the order of the targets, and equal targets select one entry. -/
theorem chfltIsMonotone : Obligations.ChfltIsMonotone := by
  intro t₁ t₂ d x s u₁ u₂ hlen hsorted hunit hidle hx ht h₁ h₂
  obtain heq | hlt := Nat.eq_or_lt_of_le (BitVec.le_def.1 ht)
  · obtain rfl := BitVec.eq_of_toNat_eq heq
    rw [h₁] at h₂
    cases h₂
    rfl
  · obtain ⟨hidx₁, hnearest₁⟩ := chfltOf_nearest hlen hsorted hunit t₁.toNat d hx
    obtain ⟨hidx₂, hnearest₂⟩ := chfltOf_nearest hlen hsorted hunit t₂.toNat d hx
    have htarget : (t₁.toNat : ℚ) < (t₂.toNat : ℚ) := by exact_mod_cast hlt
    have hle := nearest_mono htarget (hnearest₁ _ hidx₂) (hnearest₂ _ hidx₁)
    rw [exec_encChflt t₁ d x hidle] at h₁
    rw [exec_encChflt t₂ d x hidle] at h₂
    cases h₁
    cases h₂
    dsimp only
    rw [index_of_bytes hidx₁, index_of_bytes hidx₂]
    exact (chfltEntry_le_iff hunit hx).1 hle

end Sys2Proof.Safety
end

section
/-! PROOFS. The calculators of spec/41_calc_linear.md: ENC_RSSI_TH, ENC_RX_TIMEOUT, ENC_PA_DBM, ENC_FOFFSET, ENC_CHSPACE and
ENC_IF_OFFSET. What a limit makes of a value is said once for each width, and each result is then the limit of a truncated
equation. ENC_RX_TIMEOUT is computed over the naturals and read here over the integers of R142; its counter fits a byte
because `n < 255 * (n / 255 + 2) - 255`. -/

namespace Sys2Proof.Machine

open Sys2Proof.Safety

/-! ### Limits (R151) -/

/-- A value in a byte: itself where it fits, and otherwise its clamp or its wrap. -/
theorem limitU8_limits (l : Limit) (v : Int) :
    (0 ≤ v ∧ v ≤ 255 → ((limitU8 l v).toNat : Int) = v) ∧ (255 < v → l = .clamp → limitU8 l v = 0xFF) ∧
      (v < 0 → l = .clamp → limitU8 l v = 0x00) ∧ (l = .wrap → ((limitU8 l v).toNat : Int) = v % 256) := by
  refine ⟨fun ⟨hlow, hhigh⟩ => limitU8_fits l v hlow hhigh, ?_, ?_, ?_⟩
  · rintro h rfl
    exact limitU8_clamp_high v h
  · rintro h rfl
    exact limitU8_clamp_low v h
  · rintro rfl
    exact limitU8_wrap v

/-- A 12-bit pattern of a negative number has bit 11 set. -/
theorem getLsbD_eleven_of_neg {x : BitVec 12} (h : x.toInt < 0) : x.getLsbD 11 = true := by
  have hmsb : x.msb = true := by rw [BitVec.msb_eq_toInt, decide_eq_true h]
  rwa [BitVec.msb_eq_getLsbD_last] at hmsb

/-- A negative value that fits, or is clamped, shows its sign in bit 11. -/
theorem limitS12_sign {l : Limit} {v : Int} (hneg : v < 0) (h : -2048 ≤ v ∨ l = .clamp) :
    (limitS12 l v).getLsbD 11 = true := by
  by_cases hfits : -2048 ≤ v
  · exact getLsbD_eleven_of_neg (by rw [limitS12_fits l v hfits (by omega)]; exact hneg)
  · obtain rfl := h.resolve_left hfits
    rw [limitS12_clamp_low v (not_le.1 hfits)]
    decide

/-- A value in 12 bits: itself where it fits, and otherwise its clamp or its wrap. -/
theorem limitS12_limits (l : Limit) (v : Int) :
    (-2048 ≤ v ∧ v ≤ 2047 → (limitS12 l v).toInt = v) ∧ (2047 < v → l = .clamp → limitS12 l v = 0x7FF) ∧
      (v < -2048 → l = .clamp → limitS12 l v = 0x800) ∧ (l = .wrap → ((limitS12 l v).toNat : Int) = v % 4096) := by
  refine ⟨fun ⟨hlow, hhigh⟩ => limitS12_fits l v hlow hhigh, ?_, ?_, ?_⟩
  · rintro h rfl
    exact limitS12_clamp_high v h
  · rintro h rfl
    exact limitS12_clamp_low v h
  · rintro rfl
    exact limitS12_wrap v

/-- Truncation keeps the sign of a rational that is not positive. -/
theorem trunc_nonpos {q : ℚ} (h : q ≤ 0) : trunc q ≤ 0 := by
  have hneg : 0 ≤ (-q.num).tdiv q.den := Int.tdiv_nonneg (neg_nonneg.2 (Rat.num_nonpos.2 h)) (Int.natCast_nonneg q.den)
  rw [Int.neg_tdiv] at hneg
  exact neg_nonneg.1 hneg

/-! ### ENC_RSSI_TH (R141) -/

theorem toNat_rssiThreshold (dbm : Int) :
    ((rssiThreshold dbm).toNat : Int) = (2 * (max (-130) (min 2 dbm) + 130)) % 256 := by
  rw [rssiThreshold, clampInt_eq_max_min _ _ _ (by norm_num), BitVec.toNat_ofInt]
  omega

/-! ### ENC_RX_TIMEOUT (R142, R143) -/

theorem effXtal_eq (x : Nat) : effXtal x = if 30000000 < x then x / 2 else x := by
  simp [effXtal, dualXtal]

/-- The timer units are a floor over the integers: no duration is negative. -/
theorem rxTimeoutUnits_eq_floor (q : NonNegRat) (x : Nat) :
    (rxTimeoutUnits q.val x : Int) =
      ⌊(q.num : ℚ) / ((q.denPred : ℚ) + 1) * ((if 30000000 < x then x / 2 else x : Nat) : ℚ) / 1210000⌋ := by
  rw [← effXtal_eq]
  have hval : 0 ≤ q.val := by unfold NonNegRat.val; positivity
  have hunits : 0 ≤ ⌊q.val * (effXtal x : ℚ) / 1210000⌋ := Int.floor_nonneg.2 (by positivity)
  exact Int.toNat_of_nonneg hunits

/-- The counter of R142, lines 6 to 7, for `n` timer units and the divisor `p`: the nearer of `n div p` and its successor. -/
def nearerCount (n p : Int) : Int := if |(n / p + 1) * p - n| < |n / p * p - n| then n / p + 1 else n / p

theorem nearerCount_eq_or (n p : Int) : nearerCount n p = n / p ∨ nearerCount n p = n / p + 1 := by
  unfold nearerCount
  split
  · exact .inr rfl
  · exact .inl rfl

theorem rxTimeoutPair_saturated {n : Nat} (h : 253 < n / 255) : rxTimeoutPair n = (255, 255) := if_pos h

theorem rxTimeoutPair_unsaturated {n : Nat} (h : n / 255 ≤ 253) :
    ((rxTimeoutPair n).1 : Int) = max (nearerCount n (n / 255 + 2)) 1 ∧
      ((rxTimeoutPair n).2 : Int) = (n : Int) / 255 + 2 - 1 := by
  rw [rxTimeoutPair, if_neg (not_lt.2 h)]
  refine ⟨?_, by push_cast; omega⟩
  simp only [nearerCount, Int.abs_eq_natAbs, Nat.cast_lt, decide_eq_true_eq]
  push_cast
  rfl

/-- The counter fits a byte: `n` is at most `255 * (n div 255) + 254`, so `n div p` is at most 254. -/
theorem nearerCount_le (n : Nat) : nearerCount n (n / 255 + 2) ≤ 255 := by
  have hdiv : (n : Int) / ((n : Int) / 255 + 2) < 255 := Int.ediv_lt_of_lt_mul (by omega) (by omega)
  obtain h | h := nearerCount_eq_or n (n / 255 + 2) <;> omega

/-- Both results are bytes other than 0, and the prescaler is 255 exactly in saturation, where the counter is 255 too. -/
theorem rxTimeoutPair_bounds (n : Nat) :
    (1 ≤ (rxTimeoutPair n).1 ∧ (rxTimeoutPair n).1 ≤ 255) ∧ (1 ≤ (rxTimeoutPair n).2 ∧ (rxTimeoutPair n).2 ≤ 255) ∧
      ((rxTimeoutPair n).2 = 255 ↔ 253 < n / 255) ∧ ((rxTimeoutPair n).2 = 255 → (rxTimeoutPair n).1 = 255) := by
  by_cases h : 253 < n / 255
  · simp [rxTimeoutPair_saturated h, h]
  · obtain ⟨hcounter, hprescaler⟩ := rxTimeoutPair_unsaturated (not_lt.1 h)
    have hle := nearerCount_le n
    omega

/-- ENC_RX_TIMEOUT answers with the pair of its timer units. -/
theorem exec_encRxTimeout (q : NonNegRat) {x : Word} {s : State} (hidle : Idle s) (hx : 0 < x.toNat) :
    exec (.encRxTimeout q x) s = .next { s with
      operands := { s.operands with timeoutMs := q, crystalHz := x }
      results := { s.results with
        counter := BitVec.ofNat 8 (rxTimeoutPair (rxTimeoutUnits q.val x.toNat)).1
        prescaler := BitVec.ofNat 8 (rxTimeoutPair (rxTimeoutUnits q.val x.toNat)).2 }
      err := .none } :=
  exec_finish (.encRxTimeout q x) (l := .only) (r := .timeout _ _) hidle (by simp [sequenceOf, rxTimeout, hx.ne'])

/-! ### ENC_PA_DBM (R144 to R146) -/

section
variable {p : Params} {f slot : Nat} {dbm : ℚ} {segment : Nat → ℚ → Segment}

/-- The row of a frequency in a band (R145). -/
theorem paRow_of_band (h : bandOf p f ≠ .invalid) :
    paRow p f = some (if bandOf p f = .high then (if 900000000 ≤ f then 0 else 1)
      else if bandOf p f = .middle then 2 else if bandOf p f = .low then 3 else 4) := by
  unfold paRow
  cases hband : bandOf p f with
  | invalid => exact absurd hband h
  | high | middle | low | veryLow => rfl

theorem paRow_invalid (h : bandOf p f = .invalid) : paRow p f = none := by
  rw [paRow, h]

/-- With slot, power and band in range the byte is the value of the row's line (R144). -/
theorem paPower_of_row {row : Nat} (hslot : slot ≤ p.paSlotMax) (hlow : -31 ≤ dbm) (hhigh : dbm ≤ 12)
    (hrow : paRow p f = some row) :
    paPower p segment slot dbm f =
      some (BitVec.ofInt 8 (paValue (p.paCoeff.getD row ⟨0, 0, 0, 0, 0, 0⟩) (segment row dbm) dbm)) := by
  rw [paPower, if_neg (not_lt.2 hslot), if_neg (by simp [hlow, hhigh]), hrow]

/-- Each of the three checks of R144 refuses by itself. -/
theorem paPower_eq_none (h : p.paSlotMax < slot ∨ dbm < -31 ∨ 12 < dbm ∨ bandOf p f = .invalid) :
    paPower p segment slot dbm f = none := by
  unfold paPower
  split
  · rfl
  · next hslot =>
    split
    · rfl
    · next hdbm =>
      obtain ⟨hlow, hhigh⟩ := not_or.1 hdbm
      rw [paRow_invalid (((h.resolve_left hslot).resolve_left hlow).resolve_left hhigh)]

end

/-- ENC_PA_DBM answers with the byte of a slot, a power and a frequency in range. -/
theorem exec_encPaDbm {slot : Byte} {dbm : ℚ} {b : Word} {s : State} {r : Byte} (hidle : Idle s)
    (h : paPower s.params Config.paSegment slot.toNat dbm b.toNat = some r) :
    exec (.encPaDbm slot dbm b) s = .next { s with
      operands := { s.operands with slot := slot, paDbm := dbm, baseHz := b }
      results := { s.results with reg := r }
      err := .none } :=
  exec_finish (.encPaDbm slot dbm b) (l := .only) (r := .reg r) hidle (by simp [sequenceOf, h])

/-- ENC_PA_DBM refuses what its checks reject. -/
theorem exec_encPaDbm_refused {slot : Byte} {dbm : ℚ} {b : Word} {s : State} (hidle : Idle s)
    (h : paPower s.params Config.paSegment slot.toNat dbm b.toNat = none) :
    exec (.encPaDbm slot dbm b) s = .next { s with
      operands := { s.operands with slot := slot, paDbm := dbm, baseHz := b }
      results := { s.results with reg := Config.freeByte s.fresh 0 }
      err := .invalidParameter
      fresh := s.fresh + 1 } :=
  exec_raise (.encPaDbm slot dbm b) (l := .only) (e := .invalidParameter) hidle (by simp [sequenceOf, h])

/-! ### ENC_FOFFSET (R147, R148) -/

section
variable {eq : Int → Nat → ℚ} {offset : Int} {x : Nat}

/-- With a crystal the equation is kept to R147's corner cases. -/
theorem fcValue_of_crystal (hx : 0 < x) :
    fcValue eq offset x = if offset = 0 then 0 else if offset < 0 then -|eq offset x| else eq offset x := if_neg hx.ne'

theorem fcValue_zero (hx : 0 < x) : fcValue eq 0 x = 0 := by
  rw [fcValue_of_crystal hx, if_pos rfl]

theorem fcValue_nonpos (hx : 0 < x) (h : offset < 0) : fcValue eq offset x ≤ 0 := by
  rw [fcValue_of_crystal hx, if_neg h.ne, if_pos h]
  exact neg_nonpos.2 (abs_nonneg _)

/-- No offset gives the all-zero pattern. -/
theorem fcOffset_zero (l : Limit) (hx : 0 < x) : fcOffset l eq 0 x = 0x000 := by
  rw [fcOffset, fcValue_zero hx]
  cases l <;> rfl

end

theorem offsetHz_zero (b : Nat) : offsetHz 0 b = 0 := by simp [offsetHz_eq_tdiv]

/-- ENC_FOFFSET answers with the offset in Hz and its pattern. -/
theorem exec_encFoffset (ppm : BitVec 16) (b : Word) {x : Word} {s : State} (hidle : Idle s) (hx : 0 < x.toNat) :
    exec (.encFoffset ppm b x) s = .next { s with
      operands := { s.operands with xtalOffsetPpm := ppm, baseHz := b, crystalHz := x }
      results := { s.results with
        offsetHz := BitVec.ofInt 64 (offsetHz ppm.toInt b.toNat)
        fcOffset := fcOffset s.params.fcLimit Config.eqFcOffset (offsetHz ppm.toInt b.toNat) x.toNat }
      err := .none } :=
  exec_finish (.encFoffset ppm b x) (l := .only) (r := .foffset _ _) hidle
    (by simp [sequenceOf, foffset, fcOffsetOf, hx.ne'])

/-! ### Calculators that never raise -/

/-- A calculator that cannot end with `InvalidParameter` is one `finish`, whatever its crystal is (R140, R152). -/
theorem sequenceOf_total {i : Instr} (hi : isCalculator i = true) (htotal : mayEndWith i .invalidParameter = false)
    (s : State) : ∃ r, sequenceOf i s = [⟨.only, .finish r⟩] := by
  cases i
  case encDatarate | encChflt | encRssiTh | encRxTimeout | encFoffset | encChspace | encIfOffset => exact ⟨_, rfl⟩
  case bandResolve | encFdev | encPaDbm => cases htotal
  all_goals cases hi

end Sys2Proof.Machine

namespace Sys2Proof.Safety

open Sys2Proof.Machine

/-! ### The obligations -/

/-- Settles O24. -/
theorem rssiThresholdClampsThenWraps : Obligations.RssiThresholdClampsThenWraps := by
  intro dbm o s hidle
  exact ⟨decode_encodeOver s.params o (.encRssiTh dbm), rssiThreshold dbm.toInt,
    exec_finish (.encRssiTh dbm) hidle rfl, toNat_rssiThreshold dbm.toInt⟩

/-- Settles O25: the pair computed over the naturals is that of the integers of R142. -/
theorem rxTimeoutFollowsPseudocode : Obligations.RxTimeoutFollowsPseudocode := by
  intro q x o s hidle hx xtal n p c c' answers
  have hn : (rxTimeoutUnits q.val x.toNat : Int) = n := rxTimeoutUnits_eq_floor q x.toNat
  refine ⟨decode_encodeOver s.params o (.encRxTimeout q x), fun hsat => ?_, fun hle => ?_⟩
  · have hpair := rxTimeoutPair_saturated (n := rxTimeoutUnits q.val x.toNat) (by omega)
    have hexec := exec_encRxTimeout q hidle hx
    rw [hpair] at hexec
    exact hexec
  · obtain ⟨hcounter, hprescaler⟩ := rxTimeoutPair_unsaturated (n := rxTimeoutUnits q.val x.toNat) (by omega)
    rw [hn] at hcounter hprescaler
    have hexec := exec_encRxTimeout q hidle hx
    rw [← BitVec.ofInt_natCast, ← BitVec.ofInt_natCast, hcounter, hprescaler] at hexec
    exact hexec

/-- Settles O26, by the bounds of the pair, which both fit their bytes. -/
theorem rxTimeoutNeverZero : Obligations.RxTimeoutNeverZero := by
  intro q x s hidle hx xtal n
  have hn : (rxTimeoutUnits q.val x.toNat : Int) = n := rxTimeoutUnits_eq_floor q x.toNat
  obtain ⟨⟨hcounter, hcounter'⟩, ⟨hprescaler, hprescaler'⟩, hsat, hboth⟩ :=
    rxTimeoutPair_bounds (rxTimeoutUnits q.val x.toNat)
  refine ⟨_, exec_encRxTimeout q hidle hx, rfl, ?_⟩
  dsimp only
  rw [toNat_byte_of_lt le_rfl (Nat.lt_succ_of_le hcounter'), toNat_byte_of_lt le_rfl (Nat.lt_succ_of_le hprescaler')]
  exact ⟨hcounter, hprescaler, hsat.trans (by omega), hboth⟩

/-- Settles O27: the byte is the value of the line, whose bounds make it a natural. -/
theorem paPowerIsTheClampedLine : Obligations.PaPowerIsTheClampedLine := by
  intro slot dbm b o s hidle hslot hlow hhigh hband row k r
  have hr : r = (paLine k (Config.paSegment row dbm)).1 * dbm + (paLine k (Config.paSegment row dbm)).2 := by
    unfold r
    cases Config.paSegment row dbm <;> rfl
  obtain ⟨hfloor, hone, hninety⟩ := paValue_bounds k (Config.paSegment row dbm) dbm
  obtain ⟨v, hv⟩ := Int.eq_ofNat_of_zero_le (zero_le_one.trans hone)
  have hbyte := paPower_of_row (segment := Config.paSegment) hslot hlow hhigh (paRow_of_band hband)
  refine ⟨decode_encodeOver s.params o (.encPaDbm slot dbm b), v, ?_, by omega, by omega, ?_⟩
  · rw [← hv, hfloor, hr]
  · rw [← BitVec.ofInt_natCast, ← hv]
    exact exec_encPaDbm hidle hbyte

/-- Settles O28. -/
theorem paPowerRefusesOutOfRange : Obligations.PaPowerRefusesOutOfRange := by
  intro slot dbm b s hidle h
  exact exec_encPaDbm_refused hidle (paPower_eq_none h)

/-- Settles O29: the pattern is the limit of the truncated value, and R147's corner cases are the value's. -/
theorem foffsetTruncatesAndLimits : Obligations.FoffsetTruncatesAndLimits := by
  intro ppm b x o s hidle hx hz y v
  have hoffset : offsetHz ppm.toInt b.toNat = hz := offsetHz_eq_tdiv _ _
  have hy : fcValue Config.eqFcOffset hz x.toNat = y := fcValue_of_crystal hx
  have hv : trunc y = v := trunc_eq_floor_or_ceil y
  have hpattern : fcOffset s.params.fcLimit Config.eqFcOffset hz x.toNat = limitS12 s.params.fcLimit v := by
    rw [fcOffset, hy, hv]
  have hexec := exec_encFoffset ppm b hidle hx
  rw [hoffset, hpattern] at hexec
  refine ⟨decode_encodeOver s.params o (.encFoffset ppm b x), BitVec.ofInt 64 hz, limitS12 s.params.fcLimit v, ?_, ?_, ?_,
    limitS12_sign, ?_⟩
  · rw [← hoffset]
    exact offsetHz_toInt ppm b
  · rintro rfl
    have hzero : hz = 0 := hoffset.symm.trans (offsetHz_zero b.toNat)
    rw [← hpattern, hzero]
    exact ⟨rfl, fcOffset_zero _ hx⟩
  · intro hneg
    rw [← hv, ← hy]
    exact trunc_nonpos (fcValue_nonpos hx hneg)
  · obtain ⟨hfits, hhigh, hlow, hwrap⟩ := limitS12_limits s.params.fcLimit v
    exact ⟨hfits, hhigh, hlow, hwrap, hexec⟩

/-- Settles O30: each byte is the limit of a truncated equation. -/
theorem spacingAndIfOffsetsTruncateAndLimit : Obligations.SpacingAndIfOffsetsTruncateAndLimit := by
  intro spacing x o s hidle _ whole limited
  have hlimited (l : Limit) (y : ℚ) : limited l (whole y) (limitU8 l (trunc y)) := by
    have hwhole : trunc y = whole y := trunc_eq_floor_or_ceil y
    rw [hwhole]
    exact limitU8_limits l (whole y)
  exact ⟨decode_encodeOver s.params o (.encChspace spacing x), decode_encodeOver s.params o (.encIfOffset x),
    ⟨chspaceOf s.params spacing.toNat x.toNat, hlimited _ _, exec_finish (.encChspace spacing x) hidle rfl⟩,
    ifAnaOf s.params x.toNat, ifDigOf s.params x.toNat, hlimited _ _, hlimited _ _, exec_finish (.encIfOffset x) hidle rfl⟩

/-- Settles O31: each of the six is one `finish`, which reads no crystal to end. -/
theorem zeroCrystalStillEnds : Obligations.ZeroCrystalStillEnds := by
  intro i s hidle hi
  obtain ⟨hcalc, htotal⟩ : isCalculator i = true ∧ mayEndWith i .invalidParameter = false := by
    simp only [List.mem_cons, List.not_mem_nil, or_false] at hi
    obtain rfl | rfl | rfl | rfl | rfl | rfl := hi <;> exact ⟨rfl, rfl⟩
  obtain ⟨r, hseq⟩ := sequenceOf_total hcalc htotal s
  exact ⟨_, exec_finish i hidle hseq, hidle, rfl, rfl⟩

end Sys2Proof.Safety
end

section
/-! PROOFS. The sequencer (spec/42_sequencer.md): what WAIT_FOR_STATE polls (R171), what a row of steps that only send has sent
when it is done, the three writes of WA_EXTRA_CURRENT (R174), and INIT from S1 to where it ends (R172, R173, R175). -/

namespace Sys2Proof.Machine

open Sys2Proof.Safety

/-! ### The operating state the chip reports (R31, R43) -/

section
variable {p : Params} {c d : Chip}

theorem statesSeen_append (p : Params) (c : Chip) (xs ys : List Turn) :
    statesSeen p c (xs ++ ys) = statesSeen p c xs ++ statesSeen p (chipAfter xs c) ys := by
  induction xs generalizing c with
  | nil => rfl
  | cons x xs ih => simp only [List.cons_append, statesSeen, ih]; rfl

/-- The last poll of a row, and the polls before it. -/
theorem statesSeen_eq_concat {polls : List Turn} {seen : List DevState} {last : DevState}
    (h : statesSeen p c polls = seen ++ [last]) :
    ∃ misses x, polls = misses ++ [x] ∧ statesSeen p c misses = seen ∧
      stateRead p x (chipAt x (chipAfter misses c)) = last := by
  obtain rfl | ⟨misses, x, rfl⟩ := List.eq_nil_or_concat' polls
  · simp [statesSeen] at h
  · rw [statesSeen_append] at h
    obtain ⟨hseen, hlast⟩ := List.append_inj' h rfl
    exact ⟨misses, x, rfl, hseen, by simpa [statesSeen] using hlast⟩

theorem statesSeen_length (p : Params) (c : Chip) (ts : List Turn) : (statesSeen p c ts).length = ts.length := by
  induction ts generalizing c with
  | nil => rfl
  | cons t ts ih => simp [statesSeen, ih]

/-- What the chip does by itself to its state code does not depend on the rest of it. -/
theorem stateCode_chipAt_congr (t : Turn) (h : c.stateCode = d.stateCode) :
    (chipAt t c).stateCode = (chipAt t d).stateCode := by
  unfold chipAt
  generalize t.drift = ds
  induction ds generalizing c d with
  | nil => exact h
  | cons x ds ih => exact ih (by cases x <;> simp [chipDrift, h])

theorem stateCode_chipAfter_congr (ts : List Turn) (h : c.stateCode = d.stateCode) :
    (chipAfter ts c).stateCode = (chipAfter ts d).stateCode := by
  induction ts generalizing c d with
  | nil => exact h
  | cons t ts ih => exact ih (stateCode_chipAt_congr t h)

/-- The state read is the answer from outside, or stands in the state code. -/
theorem stateRead_congr (t : Turn) (h : c.stateCode = d.stateCode) : stateRead p t c = stateRead p t d := by
  unfold stateRead bytesRead
  cases t.answers.lookup Kind.mcState with
  | some bytes => rfl
  | none =>
    simp only [kindBytes, statusBytes, orderBytes_orderBytes, h]
    rw [codeAt_putCode_same_length _ _ (ys := storedBytes p d .mcState) (by simp [storedBytes])]

theorem statesSeen_congr (ts : List Turn) (h : c.stateCode = d.stateCode) : statesSeen p c ts = statesSeen p d ts := by
  induction ts generalizing c d with
  | nil => rfl
  | cons t ts ih =>
    have ht := stateCode_chipAt_congr t h
    rw [statesSeen, statesSeen, stateRead_congr t ht, ih ht]

/-- A read of `MC_STATE` always decodes (R43). -/
theorem valueRead_mcState (p : Params) (t : Turn) (c : Chip) :
    valueRead p .mcState t c =
      .ok (.record (orderBytes p .mcState (bytesRead p .mcState t c)) [(.state, .state (stateRead p t c))]) := rfl

end

/-! ### Passing from one state of a run to a later one -/

/-- The run from `s` comes to `t`, having used up the answers `used` and recorded the events `es`; the state code is as the
chip's own changes left it. -/
structure Passes (used : List Turn) (es : List BusEvent) (s t : State) : Prop where
  settles : settle s = settle t
  turns : s.turns = used ++ t.turns
  trace : t.trace = s.trace ++ es
  params : t.params = s.params
  stateCode : t.chip.stateCode = (chipAfter used s.chip).stateCode

theorem Passes.refl (s : State) : Passes [] [] s s := ⟨rfl, rfl, by simp, rfl, rfl⟩

theorem Passes.trans {used used' : List Turn} {es es' : List BusEvent} {s t u : State} (h : Passes used es s t)
    (k : Passes used' es' t u) : Passes (used ++ used') (es ++ es') s u where
  settles := h.settles.trans k.settles
  turns := by rw [h.turns, k.turns, List.append_assoc]
  trace := by rw [k.trace, h.trace, List.append_assoc]
  params := k.params.trans h.params
  stateCode := by
    rw [k.stateCode, stateCode_chipAfter_congr _ h.stateCode, chipAfter, chipAfter, chipAfter, List.foldl_append]

/-- The answers left are those after the ones used. -/
theorem Passes.left {used left : List Turn} {es : List BusEvent} {s t : State} (h : Passes used es s t)
    (hturns : s.turns = used ++ left) : t.turns = left :=
  List.append_cancel_left (h.turns.symm.trans hturns)

/-- A step whose primitive returned. -/
theorem passes_returned {op : Op} {steps : List Micro} {s : State} {x : Turn} {ts : List Turn} {c : Chip} {e : BusEvent}
    (hturns : s.turns = x :: ts) (h : seqStep s = some (goto op steps (returned ts c e s)))
    (hcode : c.stateCode = (chipAt x s.chip).stateCode) :
    Passes [x] [e] s (goto op steps (returned ts c e s)) :=
  ⟨settle_some h, hturns, rfl, rfl, hcode⟩

/-- An operation with no step left ends without error (R27, R40). -/
theorem passes_end {op : Op} {s : State} (hpc : s.pc = .busy op []) : Passes [] [] s (finish .nothing s) :=
  ⟨(settle_end hpc).trans (settle_idle rfl).symm, rfl, by simp, rfl, rfl⟩

/-- A step that raises ends the operation there (R276). -/
theorem passes_raise {op : Op} {l : Label} {e : Err} {next : List Micro} {s : State}
    (hpc : s.pc = .busy op (⟨l, .raise e⟩ :: next)) : Passes [] [] s (raise e s) :=
  ⟨(settle_raise hpc).trans (settle_idle (raise_pc e s)).symm, by simp, by simp, by simp, by simp [chipAfter]⟩

/-- What an instruction comes to, if its run passes to an idle state. -/
theorem Passes.exec {i : Instr} {used left : List Turn} {es : List BusEvent} {s t : State} (h : Passes used es (accepted i s) t)
    (hidle : Idle s) (ht : Idle t) (hturns : s.turns = used ++ left) :
    exec i s = .next t ∧ t.turns = left ∧ newEvents s t = es :=
  ⟨by rw [exec_idle i hidle, h.settles, settle_idle ht], h.left hturns, by
    rw [newEvents, h.trace]; exact List.drop_left⟩

/-! ### WAIT_FOR_STATE (R171) -/

theorem pollLimitReached_iff {p : Params} {polls : Nat} :
    pollLimitReached p polls = true ↔ ∃ n, p.pollLimit = some n ∧ n ≤ polls := by
  unfold pollLimitReached
  split <;> simp [*]

/-- The event of a poll of `MC_STATE` that finds the chip as `c`. -/
def pollEvent (p : Params) (x : Turn) (c : Chip) : BusEvent :=
  .rd .mcState (some (.record (orderBytes p .mcState (bytesRead p .mcState x c)) [(.state, .state (stateRead p x c))]))

theorem bare_pollEvent (p : Params) (x : Turn) (c : Chip) : bare (pollEvent p x c) = stateEvent (stateRead p x c) := rfl

section
variable {target last : DevState} {op : Op} {l : Label} {next : List Micro} {s : State} {x : Turn} {ts : List Turn}
  {misses polls left : List Turn} {seen : List DevState}

/-- One poll of `MC_STATE`, delivered: the operation goes on, or the poll is to be counted and repeated. -/
theorem passes_poll (hpc : s.pc = .busy op (⟨l, .pollState target⟩ :: next)) (hturns : s.turns = x :: ts)
    (hx : x.failure = none) :
    ∃ t, Passes [x] [pollEvent s.params x (chipAt x s.chip)] s t ∧ t.polls = s.polls ∧ t.chip = chipAt x s.chip ∧
      t.pc = .busy op (if stateRead s.params x (chipAt x s.chip) = target then next
        else ⟨.w3, .countPoll⟩ :: ⟨.w1, .pollState target⟩ :: next) := by
  refine ⟨_, passes_returned (ts := ts) (c := chipAt x s.chip) hturns ?_ rfl, rfl, rfl, rfl⟩
  simp only [seqStep, hpc, actStep, busRead_returns hturns hx (valueRead_mcState _ _ _), Prim.andThen, afterPollState]
  rw [← apply_ite (fun steps => goto op steps _)]
  rfl

/-- A poll counted below the limit is repeated after the delay. -/
theorem passes_countPoll (hpc : s.pc = .busy op (⟨l, .countPoll⟩ :: next))
    (hlimit : ∀ n, s.params.pollLimit = some n → s.polls + 1 < n) :
    ∃ t, Passes [] [.dly s.params.pollDelayMs] s t ∧ t.pc = .busy op next ∧ t.polls = s.polls + 1 ∧ t.chip = s.chip := by
  have hbelow : ¬ pollLimitReached s.params (s.polls + 1) = true := by
    rw [pollLimitReached_iff]
    rintro ⟨n, hn, hle⟩
    exact absurd (hlimit n hn) (by omega)
  have hstep : seqStep s =
      some (goto op next (emit (.dly s.params.pollDelayMs) { s with polls := s.polls + 1 })) := by
    simp only [seqStep, hpc, actStep, countPoll, if_neg hbelow]
  exact ⟨_, ⟨settle_some hstep, rfl, rfl, rfl, rfl⟩, rfl, rfl, rfl⟩

/-- A poll counted at the limit ends the operation. -/
theorem passes_countPoll_timeout (hpc : s.pc = .busy op (⟨l, .countPoll⟩ :: next))
    (hlimit : s.params.pollLimit = some (s.polls + 1)) :
    Passes [] [] s (raise (.timeout .pollLimit) { s with polls := s.polls + 1 }) := by
  have hstep : seqStep s = some (raise (.timeout .pollLimit) { s with polls := s.polls + 1 }) := by
    simp only [seqStep, hpc, actStep, countPoll, if_pos (pollLimitReached_iff.2 ⟨_, hlimit, le_rfl⟩)]
  exact ⟨settle_some hstep, by simp, by simp, by simp, by simp [chipAfter]⟩

/-- A poll that misses the target inside the limit is counted, and comes back after the delay. -/
theorem passes_missedPoll (hpc : s.pc = .busy op (⟨.w1, .pollState target⟩ :: next)) (hturns : s.turns = x :: ts)
    (hx : x.failure = none) (hmiss : stateRead s.params x (chipAt x s.chip) ≠ target)
    (hlimit : ∀ n, s.params.pollLimit = some n → s.polls + 1 < n) :
    ∃ t, Passes [x] [pollEvent s.params x (chipAt x s.chip), .dly s.params.pollDelayMs] s t ∧ t.pc = s.pc ∧
      t.polls = s.polls + 1 ∧ t.chip = chipAt x s.chip := by
  obtain ⟨t, hpoll, hpolls, hchip, htpc⟩ := passes_poll hpc hturns hx
  rw [if_neg hmiss] at htpc
  obtain ⟨u, hcount, hupc, hupolls, huchip⟩ := passes_countPoll htpc (by rwa [hpoll.params, hpolls])
  rw [hpoll.params] at hcount
  exact ⟨u, hpoll.trans hcount, hupc.trans hpc.symm, by rw [hupolls, hpolls], huchip.trans hchip⟩

/-- Polls that all miss the target inside the limit: a read and a delay for each. -/
theorem passes_missedPolls (hpc : s.pc = .busy op (⟨.w1, .pollState target⟩ :: next)) (hturns : s.turns = misses ++ left)
    (hdelivered : ∀ x ∈ misses, x.failure = none) (hmiss : target ∉ statesSeen s.params s.chip misses)
    (hlimit : ∀ n, s.params.pollLimit = some n → s.polls + misses.length < n) :
    ∃ es t, Passes misses es s t ∧ t.pc = s.pc ∧ t.polls = s.polls + misses.length ∧ t.chip = chipAfter misses s.chip ∧
      es.map bare = missedStatePolls s.params (statesSeen s.params s.chip misses) := by
  induction misses generalizing s with
  | nil => exact ⟨[], s, .refl s, rfl, rfl, rfl, rfl⟩
  | cons x misses ih =>
    simp only [List.forall_mem_cons] at hdelivered
    obtain ⟨hx, hmisses⟩ := hdelivered
    simp only [statesSeen, List.mem_cons, not_or] at hmiss
    obtain ⟨hne, hrest⟩ := hmiss
    simp only [List.length_cons] at hlimit ⊢
    obtain ⟨t, hfirst, hpc₁, hpolls₁, hchip₁⟩ := passes_missedPoll hpc hturns hx (Ne.symm hne)
      fun n hn => by have := hlimit n hn; omega
    obtain ⟨es, u, hothers, hpc₂, hpolls₂, hchip₂, hes⟩ := ih (hpc₁.trans hpc) (hfirst.left hturns) hmisses
      (by rwa [hfirst.params, hchip₁]) (by rw [hfirst.params, hpolls₁]; intro n hn; have := hlimit n hn; omega)
    refine ⟨_, u, hfirst.trans hothers, hpc₂.trans hpc₁, by omega, by rw [hchip₂, hchip₁]; rfl, ?_⟩
    rw [List.map_append, hes, hfirst.params, hchip₁]
    rfl

/-- The wait of R171 up to the last of a row of polls, the earlier ones having missed inside the limit. -/
theorem passes_waitSteps (hpc : s.pc = .busy op (waitSteps target ++ next)) (hturns : s.turns = polls ++ left)
    (hdelivered : ∀ x ∈ polls, x.failure = none) (hseen : statesSeen s.params s.chip polls = seen ++ [last])
    (hmiss : target ∉ seen) (hlimit : ∀ n, s.params.pollLimit = some n → seen.length < n) :
    ∃ es t, Passes polls es s t ∧ es.map bare = missedStatePolls s.params seen ++ [stateEvent last] ∧ t.polls = seen.length ∧
      t.pc = .busy op (if last = target then next else ⟨.w3, .countPoll⟩ :: ⟨.w1, .pollState target⟩ :: next) := by
  obtain ⟨misses, x, rfl, rfl, rfl⟩ := statesSeen_eq_concat hseen
  rw [statesSeen_length] at hlimit ⊢
  simp only [List.forall_mem_append, List.forall_mem_singleton] at hdelivered
  obtain ⟨hmisses, hx⟩ := hdelivered
  have hzero : Passes [] [] s (goto op (⟨.w1, .pollState target⟩ :: next) { s with polls := 0, retries := 0 }) :=
    ⟨settle_some (by simp only [seqStep, hpc, waitSteps, List.cons_append, actStep, List.nil_append]), rfl, by simp, rfl, rfl⟩
  obtain ⟨es, t, hpass, htpc, hpolls, hchip, hes⟩ := passes_missedPolls
    (s := goto op (⟨.w1, .pollState target⟩ :: next) { s with polls := 0, retries := 0 }) rfl
    (hturns.trans (List.append_assoc _ _ _)) hmisses hmiss (by simpa using hlimit)
  have hmissed := hzero.trans hpass
  obtain ⟨u, hlast, hlastpolls, -, hupc⟩ := passes_poll htpc (hmissed.left (hturns.trans (List.append_assoc _ _ _))) hx
  rw [hmissed.params, hchip] at hlast hupc
  refine ⟨_, u, hmissed.trans hlast, ?_, hlastpolls.trans (hpolls.trans (Nat.zero_add _)), hupc⟩
  rw [List.map_append, List.nil_append, hes]
  rfl

/-- The wait ends at the first poll that reads the target. -/
theorem passes_waitSteps_hit (hpc : s.pc = .busy op (waitSteps target ++ next)) (hturns : s.turns = polls ++ left)
    (hdelivered : ∀ x ∈ polls, x.failure = none) (hseen : statesSeen s.params s.chip polls = seen ++ [target])
    (hmiss : target ∉ seen) (hlimit : ∀ n, s.params.pollLimit = some n → seen.length < n) :
    ∃ es t, Passes polls es s t ∧ es.map bare = missedStatePolls s.params seen ++ [stateEvent target] ∧
      t.pc = .busy op next := by
  obtain ⟨es, t, hpass, hes, -, htpc⟩ := passes_waitSteps hpc hturns hdelivered hseen hmiss hlimit
  rw [if_pos rfl] at htpc
  exact ⟨es, t, hpass, hes, htpc⟩

/-- The wait ends the operation with `Timeout` at the poll that reaches the limit without the target. -/
theorem passes_waitSteps_timeout (hpc : s.pc = .busy op (waitSteps target ++ next)) (hturns : s.turns = polls ++ left)
    (hdelivered : ∀ x ∈ polls, x.failure = none) (hseen : statesSeen s.params s.chip polls = seen ++ [last])
    (hmiss : target ∉ seen ++ [last]) (hlimit : s.params.pollLimit = some polls.length) :
    ∃ es t, Passes polls es s t ∧ es.map bare = missedStatePolls s.params seen ++ [stateEvent last] ∧ Idle t ∧
      t.err = .timeout .pollLimit := by
  have hlen : polls.length = seen.length + 1 := by
    rw [← statesSeen_length s.params s.chip, hseen, List.length_append]; rfl
  simp only [List.mem_append, List.mem_singleton, not_or] at hmiss
  obtain ⟨hbefore, hne⟩ := hmiss
  obtain ⟨es, t, hpass, hes, hpolls, htpc⟩ := passes_waitSteps hpc hturns hdelivered hseen hbefore
    (by rw [hlimit, hlen]; rintro n ⟨⟩; omega)
  rw [if_neg (Ne.symm hne)] at htpc
  have hend := passes_countPoll_timeout htpc (by rw [hpass.params, hlimit, hlen, hpolls])
  exact ⟨es, _, by simpa using hpass.trans hend, hes, raise_pc _ _, raise_err _ _⟩

end

end Sys2Proof.Machine

namespace Sys2Proof.Safety

open Sys2Proof.Machine

/-- Settles O38: the run of the wait, taken to the poll that hits. -/
theorem waitEndsAtFirstMatchingPoll : Obligations.WaitEndsAtFirstMatchingPoll := by
  intro target o s misses rest hit seen hidle htarget hturns hdelivered hseen hmiss hlimit
  have hlen : misses.length = seen.length := by
    simpa [hseen] using (statesSeen_length s.params s.chip (misses ++ [hit])).symm
  have hturns' : s.turns = (misses ++ [hit]) ++ rest := by simp [hturns]
  obtain ⟨es, t, hpass, hes, hpc⟩ := passes_waitSteps_hit (s := accepted (.waitForState target) s) (op := .waitForState)
    (next := []) (by simp [accepted, sequenceOf, htarget, opOf]) hturns' hdelivered hseen hmiss (hlen ▸ hlimit)
  obtain ⟨hexec, hleft, hnew⟩ := (hpass.trans (passes_end hpc)).exec hidle rfl (by simpa using hturns')
  rw [List.append_nil] at hnew
  exact ⟨decode_encodeOver s.params o (.waitForState target), _, hexec, rfl, rfl, hleft, by rw [hnew]; exact hes⟩

/-- Settles O39: the run of the wait, taken to the poll that reaches the limit; and the refusal of `Invalid`, which is one
step. -/
theorem waitTimesOutAtPollLimit : Obligations.WaitTimesOutAtPollLimit := by
  refine ⟨fun target last s polls rest seen hidle htarget hlimit hturns hdelivered hseen hmiss => ?_, fun s hidle => ?_⟩
  · obtain ⟨es, t, hpass, hes, ht, herr⟩ := passes_waitSteps_timeout (s := accepted (.waitForState target) s)
      (op := .waitForState) (next := []) (by simp [accepted, sequenceOf, htarget, opOf]) hturns hdelivered hseen hmiss hlimit
    obtain ⟨hexec, hleft, hnew⟩ := hpass.exec hidle ht hturns
    exact ⟨t, hexec, ht, herr, hleft, by rw [hnew]; exact hes⟩
  · exact exec_raise (.waitForState .invalid) hidle rfl

end Sys2Proof.Safety
end

section
/-! PROOFS. Rows of steps that only send (R172, R174): the transactions of each and what they send, for any grouping of a
`RegSet` (U1); and the three writes of WA_EXTRA_CURRENT. -/

namespace Sys2Proof.Machine

open Sys2Proof.Safety

/-! ### Single steps -/

section
variable {op : Op} {l : Label} {next : List Micro} {s : State} {x : Turn} {ts : List Turn}

/-- A raw write, delivered (R238). -/
theorem passes_rawWrite {a : Byte} {bytes : List Byte} (hpc : s.pc = .busy op (⟨l, .rawWrite a bytes⟩ :: next))
    (hturns : s.turns = x :: ts) (hx : x.failure = none) :
    ∃ t, Passes [x] [.wrRaw a bytes true] s t ∧ t.pc = .busy op next := by
  refine ⟨_, passes_returned (ts := ts) (c := chipAfterRawWrite a bytes x.landing (chipAt x s.chip)) hturns ?_ rfl, rfl⟩
  have hwrite : memWrite a bytes s = .done () _ := transact_returns (value := fun _ _ => .ok ()) hturns hx rfl
  simp only [seqStep, hpc, actStep, hwrite, Prim.andThen]
  rfl

/-- A raw write that fails in transport ends the operation, whether it reached the chip or not (U9, R272). -/
theorem passes_rawWrite_failed {a : Byte} {bytes : List Byte} {f : TransportFailure}
    (hpc : s.pc = .busy op (⟨l, .rawWrite a bytes⟩ :: next)) (hturns : s.turns = x :: ts) (hx : x.failure = some f) :
    ∃ t, Passes [x] [.wrRaw a bytes false] s t ∧ Idle t ∧ t.err = .busFailure f.cause := by
  obtain ⟨c, hc⟩ : ∃ c, c = if f.reached then chipAfterRawWrite a bytes x.landing (chipAt x s.chip) else chipAt x s.chip :=
    ⟨_, rfl⟩
  have hwrite : memWrite a bytes s = .ended (raise (.busFailure f.cause) (returned ts c (.wrRaw a bytes false) s)) := by
    simp only [memWrite, transact, nextTurn, hturns, hx, hc]
    rfl
  have hstep : seqStep s = some (raise (.busFailure f.cause) (returned ts c (.wrRaw a bytes false) s)) := by
    simp only [seqStep, hpc, actStep, hwrite, Prim.andThen]
  have hcode : c.stateCode = (chipAt x s.chip).stateCode := by rw [hc]; split <;> rfl
  exact ⟨_, ⟨settle_some hstep, by simpa [returned] using hturns, by simp [returned], by simp [returned],
    by simpa [returned, chipAfter] using hcode⟩, raise_pc _ _, raise_err _ _⟩

/-- A command, delivered (R257). -/
theorem passes_command {c : Command} (hpc : s.pc = .busy op (⟨l, .command c⟩ :: next)) (hturns : s.turns = x :: ts)
    (hx : x.failure = none) :
    ∃ t, Passes [x] [.cmd c (some (decodeState s.params x.reported))] s t ∧ t.pc = .busy op next := by
  refine ⟨_, passes_returned (ts := ts) (c := chipAt x s.chip) hturns ?_ rfl, rfl⟩
  have hcommand : busCommand c s = .done (decodeState s.params x.reported) _ := transact_returns hturns hx rfl
  simp only [seqStep, hpc, actStep, hcommand, Prim.andThen]

/-- A read of a kind and its write with fields replaced, delivered and decoded: S3b of INIT, and a `RegSet` that reads first. -/
theorem passes_readsThenWrites {a : Act} {k : Kind} {fs : List (Field × FieldVal)} {y : Turn} {v : KindVal}
    (ha : ReadsThenWrites s.params k fs a) (hpc : s.pc = .busy op (⟨l, a⟩ :: next)) (hturns : s.turns = x :: y :: ts)
    (hx : x.failure = none) (hy : y.failure = none) (hv : valueRead s.params k x (chipAt x s.chip) = .ok v) :
    ∃ t, Passes [x, y] [.rd k (some v), .wr k (withFields s.params k v fs) true] s t ∧ t.pc = .busy op next :=
  ⟨_, (passes_returned hturns (seqStep_readsThenWrites ha hpc hturns hx hv) rfl).trans
    (passes_returned rfl (seqStep_store rfl rfl hy) rfl), rfl⟩

/-- A delay of no milliseconds is left out (R174, D26). -/
theorem passes_optionalDelay {ms : Nat} (hpc : s.pc = .busy op ((if ms = 0 then [] else [⟨l, .delay ms⟩]) ++ next)) :
    ∃ t, Passes [] (if ms = 0 then [] else [.dly ms]) s t ∧ t.pc = .busy op next := by
  by_cases hms : ms = 0
  · simp only [if_pos hms] at hpc ⊢
    exact ⟨s, .refl s, hpc⟩
  · simp only [if_neg hms] at hpc ⊢
    exact ⟨goto op next (emit (.dly ms) s),
      ⟨settle_some (by simp only [seqStep, hpc, List.cons_append, actStep, List.nil_append]), rfl, rfl, rfl, rfl⟩, rfl⟩

end

/-! ### Rows of steps that send -/

/-- No event is a poll of the operating state. -/
def NoPoll (es : List BusEvent) : Prop := ∀ e ∈ es, ∀ v : Option KindVal, e ≠ .rd .mcState v

/-- What a row of steps sent, with the answers `used` and without a poll of the operating state, before the operation went on
with `next`. A wait that comes after it needs what `SentOn` forgets: which answers were used, and the chip's state code. -/
def RowSends (op : Op) (next : List Micro) (used : List Turn) (sends : List Sent) (s : State) : Prop :=
  ∃ es t, Passes used es s t ∧ t.pc = .busy op next ∧ es.filterMap sentOf = sends ∧ NoPoll es

/-- The transactions of a `RegSet` leave the state code to the chip's own changes, and record reads and writes of parts. -/
theorem PartsRun.plain {p : Params} {k : Kind} {fs : List (Field × FieldVal)} {held : List (Nat × Byte)} {c d : Chip}
    {ts : List Turn} {xs : List Transfer} {es : List BusEvent} (h : PartsRun p k fs held c ts xs es d) :
    d.stateCode = (chipAfter ts c).stateCode ∧ NoPoll es := by
  induction h with
  | nil => exact ⟨rfl, by simp [NoPoll]⟩
  | read _ _ ih | write _ _ ih =>
    exact ⟨ih.1.trans (stateCode_chipAfter_congr _ rfl), List.forall_mem_cons.2 ⟨by simp, ih.2⟩⟩

section
variable {op : Op} {l : Label} {next : List Micro} {k : Kind} {fs : List (Field × FieldVal)} {s : State}
  {used left : List Turn} {ks : List Kind}

/-- One event that is no poll. -/
theorem RowSends.single {x : Turn} {e : BusEvent} {y : Sent} {t : State} (h : Passes [x] [e] s t) (hpc : t.pc = .busy op next)
    (hsent : sentOf e = some y) (he : ∀ v, e ≠ .rd .mcState v) : RowSends op next [x] [y] s :=
  ⟨_, t, h, hpc, by simp [hsent], by simpa [NoPoll] using he⟩

/-- A `RegSet` of a kind other than the operating state sends its fields, whatever its grouping, to a chip whose answers decode
(R66, U1). -/
theorem rowSends_regSet (hpc : s.pc = .busy op (⟨l, .regSet k fs⟩ :: next)) (hturns : s.turns = used ++ left)
    (hlen : used.length = regSetTurns s.params k) (hused : ∀ x ∈ used, Good s.params ks x) (hk : k ∈ ks)
    (hstate : k ≠ .mcState) (hfs : fs ≠ []) : RowSends op next used (regSends s.params k fs) s := by
  obtain ⟨f, fs', rfl⟩ := List.exists_cons_of_ne_nil hfs
  cases hx : (s.params.kindInfo k).transfers with
  | nil =>
    simp only [regSetTurns, regSends, hx] at hlen ⊢
    cases hrmw : (s.params.kindInfo k).rmw with
    | false =>
      obtain ⟨x, rfl⟩ := List.length_eq_one_iff.1 (by simpa [hrmw] using hlen)
      exact .single (passes_returned hturns (seqStep_regSet_write hpc hx hrmw hturns (hused x (by simp)).1) rfl) rfl rfl
        fun _ h => by cases h
    | true =>
      obtain ⟨x, y, rfl⟩ := List.length_eq_two.1 (by simpa [hrmw] using hlen)
      have hgood := hused x (by simp)
      obtain ⟨v, hv⟩ := valueRead_of_good hgood hk (by simp [regSetReads, hx, hrmw]) (chipAt x s.chip)
      obtain ⟨t, hpass, htpc⟩ := passes_readsThenWrites (.inl ⟨rfl, hx, hrmw⟩) hpc hturns hgood.1 (hused y (by simp)).1 hv
      exact ⟨_, t, hpass, htpc, rfl, by simpa [NoPoll] using hstate⟩
  | cons z zs =>
    have hlen' : used.length = (s.params.kindInfo k).transfers.length := by rw [hlen, regSetTurns, hx]
    obtain ⟨es, _, ⟨_, x, hxu, y, hy, hread, c, er, herr⟩ | ⟨d, hd, hend⟩⟩ := runSteps_transfers hlen'
      (fun x hx => (hused x hx).1) (seqStep_regSet_transfers hpc (by simp [hx])) hturns
    · have hreads : regSetReads s.params k = true := by
        rw [regSetReads, hx]
        exact List.any_eq_true.2 ⟨y, hx ▸ hy, hread⟩
      exact absurd herr (partRead_of_good (hused x hxu) hk hreads y c er)
    · have hpass : Passes used es s (goto op next { s with turns := left, chip := d, trace := s.trace ++ es }) :=
        ⟨by rw [← hend, settle_runSteps], hturns, rfl, rfl, hd.plain.1⟩
      refine ⟨es, _, hpass, rfl, ?_, hd.plain.2⟩
      rw [hd.sent, regSends, hx]

/-- The acts that a row of steps of INIT is made of: a `RegSet` of one of the kinds `ks`, a raw write, a command. -/
def Sending (ks : List Kind) : Act → Prop
  | .regSet k fs => k ∈ ks ∧ fs ≠ []
  | .rawWrite _ _ | .command _ => True
  | _ => False

/-- The transactions such an act takes (R66, U1). -/
def actTurns (p : Params) : Act → Nat
  | .regSet k _ => regSetTurns p k
  | _ => 1

/-- What such an act sends (R66, U1). -/
def actSends (p : Params) : Act → List Sent
  | .regSet k fs => regSends p k fs
  | .rawWrite a bytes => [.raw a bytes]
  | .command c => [.command c]
  | _ => []

/-- One step that sends. -/
theorem rowSends_act {a : Act} (ha : Sending ks a) (hks : Kind.mcState ∉ ks) (hpc : s.pc = .busy op (⟨l, a⟩ :: next))
    (hturns : s.turns = used ++ left) (hlen : used.length = actTurns s.params a) (hused : ∀ x ∈ used, Good s.params ks x) :
    RowSends op next used (actSends s.params a) s := by
  cases a
  case regSet k fs => exact rowSends_regSet hpc hturns hlen hused ha.1 (fun h => hks (h ▸ ha.1)) ha.2
  case rawWrite b bytes =>
    obtain ⟨x, rfl⟩ := List.length_eq_one_iff.1 hlen
    obtain ⟨t, hpass, htpc⟩ := passes_rawWrite hpc hturns (hused x (by simp)).1
    exact .single hpass htpc rfl (by simp)
  case command c =>
    obtain ⟨x, rfl⟩ := List.length_eq_one_iff.1 hlen
    obtain ⟨t, hpass, htpc⟩ := passes_command hpc hturns (hused x (by simp)).1
    exact .single hpass htpc rfl (by simp)
  all_goals exact ha.elim

/-- A row of steps that send sends what each of them sends, in order. -/
theorem rowSends_steps {steps : List Micro} (hsteps : AllActs (Sending ks) steps) (hks : Kind.mcState ∉ ks)
    (hpc : s.pc = .busy op (steps ++ next)) (hturns : s.turns = used ++ left)
    (hlen : used.length = (steps.map fun m => actTurns s.params m.act).sum) (hused : ∀ x ∈ used, Good s.params ks x) :
    RowSends op next used (steps.flatMap fun m => actSends s.params m.act) s := by
  induction steps generalizing s used with
  | nil =>
    obtain rfl := List.length_eq_zero_iff.1 hlen
    exact ⟨[], s, .refl s, hpc, rfl, by simp [NoPoll]⟩
  | cons m steps ih =>
    rw [allActs_cons] at hsteps
    rw [List.map_cons, List.sum_cons] at hlen
    obtain ⟨first, others, rfl, hfirst, hothers⟩ := exists_split hlen
    rw [List.append_assoc] at hturns
    simp only [List.forall_mem_append] at hused
    obtain ⟨es, t, hpass, htpc, hes, hquiet⟩ := rowSends_act hsteps.1 hks hpc hturns hfirst hused.1
    obtain ⟨es', u, hpass', hupc, hes', hquiet'⟩ := ih hsteps.2 htpc (hpass.left hturns) (by rw [hpass.params]; exact hothers)
      (by rw [hpass.params]; exact hused.2)
    rw [hpass.params] at hes'
    exact ⟨es ++ es', u, hpass.trans hpass', hupc, by rw [List.filterMap_append, hes, hes', List.flatMap_cons],
      List.forall_mem_append.2 ⟨hquiet, hquiet'⟩⟩

end

end Sys2Proof.Machine

namespace Sys2Proof.Safety

open Sys2Proof.Machine

/-- Settles O40: the run of the three writes, step by step; a failed trigger is its last event. -/
theorem extraCurrentWritesInOrder : Obligations.ExtraCurrentWritesInOrder := by
  intro o s t₁ t₂ t₃ rest hidle hturns hentry p
  refine ⟨decode_encodeOver s.params o .waExtraCurrent, ?_⟩
  obtain ⟨u, hfirst, hupc⟩ := passes_rawWrite (s := accepted .waExtraCurrent s) rfl hturns hentry
  have huturns : u.turns = t₂ :: t₃ :: rest := hfirst.left hturns
  refine ⟨fun htrigger hexit => ?_, fun f hf => ?_⟩
  · obtain ⟨v, hsecond, hvpc⟩ := passes_rawWrite hupc huturns htrigger
    obtain ⟨w, hsettle, hwpc⟩ := passes_optionalDelay hvpc
    have hthree := (hfirst.trans hsecond).trans hsettle
    obtain ⟨z, hlast, hzpc⟩ := passes_rawWrite hwpc (hthree.left hturns) hexit
    have hrun := (hthree.trans hlast).trans (passes_end hzpc)
    obtain ⟨hexec, hleft, -⟩ := hrun.exec hidle rfl hturns
    exact ⟨_, hexec, rfl, rfl, hleft, by rw [hrun.trace]; simp [accepted, p]⟩
  · obtain ⟨v, hsecond, hidle', herr⟩ := passes_rawWrite_failed hupc huturns hf
    have hrun := hfirst.trans hsecond
    obtain ⟨hexec, hleft, -⟩ := hrun.exec hidle hidle' hturns
    exact ⟨v, hexec, hidle', herr, hleft, hrun.trace.trans (by simp [accepted, p])⟩

end Sys2Proof.Safety
end

section
/-! PROOFS. INIT (R172, R173, R175): the steps before its wait, the wait inside it, and the steps after it; it ends at the last
of them, at a deviation ENC_FDEV refuses, or at the limit of its polls. -/

namespace Sys2Proof.Machine

open Sys2Proof.Safety

/-! ### S1 to S4a -/

/-- An answer that decodes is a value (R274). -/
theorem valueRead_of_answerDecodes {p : Params} {k : Kind} {x : Turn} (h : p.canFail k = true → answerDecodes p x k = true)
    (c : Chip) : ∃ v, valueRead p k x c = .ok v := by
  obtain ⟨_, ok⟩ | ⟨_, ⟨_, ok⟩ | ⟨code, hbad, _⟩⟩ := decodeBytes_cases p k (bytesRead p k x c)
  · exact ⟨_, ok⟩
  · exact ⟨_, ok⟩
  · have hdecodes := h (by simpa [Params.canFail] using tags_of_badCodeAmong hbad)
    unfold answerDecodes at hdecodes
    unfold bytesRead at hbad
    split at hdecodes
    · next bytes hlookup =>
      rw [hlookup] at hbad
      simp [hbad] at hdecodes
    · cases hdecodes

/-- What INIT has put on the bus before its wait: its sends, no poll, and S3b's write of the clock divider right after its read,
over what was read (R172, R175 (b)). -/
structure BeforeWait (p : Params) (xtalHz : Nat) (es : List BusEvent) : Prop where
  sends : es.filterMap sentOf = initBeforeWait p xtalHz
  noPoll : NoPoll es
  divider : ∃ (as bs : List BusEvent) (v : KindVal), es = as ++ .rd .clkdivCtrl (some v) ::
    .wr .clkdivCtrl (withFields p .clkdivCtrl v [(.pdClkdiv, .flag (!decide (30000000 < xtalHz)))]) true :: bs

/-- S1 to S4a, to a chip whose answers decode. -/
theorem passes_initSteps1 {op : Op} {next : List Micro} {s : State} {used left : List Turn} {xtalHz : Nat}
    (hpc : s.pc = .busy op (initSteps1 s.params xtalHz ++ next)) (hturns : s.turns = used ++ left)
    (hlen : used.length = turnsToWait s.params) (hused : ∀ x ∈ used, Good s.params initKinds x) :
    ∃ es t, Passes used es s t ∧ t.pc = .busy op next ∧ BeforeWait s.params xtalHz es := by
  obtain ⟨first, others, rfl, hfirst, hothers⟩ :=
    exists_split (m := regSetTurns s.params .synthConfig + 1) (n := 3) hlen
  obtain ⟨x, y, z, rfl⟩ := List.length_eq_three.1 hothers
  simp only [List.forall_mem_append, List.forall_mem_cons] at hused
  obtain ⟨hgfirst, hx, hy, hz, -⟩ := hused
  rw [List.append_assoc] at hturns
  obtain ⟨as, t, htwo, htpc, hsends, hquiet⟩ := rowSends_steps
    (steps := [⟨.s1, .regSet .synthConfig [(.splitTime, .num s.params.splitTimeSet)]⟩, ⟨.s3a, .command .standby⟩])
    (ks := initKinds) (by simp [Sending, initKinds]) (by decide) hpc hturns hfirst hgfirst
  obtain ⟨v, hv⟩ := valueRead_of_answerDecodes (k := .clkdivCtrl)
    (fun hcan => hx.2 .clkdivCtrl (by decide) (by simp [riskyRead, hcan])) (chipAt x t.chip)
  obtain ⟨u, hdivider, hupc⟩ := passes_readsThenWrites (.inr rfl) htpc (htwo.left hturns) hx.1 hy.1
    (by rw [htwo.params]; exact hv)
  obtain ⟨w, hready, hwpc⟩ := passes_command hupc ((htwo.trans hdivider).left (by simpa using hturns)) hz.1
  have hrun := (htwo.trans hdivider).trans hready
  rw [htwo.params, List.append_assoc, List.append_assoc] at hrun
  refine ⟨_, w, hrun, hwpc, ?_, ?_, as, _, v, rfl⟩
  · rw [List.filterMap_append, hsends, initBeforeWait]
    simp only [List.flatMap_cons, List.flatMap_nil, actSends, List.append_assoc]
    rfl
  · exact List.forall_mem_append.2 ⟨hquiet, by simp⟩

/-! ### The wait inside INIT -/

/-- An event without the bytes of a status register sends what it sent. -/
theorem sentOf_bare (e : BusEvent) : sentOf (bare e) = sentOf e := by
  unfold bare
  split <;> rfl

/-- A wait sends nothing. -/
theorem sends_of_wait {p : Params} {es : List BusEvent} {seen : List DevState} {last : DevState}
    (h : es.map bare = missedStatePolls p seen ++ [stateEvent last]) : es.filterMap sentOf = [] := by
  have hbare : es.filterMap sentOf = (es.map bare).filterMap sentOf := by
    rw [List.filterMap_map]
    exact List.filterMap_congr fun e _ => (sentOf_bare e).symm
  rw [hbare, h, List.filterMap_eq_nil_iff]
  intro e he
  simp only [missedStatePolls, List.mem_append, List.mem_flatMap, List.mem_cons, List.not_mem_nil, or_false] at he
  obtain ⟨st, -, rfl | rfl⟩ | rfl := he <;> rfl

section
variable {o : RadioInitOptions} {s : State} {before polls left : List Turn} {seen : List DevState} {last : DevState}

/-- INIT comes to its wait, and the chip reports in it what its own changes say. -/
theorem passes_init_toWait (hturns : s.turns = before ++ left) (hgood : ∀ x ∈ before, Good s.params initKinds x)
    (hlen : before.length = turnsToWait s.params) :
    ∃ pre t, Passes before pre (accepted (.init o) s) t ∧ BeforeWait s.params s.xtalHz.toNat pre ∧
      t.pc = .busy .init (waitSteps .ready ++ initSteps2 s.params o s.baseHz.toNat s.xtalHz.toNat) ∧
      ∀ ts, statesSeen t.params t.chip ts = statesSeen s.params (chipAfter before s.chip) ts := by
  obtain ⟨pre, t, hpass, htpc, hpre⟩ := passes_initSteps1 (s := accepted (.init o) s) (op := .init)
    (by simp only [accepted, sequenceOf, initSteps, List.append_assoc]; rfl) hturns hlen hgood
  exact ⟨pre, t, hpass, hpre, htpc, fun ts => by rw [hpass.params]; exact statesSeen_congr ts hpass.stateCode⟩

/-- INIT comes past its wait at the first poll that reads READY. -/
theorem passes_init_pastWait (hturns : s.turns = before ++ polls ++ left) (hgood : ∀ x ∈ s.turns, Good s.params initKinds x)
    (hlen : before.length = turnsToWait s.params)
    (hseen : statesSeen s.params (chipAfter before s.chip) polls = seen ++ [.ready]) (hmiss : .ready ∉ seen)
    (hlimit : ∀ n, s.params.pollLimit = some n → seen.length < n) :
    ∃ pre wait t, Passes (before ++ polls) (pre ++ wait) (accepted (.init o) s) t ∧
      BeforeWait s.params s.xtalHz.toNat pre ∧ wait.map bare = missedStatePolls s.params seen ++ [stateEvent .ready] ∧
      t.pc = .busy .init (initSteps2 s.params o s.baseHz.toNat s.xtalHz.toNat) := by
  rw [hturns] at hgood
  simp only [List.forall_mem_append] at hgood
  obtain ⟨⟨hgbefore, hgpolls⟩, -⟩ := hgood
  rw [List.append_assoc] at hturns
  obtain ⟨pre, t, hpass, hpre, htpc, hstates⟩ := passes_init_toWait (o := o) hturns hgbefore hlen
  obtain ⟨wait, u, hwait, hbare, hupc⟩ := passes_waitSteps_hit htpc (hpass.left hturns) (fun x hx => (hgpolls x hx).1)
    (by rw [hstates, hseen]) hmiss (by rwa [hpass.params])
  exact ⟨pre, wait, u, hpass.trans hwait, hpre, by rw [hbare, hpass.params]; rfl, hupc⟩

/-- INIT ends at the limit of its polls without READY, before any step-5 write (R173). -/
theorem passes_init_timeout (hturns : s.turns = before ++ polls ++ left) (hgood : ∀ x ∈ s.turns, Good s.params initKinds x)
    (hlen : before.length = turnsToWait s.params)
    (hseen : statesSeen s.params (chipAfter before s.chip) polls = seen ++ [last]) (hmiss : .ready ∉ seen ++ [last])
    (hlimit : s.params.pollLimit = some polls.length) :
    ∃ es t, Passes (before ++ polls) es (accepted (.init o) s) t ∧ Idle t ∧ t.err = .timeout .pollLimit ∧
      es.filterMap sentOf = initBeforeWait s.params s.xtalHz.toNat := by
  rw [hturns] at hgood
  simp only [List.forall_mem_append] at hgood
  obtain ⟨⟨hgbefore, hgpolls⟩, -⟩ := hgood
  rw [List.append_assoc] at hturns
  obtain ⟨pre, t, hpass, hpre, htpc, hstates⟩ := passes_init_toWait (o := o) hturns hgbefore hlen
  obtain ⟨wait, u, hwait, hbare, hidle, herr⟩ := passes_waitSteps_timeout htpc (hpass.left hturns)
    (fun x hx => (hgpolls x hx).1) (by rw [hstates, hseen]) hmiss (by rw [hpass.params]; exact hlimit)
  exact ⟨_, u, hpass.trans hwait, hidle, herr, by
    rw [List.filterMap_append, hpre.sends, sends_of_wait hbare, List.append_nil]⟩

end

/-! ### S5a to S6 -/

section
variable {p : Params} {o : RadioInitOptions} {next : List Micro} {s : State} {baseHz xtalHz : Nat}

/-- S5a to S5d send the values derived from the options. -/
theorem rowSends_initDerived (hp : s.params = p) (hpc : s.pc = .busy .init ((initSteps2 p o baseHz xtalHz).take 4 ++ next))
    (hlen : turnsOfDerived p ≤ s.turns.length) (hgood : ∀ x ∈ s.turns, Good p initKinds x) :
    RowSends .init next (s.turns.take (turnsOfDerived p)) (initDerived p o baseHz xtalHz) s := by
  subst hp
  have hsends := rowSends_steps (ks := initKinds) (by simp [initSteps2, Sending, initKinds]) (by decide) hpc
    (List.take_append_drop (turnsOfDerived s.params) _).symm
    (by
      rw [List.length_take_of_le hlen]
      simp only [initSteps2, List.take_succ_cons, List.take_zero, List.map_cons, List.map_nil,
        List.sum_cons, List.sum_nil, actTurns, turnsOfDerived]
      omega)
    fun x hx => hgood x (List.mem_of_mem_take hx)
  simpa [initSteps2, actSends, initDerived, dualXtal] using hsends

/-- S5a to S6 with a deviation that ENC_FDEV accepts. -/
theorem rowSends_initSteps2 {me : Nat × Nat} (hp : s.params = p) (hfdev : fdev o.freqDev.toNat xtalHz = some me)
    (hpc : s.pc = .busy .init (initSteps2 p o baseHz xtalHz)) (hlen : turnsOfDerived p + turnsOfRest p ≤ s.turns.length)
    (hgood : ∀ x ∈ s.turns, Good p initKinds x) :
    RowSends .init [] (s.turns.take (turnsOfDerived p + turnsOfRest p)) (initDerived p o baseHz xtalHz ++
      regSends p .fdev [(.mantissa, .num me.1), (.exponent, .num me.2)] ++ initRest p o xtalHz) s := by
  subst hp
  have hsends := rowSends_steps (steps := initSteps2 s.params o baseHz xtalHz) (next := []) (ks := initKinds)
    (by simp [initSteps2, initFdevStep, hfdev, Sending, initKinds]) (by decide) (by rw [hpc, List.append_nil])
    (List.take_append_drop (turnsOfDerived s.params + turnsOfRest s.params) _).symm
    (by
      rw [List.length_take_of_le hlen]
      simp only [initSteps2, initFdevStep, hfdev, List.map_cons, List.map_nil, List.sum_cons,
        List.sum_nil, actTurns, turnsOfDerived, turnsOfRest]
      omega)
    fun x hx => hgood x (List.mem_of_mem_take hx)
  simpa [initSteps2, initFdevStep, hfdev, actSends, initDerived, initRest, dualXtal, indexMantExp, freqSelect, effXtal_eq]
    using hsends

end

end Sys2Proof.Machine

namespace Sys2Proof.Safety

open Sys2Proof.Machine

/-- Settles O41: INIT comes to its wait, past it, and to its end. -/
theorem initCompletesInOrder : Obligations.InitCompletesInOrder := by
  intro o l s before misses rest hit seen _ hidle _ hdev hturns hgood hlen hrest hseen hmiss hlimit
  have hturns' : s.turns = before ++ (misses ++ [hit]) ++ rest := by simp [hturns]
  have hcount : misses.length = seen.length := by
    simpa [hseen] using (statesSeen_length s.params (chipAfter before s.chip) (misses ++ [hit])).symm
  obtain ⟨e, r, -, -, -, -, hfdev⟩ := fdev_of_lt le_rfl (hdev.trans_eq (fdevA_nine _).symm)
  obtain ⟨pre, wait, t, hpast, hpre, hwait, htpc⟩ :=
    passes_init_pastWait (o := o) hturns' hgood hlen hseen hmiss (hcount ▸ hlimit)
  obtain rfl : t.turns = rest := hpast.left hturns'
  obtain ⟨es, u, hpost, hupc, hes, hquiet⟩ := rowSends_initSteps2 (p := s.params) hpast.params hfdev htpc hrest
    fun x hx => hgood x (by simp [hturns, hx])
  obtain ⟨hexec, hleft, hnew⟩ := ((hpast.trans hpost).trans (passes_end hupc)).exec hidle rfl
    (left := t.turns.drop (turnsOfDerived s.params + turnsOfRest s.params)) (by simp [hturns'])
  rw [List.append_nil] at hnew
  exact ⟨decode_encodeOver s.params l (.init o), _, _, pre, wait, es, hfdev, hexec, rfl, rfl, hleft, hnew, hwait,
    hpre.sends, hes, List.forall_mem_append.2 ⟨hpre.noPoll, hquiet⟩, hpre.divider⟩

/-- Settles O42: past its wait INIT comes to the refused deviation after S5a to S5d, which is its end; without READY it ends in
its wait. -/
theorem initStopsWhereItFails : Obligations.InitStopsWhereItFails := by
  intro o s before polls rest seen last _ hidle _ hturns hgood hlen hseen hmiss
  refine ⟨fun hdev hlast hlimit hrest => ?_, fun hlast hlimit => ?_⟩
  · subst hlast
    have hfdev : fdev o.freqDev.toNat s.xtalHz.toNat = none := fdev_eq_none ((fdevA_nine _).trans_le hdev)
    obtain ⟨pre, wait, t, hpast, hpre, hwait, htpc⟩ := passes_init_pastWait (o := o) hturns hgood hlen hseen hmiss hlimit
    obtain rfl : t.turns = rest := hpast.left hturns
    obtain ⟨es, u, hpost, hupc, hes, -⟩ := rowSends_initDerived (p := s.params) hpast.params
      (htpc.trans (by rw [List.take_append_drop])) hrest fun x hx => hgood x (by simp [hturns, hx])
    simp only [initSteps2, initFdevStep, hfdev, List.drop_succ_cons, List.drop_zero] at hupc
    obtain ⟨hexec, hleft, hnew⟩ := ((hpast.trans hpost).trans (passes_raise hupc)).exec hidle (raise_pc _ _)
      (left := t.turns.drop (turnsOfDerived s.params)) (by simp [hturns])
    refine ⟨_, hexec, raise_pc _ _, raise_err _ _, hleft, ?_⟩
    rw [sent, hnew, List.append_nil, List.filterMap_append, List.filterMap_append, hpre.sends, sends_of_wait hwait, hes,
      List.append_nil]
  · obtain ⟨es, t, hrun, ht, herr, hsends⟩ := passes_init_timeout (o := o) hturns hgood hlen hseen
      (by simpa using ⟨hmiss, Ne.symm hlast⟩) hlimit
    obtain ⟨hexec, hleft, hnew⟩ := hrun.exec hidle ht hturns
    exact ⟨t, hexec, ht, herr, hleft, by rw [sent, hnew]; exact hsends⟩

end Sys2Proof.Safety
end

section
/-! PROOFS. Runs of the transmit and receive engine (spec/43_txrx.md): what its polls see of the chip (R32, R33, R67), what a
row of its steps leaves the chip as, and STROBE_RX (R193), which RX_BLOCKING repeats. -/

namespace Sys2Proof.Machine

open Sys2Proof.Safety

/-! ### What the engine sees of the chip (R32, R33) -/

/-- Chip `d` has the pending bits and the RX FIFO of chip `c`, which are all that the engine's reads depend on; and, where
`tx` holds, its TX FIFO. So `c`, the chip that a claim speaks of, can be the one that only its own changes made, and `d` the
one whose registers the block has written. -/
structure Agrees (tx : Prop) (c d : Chip) : Prop where
  pending : d.pending = c.pending
  rxFifo : d.rxFifo = c.rxFifo
  txFifo : tx → d.txFifo = c.txFifo

section
variable {tx : Prop} {p : Params} {c d e : Chip}

theorem Agrees.refl (c : Chip) : Agrees tx c c := ⟨rfl, rfl, fun _ => rfl⟩

theorem Agrees.trans (h : Agrees tx c d) (k : Agrees tx d e) : Agrees tx c e :=
  ⟨k.pending.trans h.pending, k.rxFifo.trans h.rxFifo, fun ht => (k.txFifo ht).trans (h.txFifo ht)⟩

/-- What the chip does by itself to the pending bits or to a FIFO does not depend on the rest of it. -/
theorem chipAt_congr {α : Type} (π : Chip → α) (hπ : ∀ x c d, π d = π c → π (chipDrift d x) = π (chipDrift c x)) (t : Turn)
    (h : π d = π c) : π (chipAt t d) = π (chipAt t c) := by
  unfold chipAt
  generalize t.drift = ds
  induction ds generalizing c d with
  | nil => exact h
  | cons x ds ih => exact ih (hπ x c d h)

theorem pending_chipAt_congr (t : Turn) (h : d.pending = c.pending) : (chipAt t d).pending = (chipAt t c).pending :=
  chipAt_congr Chip.pending (fun x _ _ h => by cases x <;> simp [chipDrift, h]) t h

theorem rxFifo_chipAt_congr (t : Turn) (h : d.rxFifo = c.rxFifo) : (chipAt t d).rxFifo = (chipAt t c).rxFifo :=
  chipAt_congr Chip.rxFifo (fun x _ _ h => by cases x <;> simp [chipDrift, h]) t h

theorem txFifo_chipAt_congr (t : Turn) (h : d.txFifo = c.txFifo) : (chipAt t d).txFifo = (chipAt t c).txFifo :=
  chipAt_congr Chip.txFifo (fun x _ _ h => by cases x <;> simp [chipDrift, h]) t h

theorem agrees_chipAt (t : Turn) (h : Agrees tx c d) : Agrees tx (chipAt t c) (chipAt t d) :=
  ⟨pending_chipAt_congr t h.pending, rxFifo_chipAt_congr t h.rxFifo, fun ht => txFifo_chipAt_congr t (h.txFifo ht)⟩

theorem agrees_chipAfter (ts : List Turn) (h : Agrees tx c d) : Agrees tx (chipAfter ts c) (chipAfter ts d) := by
  induction ts generalizing c d with
  | nil => exact h
  | cons t ts ih => exact ih (agrees_chipAt t h)

/-- The chip as a poll of `IRQ_STATUS` answered by `t` leaves it (R67). -/
theorem agrees_polled (t : Turn) (h : Agrees tx c d) :
    Agrees tx { chipAt t c with pending := 0 } { chipAt t d with pending := 0 } :=
  ⟨rfl, (agrees_chipAt t h).rxFifo, (agrees_chipAt t h).txFifo⟩

/-- A read of a kind other than `IRQ_STATUS` has no side effect (R67). -/
theorem chipAfterRead_other {k : Kind} (hk : k ≠ .irqStatus) (c : Chip) : chipAfterRead k c = c := by
  simp [chipAfterRead, hk]

/-- A write of one part of a register leaves all of these. -/
theorem agrees_chipAfterPartWrite (p : Params) (k : Kind) (x : Transfer) (v : KindVal) (c : Chip) :
    Agrees tx c (chipAfterPartWrite p k x v c) := ⟨rfl, rfl, fun _ => rfl⟩

/-- The changes of the chip's own that spare the TX FIFO leave it as it was. -/
theorem txFifo_chipAt {t : Turn} (h : ∀ x ∈ t.drift, keepsTxFifo x = true) (c : Chip) : (chipAt t c).txFifo = c.txFifo := by
  unfold chipAt
  generalize t.drift = ds at h
  induction ds generalizing c with
  | nil => rfl
  | cons x ds ih =>
    simp only [List.forall_mem_cons] at h
    rw [List.foldl_cons, ih _ h.2]
    cases x <;> simp_all [chipDrift, keepsTxFifo]

theorem txFifo_chipAfter {ts : List Turn} (h : ∀ t ∈ ts, ∀ x ∈ t.drift, keepsTxFifo x = true) (c : Chip) :
    (chipAfter ts c).txFifo = c.txFifo := by
  induction ts generalizing c with
  | nil => rfl
  | cons t ts ih =>
    simp only [List.forall_mem_cons] at h
    exact (ih h.2 _).trans (txFifo_chipAt h.1 c)

theorem txFifo_chipAfterPolls {ts : List Turn} (h : ∀ t ∈ ts, ∀ x ∈ t.drift, keepsTxFifo x = true) (c : Chip) :
    (chipAfterPolls ts c).txFifo = c.txFifo := by
  induction ts generalizing c with
  | nil => rfl
  | cons t ts ih =>
    simp only [List.forall_mem_cons] at h
    exact (ih h.2 _).trans (txFifo_chipAt h.1 c)

/-! ### The words a row of polls returns (R67) -/

/-- A read of `IRQ_STATUS` is a word (R32). -/
theorem valueRead_irqStatus (p : Params) (t : Turn) (c : Chip) :
    valueRead p .irqStatus t c = .ok (.word (wordRead p t c)) := rfl

/-- The word read is the answer from outside, or the pending bits. -/
theorem wordRead_congr (t : Turn) (h : d.pending = c.pending) : wordRead p t d = wordRead p t c := by
  unfold wordRead bytesRead
  cases t.answers.lookup Kind.irqStatus with
  | some bytes => rfl
  | none => simp only [kindBytes, statusBytes, h]

theorem wordsSeen_congr (ts : List Turn) (h : Agrees tx c d) : wordsSeen p d ts = wordsSeen p c ts := by
  induction ts generalizing c d with
  | nil => rfl
  | cons t ts ih =>
    rw [wordsSeen, wordsSeen, wordRead_congr t (agrees_chipAt t h).pending, ih (agrees_polled t h)]

theorem wordsSeen_length (p : Params) (c : Chip) (ts : List Turn) : (wordsSeen p c ts).length = ts.length := by
  induction ts generalizing c with
  | nil => rfl
  | cons t ts ih => simp [wordsSeen, ih]

theorem wordsSeen_append (p : Params) (c : Chip) (xs ys : List Turn) :
    wordsSeen p c (xs ++ ys) = wordsSeen p c xs ++ wordsSeen p (chipAfterPolls xs c) ys := by
  induction xs generalizing c with
  | nil => rfl
  | cons x xs ih => simp only [List.cons_append, wordsSeen, ih]; rfl

/-- The last poll of a row, and the polls before it. -/
theorem wordsSeen_eq_concat {polls : List Turn} {seen : List Word} {last : Word} (h : wordsSeen p c polls = seen ++ [last]) :
    ∃ misses x, polls = misses ++ [x] ∧ wordsSeen p c misses = seen ∧
      wordRead p x (chipAt x (chipAfterPolls misses c)) = last := by
  obtain rfl | ⟨misses, x, rfl⟩ := List.eq_nil_or_concat' polls
  · simp [wordsSeen] at h
  · rw [wordsSeen_append] at h
    obtain ⟨hseen, hlast⟩ := List.append_inj' h rfl
    exact ⟨misses, x, rfl, hseen, by simpa [wordsSeen] using hlast⟩

theorem chipAfterPolls_concat (misses : List Turn) (x : Turn) (c : Chip) :
    chipAfterPolls (misses ++ [x]) c = { chipAt x (chipAfterPolls misses c) with pending := 0 } := by
  simp [chipAfterPolls]

end

/-! ### A later point of a run -/

/-- `s` later in its run: with the steps `next` to take, the answers `left` to come, the chip as `c`, and the events `es`
recorded since. All else is as in `s`; a step that also changes the engine or its counters goes onward from `s` with these
changed. -/
def onward (op : Op) (next : List Micro) (left : List Turn) (c : Chip) (es : List BusEvent) (s : State) : State :=
  goto op next { s with turns := left, chip := c, trace := s.trace ++ es }

section
variable (op op' : Op) (next next' : List Micro) (left left' : List Turn) (c c' : Chip) (es es' : List BusEvent) (s : State)

@[simp] theorem onward_pc : (onward op next left c es s).pc = .busy op next := rfl
@[simp] theorem onward_turns : (onward op next left c es s).turns = left := rfl
@[simp] theorem onward_chip : (onward op next left c es s).chip = c := rfl
@[simp] theorem onward_trace : (onward op next left c es s).trace = s.trace ++ es := rfl
@[simp] theorem onward_params : (onward op next left c es s).params = s.params := rfl
@[simp] theorem onward_engine : (onward op next left c es s).engine = s.engine := rfl
@[simp] theorem onward_polls : (onward op next left c es s).polls = s.polls := rfl
@[simp] theorem onward_retries : (onward op next left c es s).retries = s.retries := rfl

/-- Later than later is later, with the events of both. -/
theorem onward_onward : onward op next left c es (onward op' next' left' c' es' s) = onward op next left c (es' ++ es) s := by
  simp [onward, goto]

end

/-! ### Rows of steps that send -/

/-- No event is a poll of `IRQ_STATUS`. -/
def NoWordPoll (es : List BusEvent) : Prop := ∀ v : Option KindVal, BusEvent.rd .irqStatus v ∉ es

theorem noWordPoll_nil : NoWordPoll [] := fun _ => List.not_mem_nil

theorem noWordPoll_append {es es' : List BusEvent} (h : NoWordPoll es) (h' : NoWordPoll es') : NoWordPoll (es ++ es') :=
  fun v hv => (List.mem_append.1 hv).elim (h v) (h' v)

/-- A row of steps is done: it sent `sends` with the answers `used`, read no interrupt word, and left the chip to its own
changes but for what it wrote. Nothing else of the block changed, which `RowSends` and `SentOn` do not say, nor what became
of the chip: the polls after the row need both. -/
def RowDone (tx : Prop) (op : Op) (next : List Micro) (used left : List Turn) (sends : List Sent) (s : State) : Prop :=
  ∃ es c, settle s = settle (onward op next left c es s) ∧ es.filterMap sentOf = sends ∧ NoWordPoll es ∧
    Agrees tx (chipAfter used s.chip) c

section
variable {tx : Prop} {op : Op} {l : Label} {next : List Micro} {s : State} {x : Turn} {used used' left ts : List Turn}
  {ks : List Kind}

theorem RowDone.nil (hpc : s.pc = .busy op next) : RowDone tx op next [] s.turns [] s :=
  ⟨[], s.chip, by simp [onward, goto, ← hpc], rfl, noWordPoll_nil, .refl _⟩

theorem RowDone.append {mid : List Micro} {xs ys : List Sent} (h : RowDone tx op mid used (used' ++ left) xs s)
    (k : ∀ es c, RowDone tx op next used' left ys (onward op mid (used' ++ left) c es s)) :
    RowDone tx op next (used ++ used') left (xs ++ ys) s := by
  obtain ⟨es, c, hrun, hes, hquiet, hc⟩ := h
  obtain ⟨es', d, hrun', hes', hquiet', hd⟩ := k es c
  refine ⟨es ++ es', d, by rw [hrun, hrun', onward_onward], by rw [List.filterMap_append, hes, hes'],
    noWordPoll_append hquiet hquiet', ?_⟩
  rw [chipAfter, List.foldl_append]
  exact (agrees_chipAfter used' hc).trans hd

/-- One transaction that returned. -/
theorem RowDone.single {c : Chip} {e : BusEvent} (h : seqStep s = some (onward op next left c [e] s))
    (hc : Agrees tx (chipAt x s.chip) c) (he : ∀ v, e ≠ .rd .irqStatus v) :
    RowDone tx op next [x] left (sentOf e).toList s :=
  ⟨[e], c, settle_some h, by cases hs : sentOf e <;> simp [hs], fun v hv => he v (List.mem_singleton.1 hv).symm, hc⟩

/-- A raw write, delivered (R238). -/
theorem seqStep_rawWrite {a : Byte} {bytes : List Byte} (hpc : s.pc = .busy op (⟨l, .rawWrite a bytes⟩ :: next))
    (hturns : s.turns = x :: ts) (hx : x.failure = none) :
    seqStep s = some (onward op next ts (chipAfterRawWrite a bytes x.landing (chipAt x s.chip)) [.wrRaw a bytes true] s) := by
  have hwrite : memWrite a bytes s = .done () _ := transact_returns (value := fun _ _ => .ok ()) hturns hx rfl
  simp only [seqStep, hpc, actStep, hwrite, Prim.andThen]
  rfl

/-- A command, delivered (R257). -/
theorem seqStep_command {k : Command} (hpc : s.pc = .busy op (⟨l, .command k⟩ :: next)) (hturns : s.turns = x :: ts)
    (hx : x.failure = none) :
    seqStep s = some (onward op next ts (chipAt x s.chip) [.cmd k (some (decodeState s.params x.reported))] s) := by
  have hcommand : busCommand k s = .done (decodeState s.params x.reported) _ := transact_returns hturns hx rfl
  simp only [seqStep, hpc, actStep, hcommand, Prim.andThen]
  rfl

/-- The transactions of a `RegSet` of a kind other than `IRQ_STATUS` read no word and write registers alone. -/
theorem PartsRun.agrees {p : Params} {k : Kind} {fs : List (Field × FieldVal)} {held : List (Nat × Byte)} {c d : Chip}
    {xs : List Transfer} {es : List BusEvent} (h : PartsRun p k fs held c ts xs es d) (hk : k ≠ .irqStatus) :
    Agrees tx (chipAfter ts c) d ∧ NoWordPoll es := by
  induction h with
  | nil => exact ⟨.refl _, noWordPoll_nil⟩
  | read _ _ ih =>
    obtain ⟨hchip, hquiet⟩ := ih
    rw [chipAfterRead_other hk] at hchip
    exact ⟨hchip, noWordPoll_append (es := [_]) (by simp [NoWordPoll]) hquiet⟩
  | @write _ c _ t ts x _ _ _ _ ih =>
    obtain ⟨hchip, hquiet⟩ := ih
    exact ⟨(agrees_chipAfter ts (agrees_chipAfterPartWrite p k x _ (chipAt t c))).trans hchip,
      noWordPoll_append (es := [_]) (by simp [NoWordPoll]) hquiet⟩

/-- A `RegSet` sends its fields, whatever its grouping, to a chip whose answers decode (R66, U1). -/
theorem rowDone_regSet {k : Kind} {fs : List (Field × FieldVal)} (hpc : s.pc = .busy op (⟨l, .regSet k fs⟩ :: next))
    (hturns : s.turns = used ++ left) (hlen : used.length = regSetTurns s.params k)
    (hused : ∀ x ∈ used, Good s.params ks x) (hk : k ∈ ks) (hword : k ≠ .irqStatus) (hfs : fs ≠ []) :
    RowDone tx op next used left (regSends s.params k fs) s := by
  obtain ⟨f, fs', rfl⟩ := List.exists_cons_of_ne_nil hfs
  have hdelivered : ∀ x ∈ used, x.failure = none := fun x hx => (hused x hx).1
  cases hx : (s.params.kindInfo k).transfers with
  | nil =>
    simp only [regSetTurns, regSends, hx] at hlen ⊢
    cases hrmw : (s.params.kindInfo k).rmw with
    | false =>
      obtain ⟨x, rfl⟩ := List.length_eq_one_iff.1 (by simpa [hrmw] using hlen)
      exact .single (seqStep_regSet_write hpc hx hrmw hturns (hdelivered x (by simp))) ⟨rfl, rfl, fun _ => rfl⟩ (by simp)
    | true =>
      obtain ⟨x, y, rfl⟩ := List.length_eq_two.1 (by simpa [hrmw] using hlen)
      obtain ⟨v, hv⟩ := valueRead_of_good (hused x (by simp)) hk (by simp [regSetReads, hx, hrmw]) (chipAt x s.chip)
      exact RowDone.append (used := [x]) (used' := [y]) (xs := [])
        (.single (seqStep_readsThenWrites (.inl ⟨rfl, hx, hrmw⟩) hpc hturns (hdelivered x (by simp)) hv)
          (by rw [chipAfterRead_other hword]; exact .refl _) (by simpa using hword))
        fun es c => .single (e := .wr k (withFields s.params k v (f :: fs')) true)
          (seqStep_store rfl rfl (hdelivered y (by simp))) ⟨rfl, rfl, fun _ => rfl⟩ (by simp)
  | cons z zs =>
    have hlen' : used.length = (s.params.kindInfo k).transfers.length := by rw [hlen, regSetTurns, hx]
    obtain ⟨es, _, ⟨_, x, hxu, y, hy, hread, c, er, herr⟩ | ⟨d, hd, hend⟩⟩ := runSteps_transfers hlen'
      hdelivered (seqStep_regSet_transfers hpc (by simp [hx])) hturns
    · have hreads : regSetReads s.params k = true := by
        rw [regSetReads, hx]
        exact List.any_eq_true.2 ⟨y, hx ▸ hy, hread⟩
      exact absurd herr (partRead_of_good (hused x hxu) hk hreads y c er)
    · obtain ⟨hchip, hquiet⟩ := hd.agrees (tx := tx) hword
      refine ⟨es, d, ?_, by rw [hd.sent, regSends, hx], hquiet, hchip⟩
      rw [← settle_runSteps, hend]
      rfl

/-- The act writes the TX FIFO raw (R60, R71). -/
def WritesTxFifo : Act → Prop
  | .rawWrite a _ => a = 0xFF
  | _ => False

/-- One step that sends. -/
theorem rowDone_act {a : Act} (ha : Sending ks a) (hks : Kind.irqStatus ∉ ks) (htx : tx → ¬ WritesTxFifo a)
    (hpc : s.pc = .busy op (⟨l, a⟩ :: next)) (hturns : s.turns = used ++ left) (hlen : used.length = actTurns s.params a)
    (hused : ∀ x ∈ used, Good s.params ks x) : RowDone tx op next used left (actSends s.params a) s := by
  cases a
  case regSet k fs => exact rowDone_regSet hpc hturns hlen hused ha.1 (fun h => hks (h ▸ ha.1)) ha.2
  case rawWrite b bytes =>
    obtain ⟨x, rfl⟩ := List.length_eq_one_iff.1 hlen
    exact .single (seqStep_rawWrite hpc hturns (hused x (by simp)).1)
      ⟨rfl, rfl, fun ht => if_neg (htx ht)⟩ (by simp)
  case command c =>
    obtain ⟨x, rfl⟩ := List.length_eq_one_iff.1 hlen
    exact .single (seqStep_command hpc hturns (hused x (by simp)).1) (.refl _) (by simp)
  all_goals exact ha.elim

/-- A row of steps that send sends what each of them sends, in order. -/
theorem rowDone_steps {steps : List Micro} (hsteps : AllActs (Sending ks) steps) (hks : Kind.irqStatus ∉ ks)
    (htx : tx → AllActs (¬ WritesTxFifo ·) steps) (hpc : s.pc = .busy op (steps ++ next)) (hturns : s.turns = used ++ left)
    (hlen : used.length = (steps.map fun m => actTurns s.params m.act).sum) (hused : ∀ x ∈ used, Good s.params ks x) :
    RowDone tx op next used left (steps.flatMap fun m => actSends s.params m.act) s := by
  induction steps generalizing s used with
  | nil =>
    obtain rfl := List.length_eq_zero_iff.1 hlen
    obtain rfl : s.turns = left := hturns
    exact .nil hpc
  | cons m steps ih =>
    simp only [allActs_cons] at hsteps htx
    rw [List.map_cons, List.sum_cons] at hlen
    obtain ⟨first, others, rfl, hfirst, hothers⟩ := exists_split hlen
    rw [List.append_assoc] at hturns
    simp only [List.forall_mem_append] at hused
    exact (rowDone_act hsteps.1 hks (fun ht => (htx ht).1) hpc hturns hfirst hused.1).append fun es c =>
      ih (s := onward op (steps ++ next) (others ++ left) c es s) hsteps.2 (fun ht => (htx ht).2) rfl rfl hothers hused.2

/-- A run that comes to such a row passes it. -/
theorem settle_row {u : State} {steps : List Micro} (hrun : settle u = settle s) (hsteps : AllActs (Sending ks) steps)
    (hks : Kind.irqStatus ∉ ks) (htx : tx → AllActs (¬ WritesTxFifo ·) steps) (hpc : s.pc = .busy op (steps ++ next))
    (hturns : s.turns = used ++ left) (hlen : used.length = (steps.map fun m => actTurns s.params m.act).sum)
    (hused : ∀ x ∈ used, Good s.params ks x) :
    ∃ es c, settle u = settle (onward op next left c es s) ∧
      es.filterMap sentOf = (steps.flatMap fun m => actSends s.params m.act) ∧ NoWordPoll es ∧
      Agrees tx (chipAfter used s.chip) c := by
  obtain ⟨es, c, hrow, hdone⟩ := rowDone_steps (tx := tx) hsteps hks htx hpc hturns hlen hused
  exact ⟨es, c, hrun.trans hrow, hdone⟩

/-! ### STROBE_RX (R193) -/

/-- X1 to X3: the strobe's transactions, after which the receiver is armed. -/
theorem settle_strobe {u : State} (hrun : settle u = settle s) (hpc : s.pc = .busy op (strobeSteps s.params ++ next))
    (hturns : s.turns = used ++ left) (hused : ∀ x ∈ used, Good s.params [.paConfig] x)
    (hlen : used.length = strobeTurns s.params) :
    ∃ es c, settle u = settle (onward op next left c es { s with engine := .rxArmed }) ∧
      es.filterMap sentOf = strobeSends s.params ∧ NoWordPoll es ∧ Agrees False (chipAfter used s.chip) c := by
  obtain ⟨es, c, hrow, hes, hquiet, hc⟩ := settle_row (tx := False) (ks := [.paConfig])
    (steps := (strobeSteps s.params).take 3) (next := ⟨.x3, .engine .rxArmed⟩ :: next) hrun (by simp [strobeSteps, Sending])
    (by decide) False.elim hpc hturns
    (by
      simp only [strobeSteps, List.take_succ_cons, List.take_zero, List.map_cons, List.map_nil, List.sum_cons, List.sum_nil,
        actTurns]
      rw [hlen, strobeTurns]
      omega)
    hused
  exact ⟨es, c, hrow.trans (settle_some rfl), by rw [hes]; simp [strobeSteps, strobeSends, actSends], hquiet, hc⟩

end

end Sys2Proof.Machine

namespace Sys2Proof.Safety

open Sys2Proof.Machine

/-- What an instruction comes to, and the events it recorded. -/
theorem exec_of_settle {i : Instr} {s t : State} {es : List BusEvent} (hidle : Idle s) (hrun : settle (accepted i s) = t)
    (htrace : t.trace = s.trace ++ es) : exec i s = .next t ∧ newEvents s t = es :=
  ⟨by rw [exec_idle i hidle, hrun], by rw [newEvents, htrace]; exact List.drop_left⟩

/-- Settles O45: the strobe, which is all of the micro-sequence, and its end. -/
theorem strobeArmsTheReceiver : Obligations.StrobeArmsTheReceiver := by
  intro o s strobe rest hidle hturns hgood hlen
  refine ⟨decode_encodeOver s.params o .strobeRx, ?_⟩
  obtain ⟨es, c, hrun, hes, hquiet, -⟩ := settle_strobe (s := accepted .strobeRx s) (next := []) rfl
    (by rw [List.append_nil]; rfl) hturns hgood hlen
  obtain ⟨hexec, hnew⟩ := exec_of_settle hidle (hrun.trans (settle_end (op := .strobeRx) rfl)) rfl
  exact ⟨_, hexec, rfl, rfl, rfl, rfl, (congrArg _ hnew).trans hes, rfl, by rw [hnew]; exact hquiet⟩

end Sys2Proof.Safety
end

section
/-! PROOFS. The polls of `IRQ_STATUS` (R67, R191, R194), which TX_BLOCKING and RX_BLOCKING count alike, and TX_BLOCKING from
its flush to its end (R191, R192, R308). -/

namespace Sys2Proof.Machine

open Sys2Proof.Safety

/-! ### Polls of `IRQ_STATUS` -/

/-- The word `w` shows the poll `m` none of the events it looks for, so that the poll is only counted and repeated. -/
def PollMisses (p : Params) (m : Micro) (w : Word) : Prop :=
  m = ⟨.t9, .pollTx⟩ ∧ eventSet p w .txDataSent = false ∨
  m = ⟨.v2, .pollRx⟩ ∧ eventSet p w .rxDataReady = false ∧ rearms p w = false

section
variable {tx : Prop} {op : Op} {l : Label} {m : Micro} {next : List Micro} {u s : State} {x : Turn}
  {misses polls left ts : List Turn} {c₀ : Chip} {seen : List Word} {last : Word}

/-- A read of `IRQ_STATUS`, delivered: it clears what was pending (R67). -/
theorem busRead_irqStatus (hturns : s.turns = x :: ts) (hx : x.failure = none) :
    busRead .irqStatus s = .done (.word (wordRead s.params x (chipAt x s.chip))) (returned ts
      { chipAt x s.chip with pending := 0 } (.rd .irqStatus (some (.word (wordRead s.params x (chipAt x s.chip))))) s) :=
  busRead_returns hturns hx (valueRead_irqStatus _ _ _)

/-- A poll that misses goes on to its count. -/
theorem seqStep_missedPoll (hpc : s.pc = .busy op (m :: next)) (hturns : s.turns = x :: ts) (hx : x.failure = none)
    (hmiss : PollMisses s.params m (wordRead s.params x (chipAt x s.chip))) :
    ∃ l, seqStep s = some (onward op (⟨l, .countPoll⟩ :: m :: next) ts { chipAt x s.chip with pending := 0 }
      [.rd .irqStatus (some (.word (wordRead s.params x (chipAt x s.chip))))] s) := by
  obtain ⟨rfl, hsent⟩ | ⟨rfl, hready, hrearm⟩ := hmiss
  · refine ⟨.t11, ?_⟩
    simp only [seqStep, hpc, actStep, busRead_irqStatus hturns hx, Prim.andThen, afterPollTx, returned, valueWord, hsent,
      Bool.false_eq_true, if_false]
    rfl
  · refine ⟨.v5, ?_⟩
    simp only [rearms] at hrearm
    simp only [seqStep, hpc, actStep, busRead_irqStatus hturns hx, Prim.andThen, afterPollRx, returned, valueWord, hready,
      hrearm, Bool.false_eq_true, if_false]
    rfl

/-- A poll of TX_BLOCKING that shows `TX_DATA_SENT` is the last (R191). -/
theorem seqStep_pollTx_sent (hpc : s.pc = .busy op (⟨l, .pollTx⟩ :: next)) (hturns : s.turns = x :: ts)
    (hx : x.failure = none) (hsent : eventSet s.params (wordRead s.params x (chipAt x s.chip)) .txDataSent = true) :
    seqStep s = some (onward op next ts { chipAt x s.chip with pending := 0 }
      [.rd .irqStatus (some (.word (wordRead s.params x (chipAt x s.chip))))] { s with engine := .txDone }) := by
  simp only [seqStep, hpc, actStep, busRead_irqStatus hturns hx, Prim.andThen, afterPollTx, returned, valueWord, hsent,
    if_true]
  rfl

/-- A poll counted below the limit is followed by the delay. -/
theorem seqStep_countPoll (hpc : s.pc = .busy op (⟨l, .countPoll⟩ :: next))
    (hlimit : ∀ n, s.params.pollLimit = some n → s.polls + 1 < n) :
    seqStep s =
      some (onward op next s.turns s.chip [.dly s.params.pollDelayMs] { s with polls := s.polls + 1 }) := by
  have hbelow : ¬ pollLimitReached s.params (s.polls + 1) = true := by
    rw [pollLimitReached_iff]
    rintro ⟨n, hn, hle⟩
    exact absurd (hlimit n hn) (by omega)
  simp only [seqStep, hpc, actStep, countPoll, if_neg hbelow]
  rfl

/-- A poll counted at the limit ends the operation. -/
theorem settle_countPoll_timeout (hrun : settle u = settle s) (hpc : s.pc = .busy op (⟨l, .countPoll⟩ :: next))
    (hlimit : s.params.pollLimit = some (s.polls + 1)) :
    settle u = raise (.timeout .pollLimit) { s with polls := s.polls + 1 } :=
  (hrun.trans (passes_countPoll_timeout hpc hlimit).settles).trans (settle_idle (raise_pc _ _))

/-- Polls that all miss inside the limit: a read and a delay for each. -/
theorem settle_missedPolls (hrun : settle u = settle s) (hpc : s.pc = .busy op (m :: next))
    (hturns : s.turns = misses ++ left) (hdelivered : ∀ x ∈ misses, x.failure = none) (hc : Agrees tx c₀ s.chip)
    (hmiss : ∀ w ∈ wordsSeen s.params c₀ misses, PollMisses s.params m w)
    (hlimit : ∀ n, s.params.pollLimit = some n → s.polls + misses.length < n) :
    ∃ c, settle u = settle (onward op (m :: next) left c (missedWordPolls s.params (wordsSeen s.params c₀ misses))
        { s with polls := s.polls + misses.length }) ∧ Agrees tx (chipAfterPolls misses c₀) c := by
  induction misses generalizing s c₀ with
  | nil =>
    obtain rfl : s.turns = left := hturns
    exact ⟨s.chip, by simpa [onward, goto, ← hpc, wordsSeen, missedWordPolls] using hrun, hc⟩
  | cons x misses ih =>
    simp only [List.forall_mem_cons] at hdelivered
    obtain ⟨hx, hmisses⟩ := hdelivered
    simp only [wordsSeen, List.forall_mem_cons] at hmiss
    obtain ⟨hfirst, hothers⟩ := hmiss
    simp only [List.length_cons] at hlimit ⊢
    have hword : wordRead s.params x (chipAt x s.chip) = wordRead s.params x (chipAt x c₀) :=
      wordRead_congr x (agrees_chipAt x hc).pending
    obtain ⟨k, hstep⟩ := seqStep_missedPoll hpc hturns hx (by rw [hword]; exact hfirst)
    rw [hword] at hstep
    have hcount := (hrun.trans (settle_some hstep)).trans
      (settle_some (seqStep_countPoll rfl fun n hn => by have := hlimit n hn; simp; omega))
    obtain ⟨c, hend, hd⟩ := ih hcount rfl rfl hmisses (agrees_polled x hc) hothers
      fun n hn => by have := hlimit n hn; simp; omega
    refine ⟨c, hend.trans ?_, hd⟩
    simp [onward, goto, missedWordPolls, wordsSeen, Nat.add_assoc, Nat.add_comm 1]

/-- A row of polls up to the last, the earlier ones having missed inside the limit. -/
theorem settle_toLastPoll (hrun : settle u = settle s) (hpc : s.pc = .busy op (m :: next)) (hturns : s.turns = polls ++ left)
    (hdelivered : ∀ x ∈ polls, x.failure = none) (hc : Agrees tx c₀ s.chip)
    (hseen : wordsSeen s.params c₀ polls = seen ++ [last]) (hmiss : ∀ w ∈ seen, PollMisses s.params m w)
    (hlimit : ∀ n, s.params.pollLimit = some n → s.polls + seen.length < n) :
    ∃ x c, settle u = settle (onward op (m :: next) (x :: left) c (missedWordPolls s.params seen)
        { s with polls := s.polls + seen.length }) ∧
      x.failure = none ∧ wordRead s.params x (chipAt x c) = last ∧
      Agrees tx (chipAfterPolls polls c₀) { chipAt x c with pending := 0 } := by
  obtain ⟨misses, x, rfl, rfl, rfl⟩ := wordsSeen_eq_concat hseen
  rw [wordsSeen_length] at hlimit ⊢
  simp only [List.forall_mem_append, List.forall_mem_singleton] at hdelivered
  obtain ⟨hmisses, hx⟩ := hdelivered
  obtain ⟨c, hmissed, hd⟩ := settle_missedPolls (left := x :: left) hrun hpc (by simpa using hturns) hmisses hc hmiss hlimit
  exact ⟨x, c, hmissed, hx, wordRead_congr x (agrees_chipAt x hd).pending,
    chipAfterPolls_concat misses x c₀ ▸ agrees_polled x hd⟩

end

/-! ### TX_BLOCKING (R191, R192) -/

/-- The capacitor load of R192, by the bands below High. -/
theorem txCwc_eq (p : Params) (band : Band) :
    txCwc p band = if band = .middle ∨ band = .low ∨ band = .veryLow then p.txCwcLow else p.txCwcHigh := by
  cases band <;> rfl

/-- What T1 to T8 send (R191, R192). -/
def txSends (p : Params) (band : Band) (payload : List Byte) : List Sent :=
  [.command .flushTxFifo, .raw 0xFF (payload.take 96)] ++ regSends p .pcktlen [(.length, .num (min payload.length 96))] ++
    regSends p .paConfig [(.cwc, .num (txCwc p band))] ++
    [.raw p.txVcoBuf.addr [p.txVcoBuf.byte], .raw p.txPmTrim.addr [p.txPmTrim.byte], .command .tx]

/-- T9 and T10: the poll, and the end with the count of the bytes loaded. -/
def txPollSteps (payload : List Byte) : List Micro :=
  [⟨.t9, .pollTx⟩, ⟨.t10, .finish (.count (BitVec.ofNat 8 (min payload.length 96)))⟩]

/-- The chip after the flush and the load of the TX FIFO, answered by `x` and `y`. -/
def txLoaded (payload : List Byte) (x y : Turn) (c : Chip) : Chip :=
  chipAfterRawWrite 0xFF (payload.take 96) y.landing (chipAt y (chipAt x c))

/-- The load leaves the pending bits and the RX FIFO to the chip. -/
theorem agrees_txLoaded (payload : List Byte) (x y : Turn) (c : Chip) :
    Agrees False (chipAfter [x, y] c) (txLoaded payload x y c) := ⟨rfl, rfl, False.elim⟩

/-- TX_BLOCKING comes to its poll, having sent what it sends; the TX FIFO holds what was loaded, unless one of the two raw
locations is the FIFO or the chip changes it. -/
theorem settle_txToPoll {payload : List Byte} {s : State} {x y : Turn} {used left : List Turn}
    (hturns : s.turns = x :: y :: (used ++ left)) (hx : x.failure = none) (hy : y.failure = none)
    (hused : ∀ x ∈ used, Good s.params [.pcktlen, .paConfig] x)
    (hlen : used.length = 3 + regSetTurns s.params .pcktlen + regSetTurns s.params .paConfig) :
    ∃ es c, settle (accepted (.txBlocking payload) s) = settle (onward .txBlocking (txPollSteps payload) left c es
        { accepted (.txBlocking payload) s with engine := .txPending, polls := 0, retries := 0 }) ∧
      es.filterMap sentOf = txSends s.params s.band payload ∧ NoWordPoll es ∧
      Agrees (s.params.txVcoBuf.addr ≠ 0xFF ∧ s.params.txPmTrim.addr ≠ 0xFF)
        (chipAfter used (txLoaded payload x y s.chip)) c := by
  have hstart : settle (accepted (.txBlocking payload) s) =
      settle (goto .txBlocking ((txSteps s.params s.band payload).drop 2)
        { accepted (.txBlocking payload) s with engine := .idle, polls := 0, retries := 0 }) :=
    (settle_some rfl).trans (settle_some rfl)
  have hload := (hstart.trans (settle_some (seqStep_command rfl hturns hx))).trans (settle_some (seqStep_rawWrite rfl rfl hy))
  rw [onward_onward] at hload
  obtain ⟨es, c, hrow, hes, hquiet, hc⟩ := settle_row (ks := [.pcktlen, .paConfig])
    (tx := s.params.txVcoBuf.addr ≠ 0xFF ∧ s.params.txPmTrim.addr ≠ 0xFF)
    (steps := ((txSteps s.params s.band payload).drop 4).take 5) (next := ⟨.t8, .engine .txPending⟩ :: txPollSteps payload)
    hload (by simp [txSteps, Sending]) (by decide) (fun ht => by simpa [txSteps, WritesTxFifo] using ht) rfl rfl
    (by
      simp only [txSteps, List.drop_succ_cons, List.drop_zero, List.take_succ_cons, List.take_zero, List.map_cons,
        List.map_nil, List.sum_cons, List.sum_nil, actTurns]
      rw [hlen]
      simp only [onward_params, goto_params, accepted]
      omega)
    hused
  rw [onward_onward] at hrow
  refine ⟨_ ++ es, c, hrow.trans (settle_some rfl), ?_, ?_, hc⟩
  · rw [List.filterMap_append, hes]
    simp [txSteps, txSends, actSends, sentOf, accepted]
  · exact noWordPoll_append (by simp [NoWordPoll]) hquiet

end Sys2Proof.Machine

namespace Sys2Proof.Safety

open Sys2Proof.Machine

/-- Settles O44: the run of the poll loop, taken to its last poll. -/
theorem txPollLoopTestsEachWordOnce : Obligations.TxPollLoopTestsEachWordOnce := by
  intro n s polls rest seen last hpc hturns hdelivered hseen hmiss
  have hmisses : ∀ w ∈ seen, PollMisses s.params ⟨.t9, .pollTx⟩ w := fun w hw => .inl ⟨rfl, hmiss w hw⟩
  have hlen : polls.length = seen.length + 1 := by
    rw [← wordsSeen_length s.params s.chip, hseen, List.length_append]; rfl
  refine ⟨fun hsent hlimit => ?_, fun hsent hlimit => ?_⟩
  · obtain ⟨x, c, hrun, hx, hlast, -⟩ := settle_toLastPoll rfl hpc hturns hdelivered (.refl (tx := False) _) hseen hmisses
      hlimit
    have hend := hrun.trans ((settle_some (seqStep_pollTx_sent rfl rfl hx (by simpa [hlast] using hsent))).trans
      (settle_finish rfl))
    refine ⟨_, (step_busy hpc).trans (congrArg _ hend), rfl, rfl, rfl, rfl, rfl, ?_⟩
    simp [hlast]
  · obtain ⟨x, c, hrun, hx, hlast, -⟩ := settle_toLastPoll rfl hpc hturns hdelivered (.refl (tx := False) _) hseen hmisses
      (by rw [hlimit, hlen]; rintro _ ⟨⟩; omega)
    obtain ⟨k, hstep⟩ := seqStep_missedPoll (s := onward .txBlocking _ (x :: rest) c (missedWordPolls s.params seen)
      { s with polls := s.polls + seen.length }) rfl rfl hx (.inl ⟨rfl, hlast.symm ▸ hsent⟩)
    have hend := settle_countPoll_timeout (hrun.trans (settle_some hstep)) rfl (hlimit.trans (by rw [hlen]; rfl))
    refine ⟨_, (step_busy hpc).trans (congrArg _ hend), raise_pc _ _, raise_err _ _, by simp, by simp, ?_⟩
    simp [hlast]

/-- Settles O43: TX_BLOCKING comes to its poll, and past it to its end. -/
theorem txSendsTruncatedPayload : Obligations.TxSendsTruncatedPayload := by
  intro payload o s before polls rest seen last hidle hturns hgood hlen hseen hmiss hsent hlimit p
  refine ⟨decode_encodeOver s.params o (.txBlocking payload), ?_⟩
  obtain ⟨first, used, rfl, hfirst, hused⟩ := exists_split (m := 2)
    (n := 3 + regSetTurns s.params .pcktlen + regSetTurns s.params .paConfig) (hlen.trans (by omega))
  obtain ⟨x, y, rfl⟩ := List.length_eq_two.1 hfirst
  simp only [List.cons_append, List.nil_append, List.forall_mem_cons, List.forall_mem_append] at hgood
  obtain ⟨hx, hy, hgused, hgpolls⟩ := hgood
  obtain ⟨pre, c, hload, hpre, hquiet, hc⟩ := settle_txToPoll (payload := payload) (left := polls ++ rest)
    (hturns.trans (by simp)) hx.1 hy.1 hgused hused
  have hpolled : wordsSeen s.params (chipAfter used (txLoaded payload x y s.chip)) polls = seen ++ [last] :=
    (wordsSeen_congr polls (agrees_chipAfter used (agrees_txLoaded payload x y s.chip))).trans hseen
  obtain ⟨z, d, hrun, hz, hlast, hd⟩ := settle_toLastPoll (m := ⟨.t9, .pollTx⟩) hload rfl rfl
    (fun x hx => (hgpolls x hx).1) hc hpolled (fun w hw => .inl ⟨rfl, hmiss w hw⟩) (by simpa [accepted] using hlimit)
  replace hlast : wordRead s.params z (chipAt z d) = last := hlast
  have hend := hrun.trans ((settle_some (seqStep_pollTx_sent rfl rfl hz (hlast.symm ▸ hsent))).trans (settle_finish rfl))
  obtain ⟨hexec, hnew⟩ := exec_of_settle
    (es := pre ++ missedWordPolls p seen ++ [BusEvent.rd .irqStatus (some (.word last))])
    hidle hend (by simp [hlast, accepted, p])
  refine ⟨_, pre, hexec, rfl, rfl, rfl, ?_, rfl, rfl, hnew, fun e he v h => hquiet v (h ▸ he), ?_,
    fun hvco htrim hkeeps => ?_⟩
  · show (BitVec.ofNat 8 (min payload.length 96)).toNat = _
    rw [BitVec.toNat_ofNat]
    omega
  · rw [hpre, txSends, txCwc_eq]
  · simp only [List.cons_append, List.nil_append, List.drop_succ_cons, List.drop_zero, List.forall_mem_append] at hkeeps
    refine (hd.txFifo ⟨hvco, htrim⟩).trans ?_
    rw [txFifo_chipAfterPolls hkeeps.2, txFifo_chipAfter hkeeps.1]
    rfl

end Sys2Proof.Safety
end

section
/-! PROOFS. RX_BLOCKING (R194, R195): the read-out of a packet, the polls that miss or re-arm the receiver, and the limits of
both. -/

namespace Sys2Proof.Machine

open Sys2Proof.Safety

/-! ### The count of the RX FIFO (R33) -/

/-- The count read is the answer from outside, or the number of bytes in the RX FIFO. -/
theorem countRead_congr {p : Params} {c d : Chip} (t : Turn) (h : d.rxFifo = c.rxFifo) :
    countRead p t d = countRead p t c := by
  unfold countRead bytesRead
  cases t.answers.lookup Kind.rxFifoStatus with
  | some bytes => rfl
  | none =>
    simp only [kindBytes, statusBytes, orderBytes_orderBytes, h]
    rw [codeAt_putCode_same_length _ _ (ys := storedBytes p c .rxFifoStatus) (by simp [storedBytes])]

/-- What a read of `RX_FIFO_STATUS` gets. -/
def statusRead (p : Params) (t : Turn) (c : Chip) : KindVal :=
  .record (orderBytes p .rxFifoStatus (bytesRead p .rxFifoStatus t c)) [(.count, .num (countRead p t c))]

/-- Such a read always decodes (R33, R274). -/
theorem valueRead_rxFifoStatus (p : Params) (t : Turn) (c : Chip) :
    valueRead p .rxFifoStatus t c = .ok (statusRead p t c) := rfl

theorem valueCount_statusRead (p : Params) (t : Turn) (c : Chip) : valueCount (statusRead p t c) = countRead p t c := rfl

theorem retryLimitPassed_iff {p : Params} {retries : Nat} :
    retryLimitPassed p retries = true ↔ ∃ n, p.rxRetryLimit = some n ∧ n < retries := by
  unfold retryLimitPassed
  split <;> simp [*]

/-! ### Single steps -/

section
variable {op : Op} {l : Label} {next : List Micro} {u s : State} {x y : Turn} {left ts : List Turn} {c₀ : Chip} {n : Nat}

/-- A poll that shows `RX_DATA_READY` is the last, whatever else it shows (R194, D23). -/
theorem seqStep_pollRx_ready (hpc : s.pc = .busy op (⟨l, .pollRx⟩ :: next)) (hturns : s.turns = x :: ts)
    (hx : x.failure = none) (hready : eventSet s.params (wordRead s.params x (chipAt x s.chip)) .rxDataReady = true) :
    seqStep s = some (onward op next ts { chipAt x s.chip with pending := 0 }
      [.rd .irqStatus (some (.word (wordRead s.params x (chipAt x s.chip))))] { s with engine := .rxReady }) := by
  simp only [seqStep, hpc, actStep, busRead_irqStatus hturns hx, Prim.andThen, afterPollRx, returned, valueWord, hready,
    if_true]
  rfl

section
variable (hpc : s.pc = .busy op (⟨l, .pollRx⟩ :: next)) (hturns : s.turns = x :: ts) (hx : x.failure = none)
  (hready : eventSet s.params (wordRead s.params x (chipAt x s.chip)) .rxDataReady = false)
  (hrearm : rearms s.params (wordRead s.params x (chipAt x s.chip)) = true)
include hpc hturns hx hready hrearm

/-- A poll that shows a discard or a timeout strobes the receiver again, where `RX_RETRY_LIMIT` allows it. -/
theorem seqStep_pollRx_rearm (hretry : ∀ n, s.params.rxRetryLimit = some n → s.retries + 1 ≤ n) :
    seqStep s = some (onward op (strobeSteps s.params ++ ⟨.v5, .countPoll⟩ :: ⟨.v2, .pollRx⟩ :: next) ts
      { chipAt x s.chip with pending := 0 } [.rd .irqStatus (some (.word (wordRead s.params x (chipAt x s.chip))))]
      { s with engine := .rxDiscardedRetry, retries := s.retries + 1 }) := by
  have hallowed : ¬ retryLimitPassed s.params (s.retries + 1) = true := by
    rw [retryLimitPassed_iff]
    rintro ⟨n, hn, hlt⟩
    exact absurd (hretry n hn) (by omega)
  rw [rearms] at hrearm
  simp only [seqStep, hpc, actStep, busRead_irqStatus hturns hx, Prim.andThen, afterPollRx, returned, valueWord, hready,
    hrearm, hallowed, Bool.false_eq_true, if_false, if_true]
  rfl

/-- Where the limit allows no more, it ends the operation instead (R278). -/
theorem seqStep_pollRx_retryLimit (hretry : s.params.rxRetryLimit = some s.retries) :
    seqStep s = some (raise (.timeout .rxRetryLimit) (returned ts { chipAt x s.chip with pending := 0 }
      (.rd .irqStatus (some (.word (wordRead s.params x (chipAt x s.chip)))))
      { s with engine := .rxDiscardedRetry, retries := s.retries + 1 })) := by
  have hpassed : retryLimitPassed s.params (s.retries + 1) = true := retryLimitPassed_iff.2 ⟨_, hretry, Nat.lt_succ_self _⟩
  rw [rearms] at hrearm
  simp only [seqStep, hpc, actStep, busRead_irqStatus hturns hx, Prim.andThen, afterPollRx, returned, valueWord, hready,
    hrearm, hpassed, Bool.false_eq_true, if_false, if_true]

end

/-- V7, V8: a count the FIFO can hold is drained. -/
theorem seqStep_fifoCount (hpc : s.pc = .busy op (⟨l, .fifoCount⟩ :: next)) (hturns : s.turns = x :: ts)
    (hx : x.failure = none) (hcount : countRead s.params x (chipAt x s.chip) = n) (hn : n ≤ 96) :
    seqStep s = some (onward op (⟨.v9, .drain n⟩ :: next) ts (chipAt x s.chip)
      [.rd .rxFifoStatus (some (statusRead s.params x (chipAt x s.chip)))] s) := by
  simp only [seqStep, hpc, actStep, busRead_returns hturns hx (valueRead_rxFifoStatus _ _ _), Prim.andThen, afterFifoCount,
    valueCount_statusRead, hcount, if_neg (not_lt.2 hn)]
  rfl

/-- V8: a count above the FIFO's capacity ends the operation. -/
theorem seqStep_fifoCount_tooMany (hpc : s.pc = .busy op (⟨l, .fifoCount⟩ :: next)) (hturns : s.turns = x :: ts)
    (hx : x.failure = none) (hn : 96 < countRead s.params x (chipAt x s.chip)) :
    seqStep s = some (raise .invalidParameter (returned ts (chipAt x s.chip)
      (.rd .rxFifoStatus (some (statusRead s.params x (chipAt x s.chip)))) s)) := by
  simp only [seqStep, hpc, actStep, busRead_returns hturns hx (valueRead_rxFifoStatus _ _ _), Prim.andThen, afterFifoCount,
    valueCount_statusRead, hn, if_true]
  rfl

/-- V9, V10: the drain of `n` bytes, which ends the operation. -/
theorem seqStep_drain (hpc : s.pc = .busy op (⟨l, .drain n⟩ :: next)) (hturns : s.turns = x :: ts) (hx : x.failure = none) :
    seqStep s = some (afterDrain n (rawReadBytes s.params 0xFF n x s.fresh (chipAt x s.chip))
      (onward op next ts (chipAfterRawRead s.params 0xFF n (chipAt x s.chip))
        [.rdRaw 0xFF n (some (rawReadBytes s.params 0xFF n x s.fresh (chipAt x s.chip)))]
        { s with fresh := s.fresh + 1 })) := by
  have hread : memRead 0xFF n s = .done (rawReadBytes s.params 0xFF n x s.fresh (chipAt x s.chip)) _ :=
    transact_returns (s := { s with fresh := s.fresh + 1 }) hturns hx rfl
  simp only [seqStep, hpc, actStep, hread, Prim.andThen]
  rfl

/-! ### The read-out (V7 to V10) -/

/-- Bytes the FIFO holds are read from its front. -/
theorem rawReadBytes_fifo {p : Params} {fresh : Nat} {c : Chip} (hx : x.rawAnswer = []) (hn : n ≤ c.rxFifo.length) :
    rawReadBytes p 0xFF n x fresh c = c.rxFifo.take n := by
  refine List.ext_getElem (by simpa [rawReadBytes] using hn) fun i hi hi' => ?_
  have hlt : i < c.rxFifo.length := (List.length_take ▸ hi').trans_le (min_le_right _ _)
  simp [rawReadBytes, rawByte, hx, hlt]

/-- Bytes that fit stand in `RXBUF` below the ones it held (R45, D24). -/
theorem fillRxbuf_fits {buf bytes : List Byte} (hbuf : buf.length = 96) (h : bytes.length ≤ 96) :
    fillRxbuf buf bytes = bytes ++ buf.drop bytes.length :=
  List.take_of_length_le (by simp [hbuf]; omega)

/-- What was read out of the RX FIFO when RX_BLOCKING ended: `n` bytes of chip `c` in the drain answered by `y`. -/
structure Drained (n : Nat) (y : Turn) (c : Chip) (bytes : List Byte) (d : Chip) : Prop where
  length : bytes.length = n
  rest : d.rxFifo = c.rxFifo.drop n
  bytes : y.rawAnswer = [] → n ≤ c.rxFifo.length → bytes = c.rxFifo.take n

/-- The read-out of a count the FIFO can hold, from the poll that found the packet to the end of the operation. -/
theorem settle_readOut (hrun : settle u = settle s) (hpc : s.pc = .busy op (⟨l, .fifoCount⟩ :: next))
    (hturns : s.turns = x :: y :: left) (hx : x.failure = none) (hy : y.failure = none) (hc : Agrees False c₀ s.chip)
    (hcount : countRead s.params x (chipAt x c₀) = n) (hn : n ≤ 96) :
    ∃ status bytes d, settle u = afterDrain n bytes (onward op next left d [status, .rdRaw 0xFF n (some bytes)]
        { s with fresh := s.fresh + 1 }) ∧
      bare status = countEvent n ∧ Drained n y (chipAt y (chipAt x c₀)) bytes d := by
  have hfifo := agrees_chipAt x hc
  have hcount' : countRead s.params x (chipAt x s.chip) = n := (countRead_congr x hfifo.rxFifo).trans hcount
  have hdrained := (agrees_chipAt y hfifo).rxFifo
  have hend := (hrun.trans (settle_some (seqStep_fifoCount hpc hturns hx hcount' hn))).trans
    ((settle_some (seqStep_drain rfl rfl hy)).trans (settle_idle rfl))
  refine ⟨_, _, _, hend.trans (congrArg (afterDrain n _) (onward_onward (s := { s with fresh := s.fresh + 1 }) ..)), ?_,
    ⟨by simp [rawReadBytes], ?_, fun hraw hlen => ?_⟩⟩
  · rw [← hcount']; rfl
  · rw [← hdrained]; rfl
  · rw [← hdrained] at hlen ⊢
    exact rawReadBytes_fifo hraw hlen

end

/-! ### RX_BLOCKING to its poll -/

/-- V2 and V7: the poll, and the read-out after it. -/
def rxPollSteps : List Micro := [⟨.v2, .pollRx⟩, ⟨.v7, .fifoCount⟩]

/-- RX_BLOCKING, accepted in `s`, at its first poll. -/
def rxAtPoll (left : List Turn) (c : Chip) (es : List BusEvent) (s : State) : State :=
  onward .rxBlocking rxPollSteps left c es { accepted .rxBlocking s with engine := .rxArmed, polls := 0, retries := 0 }

section
variable (left : List Turn) (c : Chip) (es : List BusEvent) (s : State)

@[simp] theorem rxAtPoll_params : (rxAtPoll left c es s).params = s.params := rfl
@[simp] theorem rxAtPoll_polls : (rxAtPoll left c es s).polls = 0 := rfl
@[simp] theorem rxAtPoll_retries : (rxAtPoll left c es s).retries = 0 := rfl
@[simp] theorem rxAtPoll_trace : (rxAtPoll left c es s).trace = s.trace ++ es := rfl

end

/-- RX_BLOCKING comes to its poll, having strobed once. -/
theorem settle_rxToPoll {s : State} {strobe left : List Turn} (hturns : s.turns = strobe ++ left)
    (hstrobe : ∀ x ∈ strobe, Good s.params [.paConfig] x) (hlen : strobe.length = strobeTurns s.params) :
    ∃ es c, settle (accepted .rxBlocking s) = settle (rxAtPoll left c es s) ∧
      es.filterMap sentOf = strobeSends s.params ∧ NoWordPoll es ∧ Agrees False (chipAfter strobe s.chip) c := by
  have hstart : settle (accepted .rxBlocking s) = settle (goto .rxBlocking (strobeSteps s.params ++ rxPollSteps)
      { accepted .rxBlocking s with engine := .idle, polls := 0, retries := 0 }) :=
    (settle_some rfl).trans (settle_some rfl)
  exact settle_strobe hstart rfl hturns hstrobe hlen

/-! ### Rounds of polls that re-arm or miss -/

theorem rxTurns_cons (r : Turn × List Turn) (rounds : List (Turn × List Turn)) :
    rxTurns (r :: rounds) = r.1 :: (r.2 ++ rxTurns rounds) := by
  simp [rxTurns]

theorem rearmCount_cons (r : Turn × List Turn) (rounds : List (Turn × List Turn)) :
    rearmCount (r :: rounds) = rearmCount [r] + rearmCount rounds := by
  simp [rearmCount, List.countP_cons, Nat.add_comm]

/-- RX_BLOCKING stands at its poll, armed, and `rounds` of polls without a ready event are to come, inside the retry limit;
`c₀` is the chip with its own changes alone. -/
structure RoundsAhead (op : Op) (next : List Micro) (c₀ : Chip) (rounds : List (Turn × List Turn)) (left : List Turn)
    (s : State) : Prop where
  pc : s.pc = .busy op (⟨.v2, .pollRx⟩ :: next)
  engine : s.engine = .rxArmed
  turns : s.turns = rxTurns rounds ++ left
  good : ∀ x ∈ rxTurns rounds, Good s.params [.paConfig] x
  chip : Agrees False c₀ s.chip
  misses : rxMisses s.params c₀ rounds
  retry : ∀ n, s.params.rxRetryLimit = some n → s.retries + rearmCount rounds ≤ n

/-- What `n` strobes send. -/
def strobesSent (p : Params) (n : Nat) : List Sent := (List.replicate n (strobeSends p)).flatten

theorem strobesSent_add (p : Params) (m n : Nat) : strobesSent p (m + n) = strobesSent p m ++ strobesSent p n := by
  rw [strobesSent, List.replicate_add, List.flatten_append]; rfl

/-- What RX_BLOCKING sends: one strobe, those of its rounds, and nothing more. -/
theorem sends_of_rounds {p : Params} {n : Nat} {es es' es'' : List BusEvent} (h : es.filterMap sentOf = strobeSends p)
    (h' : es'.filterMap sentOf = strobesSent p n) (h'' : es''.filterMap sentOf = []) :
    (es ++ (es' ++ es'')).filterMap sentOf = (List.replicate (n + 1) (strobeSends p)).flatten := by
  rw [List.filterMap_append, List.filterMap_append, h, h', h'', List.append_nil, List.replicate_succ, List.flatten_cons,
    strobesSent]

section
variable {op : Op} {next : List Micro} {u s : State} {c₀ : Chip} {r : Turn × List Turn} {rounds : List (Turn × List Turn)}
  {left : List Turn}

/-- One round, up to the count of its poll: it strobes exactly where its word shows a discard or a timeout. -/
theorem settle_round (hrun : settle u = settle s) (h : RoundsAhead op next c₀ (r :: rounds) left s) :
    ∃ l es c, settle u = settle (onward op (⟨l, .countPoll⟩ :: ⟨.v2, .pollRx⟩ :: next) (rxTurns rounds ++ left) c es
        { s with retries := s.retries + rearmCount [r] }) ∧
      es.filterMap sentOf = strobesSent s.params (rearmCount [r]) ∧
      Agrees False (chipAfter r.2 { chipAt r.1 c₀ with pending := 0 }) c := by
  obtain ⟨x, again⟩ := r
  obtain ⟨hpc, harmed, hturns, hgood, hc, ⟨hready, hagain, -⟩, hretry⟩ := h
  rw [rxTurns_cons] at hturns hgood
  simp only [List.forall_mem_cons, List.forall_mem_append] at hgood
  obtain ⟨hx, hgagain, -⟩ := hgood
  rw [rearmCount_cons] at hretry
  rw [← wordRead_congr x (agrees_chipAt x hc).pending] at hready hagain
  cases hrearm : rearms s.params (wordRead s.params x (chipAt x s.chip)) with
  | false =>
    obtain rfl : again = [] := by simpa [hrearm] using hagain
    obtain ⟨l, hstep⟩ := seqStep_missedPoll hpc hturns hx.1 (.inr ⟨rfl, hready, hrearm⟩)
    exact ⟨l, _, _, hrun.trans (settle_some hstep), rfl, agrees_polled x hc⟩
  | true =>
    have hcount : rearmCount [(x, again)] = 1 := by
      cases again with
      | nil => simp [hrearm, strobeTurns] at hagain; omega
      | cons _ _ => rfl
    rw [hcount] at hretry ⊢
    obtain ⟨es, c, hstrobe, hes, -, hd⟩ := settle_strobe
      (hrun.trans (settle_some (seqStep_pollRx_rearm hpc hturns hx.1 hready hrearm
        fun n hn => by have := hretry n hn; omega))) rfl (List.append_assoc _ _ _) hgagain (by simpa [hrearm] using hagain)
    refine ⟨.v5, .rd .irqStatus (some (.word (wordRead s.params x (chipAt x s.chip)))) :: es, c, hstrobe.trans ?_, ?_,
      (agrees_chipAfter again (agrees_polled x hc)).trans hd⟩
    · simp [onward, goto, harmed]
    · rw [List.filterMap_cons_none rfl, hes]; simp [strobesSent]

/-- A row of rounds inside the poll limit, up to the count of its last poll. -/
theorem settle_roundsToCount (hrun : settle u = settle s) (h : RoundsAhead op next c₀ (r :: rounds) left s)
    (hlimit : ∀ n, s.params.pollLimit = some n → s.polls + rounds.length < n) :
    ∃ l es c, settle u = settle (onward op (⟨l, .countPoll⟩ :: ⟨.v2, .pollRx⟩ :: next) left c es
        { s with polls := s.polls + rounds.length, retries := s.retries + rearmCount (r :: rounds) }) ∧
      es.filterMap sentOf = strobesSent s.params (rearmCount (r :: rounds)) ∧ Agrees False (rxEnd (r :: rounds) c₀) c := by
  induction rounds generalizing r s c₀ with
  | nil => exact settle_round hrun h
  | cons r' rounds ih =>
    simp only [List.length_cons] at hlimit ⊢
    obtain ⟨l, es, c, hround, hes, hc⟩ := settle_round hrun h
    obtain ⟨-, harmed, -, hgood, -, ⟨-, -, hmisses⟩, hretry⟩ := h
    rw [rxTurns_cons] at hgood
    simp only [rearmCount_cons r (r' :: rounds)] at hretry ⊢
    obtain ⟨l', es', c', hothers, hes', hc'⟩ := ih
      (hround.trans (settle_some (seqStep_countPoll rfl fun n hn => by have := hlimit n hn; simp; omega)))
      ⟨rfl, harmed, rfl, fun x hx => hgood x (by simp [hx]), hc, hmisses, fun n hn => by have := hretry n hn; simp; omega⟩
      fun n hn => by have := hlimit n hn; simp; omega
    refine ⟨l', es ++ .dly s.params.pollDelayMs :: es', c', hothers.trans ?_, ?_, hc'⟩
    · simp [onward, goto, Nat.add_assoc, Nat.add_comm 1]
    · rw [List.filterMap_append, hes, List.filterMap_cons_none rfl, hes', strobesSent_add]
      rfl

/-- A row of rounds inside the poll limit, each counted: the next poll is to come. -/
theorem settle_rounds (hrun : settle u = settle s) (h : RoundsAhead op next c₀ rounds left s)
    (hlimit : ∀ n, s.params.pollLimit = some n → s.polls + rounds.length < n) :
    ∃ es c, settle u = settle (onward op (⟨.v2, .pollRx⟩ :: next) left c es
        { s with polls := s.polls + rounds.length, retries := s.retries + rearmCount rounds }) ∧
      es.filterMap sentOf = strobesSent s.params (rearmCount rounds) ∧ Agrees False (rxEnd rounds c₀) c := by
  cases rounds with
  | nil =>
    obtain rfl : s.turns = left := h.turns
    exact ⟨[], s.chip, by simpa [onward, goto, ← h.pc, rearmCount] using hrun, rfl, h.chip⟩
  | cons r rounds =>
    simp only [List.length_cons] at hlimit ⊢
    obtain ⟨l, es, c, hrounds, hes, hc⟩ := settle_roundsToCount hrun h fun n hn => by have := hlimit n hn; omega
    refine ⟨es ++ [.dly s.params.pollDelayMs], c, (hrounds.trans (settle_some (seqStep_countPoll rfl
      fun n hn => by have := hlimit n hn; simp; omega))).trans ?_, by simp [hes, sentOf], hc⟩
    simp [onward, goto, Nat.add_assoc]

end

end Sys2Proof.Machine

namespace Sys2Proof.Safety

open Sys2Proof.Machine

/-- Settles O46: the strobe, the polls up to the one that finds the packet, and the read-out or its refusal. -/
theorem rxDrainsReportedCount : Obligations.RxDrainsReportedCount := by
  intro o s strobe polls rest count seen last _ hidle hbuf hturns hgood hlen hseen hmiss hready hlimit c n
  rw [hturns] at hgood
  simp only [List.forall_mem_append, List.forall_mem_cons] at hgood
  obtain ⟨⟨hgstrobe, hgpolls⟩, hcount, hgrest⟩ := hgood
  obtain ⟨pre, c₁, harmed, hpre, hquiet, hc₁⟩ := settle_rxToPoll (hturns.trans (List.append_assoc _ _ _)) hgstrobe hlen
  obtain ⟨x, c₂, hpolled, hx, hlast, hc₂⟩ := settle_toLastPoll harmed rfl rfl (fun x hx => (hgpolls x hx).1) hc₁ hseen
    (fun w hw => .inr ⟨rfl, hmiss w hw⟩) (by simpa using hlimit)
  replace hlast : wordRead s.params x (chipAt x c₂) = last := hlast
  have hfound := hpolled.trans (settle_some (seqStep_pollRx_ready rfl rfl hx (hlast.symm ▸ hready)))
  refine ⟨decode_encodeOver s.params o .rxBlocking, ?_, fun hmany => ?_⟩
  · rintro drain more rfl hfits
    simp only [List.forall_mem_cons] at hgrest
    obtain ⟨hdrain, -⟩ := hgrest
    obtain ⟨status, bytes, d, hrun, hstatus, hdrained⟩ :=
      settle_readOut (n := n) hfound rfl rfl hcount.1 hdrain.1 hc₂ rfl hfits
    obtain ⟨hexec, hnew⟩ := exec_of_settle (es := pre ++ missedWordPolls s.params seen ++
      [BusEvent.rd .irqStatus (some (.word last)), status, .rdRaw 0xFF n (some bytes)]) hidle hrun
      (by simp [afterDrain, hlast])
    refine ⟨_, pre, status, bytes, hexec, rfl, rfl, rfl, rfl, hpre, hquiet, hnew, hstatus, hdrained.length, ?_, ?_,
      hdrained.rest, hdrained.bytes⟩
    · show (BitVec.ofNat 8 n).toNat = n
      rw [BitVec.toNat_ofNat]
      omega
    · exact (fillRxbuf_fits hbuf (hdrained.length.trans_le hfits)).trans (by rw [hdrained.length])
  · have hfifo := (agrees_chipAt count hc₂).rxFifo
    have hread : countRead s.params count (chipAt count { chipAt x c₂ with pending := 0 }) = n := countRead_congr count hfifo
    have hrun := hfound.trans ((settle_some (seqStep_fifoCount_tooMany rfl rfl hcount.1 (hread.symm ▸ hmany))).trans
      (settle_idle (raise_pc _ _)))
    obtain ⟨hexec, hnew⟩ := exec_of_settle (es := pre ++ missedWordPolls s.params seen ++
      [BusEvent.rd .irqStatus (some (.word last)),
        .rd .rxFifoStatus (some (statusRead s.params count (chipAt count { chipAt x c₂ with pending := 0 })))])
      hidle hrun (by simp [returned, hlast])
    exact ⟨_, pre, _, hexec, raise_pc _ _, raise_err _ _, raise_engine _ _, raise_turns _ _,
      raise_rxbuf_busy _ _ .rxBlocking _ rfl, raise_rxbuf_length _ _ hbuf, (congrArg Chip.rxFifo (raise_chip _ _)).trans hfifo,
      hpre, hnew, by rw [← hread]; rfl⟩

/-- RX_BLOCKING comes to its rounds, armed by one strobe. -/
theorem settle_rxToRounds {s : State} {strobe left : List Turn} {rounds : List (Turn × List Turn)}
    (hturns : s.turns = strobe ++ rxTurns rounds ++ left)
    (hgood : ∀ x ∈ strobe ++ rxTurns rounds, Good s.params [.paConfig] x) (hlen : strobe.length = strobeTurns s.params)
    (hmiss : rxMisses s.params (chipAfter strobe s.chip) rounds)
    (hretry : ∀ n, s.params.rxRetryLimit = some n → rearmCount rounds ≤ n) :
    ∃ es c, settle (accepted .rxBlocking s) = settle (rxAtPoll (rxTurns rounds ++ left) c es s) ∧
      RoundsAhead .rxBlocking [⟨.v7, .fifoCount⟩] (chipAfter strobe s.chip) rounds left
        (rxAtPoll (rxTurns rounds ++ left) c es s) ∧
      es.filterMap sentOf = strobeSends s.params := by
  simp only [List.forall_mem_append] at hgood
  obtain ⟨es, c, hrun, hes, -, hc⟩ := settle_rxToPoll (hturns.trans (List.append_assoc _ _ _)) hgood.1 hlen
  exact ⟨es, c, hrun, ⟨rfl, rfl, rfl, hgood.2, hc, hmiss, by simpa using hretry⟩, hes⟩

/-- Settles O47: the strobe, the rounds, the ready event after them, and the read-out. -/
theorem rxRearmsOncePerDiscard : Obligations.RxRearmsOncePerDiscard := by
  intro s strobe rest rounds hit count drain _ hidle hturns hgood hlen ready hmiss hready hfits hretry hlimit
  rw [hturns] at hgood
  obtain ⟨hgood, hlast⟩ := List.forall_mem_append.1 hgood
  simp only [List.forall_mem_cons] at hlast
  obtain ⟨hhit, hcount, hdrain, -⟩ := hlast
  obtain ⟨es, c₁, harmed, hahead, hes⟩ := settle_rxToRounds hturns hgood hlen hmiss hretry
  obtain ⟨es', c, hrounds, hes', hc⟩ := settle_rounds harmed hahead (by simpa using hlimit)
  have hword : wordRead s.params hit (chipAt hit c) = wordRead s.params hit ready :=
    wordRead_congr hit (agrees_chipAt hit hc).pending
  have hfound := hrounds.trans (settle_some (seqStep_pollRx_ready rfl rfl hhit.1 (hword.symm ▸ hready)))
  have hcounted : countRead s.params count (chipAt count { ready with pending := 0 }) =
      countRead s.params count (chipAt count ready) := countRead_congr count (rxFifo_chipAt_congr count rfl)
  obtain ⟨status, bytes, d, hrun, hstatus, -⟩ :=
    settle_readOut hfound rfl rfl hcount.1 hdrain.1 (agrees_polled hit hc) hcounted hfits
  obtain ⟨hexec, hnew⟩ := exec_of_settle
    (es := es ++ (es' ++ [BusEvent.rd .irqStatus (some (.word (wordRead s.params hit (chipAt hit c)))), status,
      .rdRaw 0xFF (countRead s.params count (chipAt count ready)) (some bytes)])) hidle hrun (by simp [afterDrain])
  have hquiet : sentOf status = none := by rw [← sentOf_bare, hstatus]; rfl
  refine ⟨_, hexec, rfl, rfl, rfl, rfl, Nat.zero_add _, Nat.zero_add _, ?_, ?_⟩
  · show (BitVec.ofNat 8 (countRead s.params count (chipAt count ready))).toNat = _
    rw [BitVec.toNat_ofNat]
    omega
  · rw [sent, hnew]
    exact sends_of_rounds hes hes' (by rw [List.filterMap_cons_none rfl, List.filterMap_cons_none hquiet]; rfl)

/-- Settles O48: the strobe and the rounds, and then a discard or a timeout that may not be retried; or the count of the last
round, which is at its limit. -/
theorem rxTimesOutAtItsLimits : Obligations.RxTimesOutAtItsLimits := by
  intro s strobe rest rounds hidle hlen hmiss
  refine ⟨?_, fun hturns hgood hne hpoll hretry => ?_⟩
  · intro bad hturns hgood w hready hrearm hretry hlimit
    obtain ⟨hgood, hlast⟩ := List.forall_mem_append.1 hgood
    obtain ⟨es, c₁, harmed, hahead, hes⟩ := settle_rxToRounds (left := bad :: rest) hturns hgood hlen hmiss
      fun n hn => (Option.some.inj (hretry.symm.trans hn)).le
    obtain ⟨es', c, hrounds, hes', hc⟩ := settle_rounds harmed hahead (by simpa using hlimit)
    have hword : wordRead s.params bad (chipAt bad c) = w := wordRead_congr bad (agrees_chipAt bad hc).pending
    have hrun := hrounds.trans ((settle_some (seqStep_pollRx_retryLimit rfl rfl (hlast bad (by simp)).1
      (hword.symm ▸ hready) (hword.symm ▸ hrearm) (by simpa using hretry))).trans (settle_idle (raise_pc _ _)))
    obtain ⟨hexec, hnew⟩ := exec_of_settle
      (es := es ++ (es' ++ [BusEvent.rd .irqStatus (some (.word (wordRead s.params bad (chipAt bad c))))]))
      hidle hrun (by simp [returned])
    refine ⟨_, hexec, raise_pc _ _, raise_err _ _, raise_engine _ _, raise_turns _ _, ?_⟩
    rw [sent, hnew]
    exact sends_of_rounds hes hes' rfl
  · obtain ⟨r, rounds, rfl⟩ := List.exists_cons_of_ne_nil hne
    obtain ⟨es, c₁, harmed, hahead, hes⟩ := settle_rxToRounds hturns hgood hlen hmiss hretry
    obtain ⟨l, es', c, hrounds, hes', -⟩ := settle_roundsToCount harmed hahead fun n hn => by
      have : (r :: rounds).length = n := Option.some.inj (hpoll.symm.trans hn)
      simp at this ⊢; omega
    have hrun := settle_countPoll_timeout hrounds rfl (hpoll.trans (by simp))
    obtain ⟨hexec, hnew⟩ := exec_of_settle (es := es ++ (es' ++ [])) hidle hrun (by simp)
    refine ⟨_, hexec, raise_pc _ _, raise_err _ _, raise_engine _ _, raise_turns _ _, ?_⟩
    rw [sent, hnew]
    exact sends_of_rounds hes hes' rfl

end Sys2Proof.Safety
end

section
/-! PROOFS. The IRQ manager (spec/44_irq.md): each of its operations is one step, which writes the accumulator (R212, R213),
writes the mask (R210, R214), reads and clears the interrupt word (R211), or tests one bit of a word (R215). -/

namespace Sys2Proof.Machine

open Sys2Proof.Safety

/-! ### Bits of the interrupt word (R32, R213, R215) -/

/-- Adding an event that the accumulator has already adds nothing. -/
theorem maskWith_of_bit {p : Params} {acc : Word} {e : Event} (h : acc.getLsbD (p.eventBit e) = true) :
    maskWith p acc e = acc := by
  refine BitVec.eq_of_getLsbD_eq fun j hj => ?_
  rw [maskWith_bit p acc e j hj]
  by_cases hje : j = p.eventBit e
  · rw [hje, h, Bool.true_or]
  · simp [hje]

/-- The test of an event is that of one binary digit of the word. -/
theorem eventSet_eq_decide (p : Params) (w : Word) (e : Event) :
    eventSet p w e = decide (w.toNat / 2 ^ p.eventBit e % 2 = 1) :=
  Nat.testBit_eq_decide_div_mod_eq

/-! ### The mask register (R60, R68) -/

/-- The mask is encoded most significant byte first (R68 (c)). -/
theorem encodeValue_irqMask (p : Params) (w : Word) : encodeValue p .irqMask (.word w) = wordBytes w :=
  fitBytes_self (wordBytes w)

/-- The frame of a write of the mask (R90). -/
theorem frameOf_irqMask (p : Params) (w : Word) (arrived : Bool) :
    frameOf p (.wr .irqMask (.word w) arrived) = 0x00 :: BitVec.ofNat 8 (p.kindAddr .irqMask) :: wordBytes w := by
  rw [← encodeValue_irqMask p w]; rfl

/-- The chip with mask `w` in its register: the four bytes at the register's four addresses. -/
def withMask (p : Params) (w : Word) (c : Chip) : Chip :=
  { c with
    mem := memSet (memSet (memSet (memSet c.mem (p.kindAddr .irqMask) (w.extractLsb' 24 8))
      (p.kindAddr .irqMask + 1) (w.extractLsb' 16 8)) (p.kindAddr .irqMask + 2) (w.extractLsb' 8 8))
      (p.kindAddr .irqMask + 3) (w.extractLsb' 0 8) }

/-- A write of the mask puts it in its register. -/
theorem chipAfterWrite_irqMask (p : Params) (w : Word) (c : Chip) :
    chipAfterWrite p .irqMask (.word w) c = withMask p w c := by
  rw [chipAfterWrite, encodeValue_irqMask]; rfl

/-! ### A write that fails in transport (R63, R272) -/

section
variable {s : State} {t : Turn} {ts : List Turn} {f : TransportFailure}

/-- `BusWrite` that the transport does not deliver ends the operation; whether it reached the chip the answer says (U9). -/
theorem busWrite_fails (k : Kind) (v : KindVal) (hturns : s.turns = t :: ts) (hf : t.failure = some f) :
    busWrite k v s = .ended (raise (.busFailure f.cause) (returned ts
      (if f.reached then chipAfterWrite s.params k v (chipAt t s.chip) else chipAt t s.chip) (.wr k v false) s)) := by
  simp only [busWrite, busWriteWith, transact, nextTurn, hturns, hf]
  rfl

/-- An instruction that stores one value of a kind, not delivered. -/
theorem exec_store_failed {i : Instr} {l : Label} {k : Kind} {v : KindVal} (hidle : Idle s)
    (hseq : sequenceOf i s = [⟨l, .store k v⟩]) (hturns : s.turns = t :: ts) (hf : t.failure = some f) :
    exec i s = .next (raise (.busFailure f.cause) (returned ts
      (if f.reached then chipAfterWrite s.params k v (chipAt t s.chip) else chipAt t s.chip) (.wr k v false)
      (accepted i s))) := by
  have hstep : seqStep (accepted i s) = (busWrite k v (accepted i s)).andThen fun _ => goto (opOf i) [] := by
    simp only [seqStep, accepted, hseq, actStep]
  rw [busWrite_fails k v (s := accepted i s) hturns hf] at hstep
  rw [exec_idle i hidle, settle_some hstep, settle_idle (raise_pc _ _)]
  rfl

end

/-! ### The operations -/

section
variable {i : Instr} {s : State} {l : Label}

/-- An instruction whose one step goes on at once, having changed the accumulator or the bus alone, ends there: its operands are
latched, `ERR` is `None` and nothing else has changed (R25, R27). -/
theorem exec_silent_frame {a : Act} {w : Word} {ts : List Turn} {c : Chip} {es : List BusEvent} (hidle : Idle s)
    (hseq : sequenceOf i s = [⟨l, a⟩])
    (hstep : actStep (opOf i) l [] (accepted i s) a = some (goto (opOf i) []
      { accepted i s with maskAcc := w, turns := ts, chip := c, trace := es })) :
    exec i s = .next { s with
      operands := loadOperands i s.operands, maskAcc := w, turns := ts, chip := c, trace := es, err := .none } := by
  rw [exec_silent i hidle hseq hstep]
  simp [finish, accepted, writeResults, hidle]

/-- An instruction whose one step writes the accumulator. -/
theorem exec_setMask {w : Word} (hidle : Idle s) (hseq : sequenceOf i s = [⟨l, .setMask w⟩]) :
    exec i s = .next { s with operands := loadOperands i s.operands, maskAcc := w, err := .none } :=
  exec_silent_frame hidle hseq rfl

section
variable {t : Turn} {ts : List Turn}

/-- An instruction whose one step writes the mask register, delivered. -/
theorem exec_storeMask {w : Word} (hidle : Idle s) (hseq : sequenceOf i s = [⟨l, .store .irqMask (.word w)⟩])
    (hturns : s.turns = t :: ts) (ht : t.failure = none) :
    exec i s = .next { s with
      operands := loadOperands i s.operands
      turns := ts
      chip := withMask s.params w (chipAt t s.chip)
      trace := s.trace ++ [.wr .irqMask (.word w) true]
      err := .none } := by
  have hwrite := busWrite_returns (s := accepted i s) .irqMask (.word w) hturns ht
  rw [chipAfterWrite_irqMask] at hwrite
  exact exec_silent_frame hidle hseq (by rw [actStep, hwrite]; rfl)

/-- An instruction whose one step reads `IRQ_STATUS`, delivered: the word is recorded, what was pending is cleared (R67). -/
theorem exec_readIrqStatus (hidle : Idle s) (hseq : sequenceOf i s = [⟨l, .readDiscard .irqStatus⟩])
    (hturns : s.turns = t :: ts) (ht : t.failure = none) :
    exec i s = .next { s with
      operands := loadOperands i s.operands
      turns := ts
      chip := { chipAt t s.chip with pending := 0 }
      trace := s.trace ++ [.rd .irqStatus (some (.word (wordRead s.params t (chipAt t s.chip))))]
      err := .none } := by
  have hread := busRead_returns (s := accepted i s) hturns ht (valueRead_irqStatus _ _ _)
  exact exec_silent_frame hidle hseq (by rw [actStep, hread]; rfl)

end

end

/-- A read of `IRQ_STATUS` of which the answer from outside says nothing gets the pending bits (R32). -/
theorem wordRead_pending {t : Turn} (h : t.answers = []) (p : Params) (c : Chip) : wordRead p t c = c.pending := by
  rw [wordRead, bytesRead, h]
  exact bytesWord_wordBytes c.pending

end Sys2Proof.Machine

namespace Sys2Proof.Safety

open Sys2Proof.Machine

/-! ### The obligations -/

/-- Settles O32: the one step writes the empty accumulator. -/
theorem maskNewClearsAccumulator : Obligations.MaskNewClearsAccumulator :=
  fun o s hidle => ⟨decode_encodeOver s.params o .irqMaskNew, exec_setMask hidle rfl⟩

/-- Settles O33: the one step writes the accumulator with the event's bit. -/
theorem maskSetAddsOneBit : Obligations.MaskSetAddsOneBit := fun e o s _ hidle =>
  ⟨decode_encodeOver s.params o (.irqMaskSet e), maskWith s.params s.maskAcc e, exec_setMask hidle rfl,
    maskWith_bit s.params s.maskAcc e, maskWith_of_bit⟩

/-- Settles O34: the one step stores the zero mask, or its transaction fails and the operation ends there. -/
theorem silenceWritesZeroMask : Obligations.SilenceWritesZeroMask := by
  intro o s t ts hidle hturns A
  refine ⟨decode_encodeOver s.params o .irqSilence, frameOf_irqMask s.params 0 true,
    exec_storeMask (i := .irqSilence) (w := 0) hidle rfl hturns, fun f hf => ⟨_, exec_store_failed hidle rfl hturns hf,
      raise_pc _ _, raise_err _ _, raise_trace _ _, raise_maskAcc _ _, fun hreached => ?_⟩⟩
  rw [raise_chip, hreached]
  rfl

/-- Settles O35: the one step stores the accumulator. -/
theorem commitWritesAccumulatorBigEndian : Obligations.CommitWritesAccumulatorBigEndian :=
  fun o s _ _ hidle hturns ht => ⟨decode_encodeOver s.params o .irqMaskCommit, frameOf_irqMask s.params s.maskAcc true,
    exec_storeMask hidle rfl hturns ht⟩

/-- Settles O36: the one step reads `IRQ_STATUS`, and its word goes nowhere. -/
theorem clearConsumesPendingBits : Obligations.ClearConsumesPendingBits :=
  fun o s t _ hidle hturns ht => ⟨decode_encodeOver s.params o .irqClear, exec_readIrqStatus hidle rfl hturns ht,
    fun hanswers => wordRead_pending hanswers s.params (chipAt t s.chip)⟩

/-- Settles O37: the one step answers with the bit. -/
theorem isSetTestsOneBit : Obligations.IsSetTestsOneBit := by
  intro w e o s hidle
  refine ⟨decode_encodeOver s.params o (.irqIsSet w e), ?_⟩
  rw [← eventSet_eq_decide]
  exact exec_finish (.irqIsSet w e) hidle rfl

end Sys2Proof.Safety
end

section
/-! PROOFS. The packet protocol configurator (spec/45_packet.md): its micro-sequences send the writes of R226 and R228 in order,
whatever the codec's grouping (U1), and end there. -/

namespace Sys2Proof.Machine

open Sys2Proof.Safety

section
variable {s : State} {used rest : List Turn}

/-- An instruction whose micro-sequence only sends ends after it, without an error (R27). -/
theorem exec_of_sentOn {i : Instr} {sends : List Sent} (hidle : Idle s)
    (h : SentOn (opOf i) [] rest sends (accepted i s)) :
    ∃ t : State, exec i s = .next t ∧ Idle t ∧ t.err = .none ∧ t.turns = rest ∧ sent s t = sends := by
  obtain ⟨es, c, hes, hsettle⟩ := h
  obtain ⟨hexec, hnew⟩ := exec_of_settle hidle (hsettle.trans (settle_end rfl)) rfl
  exact ⟨_, hexec, rfl, rfl, rfl, (congrArg _ hnew).trans hes⟩

/-- Lengths that fit their fields are constructed as they are (R65, R226). -/
theorem constructFields_basicFields_of_fits {p : Params} {o : BasicOptions}
    (h : ∀ x ∈ packetLengths o, x.2 < 2 ^ p.fieldWidth .pcktctrl x.1) :
    constructFields p .pcktctrl (basicFields o) =
      some (packetFields o o.controlLen (max o.preambleLen 1) o.syncLen) := by
  have hclamped := constructFields_basicFields (p := p) fun x hx hwide => absurd (h x hx) (by omega)
  simp only [packetLengths, List.forall_mem_cons] at h
  obtain ⟨hcontrol, hpreamble, hsync, -⟩ := h
  rwa [min_eq_left (Nat.le_sub_one_of_lt hcontrol), min_eq_left (Nat.le_sub_one_of_lt hpreamble),
    min_eq_left (Nat.le_sub_one_of_lt hsync)] at hclamped

/-- What PKT_CONFIGURE_FILTER sends: the flags, as the codec groups them, then the addresses in one write (R228). -/
def filterSends (p : Params) (f : FilterOptions) : List Sent :=
  regSends p .pcktFltOptions [(.destVsMy, .flag f.destVsMy), (.destVsMulticast, .flag f.destVsMulticast),
    (.destVsBroadcast, .flag f.destVsBroadcast)] ++
  [.fields .fltAddr [(.my, .num f.my.toNat), (.multicast, .num f.multicast.toNat), (.broadcast, .num f.broadcast.toNat)]]

/-- The flags and the addresses are sent, to a chip whose answers decode (R228). -/
theorem sentOn_filterSteps {f : FilterOptions} (hturns : s.turns = used ++ rest)
    (hused : ∀ x ∈ used, Good s.params [.pcktFltOptions] x) (hlen : used.length = regSetTurns s.params .pcktFltOptions + 1) :
    SentOn .pktConfigureFilter [] rest (filterSends s.params f) (accepted (.pktConfigureFilter f) s) := by
  obtain ⟨flags, last, rfl, hflags, hlast⟩ := exists_split hlen
  obtain ⟨x, rfl⟩ := List.length_eq_one_iff.1 hlast
  obtain ⟨hgood, hx⟩ := List.forall_mem_append.1 hused
  have hf1 := sentOn_regSet (s := accepted (.pktConfigureFilter f) s) (next := (filterSteps f).tail) rfl
    (hturns.trans (List.append_assoc ..)) hflags hgood (List.mem_singleton_self _) (List.cons_ne_nil _ _)
  exact hf1.append fun _ _ => sentOn_store rfl rfl (hx x (List.mem_singleton_self x)).1 rfl

end

end Sys2Proof.Machine

namespace Sys2Proof.Safety

open Sys2Proof.Machine

/-! ### The obligations -/

/-- Settles O49: the three lengths are constructed as they are, and K1 to K3 send them. -/
theorem packetBasicWritesInOrder : Obligations.PacketBasicWritesInOrder :=
  fun o l s _ _ hidle hturns hused hlen hfits => ⟨decode_encodeOver s.params l (.pktConfigure (.basic o)),
    exec_pktConfigure_sends hidle (constructFields_basicFields_of_fits hfits) hturns hused hlen⟩

/-- Settles O51: the two steps send the flags and the addresses, and nothing follows them. -/
theorem filterWritesFlagsThenAddresses : Obligations.FilterWritesFlagsThenAddresses :=
  fun f o s _ _ hidle hturns hused hlen => ⟨decode_encodeOver s.params o (.pktConfigureFilter f),
    exec_of_sentOn hidle (sentOn_filterSteps hturns hused hlen)⟩

end Sys2Proof.Safety
end

section
/-! PROOFS. The bus transactions a host issues itself (spec/46_bus_commands.md): each is one step, whose primitive returns or
fails, and its end writes what the primitive reported. What a typed read decodes (R64, R274), what the status registers answer
(R31 to R33) and where the bytes of a raw access go (R60, R71) are said before. -/

namespace Sys2Proof

open Sys2Proof.Machine

/-! ### Bytes that decode (R64, R274) -/

section
variable {p : Params} {k : Kind} {bs : List Byte}

/-- No code is bad where every enumerated field holds a code of its enumeration. -/
theorem badCode_eq_none_iff : badCode p k bs = none ↔ ∀ g ∈ p.kindTags k, codeAt g.bits bs ∈ g.codes := by
  simp [badCode, badCodeAmong]

/-- The kinds whose bytes always decode have no field that the source gives as a member of an enumeration (R38, R43, R274). -/
theorem not_isEnumerated_of_total : ∀ k ∈ [Kind.mcState, .irqMask, .irqStatus, .rxFifoStatus, .sync, .fltAddr],
    ∀ f ∈ k.fields, f.isEnumerated = false := by
  decide

/-- The fields that the source gives as members of an enumeration are enumerated fields of their kind. -/
theorem tag_mem_kindTags {f : Field} (hf : f ∈ k.fields) (henum : f.isEnumerated = true) :
    ⟨(p.fieldInfo k f).bits, (p.fieldInfo k f).codes⟩ ∈ p.kindTags k := by
  cases k
  case mcState | irqMask | irqStatus | rxFifoStatus | sync | fltAddr =>
    cases (not_isEnumerated_of_total _ (by simp) f hf).symm.trans henum
  all_goals exact List.mem_append_left _ (List.mem_map_of_mem (List.mem_filter.2 ⟨hf, by simp [henum]⟩))

/-- Only the code of an enumerated field can stand for no value. -/
theorem codeValue_isSome {f : Field} {code : Nat} (h : f.isEnumerated = true → code ∈ (p.fieldInfo k f).codes) :
    (codeValue p k f code).isSome = true := by
  cases f
  case modulation | lengthMode | format => simp [codeValue, h rfl]
  all_goals rfl

/-- Where no code is bad, every named field has a value. -/
theorem fieldValue_isSome {f : Field} (hf : f ∈ k.fields) (hgood : badCode p k bs = none) :
    (fieldValue p k f bs).isSome = true :=
  codeValue_isSome fun henum => badCode_eq_none_iff.1 hgood _ (tag_mem_kindTags hf henum)

/-- So every named field of the kind is among the named fields read. -/
theorem namedFields_names (hgood : badCode p k bs = none) : (namedFields p k bs).map Prod.fst = k.fields := by
  rw [namedFields, List.map_filterMap]
  refine (List.filterMap_congr fun f hf => ?_).trans List.filterMap_some
  obtain ⟨v, hv⟩ := Option.isSome_iff_exists.1 (fieldValue_isSome hf hgood)
  simp [hv]

/-- A named field read has the value that stands in the bytes. -/
theorem fieldValue_of_mem_namedFields {x : Field × FieldVal} (hx : x ∈ namedFields p k bs) :
    fieldValue p k x.1 bs = some x.2 := by
  obtain ⟨f, -, hf⟩ := List.mem_filterMap.1 hx
  obtain ⟨v, hv, rfl⟩ := Option.map_eq_some_iff.1 hf
  exact hv

end

end Sys2Proof

namespace Sys2Proof.Machine

open Sys2Proof.Safety

/-! ### Typed reads (R235) -/

section
variable {p : Params} {k : Kind} {t : Turn} {c : Chip}

/-- A value read of a kind that is no interrupt word is the record of its bytes and named fields. -/
theorem record_of_valueRead {v : KindVal} (hk : k ∉ [Kind.irqMask, .irqStatus]) (h : valueRead p k t c = .ok v) :
    badCode p k (orderBytes p k (bytesRead p k t c)) = none ∧
      v = .record (orderBytes p k (bytesRead p k t c)) (namedFields p k (orderBytes p k (bytesRead p k t c))) := by
  obtain ⟨hword, -⟩ | ⟨-, ⟨hgood, ok⟩ | ⟨code, -, err⟩⟩ := decodeBytes_cases p k (bytesRead p k t c)
  · exact absurd hword hk
  · exact ⟨hgood, Except.ok.inj (h.symm.trans ok)⟩
  · cases h.symm.trans err

/-- A typed read fails exactly where an enumerated field holds a code outside its enumeration (R274). -/
theorem valueRead_fails_iff : (∃ e, valueRead p k t c = .error e) ↔
    ∃ g ∈ p.kindTags k, codeAt g.bits (orderBytes p k (bytesRead p k t c)) ∉ g.codes := by
  have hbad : (∃ g ∈ p.kindTags k, codeAt g.bits (orderBytes p k (bytesRead p k t c)) ∉ g.codes) ↔
      badCode p k (orderBytes p k (bytesRead p k t c)) ≠ none := by
    simp [badCode_eq_none_iff]
  rw [hbad]
  obtain ⟨hword, ok⟩ | ⟨-, ⟨hgood, ok⟩ | ⟨code, hcode, err⟩⟩ := decodeBytes_cases p k (bytesRead p k t c)
  · have htags : p.kindTags k = [] := by
      simp only [List.mem_cons, List.not_mem_nil, or_false] at hword
      obtain rfl | rfl := hword <;> rfl
    simp [valueRead, ok, badCode, badCodeAmong, htags]
  · simp [valueRead, ok, hgood]
  · simp [valueRead, err, hcode]

/-- Where the answer from outside says nothing, a typed read gets what the chip has (notes 11). -/
theorem bytesRead_unanswered (h : t.answers = []) : bytesRead p k t c = kindBytes p c k := by
  rw [bytesRead, h]; rfl

/-- A number that fits its field is read from a status register as it was put there (R31, R33). -/
theorem codeAt_status (hp : p.Legal) {f : Field} (hf : f ∈ k.fields) {n : Nat} (hn : n < 2 ^ p.fieldWidth k f) :
    codeAt (p.fieldInfo k f).bits (putCode (p.fieldInfo k f).bits n (storedBytes p c k)) = n := by
  obtain ⟨hnodup, hinside⟩ := hp.fieldBits hf
  rw [codeAt_putCode _ _ _ hnodup (by simpa [storedBytes] using hinside)]
  exact Nat.mod_eq_of_lt hn

/-- The operating state read is the one the chip is in (R31). -/
theorem stateRead_unanswered (h : t.answers = []) (hp : p.Legal) (hn : c.stateCode < 2 ^ p.fieldWidth .mcState .state) :
    stateRead p t c = decodeState p c.stateCode := by
  rw [stateRead, bytesRead_unanswered h]
  simp only [kindBytes, statusBytes, orderBytes_orderBytes]
  rw [codeAt_status hp List.mem_cons_self hn]

/-- The count read is the number of bytes in the RX FIFO (R33), for which its field has room. -/
theorem countRead_unanswered (h : t.answers = []) (hp : p.Legal) (hn : c.rxFifo.length ≤ 96) :
    countRead p t c = c.rxFifo.length := by
  have hwidth : 7 ≤ p.fieldWidth .rxFifoStatus .count := by
    simpa [Params.widthFits] using ((hp.layout .rxFifoStatus).2.2 .count List.mem_cons_self).1
  have hroom : c.rxFifo.length < 2 ^ p.fieldWidth .rxFifoStatus .count :=
    (Nat.lt_succ_of_le hn).trans_le ((by decide : 97 ≤ 2 ^ 7).trans (Nat.pow_le_pow_right two_pos hwidth))
  rw [countRead, bytesRead_unanswered h]
  simp only [kindBytes, statusBytes, orderBytes_orderBytes]
  rw [codeAt_status hp List.mem_cons_self hroom]

end

/-! ### Raw accesses (R237, R238) -/

section
variable {p : Params} {a : Byte} {n fresh : Nat} {t : Turn} {c : Chip}

/-- A raw read returns as many bytes as it was asked for (R237). -/
theorem rawReadBytes_length : (rawReadBytes p a n t fresh c).length = n := by simp [rawReadBytes]

/-- An answer from outside that is long enough is what a raw read returns. -/
theorem rawReadBytes_answered (h : n ≤ t.rawAnswer.length) : rawReadBytes p a n t fresh c = t.rawAnswer.take n := by
  refine List.ext_getElem (by simpa [rawReadBytes] using h) fun i hi hi' => ?_
  have hlt : i < t.rawAnswer.length := by rw [rawReadBytes_length] at hi; omega
  simp [rawReadBytes, hlt]

/-- Outside the FIFO the first byte of a raw read is the one the chip has at the address (notes 11, 12). -/
theorem head?_rawReadBytes (ha : a ≠ 0xFF) (h : t.rawAnswer = []) (hn : 0 < n) :
    (rawReadBytes p a n t fresh c).head? = some (chipByte p c a.toNat) := by
  obtain ⟨m, rfl⟩ := Nat.exists_eq_succ_of_ne_zero hn.ne'
  have hfirst : rawByte p a fresh c 0 = chipByte p c a.toNat := by rw [rawByte, if_neg ha, if_pos rfl]
  simp [rawReadBytes, List.range_succ_eq_map, h, hfirst]

/-- A read of the FIFO takes its bytes and clears nothing (R60 (b), R67). -/
theorem chipAfterRawRead_fifo (ha : a = 0xFF) : chipAfterRawRead p a n c = { c with rxFifo := c.rxFifo.drop n } := by
  simp [chipAfterRawRead, ha]

/-- A read elsewhere takes nothing from the FIFO, and clears the pending bits where it starts in `IRQ_STATUS` (R282). -/
theorem chipAfterRawRead_register (ha : a ≠ 0xFF) : chipAfterRawRead p a n c =
    { c with pending := if 0 < n ∧ kindCovers p .irqStatus a.toNat = true then 0 else c.pending } := by
  rw [chipAfterRawRead, if_neg ha]
  simp only [ne_eq, ha, not_false_eq_true, true_and]

/-- A write of the FIFO appends to it (R60 (b)). -/
theorem chipAfterRawWrite_fifo {bytes : List Byte} {landing : List (Option (Fin 255))} (ha : a = 0xFF) :
    (chipAfterRawWrite a bytes landing c).txFifo = fifoAppend c.txFifo bytes := if_pos ha

/-- A write elsewhere puts its bytes at their places (R71). -/
theorem chipAfterRawWrite_register {bytes : List Byte} {landing : List (Option (Fin 255))} (ha : a ≠ 0xFF) :
    (chipAfterRawWrite a bytes landing c).mem = memSetAll c.mem (rawCells a bytes landing) := if_neg ha

/-- The first byte of a raw write stays at its address unless a later one lands there (R71). -/
theorem memGet_chipAfterRawWrite_first {b : Byte} {bs : List Byte} {landing : List (Option (Fin 255))} (ha : a ≠ 0xFF)
    (h : some a.toNat ∉ landing.map (Option.map Fin.val)) :
    memGet (chipAfterRawWrite a (b :: bs) landing c).mem a.toNat = some b := by
  rw [chipAfterRawWrite_register ha, rawCells, memSetAll, memGet_memSetAll_other, memGet_memSet_same]
  intro hmem
  obtain ⟨d, hd, hplace⟩ := List.mem_map.1 hmem
  exact h (hplace ▸ laterCells_places _ _ d hd)

/-- The second of two bytes stands where it lands (notes 12). -/
theorem memGet_chipAfterRawWrite_second {b b' : Byte} {a' : Fin 255} (ha : a ≠ 0xFF) (h : t.landing = [some a']) :
    memGet (chipAfterRawWrite a [b, b'] t.landing c).mem a'.val = some b' := by
  rw [chipAfterRawWrite_register ha, h]
  exact memGet_memSet_same _ _ _

/-- Neither the place of the first byte nor one that the answer names: no byte of a raw write goes there. -/
theorem not_inRaw {a' : Nat} (hfirst : a' ∉ rawPlaces a n) (hlater : some a' ∉ t.landing.map (Option.map Fin.val)) :
    ¬ inRaw a n t a' := by
  rintro (h | ⟨-, -, h⟩)
  · exact hfirst h
  · obtain ⟨o, ho, hplace⟩ := List.mem_filterMap.1 h
    exact hlater (List.mem_map.2 ⟨o, ho, hplace⟩)

end

/-! ### What the primitives of a host's call come to (R63) -/

section
variable {s : State} {t : Turn} {ts : List Turn}

/-- A primitive that the transport does not deliver ends the operation; whether it reached the chip the answer says (U9). -/
theorem transact_undelivered {α : Type} {value : Turn → State → Except Err α} {effect : Turn → State → Chip}
    {event : State → Option α → BusEvent} {f : TransportFailure} (hturns : s.turns = t :: ts) (hf : t.failure = some f) :
    transact s value effect event = .ended (raise (.busFailure f.cause) (returned ts
      (if f.reached then effect t { s with turns := ts, chip := chipAt t s.chip } else chipAt t s.chip)
      (event { s with turns := ts, chip := chipAt t s.chip } none) s)) := by
  simp only [transact, nextTurn, hturns, hf]
  rfl

/-- A primitive whose result raises an error of its own ends the operation with it. -/
theorem transact_raises {α : Type} {value : Turn → State → Except Err α} {effect : Turn → State → Chip}
    {event : State → Option α → BusEvent} {e : Err} (hturns : s.turns = t :: ts) (ht : t.failure = none)
    (he : value t { s with turns := ts, chip := chipAt t s.chip } = .error e) :
    transact s value effect event = .ended (raise e (returned ts
      (effect t { s with turns := ts, chip := chipAt t s.chip })
      (event { s with turns := ts, chip := chipAt t s.chip } none) s)) := by
  unfold chipAt at he
  simp only [transact, nextTurn, hturns, ht, he]
  rfl

/-- `BusRead` whose bytes do not decode (R274). -/
theorem busRead_raises {k : Kind} {e : Err} (hturns : s.turns = t :: ts) (ht : t.failure = none)
    (he : valueRead s.params k t (chipAt t s.chip) = .error e) :
    busRead k s = .ended (raise e (returned ts (chipAfterRead k (chipAt t s.chip)) (.rd k none) s)) :=
  transact_raises hturns ht he

/-- `MemWrite`, delivered (R238). -/
theorem memWrite_returns (a : Byte) (bytes : List Byte) (hturns : s.turns = t :: ts) (ht : t.failure = none) :
    memWrite a bytes s =
      .done () (returned ts (chipAfterRawWrite a bytes t.landing (chipAt t s.chip)) (.wrRaw a bytes true) s) :=
  transact_returns (value := fun _ _ => .ok ()) hturns ht rfl

/-- `MemRead`, delivered (R237): the counter of free values has gone on. -/
theorem memRead_returns (a : Byte) (n : Nat) (hturns : s.turns = t :: ts) (ht : t.failure = none) :
    memRead a n s = .done (rawReadBytes s.params a n t s.fresh (chipAt t s.chip))
      (returned ts (chipAfterRawRead s.params a n (chipAt t s.chip))
        (.rdRaw a n (some (rawReadBytes s.params a n t s.fresh (chipAt t s.chip)))) { s with fresh := s.fresh + 1 }) :=
  transact_returns (s := { s with fresh := s.fresh + 1 }) hturns ht rfl

/-- `BusCommand`, delivered (R257). -/
theorem busCommand_returns (c : Command) (hturns : s.turns = t :: ts) (ht : t.failure = none) :
    busCommand c s = .done (decodeState s.params t.reported)
      (returned ts (chipAt t s.chip) (.cmd c (some (decodeState s.params t.reported))) s) :=
  transact_returns hturns ht rfl

/-- `BusCommand`, not delivered: reached or not, nothing but the turn changes the chip (notes 15). -/
theorem busCommand_undelivered (c : Command) {f : TransportFailure} (hturns : s.turns = t :: ts)
    (hf : t.failure = some f) :
    busCommand c s = .ended (raise (.busFailure f.cause) (returned ts (chipAt t s.chip) (.cmd c none) s)) := by
  refine (transact_undelivered hturns hf).trans ?_
  rw [ite_self]

end

/-! ### How an instruction of one transaction ends -/

section
variable {i : Instr} {s : State} {l : Label} {a : Act} {ts : List Turn} {c : Chip} {e : BusEvent}

/-- An instruction of one step takes that step first. -/
theorem seqStep_accepted (hseq : sequenceOf i s = [⟨l, a⟩]) :
    seqStep (accepted i s) = actStep (opOf i) l [] (accepted i s) a := by
  simp [seqStep, accepted, hseq]

/-- One whose primitive returned what the host is given (R25, R40). -/
theorem exec_answered {r : ResultWrite} {fresh : Nat} (hidle : Idle s) (hseq : sequenceOf i s = [⟨l, a⟩])
    (hstep : actStep (opOf i) l [] (accepted i s) a =
      some (finish r (returned ts c e { accepted i s with fresh := fresh }))) :
    exec i s = .next { s with
      operands := loadOperands i s.operands
      results := writeResults s.results r
      turns := ts
      chip := c
      trace := s.trace ++ [e]
      err := .none
      fresh := fresh } := by
  rw [exec_idle i hidle, settle_some ((seqStep_accepted hseq).trans hstep), settle_idle rfl]
  simp [finish, returned, accepted, hidle]

/-- One whose primitive raised an error, and whose operation has no buffer to lose (R25, R276). -/
theorem exec_raised {er : Err} (hidle : Idle s) (hseq : sequenceOf i s = [⟨l, a⟩]) (hop : opOf i ≠ .rxBlocking)
    (hstep : actStep (opOf i) l [] (accepted i s) a = some (raise er (returned ts c e (accepted i s)))) :
    exec i s = .next { s with
      operands := loadOperands i s.operands
      results := unspecifyResults s.results (opOf i) s.fresh
      turns := ts
      chip := c
      trace := s.trace ++ [e]
      err := er
      fresh := s.fresh + 1 } := by
  rw [exec_idle i hidle, settle_some ((seqStep_accepted hseq).trans hstep), settle_idle (raise_pc _ _),
    raise_busy er _ (opOf i) (sequenceOf i s) rfl, unspecifyRxbuf_other _ _ hop]
  simp [returned, accepted, hidle]

end

/-! ### Values at their construction (R65, R236) -/

section
variable {k : Kind} {v w : KindVal} {s : State}

/-- A value that its construction passes is stored as constructed. -/
theorem sequenceOf_write (h : constructValue s.params k v = some w) :
    sequenceOf (.write k v) s = [⟨.only, .store k w⟩] := by
  simp only [sequenceOf, h]

/-- A rejected value ends the operation before any frame (U12). -/
theorem sequenceOf_write_rejected (h : constructValue s.params k v = none) :
    sequenceOf (.write k v) s = [⟨.only, .raise .invalidParameter⟩] := by
  simp only [sequenceOf, h]

/-- A value that is none of the kind is rejected whatever the codec (notes 16). -/
theorem constructValue_of_not_wf {p : Params} (h : (Instr.write k v).wf = false) : constructValue p k v = none := by
  have haccepts : k.accepts v = false := h
  simp [constructValue, haccepts]

end

/-! ### The commands (R93, R257) -/

section
variable (c : Command)

/-- A command is an operation of its own (R27). -/
theorem opOf_commandInstr : opOf (commandInstr c) = .command c := by cases c <;> rfl

/-- Its one step hands the reported state to the host (R257). -/
theorem sequenceOf_commandInstr (s : State) : sequenceOf (commandInstr c) s = [⟨.only, .commandValue c⟩] := by
  cases c <;> rfl

/-- A command has no operands (R93). -/
theorem loadOperands_commandInstr (o : Operands) : loadOperands (commandInstr c) o = o := by cases c <;> rfl

end

end Sys2Proof.Machine

namespace Sys2Proof

open Sys2Proof.Machine

/-- A code that R93 does not list is refused as such (R98). -/
theorem decodeCommand_unlisted {code : Byte} (h : code ∉ commands.map commandCode) :
    decodeCommand code = .error (.unlistedCommandCode code) := by
  have hnone : commands.find? (fun c => commandCode c == code) = none := by
    simpa [List.find?_eq_none] using h
  simp only [decodeCommand, hnone]

end Sys2Proof

namespace Sys2Proof.Safety

open Sys2Proof.Machine

/-! ### The obligations -/

/-- Settles O53: the one step is a typed read, whose bytes decode to the named fields that stand in them, or do not decode. -/
theorem readReturnsDecodedValue : Obligations.ReadReturnsDecodedValue := by
  intro k o s t ts hidle hturns ht p c bytes
  refine ⟨decode_encodeOver p o (.read k), fun hans => ⟨?_, fun hp hn => ?_, fun hp hn => ?_⟩,
    fun v hv => ⟨?_, encodeValue_decodeBytes (bytesRead_length ..) hv, fun hk => ?_⟩,
    fun e he => ⟨(decodeFails_of_valueRead he).1, ?_⟩, valueRead_fails_iff⟩
  · rw [valueRead_irqStatus, wordRead_pending hans]
  · rw [valueRead_mcState, stateRead_unanswered hans hp hn, bytesRead_unanswered hans]
  · rw [valueRead_rxFifoStatus, statusRead, countRead_unanswered hans hp hn, bytesRead_unanswered hans]
  · exact exec_answered (i := .read k) hidle rfl
      (by rw [actStep, busRead_returns (s := accepted (.read k) s) hturns ht hv]; rfl)
  · obtain ⟨hgood, rfl⟩ := record_of_valueRead hk hv
    exact ⟨_, rfl, namedFields_names hgood, fun _ => fieldValue_of_mem_namedFields⟩
  · exact exec_raised (i := .read k) hidle rfl nofun
      (by rw [actStep, busRead_raises (s := accepted (.read k) s) hturns ht he]; rfl)

/-- Settles O54: a value that its construction passes is stored by the one step, and a value it rejects raises instead. -/
theorem writeStoresEncodedValue : Obligations.WriteStoresEncodedValue := by
  intro k v o s t ts hidle hturns
  refine ⟨decode_encodeOver s.params o (.write k v), fun w hw ht => ?_, constructValue_of_not_wf, fun hrej => ?_⟩
  · refine ⟨(chipAfterWrite s.params k w (chipAt t s.chip)).mem, fun j hj => memGet_chipAfterWrite _ _ _ _ hj,
      fun a ha => memGet_chipAfterWrite_other ha, ?_⟩
    exact exec_silent_frame hidle (sequenceOf_write hw)
      (by rw [actStep, busWrite_returns (s := accepted (.write k v) s) k w hturns ht]; rfl)
  · exact exec_raise (.write k v) hidle (sequenceOf_write_rejected hrej)

/-- Settles O55: the one step is a raw write, whose bytes go to the TX FIFO, or to the given address and where they land. -/
theorem writeRawStoresOrAppends : Obligations.WriteRawStoresOrAppends := by
  intro a bytes o s t ts hidle hturns ht c m fifo
  have happended (ha : a = 0xFF) : fifo = fifoAppend c.txFifo bytes := chipAfterRawWrite_fifo (landing := t.landing) ha
  refine ⟨decode_encodeOver s.params o (.writeRaw a bytes), ?_,
    fun ha hroom => (happended ha).trans (fifoAppend_fits hroom), fun ha => happended ha ▸ fifoAppend_length _ _,
    fun ha => ⟨?_, ?_, fun a' hfirst hlater => memGet_chipAfterRawWrite_other (not_inRaw hfirst hlater)⟩⟩
  · exact exec_silent_frame (i := .writeRaw a bytes) hidle rfl
      (by rw [actStep, memWrite_returns (s := accepted (.writeRaw a bytes) s) a bytes hturns ht]; rfl)
  · rintro b bs rfl hlanding
    exact memGet_chipAfterRawWrite_first ha hlanding
  · rintro b b' a' rfl hlanding
    exact memGet_chipAfterRawWrite_second ha hlanding

/-- Settles O56: the one step is a raw read, and what it returns is not decoded. -/
theorem readRawReturnsBytes : Obligations.ReadRawReturnsBytes := by
  intro a n o s t ts hidle hturns ht c
  have hexec := exec_answered (i := .readRaw a n) hidle rfl
    (by rw [actStep, memRead_returns (s := accepted (.readRaw a n) s) a n hturns ht]; rfl)
  refine ⟨decode_encodeOver s.params o (.readRaw a n), _, _, rawReadBytes_length, hexec, hidle, rfl, rfl, rfl, rfl, rfl, rfl,
    rfl, rawReadBytes_answered, fun ha => ?_, fun ha => ?_⟩
  · rw [chipAfterRawRead_fifo ha]
    subst ha
    exact ⟨rfl, rfl, rawReadBytes_fifo⟩
  · rw [chipAfterRawRead_register ha]
    exact ⟨rfl, rfl, head?_rawReadBytes ha⟩

/-- Settles O59: the 17 rows are the commands with their codes and instructions; the one step of each is its command. -/
theorem commandsReturnReportedState : Obligations.CommandsReturnReportedState := by
  refine ⟨fun c code i o s t ts hrow hidle hturns => ?_, fun p code o => decodeCommand_unlisted⟩
  have hlisted : (c, code, i) ∈ commands.map fun d => (d, commandCode d, commandInstr d) := hrow
  obtain ⟨d, -, hd⟩ := List.mem_map.1 hlisted
  cases hd
  have hseq := sequenceOf_commandInstr c s
  refine ⟨decodeCommand_eq_ok_iff.2 ⟨c, rfl, rfl⟩, rfl, fun ht => ?_, fun f hf => ?_⟩
  · rw [exec_answered (r := .devState (decodeState s.params t.reported)) hidle hseq
      (by rw [actStep, busCommand_returns (s := accepted _ s) c hturns ht]; rfl), loadOperands_commandInstr]
    rfl
  · rw [exec_raised hidle hseq (by simp [opOf_commandInstr])
      (by rw [actStep, busCommand_undelivered (s := accepted _ s) c hturns hf]; rfl), loadOperands_commandInstr,
      opOf_commandInstr]
    rfl

/-- Settles O58: the one step records the delay and asks for no answer. -/
theorem delayIsRecorded : Obligations.DelayIsRecorded :=
  fun ms o s hidle => ⟨decode_encodeOver s.params o (.delay ms), exec_silent_frame hidle rfl rfl⟩

end Sys2Proof.Safety
end

section
/-! PROOFS. The reset (R300): the state a run starts from holds the values R48 gives, whatever the straps. -/

namespace Sys2Proof.Safety

open Sys2Proof.Machine

/-- Settles O1: the installed parameters are made legal, and `State.resetWith` sets each of the nine fields as stated. -/
theorem resetSamplesStrapsAndIsIdle : Obligations.ResetSamplesStrapsAndIsIdle :=
  ⟨⟨Config.installed.legalise, legalise_legal _, rfl⟩, fun _ => ⟨rfl, rfl, rfl, rfl, rfl, rfl, rfl, rfl, rfl⟩⟩

end Sys2Proof.Safety
end
